-- ==== Sys2Proof/Word.lean ====
section
/-!
DEFINITION. Words, byte strings, finite maps and the operand types that commands carry.
Numbers that the spec treats as bits are bit vectors; object numbers are bounded by R1 (Table 0.4).
-/

namespace Sys2Proof

abbrev Byte := BitVec 8
abbrev Word := BitVec 64
abbrev Bytes := List (BitVec 8)
/-- A SHA-384 value or a key hash (R27, R57). -/
abbrev Digest := BitVec 384

/-- A finite map: a list of keys and values whose keys strictly rise. A key it does not list reads as the default, which is
named where the map is read. -/
abbrev Map (α : Type) := List (Nat × α)

/-- Who makes a register access: the host driver over PCIe with its requester ID (R43), a ring of a core through
LSU (R124), or the management controller over its hub path (R391). -/
inductive Requester where
  | host (id : BitVec 16)
  | ring (core : Fin 64) (n : BitVec 2)
  | controller
  deriving DecidableEq, Repr

/-- Where a register address counts from: the start of BAR0 (R14), or device physical MMIO (R3). -/
inductive RegSpace where
  | bar0
  | mmio
  deriving DecidableEq, Repr

/-- A BAR2 access of the host (R12). -/
inductive Bar2Op where
  | read (n : Nat)
  | write (data : Bytes)
  deriving DecidableEq, Repr

/-- A PCIe configuration request (R403); a Resizable BAR write sets the size of BAR2 (R11, R12). -/
inductive CfgReq where
  | read (off : Nat)
  | write (off : Nat) (v : BitVec 32)
  | resizeBar2 (log2 : Nat)
  deriving DecidableEq, Repr

/-- Requesters that reach memory over a quarter fabric, as Tables 11.5 and 11.9 and the tag limits of R274 tell them apart: a core's
engines, a DMA channel, a rescue channel, a press (for the batch of a lane, or for blending and cutting moves), a collective unit (for
the operation of a group), BAR2, and the hub. -/
inductive MemAgent where
  | core (c : Fin 64)
  | dma (ch : Fin 256)
  | rescue (q : Fin 4)
  | press (q : Fin 4) (lane : Option (Fin 8))
  | coll (q : Fin 4) (g : Fin 4096)
  | bar2
  | hub
  deriving DecidableEq, Repr

/-- One HBM request for up to one 256 B line (R274): its requester, address, length and key slot (R281). A write carries its bytes. -/
structure HbmReq where
  agent : MemAgent
  addr  : BitVec 48
  len   : Nat
  slot  : BitVec 10
  data  : Bytes
  deriving DecidableEq, Repr

/-- A command that a pseudo-channel issues; `parity` tells whether the stack reports a command/address parity error for it
(Table 11.1). -/
structure HbmCmd where
  pc     : Fin 768
  parity : Bool
  deriving DecidableEq, Repr

/-- A bank of a pseudo-channel, by stack ID and bank (Table 11.2). -/
structure HbmBank where
  sid  : Fin 4
  bank : Fin 16
  deriving DecidableEq, Repr

/-- Requesters of a core's SRAM ports (R211): the core's array, vector engine and scalar caches, a requester on the fabric, and the
zeroing of bring-up (R400). -/
inductive SramAgent where
  | array
  | vector
  | cache
  | fabric (a : MemAgent)
  | bring
  deriving DecidableEq, Repr

/-- Attachments of the quarter fabrics (R225, Table 9.6). -/
inductive Attach where
  | core (c : Fin 64)
  | hbm (s : Fin 12)
  | press (q : Fin 4)
  | dma (q : Fin 4)
  | coll (q : Fin 4)
  | ports (q : Fin 4)
  | hub
  deriving DecidableEq, Repr

/-- The packet a fabric step sends: a new one at its source, with the bytes of the response that a request asks for, or one that waits
at a router (R226, R228, R230). -/
inductive FabricSel where
  | new (cls : Fin 5) (src dst : Attach) (bytes resp : Nat)
  | held (id : Nat)
  deriving DecidableEq, Repr

/-- A Maruno session's carrier: a native port, or an Ethernet route by its destination device (R313, R321). -/
inductive LinkId where
  | port (p : Fin 32)
  | route (dev : Fin 8192)
  deriving DecidableEq, Repr

/-- Where a received packet comes from: the in-order byte stream of a native port (R309), or one Ethernet frame (R316)
with its Congestion Experienced mark. -/
inductive LinkRx where
  | native (p : Fin 32)
  | frame (p : Fin 32) (ce : Bool) (packet : Bytes)
  deriving DecidableEq, Repr

/-- The MCTP binding a management message arrives on (R355). -/
inductive Binding where
  | i3c
  | vdm
  deriving DecidableEq, Repr

/-- A trellis key slot that a message changes, with the binding it arrives on (R360). -/
structure KeyLoad where
  binding : Binding
  slot    : Fin 4
  deriving DecidableEq, Repr

/-- One turn of the collector: the next alarm on its way and `more` after it, and a write of FAULT_ACK in the same cycle (R376, R380). -/
structure AlarmTurn where
  more : Nat
  ack  : Option (Requester × Word)
  deriving DecidableEq, Repr

/-- The other side of an SPDM session (R313, R354). -/
inductive SpdmPeer where
  | mgmt (b : Binding)
  | link (l : LinkId)
  deriving DecidableEq, Repr

/-- What a KEY_EXCHANGE authenticates of the peer (R313, R320, R360): its device ID and port, the SHA-384 of its DICE public
key, the key hash its certificate chain ends in, its mode, whether its port form names this device and port, and whether
the exchange verified. -/
structure PeerId where
  dev      : BitVec 13
  port     : BitVec 5
  keyHash  : Digest
  rootHash : Digest
  native   : Bool
  namesUs  : Bool
  ok       : Bool
  deriving DecidableEq, Repr

/-- Rails of Table 17.1. -/
inductive Rail where
  | hubVdd
  | vio18
  | hbmVpp
  | hbmVddc
  | hbmVddq
  | sramVdd
  | linkVdd
  | linkVdda
  | qvdd (q : Fin 4)
  deriving DecidableEq, Repr

/-- How an HBM stack's training ends (R401). -/
inductive Training where
  | full
  | fallback
  | failed
  deriving DecidableEq, Repr

/-- PRG Response codes as CHAN_STATUS.HOST_RESP numbers them (Table 12.7). -/
inductive PrgCode where
  | success
  | invalidRequest
  | responseFailure
  deriving DecidableEq, Repr

end Sys2Proof
end

