-- ==== Sys2Proof/Syntax.lean ====
section
/-!
DEFINITION. The commands: one constructor for each row of spec/opcode_table.json, in the table's order.
A command that starts work already queued in the block (a fetched queue command, an op word, a pass, a transfer) names only the
place where it is queued; what arrives from outside (a register value, a flit, a temperature) is an operand.
-/

namespace Sys2Proof

/-- The commands of the block (spec/opcode_table.json). -/
inductive Instr where
  /-- REGISTER_WRITE (R8): A write to a register that has no row of its own sets the value or clears W1C bits as its access code gives. -/
  | registerWrite (r : Requester) (sp : RegSpace) (addr : Nat) (w32 : Bool) (v : Word)
  /-- READ_CLEAR (R8): A read of an RC counter returns its value and then clears it. -/
  | readClear (r : Requester) (sp : RegSpace) (addr : Nat) (w32 : Bool)
  /-- LOW_HALF_READ (R43): A 32-bit read of a register's low half latches its high half for that requester; at a high half's address
  (4 above a multiple of 8), the 32-bit read that takes the latch. -/
  | lowHalfRead (r : Requester) (sp : RegSpace) (addr : Nat)
  /-- PCIE_CONFIG_REQUEST (R403): A PCIe configuration request is completed without Request Retry Status. -/
  | pcieConfigRequest (req : CfgReq)
  /-- BAR2_ACCESS (R12): A host read or write through BAR2 reaches HBM under BAR2_CTRL.KEYSLOT, or completes as Unsupported Request. -/
  | bar2Access (off : Nat) (op : Bar2Op)
  /-- TRELLIS_STAGE (R33): Writing 1 to TRELLIS_CMD starts verification of an image or is refused with REJECT 0x09. -/
  | trellisStage (r : Requester)
  /-- TRELLIS_CANCEL (R33): Writing 2 to TRELLIS_CMD drops a staged image when STATE is 2. -/
  | trellisCancel (r : Requester)
  /-- TRELLIS_VERIFY_DONE (R428): Verification ends with the image staged or rejected with the first failing REJECT code. -/
  | trellisVerifyDone
  /-- PART_RACK (R38): Writing 1 to PART_RACK forces a racking of an open partition. -/
  | partRack (r : Requester) (p : Fin 64)
  /-- QUEUE_ENABLE (R16): Setting QUEUE_CTRL.ENABLE starts both rings afresh from entry 0. -/
  | queueEnable (n : Fin 8192) (v : Word)
  /-- QUEUE_DISABLE (R16): Clearing QUEUE_CTRL.ENABLE discards unfetched commands and sets head and tail to 0. -/
  | queueDisable (n : Fin 8192) (v : Word)
  /-- QTAIL_DB (R18): A doorbell write sets a queue's tail or is ignored and counted in DB_ERRORS. -/
  | qtailDb (k : Fin 1024) (j : Fin 8) (v : Word)
  /-- CQHEAD_DB (R18): A doorbell write sets a completion ring's head or is ignored and counted. -/
  | cqheadDb (k : Fin 1024) (j : Fin 8) (v : Word)
  /-- COMMAND_FETCH (R19): The device fetches a command once a completion slot is reserved for it. -/
  | commandFetch (n : Fin 8192)
  /-- LAUNCH_COUNT_REACHED (R23): The cellar count reaches a LAUNCH_AT command's LAUNCH_COUNT and the command may start. -/
  | launchCountReached (n : Fin 8192)
  /-- NOP (R20): A NOP command does no work and completes. -/
  | nop (n : Fin 8192)
  /-- DISPATCH (R106): A DISPATCH command starts a kernel on each core of its mask. -/
  | dispatch (n : Fin 8192)
  /-- DMA (R294): A DMA command checks its descriptors and queues its transfers on a channel. -/
  | dma (n : Fin 8192)
  /-- PRESS (R236): A PRESS command sends a run of batch descriptors to a quarter's press. -/
  | press (n : Fin 8192)
  /-- COLLECTIVE (R332): A COLLECTIVE command launches one collective descriptor on a command-style group. -/
  | collective (n : Fin 8192)
  /-- VINTAGE_END (R36): A VINTAGE_END command is reached and waits for the vintage to end. -/
  | vintageEnd (n : Fin 8192)
  /-- PROVENANCE (R56): A PROVENANCE command writes the vintage's provenance record once all other queues have reached VINTAGE_END. -/
  | provenance (n : Fin 8192)
  /-- WRITE_VALUE (R429): A WRITE_VALUE command writes a 64-bit value to a virtual address. -/
  | writeValue (n : Fin 8192)
  /-- COMPLETION_WRITE (R22): A completion record is written in queue order and its SIGNAL is applied. -/
  | completionWrite (n : Fin 8192)
  /-- VINTAGE_NORMAL_END (R36): Every enabled queue has reached VINTAGE_END and the vintage ends normally. -/
  | vintageNormalEnd (p : Fin 64)
  /-- BUDGET_EXPIRY (R37): A vintage not ended by tick O + B is forced into a racking with OUTPUT_INVALID marking. -/
  | budgetExpiry (p : Fin 64)
  /-- RACKING_COMPLETE (R40): Step 8 opens the next vintage, restarts the budget and interrupts on DEV_IRQ_VEC. -/
  | rackingComplete (p : Fin 64)
  /-- BUNDLE_ISSUE (R92): The sequencer issues one bundle, with all its true-guarded moves taking effect together. -/
  | bundleIssue (c : Fin 64)
  /-- INTERRUPT_ENTRY (R119): A pending enabled interrupt is taken at a bundle boundary and enters its handler. -/
  | interruptEntry (c : Fin 64)
  /-- MUL_COMPLETE (R99): A MUL result is written to its result port 3 cc after its trigger. -/
  | mulComplete (c : Fin 64) (m : Fin 4)
  /-- DIV_COMPLETE (R100): A divide completes after 34 cc and writes RES. -/
  | divComplete (c : Fin 64)
  /-- LSU_LOAD_COMPLETE (R103): A load's data arrives, after a cache hit or fill, and its result port is written. -/
  | lsuLoadComplete (c : Fin 64) (m : Fin 4)
  /-- LSU_MAINTENANCE_COMPLETE (R104): A CLEAN, INVAL or CLEANALL completes and releases the stalled bundle. -/
  | lsuMaintenanceComplete (c : Fin 64)
  /-- MEMORY_ATOMIC_ADD (R101): An integer add request is performed at the memory modulo 2^w. -/
  | memoryAtomicAdd (c : Fin 64)
  /-- KERNEL_START (R106): A DISPATCH kernel starts on a core once that core is idle, after zeroing its state. -/
  | kernelStart (c : Fin 64)
  /-- CORE_IDLE (R106): A halted core becomes idle once all its pushed items have completed. -/
  | coreIdle (c : Fin 64)
  /-- IRQ_RAISE (R139): A write to a core's IRQ_RAISE sets its IRQ_PENDING bits 40-47. -/
  | irqRaise (r : Requester) (c : Fin 64) (v : Word)
  /-- CACHE_PWR (R222): A write to CACHE_PWR sets way targets, clamping ways 0 and 1 on. -/
  | cachePwr (r : Requester) (c : Fin 64) (v : Word)
  /-- CACHE_WAY_POWERED_OFF (R223): A cache way finishes cleaning and powers off, and the next transition may start. -/
  | cacheWayPoweredOff (c : Fin 64)
  /-- CACHE_WAY_POWERED_ON (R224): A cache way finishes powering up and joins victim choice. -/
  | cacheWayPoweredOn (c : Fin 64)
  /-- IDLE_CORE_WAY_POWERDOWN (R365): A core idle for 1 ms has its cache ways powered down by the controller. -/
  | idleCoreWayPowerdown (c : Fin 64)
  /-- FADD (R150): Vector floating-point add. -/
  | fadd (c : Fin 64)
  /-- FSUB (R150): Vector floating-point subtract. -/
  | fsub (c : Fin 64)
  /-- FMUL (R150): Vector floating-point multiply. -/
  | fmul (c : Fin 64)
  /-- FMA (R150): Vector fused multiply-add. -/
  | fma (c : Fin 64)
  /-- FNMA (R150): Vector fused negated multiply-add. -/
  | fnma (c : Fin 64)
  /-- FMIN (R150): Vector floating-point minimum. -/
  | fmin (c : Fin 64)
  /-- FMAX (R150): Vector floating-point maximum. -/
  | fmax (c : Fin 64)
  /-- FNEG (R149): Vector floating-point negate. -/
  | fneg (c : Fin 64)
  /-- FABS (R149): Vector floating-point absolute value. -/
  | fabs (c : Fin 64)
  /-- FCMP (R150): Vector floating-point compare into a mask. -/
  | fcmp (c : Fin 64)
  /-- CVT (R83): Vector format conversion. -/
  | cvt (c : Fin 64)
  /-- FDIV (R150): Vector correctly rounded division. -/
  | fdiv (c : Fin 64)
  /-- FSQRT (R150): Vector correctly rounded square root. -/
  | fsqrt (c : Fin 64)
  /-- RCP (R166): Vector reciprocal by the reference algorithm. -/
  | rcp (c : Fin 64)
  /-- RSQRT (R166): Vector reciprocal square root by the reference algorithm. -/
  | rsqrt (c : Fin 64)
  /-- EXP2 (R166): Vector base-2 exponential by the reference algorithm. -/
  | exp2 (c : Fin 64)
  /-- LOG2 (R166): Vector base-2 logarithm by the reference algorithm. -/
  | log2 (c : Fin 64)
  /-- WMUL (R151): Vector widening multiply. -/
  | wmul (c : Fin 64)
  /-- WFMA (R151): Vector widening fused multiply-add. -/
  | wfma (c : Fin 64)
  /-- XDOT (R151): Vector grouped dot product into XA128. -/
  | xdot (c : Fin 64)
  /-- MXSCALE (R164): Vector computation of MX block scales. -/
  | mxscale (c : Fin 64)
  /-- MXQUANT (R164): Vector quantisation of elements under MX block scales. -/
  | mxquant (c : Fin 64)
  /-- IADD (R149): Vector integer add. -/
  | iadd (c : Fin 64)
  /-- ISUB (R149): Vector integer subtract. -/
  | isub (c : Fin 64)
  /-- IMUL (R149): Vector integer multiply keeping the low bits. -/
  | imul (c : Fin 64)
  /-- IMIN (R149): Vector signed integer minimum. -/
  | imin (c : Fin 64)
  /-- IMAX (R149): Vector signed integer maximum. -/
  | imax (c : Fin 64)
  /-- IMINU (R149): Vector unsigned integer minimum. -/
  | iminu (c : Fin 64)
  /-- IMAXU (R149): Vector unsigned integer maximum. -/
  | imaxu (c : Fin 64)
  /-- AND (R149): Vector bitwise AND on containers. -/
  | and (c : Fin 64)
  /-- OR (R149): Vector bitwise OR on containers. -/
  | or (c : Fin 64)
  /-- XOR (R149): Vector bitwise XOR on containers. -/
  | xor (c : Fin 64)
  /-- SHL (R149): Vector left shift. -/
  | shl (c : Fin 64)
  /-- SHR (R149): Vector logical right shift. -/
  | shr (c : Fin 64)
  /-- SRA (R149): Vector arithmetic right shift. -/
  | sra (c : Fin 64)
  /-- ICMP (R150): Vector integer compare into a mask. -/
  | icmp (c : Fin 64)
  /-- POPC (R149): Vector count of set bits. -/
  | popc (c : Fin 64)
  /-- IDOT4 (R151): Vector integer four-element dot product. -/
  | idot4 (c : Fin 64)
  /-- XADD (R149): Vector XA128 add. -/
  | xadd (c : Fin 64)
  /-- VSET (R149): Vector broadcast of SA to every element. -/
  | vset (c : Fin 64)
  /-- IOTA (R149): Vector write of element indices. -/
  | iota (c : Fin 64)
  /-- VMOV (R149): Vector register copy. -/
  | vmov (c : Fin 64)
  /-- IWMUL (R149): Vector widening integer multiply. -/
  | iwmul (c : Fin 64)
  /-- COMPRESS (R154): Vector compression of mask-selected elements. -/
  | compress (c : Fin 64)
  /-- EXPAND (R154): Vector expansion to mask-selected positions. -/
  | expand (c : Fin 64)
  /-- VPERM (R149): Vector permutation by an index register. -/
  | vperm (c : Fin 64)
  /-- SLIDEUP (R149): Vector slide of elements up by SA. -/
  | slideup (c : Fin 64)
  /-- SLIDEDN (R149): Vector slide of elements down by SA. -/
  | slidedn (c : Fin 64)
  /-- TRANSPOSE (R149): Vector transpose of an R × C tile. -/
  | transpose (c : Fin 64)
  /-- EXTRACT (R149): Vector extraction of one element to VRES. -/
  | extract (c : Fin 64)
  /-- INSERT (R149): Vector insertion of SA into one element. -/
  | insert (c : Fin 64)
  /-- FREDSUM (R152): Vector floating-point sum reduction over the fixed tree. -/
  | fredsum (c : Fin 64)
  /-- FREDMIN (R152): Vector floating-point minimum reduction. -/
  | fredmin (c : Fin 64)
  /-- FREDMAX (R152): Vector floating-point maximum reduction. -/
  | fredmax (c : Fin 64)
  /-- IREDSUM (R152): Vector integer sum reduction. -/
  | iredsum (c : Fin 64)
  /-- XREDSUM (R152): Vector XA128 sum reduction. -/
  | xredsum (c : Fin 64)
  /-- MAND (R149): Mask AND. -/
  | mand (c : Fin 64)
  /-- MOR (R149): Mask OR. -/
  | mor (c : Fin 64)
  /-- MXOR (R149): Mask XOR. -/
  | mxor (c : Fin 64)
  /-- MANDN (R149): Mask AND NOT. -/
  | mandn (c : Fin 64)
  /-- MNOT (R149): Mask NOT. -/
  | mnot (c : Fin 64)
  /-- MSET (R149): Mask set to all ones. -/
  | mset (c : Fin 64)
  /-- MPOPC (R149): Count of set mask bits to VRES. -/
  | mpopc (c : Fin 64)
  /-- MFIRST (R149): Index of the lowest set mask bit to VRES. -/
  | mfirst (c : Fin 64)
  /-- VLD (R156): Vector strided load. -/
  | vld (c : Fin 64)
  /-- VST (R156): Vector strided store. -/
  | vst (c : Fin 64)
  /-- VGATHER (R156): Vector indexed gather. -/
  | vgather (c : Fin 64)
  /-- VSCATTER (R157): Vector indexed scatter in ascending element order. -/
  | vscatter (c : Fin 64)
  /-- VSCATADD (R158): Vector read-modify-write scatter-add. -/
  | vscatadd (c : Fin 64)
  /-- VLDSEG (R161): Vector load of multi-field records. -/
  | vldseg (c : Fin 64)
  /-- VSTSEG (R161): Vector store of multi-field records. -/
  | vstseg (c : Fin 64)
  /-- TLD (R162): Vector load of tensor elements at a slot's cursor. -/
  | tld (c : Fin 64)
  /-- TST (R162): Vector store of tensor elements at a slot's cursor. -/
  | tst (c : Fin 64)
  /-- VATADD (R159): Vector memory-side XA128 adds into guarded cells. -/
  | vatadd (c : Fin 64)
  /-- GLD (R160): Vector load of guarded cells, narrowed to XA128. -/
  | gld (c : Fin 64)
  /-- TBIND (R162): Binding of a tensor slot to a tensor descriptor. -/
  | tbind (c : Fin 64)
  /-- TLOOP (R163): Repetition of a body of op words over a tensor in chunks. -/
  | tloop (c : Fin 64)
  /-- RDFLAGS (R153): Read of the vector FLAGS into VRES, optionally clearing them. -/
  | rdflags (c : Fin 64)
  /-- VECTOR_OP_DONE (R107): A vector op word completes and DONE advances over the completed prefix. -/
  | vectorOpDone (c : Fin 64)
  /-- GUARDED_CELL_ADD (R159): A memory-side XA128 add is performed on a guarded cell at its store island or controller. -/
  | guardedCellAdd (c : Fin 64)
  /-- PASS_ACCEPT (R177): A pass descriptor arrives and is checked for form and intervals. -/
  | passAccept (c : Fin 64)
  /-- MAC (R171): A pass computing multiply-accumulate starts its first row. -/
  | mac (c : Fin 64)
  /-- MIN_PLUS (R185): A pass computing the min-plus distance starts. -/
  | minPlus (c : Fin 64)
  /-- MAX_PLUS (R185): A pass computing the max-plus distance starts. -/
  | maxPlus (c : Fin 64)
  /-- L1 (R185): A pass computing the L1 distance starts. -/
  | l1 (c : Fin 64)
  /-- L2SQ (R185): A pass computing the squared L2 distance starts. -/
  | l2sq (c : Fin 64)
  /-- HAMMING (R185): A pass computing the Hamming distance starts. -/
  | hamming (c : Fin 64)
  /-- TILE_COMMIT (R179): A SWAP tile finishes loading into a free set and is committed. -/
  | tileCommit (c : Fin 64)
  /-- PASS_COMPLETE (R189): A pass's last result and status word are written and the pass completes. -/
  | passComplete (c : Fin 64)
  /-- LOOKUP_BATCH (R244): A press lane starts a lookup batch of bags. -/
  | lookupBatch (q : Fin 4) (lane : Fin 8)
  /-- UPDATE_BATCH (R253): A press lane starts an update batch into the topping journal. -/
  | updateBatch (q : Fin 4) (lane : Fin 8)
  /-- ROW_FETCH_ISSUE (R259): The press grants its fetch slot and issues one row fetch. -/
  | rowFetchIssue (q : Fin 4)
  /-- ROW_ARRIVAL (R247): A fetched row copy arrives, is overlaid and enters pooling. -/
  | rowArrival (q : Fin 4) (k : Nat)
  /-- BATCH_COMPLETE (R246): A batch's outputs and SUMMARY are written and the batch completes. -/
  | batchComplete (q : Fin 4) (lane : Fin 8)
  /-- AGEING_BOUNDARY (R248): After 2^AGE_LOG fetches counters are halved and the cache and cutting loops step. -/
  | ageingBoundary (q : Fin 4)
  /-- SERVE_WINDOW (R259): A 1 µs window ends and the serving lane's share count restarts. -/
  | serveWindow (q : Fin 4)
  /-- JOURNAL_LOOKUP (R252): A press request asks the home press for a row's closed-epoch journal entries. -/
  | journalLookup (q : Fin 4) (sender : Fin 4)
  /-- JOURNAL_ADD (R255): A press request adds a converted delta row into the open epoch's journal entry. -/
  | journalAdd (q : Fin 4) (sender : Fin 4)
  /-- CUTTING_WRITE (R251): A press request writes a row into a cutting slot. -/
  | cuttingWrite (q : Fin 4) (sender : Fin 4)
  /-- DIRECTORY_CHANGE (R251): A press request sets a cutting directory entry's state. -/
  | directoryChange (q : Fin 4) (sender : Fin 4)
  /-- ROW_CACHE_INVALIDATE (R258): A press request invalidates a row in the receiving row cache. -/
  | rowCacheInvalidate (q : Fin 4) (sender : Fin 4)
  /-- CANDIDATE (R250): A press request offers a hot row to its home press for promotion. -/
  | candidate (q : Fin 4) (sender : Fin 4)
  /-- CUTTING_COUNT (R250): A press request returns a directory entry's count for demotion. -/
  | cuttingCount (q : Fin 4) (sender : Fin 4)
  /-- PRESS_ANSWER (R252): An answer to a press request arrives and advances the step awaiting it. -/
  | pressAnswer (q : Fin 4) (sender : Fin 4)
  /-- CUTTING_SLOT_FREE (R251): A retiring cutting's reading fetches have completed and its slot is freed. -/
  | cuttingSlotFree (q : Fin 4) (slot : Nat)
  /-- BLEND_ENTRY (R258): The home press blends one journal entry into the home row and live cuttings. -/
  | blendEntry (t : Fin 4096)
  /-- JOURNAL_BANK_FREE (R258): A fully blended epoch's bank is freed once earlier fetches have completed. -/
  | journalBankFree (t : Fin 4096)
  /-- HBM_READ_REQUEST (R270): A read request reaches an HBM controller and takes a transaction tag. -/
  | hbmReadRequest (req : HbmReq)
  /-- HBM_WRITE_REQUEST (R279): A write request reaches an HBM controller and enters the write queue. -/
  | hbmWriteRequest (req : HbmReq)
  /-- HBM_ACCESS (R270): A pseudo-channel chooses and issues one granule access by class arbitration. -/
  | hbmAccess (pc : HbmCmd)
  /-- HBM_RESPONSE (R277): An HBM read completes with its ECC outcome and its response is delivered. -/
  | hbmResponse (pc : Fin 768) (k : Nat)
  /-- HBM_WINDOW_BOUNDARY (R270): A 1 µs arbitration window ends and pending weights take effect. -/
  | hbmWindowBoundary (st : Fin 12)
  /-- HBM_REWRITE (R278): A queued correction rewrite is performed in the background class. -/
  | hbmRewrite (pc : Fin 768)
  /-- REFRESH (R275): A due per-bank refresh or RFM command is issued. -/
  | refresh (pc : HbmCmd) (bank : HbmBank)
  /-- STACK_TEMP_READ (R275): Every 1 ms the controller reads the stack temperature and sets the refresh rate. -/
  | stackTempRead (st : Fin 12) (temp : Byte)
  /-- HBM_SCRUB_STEP (R280): The HBM scrubber takes one granule position in every pseudo-channel. -/
  | hbmScrubStep (st : Fin 12)
  /-- REGION_CLEAR_DONE (R268): Clearing of a region's granules ends and the region admits accesses. -/
  | regionClearDone (base : BitVec 48)
  /-- HBM_WEIGHTS (R272): A write to HBM_WEIGHTS sets class weights, clamped to bounds, at the next window. -/
  | hbmWeights (r : Requester) (st : Fin 12) (v : Word)
  /-- SRAM_READ_REQUEST (R215): A read reaches a core's SRAM port and returns with its ECC outcome. -/
  | sramReadRequest (c : Fin 64) (a : SramAgent) (off : BitVec 25) (len : Nat)
  /-- SRAM_WRITE_REQUEST (R216): A write reaches a core's SRAM write port and is encoded or merged. -/
  | sramWriteRequest (c : Fin 64) (a : SramAgent) (off : BitVec 25) (data : Bytes)
  /-- SRAM_CORRECTION_REWRITE (R215): A corrected SRAM word is rewritten in the bank's next free write cycle. -/
  | sramCorrectionRewrite (c : Fin 64)
  /-- SRAM_SCRUB (R217): Every PACE cc the SRAM scrubber reads one line. -/
  | sramScrub (c : Fin 64)
  /-- FABRIC_PACKET_SEND (R228): A fabric packet is sent once credit for the whole packet is held at the next hop. -/
  | fabricPacketSend (sel : FabricSel)
  /-- FABRIC_PACKET_ARRIVAL (R226): A fabric packet arrives at a router, gateway or sink. -/
  | fabricPacketArrival (id : Nat)
  /-- D2D_LINK_FAILURE (R227): A die-to-die link fails training or exhausts retry and raises SEV4. -/
  | d2dLinkFailure (d : Fin 10)
  /-- COPY (R295): A DMA COPY transfer is checked and queued on its channel at its level. -/
  | copy (ch : Fin 256)
  /-- FILL (R295): A DMA FILL transfer is checked and queued on its channel at its level. -/
  | fill (ch : Fin 256)
  /-- DMA_TRANSFER_START (R297): A channel starts or resumes its first runnable transfer. -/
  | dmaTransferStart (ch : Fin 256)
  /-- CHUNK_TRANSLATE (R296): A channel translates the next chunk and issues it when fully translated. -/
  | chunkTranslate (ch : Fin 256)
  /-- ATS_COMPLETION (R291): An ATS Translation Completion arrives from the host. -/
  | atsCompletion (q : Fin 4) (pasid : BitVec 20) (page : Nat) (answer : Option (Nat × Bool × Bool))
  /-- CHUNK_COMPLETE (R296): A chunk's writes complete and the transfer's progress advances. -/
  | chunkComplete (ch : Fin 256)
  /-- PRG_RESPONSE (R298): A PRG Response is recorded in the channel's HOST_RESP. -/
  | prgResponse (ch : Fin 256) (code : PrgCode)
  /-- ATS_INVALIDATE (R291): An ATS Invalidate Request drops matching translation-cache entries. -/
  | atsInvalidate (pasid : BitVec 20) (page : Nat) (pages : Nat)
  /-- ATS_INVALIDATION_COMPLETE (R291): Accesses through dropped entries have completed and the Invalidation Completion is sent. -/
  | atsInvalidationComplete
  /-- DMA_RESUME_RETRY (R300): DMA_RESUME with ABORT 0 retranslates a parked transfer's faulting chunk. -/
  | dmaResumeRetry (r : Requester) (ch : Fin 256) (level : BitVec 2) (seq : BitVec 32)
  /-- DMA_RESUME_ABORT (R300): DMA_RESUME with ABORT 1 ends a parked transfer. -/
  | dmaResumeAbort (r : Requester) (ch : Fin 256) (level : BitVec 2) (seq : BitVec 32)
  /-- INVAL_CMD (R292): A write to INVAL_CMD removes, re-reads and reloads named pageable extent entries. -/
  | invalCmd (r : Requester)
  /-- INVAL_DONE (R292): Accesses through old values have completed; BUSY clears and DONE_SEQ advances. -/
  | invalDone
  /-- RESCUE_CMD (R301): A write to RESCUE_CMD starts a rescue transfer on physical addresses. -/
  | rescueCmd (r : Requester) (q : Fin 4)
  /-- RESCUE_COMPLETE (R302): A rescue transfer ends done or with error in RESCUE_STATUS. -/
  | rescueComplete (q : Fin 4)
  /-- DATA_FLIT (R309): A native data flit is received and accepted or discarded with NAK, processing its ACK, NAK and credits. -/
  | dataFlit (p : Fin 32) (flit : Bytes)
  /-- IDLE_FLIT (R309): A native idle flit is received and its ACK, NAK and credits are processed. -/
  | idleFlit (p : Fin 32) (flit : Bytes)
  /-- REPLAY_TIMEOUT (R309): No ACK has advanced for 1 µs and the transmitter replays from the oldest unacknowledged flit. -/
  | replayTimeout (p : Fin 32)
  /-- MARUNO_PACKET_SEND (R311): A Maruno packet is encrypted and sent once credit for it is held. -/
  | marunoPacketSend (l : LinkId)
  /-- CONTROL_PACKET (R312): A TYPE 0 packet on LVC0 is received, authenticated and handled. -/
  | controlPacket (rx : LinkRx)
  /-- COLLECTIVE_PACKET (R342): A TYPE 1 collective packet is received and accepted, held or discarded. -/
  | collectivePacket (rx : LinkRx)
  /-- TRANSPORT_ACK (R317): An Ethernet transport acknowledgement is received, with NAK and credits. -/
  | transportAck (rx : LinkRx)
  /-- ACK_TIMER (R317): The 2 µs acknowledgement interval expires while packets arrive. -/
  | ackTimer (l : LinkId)
  /-- RETRANSMIT_TIMEOUT (R317): 16 µs pass without acknowledgement progress and the sender retransmits. -/
  | retransmitTimeout (l : LinkId)
  /-- DETECT_POLL (R319): Every 1 ms a port in DETECT checks electrical presence on its lanes. -/
  | detectPoll (p : Fin 32) (lanes : BitVec 4)
  /-- TRAINING_COMPLETE (R319): A port's training ends with flit lock and it enters TRAINED. -/
  | trainingComplete (p : Fin 32) (reversed : Bool)
  /-- TRAINING_TIMEOUT (R319): A port's training limit expires and it goes DOWN with cause TRAINING. -/
  | trainingTimeout (p : Fin 32)
  /-- IDENTIFY_TIMEOUT (R319): IDENTIFY exceeds 50 ms and the port or route goes DOWN with cause IDENTITY. -/
  | identifyTimeout (l : LinkId)
  /-- HOLDOFF_EXPIRY (R319): The 10 ms DOWN hold-off ends and the port or route returns to DETECT or IDLE. -/
  | holdoffExpiry (l : LinkId)
  /-- LANE_SIGNAL_CHANGE (R326): A lane loses or regains signal or lock. -/
  | laneSignalChange (p : Fin 32) (lane : Fin 4) (signal lock : Bool) (snr : BitVec 6)
  /-- SIGNAL_LOSS_TIMEOUT (R326): A lane has lost signal or lock for 10 µs and the port goes down with cause SIGNAL. -/
  | signalLossTimeout (p : Fin 32) (lane : Fin 4)
  /-- PORT_CTRL (R326): A write to PORT_CTRL.HOLD holds the port in DISABLED or releases it. -/
  | portCtrl (r : Requester) (p : Fin 32) (v : Word)
  /-- REDUCE (R334): A collective REDUCE operation starts at a member. -/
  | reduce (g : Fin 4096)
  /-- ALL_REDUCE (R334): A collective ALL_REDUCE operation starts at a member. -/
  | allReduce (g : Fin 4096)
  /-- REDUCE_SCATTER (R334): A collective REDUCE_SCATTER operation starts at a member. -/
  | reduceScatter (g : Fin 4096)
  /-- ALL_GATHER (R334): A collective ALL_GATHER operation starts at a member. -/
  | allGather (g : Fin 4096)
  /-- BROADCAST (R334): A collective BROADCAST operation starts at a member. -/
  | broadcast (g : Fin 4096)
  /-- BARRIER (R334): A collective BARRIER operation starts at a member. -/
  | barrier (g : Fin 4096)
  /-- START_AT_REACHED (R351): The cellar count reaches a group-queue descriptor's START_AT. -/
  | startAtReached (g : Fin 4096)
  /-- COLLECTIVE_COMPLETE (R339): A member's collective operation writes its DST and status word and completes. -/
  | collectiveComplete (g : Fin 4096)
  /-- COLLECTIVE_TIMEOUT (R343): An operation has not completed TIMEOUT after its start and the member aborts. -/
  | collectiveTimeout (g : Fin 4096)
  /-- GROUP_SEL (R352): A write to GROUP_SEL selects a group and clears LATE_ABORT. -/
  | groupSel (r : Requester) (q : Fin 4) (v : Word)
  /-- CELLAR_SLEW (R347): At most once per 10,000 ns the hub inserts or withholds one tick. -/
  | cellarSlew
  /-- CELLAR_SYNC_EDGE (R348): A qualified rising edge of CELLAR_SYNC disciplines the count and applies an armed load. -/
  | cellarSyncEdge (frac : BitVec 4)
  /-- LOAD_CMD (R348): Writing 1 to LOAD_CMD arms a load of CELLAR_LOAD at the next CELLAR_SYNC edge. -/
  | loadCmd (r : Requester) (v : Word)
  /-- CELLAR_CTRL (R348): A write to CELLAR_CTRL changes the count's source at once and clears LOCKED. -/
  | cellarCtrl (r : Requester) (v : Word)
  /-- TIME_EXCHANGE (R348): Every SYNC_PERIOD a link-mode device exchanges one round of time messages. -/
  | timeExchange
  /-- SYNC_LOSS_TIMEOUT (R350): Three periods pass without a sync edge or reply and the device enters holdover. -/
  | syncLossTimeout
  /-- CELLAR_REF_LOSS (R350): CELLAR_REF is lost and the count runs on the internal oscillator. -/
  | cellarRefLoss
  /-- CELLAR_REF_RETURN (R350): CELLAR_REF returns and the hub slews back toward lock. -/
  | cellarRefReturn
  /-- ENTDAA (R354): I3C dynamic address assignment by ENTDAA. -/
  | entdaa (addr : BitVec 7)
  /-- SETDASA (R354): I3C address assignment from the static address by SETDASA. -/
  | setdasa (static addr : BitVec 7)
  /-- SET_ENDPOINT_ID (R354): MCTP Set Endpoint ID assigns the device's EID. -/
  | setEndpointId (b : Binding) (eid : Byte)
  /-- I3C_BUS_FAULT (R355): SDA held low for 100 µs releases the driver and moves MCTP to PCIe VDM. -/
  | i3cBusFault
  /-- I3C_RECOVERY (R355): A valid I3C START with the device's address returns MCTP to I3C. -/
  | i3cRecovery
  /-- PLDM_BASE_REQUEST (R354): A PLDM Type 0 base request is answered. -/
  | pldmBaseRequest (b : Binding) (code : Byte)
  /-- PLDM_SENSOR_READING (R362): A PLDM Type 2 request returns a numeric sensor reading. -/
  | pldmSensorReading (b : Binding) (id : Nat)
  /-- SET_SENSOR_THRESHOLDS (R362): PLDM SetSensorThresholds sets a sensor's warning and critical levels. -/
  | setSensorThresholds (b : Binding) (id : Nat) (warn crit : Int)
  /-- PLDM_FIRMWARE_UPDATE (R399): A PLDM Type 5 update writes the slot that did not boot. -/
  | pldmFirmwareUpdate (b : Binding) (off : Nat) (data : Bytes)
  /-- UNIT_STATE_EFFECTER (R369): A management write of ADMIT applies when GEN matches, including stop-now. -/
  | unitStateEffecter (u : Fin 120) (value : BitVec 2) (gen : BitVec 32)
  /-- DEVICE_RESET_EFFECTER (R397): The PLDM device-reset effecter starts a device reset. -/
  | deviceResetEffecter
  /-- GET_VERSION (R354): SPDM GET_VERSION request. -/
  | getVersion (b : Binding)
  /-- GET_CAPABILITIES (R354): SPDM GET_CAPABILITIES request. -/
  | getCapabilities (b : Binding)
  /-- NEGOTIATE_ALGORITHMS (R354): SPDM NEGOTIATE_ALGORITHMS request. -/
  | negotiateAlgorithms (b : Binding)
  /-- GET_DIGESTS (R354): SPDM GET_DIGESTS request. -/
  | getDigests (b : Binding)
  /-- GET_CERTIFICATE (R356): SPDM GET_CERTIFICATE returns the slot 0 chain. -/
  | getCertificate (b : Binding) (slot : BitVec 3)
  /-- CHALLENGE (R356): SPDM CHALLENGE signed with the Alias key. -/
  | challenge (b : Binding) (slot : BitVec 3) (nonce : BitVec 256)
  /-- GET_MEASUREMENTS (R354): SPDM GET_MEASUREMENTS request. -/
  | getMeasurements (b : Binding)
  /-- KEY_EXCHANGE (R313): SPDM KEY_EXCHANGE establishing a session key. -/
  | keyExchange (peer : SpdmPeer) (who : PeerId)
  /-- FINISH (R313): SPDM FINISH completing a session. -/
  | finish (peer : SpdmPeer) (ok : Bool)
  /-- KEY_UPDATE (R315): SPDM KEY_UPDATE switching a session direction to a new key. -/
  | keyUpdate (peer : SpdmPeer) (outbound : Bool)
  /-- SPDM_HEARTBEAT (R354): SPDM HEARTBEAT request. -/
  | spdmHeartbeat (peer : SpdmPeer)
  /-- END_SESSION (R354): SPDM END_SESSION request. -/
  | endSession (peer : SpdmPeer)
  /-- TRELLIS_KEY_LOAD (R360): A vendor-defined SPDM message loads, replaces or clears a trellis key slot. -/
  | trellisKeyLoad (slot : KeyLoad) (hash : Option Digest)
  /-- HBM_KEY_LOAD (R361): A vendor-defined SPDM message sets an HBM key slot's state, key and generation. -/
  | hbmKeyLoad (slot : Fin 1024) (st : BitVec 2) (key : BitVec 512) (gen : BitVec 16)
  /-- SIGNATURE_COMPLETE (R357): The signing engine ends a signature and starts the next waiting request. -/
  | signatureComplete
  /-- IDCODE (R359): JTAG IDCODE instruction. -/
  | idcode
  /-- BYPASS (R359): JTAG BYPASS instruction. -/
  | bypass
  /-- UNLOCK_CHALLENGE (R359): JTAG UNLOCK_CHALLENGE returns a nonce. -/
  | unlockChallenge
  /-- UNLOCK_RESPONSE (R359): A signed unlock response destroys keys and sets DEBUG, or is refused. -/
  | unlockResponse (sig : Bytes)
  /-- TEST_RESET (R405): TRST_N low holds the test access port in reset. -/
  | testReset
  /-- SENSOR_UPDATE (R362): A sensor is sampled at its update rate and threshold crossings are reported. -/
  | sensorUpdate (id : Nat) (value : Int)
  /-- POWER_LOOP_SAMPLE (R363): Every 1 µs the quarter loop samples power and steps the clock and voltage. -/
  | powerLoopSample (q : Fin 4) (power : Nat) (junction : Nat) (overCurrent : Bool)
  /-- QPWR_CAP (R363): A write to QPWR_CAP sets the quarter cap, clamped to its bounds. -/
  | qpwrCap (r : Requester) (q : Fin 4) (v : Word)
  /-- SAFETY_HOLD_EXPIRY (R366): The 1 ms hold after a safety override ends and the clock may step up. -/
  | safetyHoldExpiry (q : Fin 4)
  /-- AVS_RESPONSE (R414): An AVSBus frame response arrives from a QVDD regulator. -/
  | avsResponse (q : Fin 4) (mv : Nat)
  /-- AVS_FRAME_FAILURE (R414): An AVSBus frame draws no valid response and is repeated, with SEV4 on the fourth failure. -/
  | avsFrameFailure (q : Fin 4)
  /-- CLOCK_RAISE_DELAY (R414): 6 µs after a voltage raise the loop may raise the clock. -/
  | clockRaiseDelay (q : Fin 4)
  /-- OPER_ALIAS_WRITE (R369): A ring 0 write through the data-side alias sets OPER when GEN matches. -/
  | operAliasWrite (r : Requester) (u : Fin 120) (v : Word)
  /-- ALARM (R377): A fault alarm reaches the collector and is recorded, escalated and reacted to. -/
  | alarm (n : AlarmTurn)
  /-- FAULT_DETAIL (R375): A fault record's detail arrives on class 1 and fills its slot. -/
  | faultDetail (src : Fin 139)
  /-- CONTEXT_HALT_TIMEOUT (R385): A core of a failed context has not halted within 100 µs and is forced to HALT. -/
  | contextHaltTimeout (c : Fin 64)
  /-- FAULT_ACK (R380): A write to FAULT_ACK frees a matching slot, releasing any hold it governs. -/
  | faultAck (r : Requester) (v : Word)
  /-- FIRST_CLR (R382): A write to FIRST_CLR clears FIRST_FAULT, CONCURRENT and CONCURRENT_COUNT. -/
  | firstClr (r : Requester)
  /-- HEARTBEAT (R390): The controller writes HEARTBEAT and ALIVE may toggle. -/
  | heartbeat
  /-- HEARTBEAT_LOSS (R391): A heartbeat older than 10 ms drives ALIVE low and raises a SEV2 with no context. -/
  | heartbeatLoss
  /-- ALIVE_TOGGLE (R390): Every 500 µs ALIVE changes level. -/
  | aliveToggle
  /-- INJ_ARM (R392): A write to INJn_ARM arms an injection channel or is refused. -/
  | injArm (r : Requester) (n : Fin 2)
  /-- RESET_N (R397): RESET_N low for 1 µs or longer causes a cold reset. -/
  | resetN
  /-- PERST_N (R397): PERST_N low causes a conventional reset. -/
  | perstN
  /-- HOT_RESET (R397): A PCIe Hot Reset causes a conventional reset. -/
  | hotReset
  /-- LINK_DISABLE (R397): PCIe Link Disable causes a conventional reset. -/
  | linkDisable
  /-- FUNCTION_LEVEL_RESET (R397): A PCIe Function Level Reset causes a device reset. -/
  | functionLevelReset
  /-- DEV_RESET (R397): Writing 0xB2A0 to DEV_RESET starts a device reset. -/
  | devReset (r : Requester) (v : Word)
  /-- RAILS_GOOD (R396): Every rail has been in tolerance for 1 ms and the cold reset may end. -/
  | railsGood
  /-- RAIL_FAULT (R396): A rail stays below power-good for 2 µs, causing a cold reset or SEV4. -/
  | railFault (rail : Rail)
  /-- FIRMWARE_VERIFY (R358): The boot ROM verifies a firmware slot and boots it, tries the other, or enters recovery. -/
  | firmwareVerify
  /-- D2D_TRAINING_DONE (R400): The die-to-die links finish training. -/
  | d2dTrainingDone
  /-- CORE_BRINGUP_DONE (R400): A core finishes loading ring 0 firmware and zeroing its SRAM, starting its scrubber. -/
  | coreBringupDone (c : Fin 64)
  /-- HBM_TRAINING_DONE (R401): An HBM stack finishes training at 8 or 6.4 Gb/s or fails, and READY may be reached. -/
  | hbmTrainingDone (st : Fin 12) (res : Training)
  /-- PCIE_LINK_UP (R403): The PCIe link trains and BAR0 becomes readable. -/
  | pcieLinkUp
  /-- THERMTRIP (R422): A diode reaches 125 °C, asserting THERMTRIP_N, stopping the quarter clocks and raising SEV4. -/
  | thermtrip (d : Fin 5)
  /-- RESET_N_RELEASE (R400): RESET_N returns high with every rail in tolerance, which ends the cold reset and starts the boot ROM. -/
  | resetNRelease
  /-- PERST_N_RELEASE (R403): PERST_N returns high, which ends the conventional reset of the compute and PCIe domains and starts bring-up and PCIe link training. -/
  | perstNRelease
  /-- SYS_REFCLK_LOSS (R423): SYS_REFCLK goes absent or drifts outside ±300 ppm; the hub runs on its internal oscillator and the compute and PCIe domains are held in reset. -/
  | sysRefclkLoss
  /-- SYS_REFCLK_RETURN (R423): SYS_REFCLK returns within accuracy, and the compute and PCIe domains may leave reset and start bring-up. -/
  | sysRefclkReturn
  /-- INSTRUCTION_CACHE_FILL (R116): An instruction-cache miss fill arrives from memory, is parity-checked, installs its line and releases the stalled fetch. -/
  | instructionCacheFill (c : Fin 64)
  /-- PCIE_COMPLETION (R291): A PCIe completion for a device read of host memory arrives, possibly poisoned, and delivers its data to the DMA channel, hub or extent-table reader that issued it. -/
  | pcieCompletion (addr : BitVec 48) (data : Bytes) (poisoned ok : Bool)
  /-- COLLECTOR_STORAGE_READ (R392): A register read of a collector slot or of FIRST_FAULT performs the slot SEC-DED check, which can correct the word, count an injection or raise SEV4 for collector storage. -/
  | collectorStorageRead (slot : Fin 140) (w : Fin 4)
  deriving DecidableEq, Repr

end Sys2Proof
end

