-- ==== Sys2Proof/Config.lean ====
section
/-!
DEFINITION. What the spec leaves to the implementation or to no one: values and predicates without a body, so that a statement
holds whatever they are.
-/

namespace Sys2Proof

/-- The `n`-th free value of a run (log entry 11): whatever the spec leaves open at a step is this constant applied to the
counter `State.free`, which the step advances. -/
opaque Config.freeValue : Nat → BitVec 64

/-- The device's answer where the spec takes an ECDSA P-384 signature of a trellis image as valid: the enrolled key hash, the
SHA-384 of the signed bytes and the signature (R27; log entry 10). -/
opaque Config.trellisSignature : Digest → Digest → Bytes → Bool

/-- Signature, security version and digest check of a firmware slot's bytes by the boot ROM (R358; log entry 10). -/
opaque Config.firmwareValid : Bytes → Bool

/-- The check of an unlock response against a nonce and the device serial number (R359; log entry 10). -/
opaque Config.unlockValid : BitVec 256 → Bytes → Bool

/-- The key hash fused as the owner's, which authorises trellis key loads (R360; log entry 10). -/
opaque Config.ownerKey : Digest

/-- Stepping of the part, DEV_ID[23:16] (Table 1.3). -/
opaque Config.stepping : BitVec 8

/-- The fused core-rail voltage for a clock in MHz (R363, R414; log entry 22). -/
opaque Config.voltageTable : Nat → Nat

/-- One less than the moves of cuttings that a home press makes in one ageing period at most, which the spec bounds without a number
(R250; log entry 32). -/
opaque Config.cuttingMoves : Nat

/-- Bits of a word of configuration space that a Function Level Reset keeps, as PCIe defines (Table 17.3; log entry 66). -/
opaque Config.flrKeeps : Nat → BitVec 32

end Sys2Proof
end

