-- ==== Sys2Proof/Machine/Map.lean ====
section
/-!
DEFINITION. Operations on finite maps and byte strings (R6: byte 0 of a field holds its least significant bits).
-/

namespace Sys2Proof

variable {α : Type}

/-- The entry at `k`, if the map lists one. -/
def Map.find : Map α → Nat → Option α
  | [], _ => none
  | (j, v) :: m, k => if j = k then some v else Map.find m k

/-- The value at `k`, or the map's default. -/
def Map.look (m : Map α) (k : Nat) (d : α) : α := (m.find k).getD d

/-- Store `v` at `k`, keeping keys in rising order. -/
def Map.set : Map α → Nat → α → Map α
  | [], k, v => [(k, v)]
  | (j, w) :: m, k, v =>
    if k < j then (k, v) :: (j, w) :: m
    else if k = j then (k, v) :: m
    else (j, w) :: Map.set m k v

/-- Remove the entry at `k`. -/
def Map.del (m : Map α) (k : Nat) : Map α := m.filter fun e => e.1 != k

/-- Remove every entry from `lo` up to but not including `hi`. -/
def Map.cut (m : Map α) (lo hi : Nat) : Map α := m.filter fun e => !(lo ≤ e.1 && e.1 < hi)

/-- Store `v` at `k`, or remove the entry when `v` is the default. -/
def Map.put [DecidableEq α] (m : Map α) (k : Nat) (v d : α) : Map α :=
  if v = d then m.del k else m.set k v

/-- Values read at `n` keys from `k` on. -/
def Map.run (m : Map α) (d : α) : Nat → Nat → List α
  | _, 0 => []
  | k, n + 1 => m.look k d :: Map.run m d (k + 1) n

/-- Store the values of a list at rising keys from `k` on. -/
def Map.setRun (m : Map α) (k : Nat) : List α → Map α
  | [] => m
  | v :: vs => Map.setRun (m.set k v) (k + 1) vs

end Sys2Proof

namespace Sys2Proof.Machine

/-- The number a little-endian byte string spells (R6). -/
def leNat : Bytes → Nat
  | [] => 0
  | b :: bs => b.toNat + 256 * leNat bs

/-- `n` little-endian bytes of a number (R6). -/
def leBytes : Nat → Nat → Bytes
  | 0, _ => []
  | n + 1, x => BitVec.ofNat 8 x :: leBytes n (x / 256)

/-- The number a big-endian byte string spells. -/
def beNat (bs : Bytes) : Nat := bs.foldl (fun a b => a * 256 + b.toNat) 0

/-- `n` big-endian bytes of a number. -/
def beBytes (n x : Nat) : Bytes := (leBytes n x).reverse

/-- The field of `n` bytes at offset `off` of a structure in memory. -/
def fld (bs : Bytes) (off n : Nat) : Nat := leNat ((bs.drop off).take n)

/-- The field of `n` bytes at `off`, read as a two's-complement number. -/
def fldS (bs : Bytes) (off n : Nat) : Int := (BitVec.ofNat (8 * n) (fld bs off n)).toInt

/-- Bits `hi` down to `lo` of a number. -/
def bits (x hi lo : Nat) : Nat := (x >>> lo) % 2 ^ (hi + 1 - lo)

/-- Bit `i` of a number. -/
def bit (x i : Nat) : Bool := x.testBit i

/-- Whether `n` bytes at `off` are all zero. -/
def zeroAt (bs : Bytes) (off n : Nat) : Bool := fld bs off n == 0

/-- Bit as a number. -/
def b2n (b : Bool) : Nat := if b then 1 else 0

/-- Overwrite bytes from offset `off` on. -/
def patch (bs : Bytes) (off : Nat) (new : Bytes) : Bytes :=
  bs.take off ++ new ++ bs.drop (off + new.length)

/-- Replace one element of a list. -/
def setAt {α : Type} : List α → Nat → α → List α
  | [], _, _ => []
  | _ :: l, 0, v => v :: l
  | a :: l, i + 1, v => a :: setAt l i v

/-- Change the first element that satisfies `p`. -/
def updFirst {α : Type} (p : α → Bool) (f : α → α) : List α → List α
  | [] => []
  | a :: l => if p a then f a :: l else a :: updFirst p f l

/-- Remove the first element that satisfies `p`. -/
def dropFirst {α : Type} (p : α → Bool) : List α → List α
  | [] => []
  | a :: l => if p a then l else a :: dropFirst p l

/-- Index of the first element that satisfies `p`. -/
def findIdx {α : Type} (p : α → Bool) : List α → Nat → Option Nat
  | [], _ => none
  | a :: l, i => if p a then some i else findIdx p l (i + 1)

/-- Insert into a list sorted by `lt`. -/
def insSort {α : Type} (lt : α → α → Bool) (a : α) : List α → List α
  | [] => [a]
  | b :: l => if lt b a then b :: insSort lt a l else a :: b :: l

/-- Sort a list by `lt`. -/
def sortBy {α : Type} (lt : α → α → Bool) (l : List α) : List α := l.foldr (insSort lt) []

/-- The numbers from `a` on, `n` of them. -/
def from_ (a n : Nat) : List Nat := (List.range n).map (a + ·)

/-- Ceiling division. -/
def cdiv (a b : Nat) : Nat := (a + b - 1) / b

/-- Saturating count in `w` bits. -/
def satAdd (w : Nat) (x : Nat) (n : Nat) : Nat := min (x + n) (2 ^ w - 1)

end Sys2Proof.Machine
end

