-- ==== Sys2Proof/Machine/Aes.lean ====
section
/-!
DEFINITION. AES-256 with the two modes the spec uses: XTS for HBM granules (R281, IEEE 1619) and GCM for Maruno packets (R314).
The standards are named by the spec (log entry 10).
-/

namespace Sys2Proof.Machine

/-- The S-box, entry i in byte i of the number. -/
def aesSbox : Nat :=
  0x16bb54b00f2d99416842e6bf0d89a18cdf2855cee9871e9b948ed9691198f8e19e1dc186b95735610ef6034866b53e708a8bbd4b1f74dde8c6b4a61c2e2578ba08ae7a65eaf4566ca94ed58d6d37c8e779e4959162acd3c25c2406490a3a32e0db0b5ede14b8ee4688902a22dc4f816073195d643d7ea7c41744975fec130ccdd2f3ff1021dab6bcf5389d928f40a351a89f3c507f02f94585334d43fbaaefd0cf584c4a39becb6a5bb1fc20ed00d153842fe329b3d63b52a05a6e1b1a2c830975b227ebe28012079a059618c323c7041531d871f1e5a534ccf73f362693fdb7c072a49cafa2d4adf04759fa7dc982ca76abd7fe2b670130c56f6bf27b777c63

/-- The inverse S-box, entry i in byte i. -/
def aesInvSbox : Nat :=
  0x7d0c2155631469e126d677ba7e042b17619953833cbbebc8b0f52aae4d3be0a0ef9cc9939f7ae52d0d4ab519a97f51605fec8027591012b131c7078833a8dd1ff45acd78fec0db9a2079d2c64b3e56fc1bbe18aa0e62b76f89c5291d711af1476edf751ce837f9e28535ade72274ac9673e6b4f0cecff297eadc674f4111913a6b8a130103bdafc1020f3fca8f1e2cd00645b3b80558e4f70ad3bc8c00abd890849d8da75746155edab9edfd5048706c92b6655dcc5ca4d41698688664f6f87225d18b6d49a25b76b224d92866a12e084ec3fa420b954cee3d23c2a632947b54cbe9dec444438e3487ff2f9b8239e37cfbd7f3819ea340bf38a53630d56a0952

def sub8 (t : Nat) (b : Byte) : Byte := BitVec.ofNat 8 (t >>> (8 * b.toNat))

/-- Multiplication by x in the field of AES. -/
def xtime (b : Byte) : Byte := (b <<< 1) ^^^ (if b.msb then 0x1b else 0)

/-- Multiplication in the field of AES by a small constant, given by its low four bits. -/
def gmul (k : BitVec 4) (b : Byte) : Byte :=
  let b2 := xtime b
  let b4 := xtime b2
  let b8 := xtime b4
  (if k.getLsbD 0 then b else 0) ^^^ (if k.getLsbD 1 then b2 else 0) ^^^
    (if k.getLsbD 2 then b4 else 0) ^^^ (if k.getLsbD 3 then b8 else 0)

def xorB (a b : Bytes) : Bytes := List.zipWith (· ^^^ ·) a b

/-- Round-key words, four bytes each, newest first; `n` more words from word number `i` on with round constant `rc`. -/
def aesExpand : Nat → Nat → Byte → List Bytes → List Bytes
  | 0, _, _, w => w
  | n + 1, i, rc, w =>
    let prev := w.getD 0 []
    let t :=
      if i % 8 = 0 then xorB ((prev.drop 1 ++ prev.take 1).map (sub8 aesSbox)) [rc, 0, 0, 0]
      else if i % 8 = 4 then prev.map (sub8 aesSbox) else prev
    aesExpand n (i + 1) (if i % 8 = 0 then xtime rc else rc) (xorB (w.getD 7 []) t :: w)

/-- The fifteen round keys of a 32-byte key. -/
def aesKeys (key : Bytes) : List Bytes :=
  let w0 := (List.range 8).map fun i => (key.drop (4 * i)).take 4
  let ws := (aesExpand 52 8 1 w0.reverse).reverse
  (List.range 15).map fun r => ((ws.drop (4 * r)).take 4).flatten

/-- ShiftRows; byte 4c + r is row r of column c. -/
def shiftRows (st : Bytes) : Bytes := (List.range 16).map fun i => st.getD ((i + 4 * (i % 4)) % 16) 0

def invShiftRows (st : Bytes) : Bytes := (List.range 16).map fun i => st.getD ((i + 16 - 4 * (i % 4)) % 16) 0

/-- MixColumns with the first row of its matrix. -/
def mixCols (k : List (BitVec 4)) (st : Bytes) : Bytes :=
  (List.range 16).map fun i =>
    (List.range 4).foldl (fun a j => a ^^^ gmul (k.getD ((j + 4 - i % 4) % 4) 0) (st.getD (i / 4 * 4 + j) 0)) 0

/-- Middle rounds and the last round of encryption. -/
def aesRounds : List Bytes → Bytes → Bytes
  | [], st => st
  | [k], st => xorB (shiftRows (st.map (sub8 aesSbox))) k
  | k :: ks, st => aesRounds ks (xorB (mixCols [2, 3, 1, 1] (shiftRows (st.map (sub8 aesSbox)))) k)

/-- One block of AES-256. -/
def aesEnc (key blk : Bytes) : Bytes :=
  match aesKeys key with
  | [] => blk
  | k :: ks => aesRounds ks (xorB blk k)

/-- Rounds of decryption, from the last round key down. -/
def aesInvRounds : List Bytes → Bytes → Bytes
  | [], st => st
  | [k], st => xorB ((invShiftRows st).map (sub8 aesInvSbox)) k
  | k :: ks, st => aesInvRounds ks (mixCols [14, 11, 13, 9] (xorB ((invShiftRows st).map (sub8 aesInvSbox)) k))

/-- One block of the inverse cipher. -/
def aesDec (key blk : Bytes) : Bytes :=
  match (aesKeys key).reverse with
  | [] => blk
  | k :: ks => aesInvRounds ks (xorB blk k)

/-- Tweak of the next block: multiplication by x in GF(2^128), least significant byte first. -/
def xtsNext (t : BitVec 128) : BitVec 128 := (t <<< 1) ^^^ (if t.msb then 0x87 else 0)

/-- XTS over `n` blocks of a data unit. -/
def xtsBlocks (f : Bytes → Bytes) : Nat → BitVec 128 → Bytes → Bytes
  | 0, _, _ => []
  | n + 1, t, d =>
    let tb := leBytes 16 t.toNat
    xorB (f (xorB (d.take 16) tb)) tb ++ xtsBlocks f n (xtsNext t) (d.drop 16)

/-- A granule under an XTS key pair (R281): data key in the first 32 bytes, tweak key in the second; the tweak is the
granule's address shifted right by 6. -/
def xts (enc : Bool) (key : BitVec 512) (granule : Nat) (d : Bytes) : Bytes :=
  let kb := leBytes 64 key.toNat
  let t := BitVec.ofNat 128 (leNat (aesEnc (kb.drop 32) (leBytes 16 granule)))
  xtsBlocks (if enc then aesEnc (kb.take 32) else aesDec (kb.take 32)) 4 t d

/-- Multiplication in the field of GCM over the bits of the second factor, most significant first. -/
def ghashMul (x : BitVec 128) : Nat → BitVec 128 → BitVec 128 → BitVec 128
  | 0, _, z => z
  | n + 1, v, z =>
    let z := if x.getLsbD n then z ^^^ v else z
    ghashMul x n ((v >>> 1) ^^^ (if v.getLsbD 0 then 0xE1000000000000000000000000000000#128 else 0)) z

/-- GHASH over `n` blocks. -/
def ghash (h : BitVec 128) : Nat → BitVec 128 → Bytes → BitVec 128
  | 0, y, _ => y
  | n + 1, y, d => ghash h n (ghashMul (y ^^^ BitVec.ofNat 128 (beNat (d.take 16))) 128 h 0) (d.drop 16)

def padTo16 (d : Bytes) : Bytes := d ++ List.replicate ((16 - d.length % 16) % 16) 0

/-- Counter mode over `n` blocks from counter `c`. -/
def gcmCtr (key iv : Bytes) : Nat → Nat → Bytes → Bytes
  | 0, _, _ => []
  | n + 1, c, d => xorB (d.take 16) (aesEnc key (iv ++ beBytes 4 c)) ++ gcmCtr key iv n (c + 1) (d.drop 16)

/-- The 16-byte tag over associated data and ciphertext. -/
def gcmTag (key iv aad ct : Bytes) : Bytes :=
  let h := BitVec.ofNat 128 (beNat (aesEnc key (List.replicate 16 0)))
  let m := padTo16 aad ++ padTo16 ct ++ beBytes 8 (8 * aad.length) ++ beBytes 8 (8 * ct.length)
  xorB (beBytes 16 (ghash h (m.length / 16) 0 m).toNat) (aesEnc key (iv ++ beBytes 4 1))

/-- Encrypt or decrypt in counter mode. -/
def gcmCrypt (key iv d : Bytes) : Bytes := gcmCtr key iv (cdiv d.length 16) 2 d

end Sys2Proof.Machine
end

