-- ==== Sys2Proof/Machine/State.lean ====
section
/-!
DEFINITION. The state of the block as plain data: every register, queue, buffer, counter and pin the spec gives it.
The default value of a field is its value right after a cold reset; INVENTORY.md lists each with its rule. Maps read as the
default value of their element type where they list nothing.
-/

namespace Sys2Proof.Machine

/-! ## Numbers and memory -/

/-- The class of an XA128 or guarded value (R76). -/
inductive XClass where
  | fin
  | pinf
  | ninf
  | nan
  deriving DecidableEq, Repr

/-- The guarded form of XA128 (R78): a 144-bit register and a class. -/
structure Guarded where
  reg : BitVec 144 := 0
  cls : XClass := .fin
  deriving DecidableEq, Repr

/-- Flipped bits of one stored 64-bit SRAM word: data bits and the eight check bits of its (72,64) code (R214). -/
structure WordErr where
  data  : BitVec 64 := 0
  check : BitVec 8 := 0
  deriving DecidableEq, Repr

/-- A byte interval that a command declares (R51), in device physical addresses. -/
structure Range where
  lo : Nat
  hi : Nat
  wr : Bool
  deriving DecidableEq, Repr

/-! ## Trellis image records (Table 1.12) -/

/-- PARTITION record (R29, Table 1.15). -/
structure PartRec where
  part     : Nat
  coreMask : BitVec 64
  laneMask : BitVec 32
  dmaMask  : BitVec 256
  lead     : Bool
  budget   : Nat
  deriving DecidableEq, Repr

/-- CONTEXT record (R284, Table 12.1). -/
structure CtxRec where
  part      : Nat
  ctx       : Nat
  pasid     : BitVec 20
  ring2     : Bool
  ring3     : Bool
  key       : BitVec 10
  xtBase    : Nat
  fqBase    : Nat
  fqLog     : Nat
  mlogBase  : Nat
  mlogLimit : Nat
  deriving DecidableEq, Repr

/-- SRAM_SPLIT record (R30), in units of 64 KiB. -/
structure SplitRec where
  part     : Nat
  core     : Nat
  scratch  : Nat
  resident : Nat
  rowcache : Nat
  deriving DecidableEq, Repr

/-- HBM_REGION record (R264, Table 11.3). -/
structure RegionRec where
  part     : Nat
  base     : Nat
  len      : Nat
  press    : Bool
  spread   : Bool
  quarter  : Nat
  storeOff : Nat
  deriving DecidableEq, Repr

/-- PRESS_TABLE record, quarter form (Table 10.2a). -/
structure PressQRec where
  quarter  : Nat
  areaBase : Nat
  areaLen  : Nat
  cutSlots : Nat
  cutPitch : Nat
  ageLog   : Nat
  deriving DecidableEq, Repr

/-- PRESS_TABLE record, table form (Table 10.2b). -/
structure TableRec where
  part        : Nat
  homeQ       : Nat
  table       : Nat
  fmt         : Nat
  rm          : BitVec 2
  sat         : Bool
  updatable   : Bool
  rowElems    : Nat
  base        : Nat
  rows        : Nat
  pitch       : Nat
  key         : BitVec 10
  journalRows : Nat
  cutMax      : Nat
  epoch       : Nat
  deriving DecidableEq, Repr

/-- LINK_ROUTE record, port form (Table 13.8). -/
structure PortForm where
  port        : Nat
  mode        : BitVec 2
  eth         : BitVec 8
  partnerDev  : BitVec 13
  partnerPort : BitVec 5
  dscp        : BitVec 6
  mac         : BitVec 48
  vlan        : BitVec 16
  ip          : BitVec 128
  udp         : BitVec 16
  partnerKey  : Digest
  deriving DecidableEq, Repr

/-- LINK_ROUTE record, route form (Table 13.9). -/
structure RouteForm where
  dest     : BitVec 13
  portMask : BitVec 32
  nextMac  : BitVec 48
  destUdp  : BitVec 16
  destIp   : BitVec 128
  destKey  : Digest
  deriving DecidableEq, Repr

/-- COLL_GROUP record (R329, Table 14.1) with its configuration tag (R330); members in rank order as (device, quarter). -/
structure GroupRec where
  part      : Nat
  group     : Nat
  command   : Bool
  directMax : Nat
  n         : Nat
  threshold : Nat
  timeout   : Nat
  stage     : Nat
  members   : List (Nat × Nat)
  tag       : BitVec 32
  deriving DecidableEq, Repr

/-- The four class weights of a controller in the order of Table 11.6. -/
structure Weights where
  urg    : Nat := 0
  normal : Nat := 8
  bulk   : Nat := 4
  back   : Nat := 1
  deriving DecidableEq, Repr

/-- CLASS_RESERVATION record (R271, Table 11.6). -/
structure ClassRec where
  part         : Nat
  quarter      : Nat
  lane         : Nat
  enable       : Bool
  share        : Nat
  urgentCap    : Nat
  urgentQueues : Bool
  w            : Weights
  low          : Weights
  high         : Weights
  deriving DecidableEq, Repr

/-- LOOP_BOUND record (R365, Table 15.5). -/
structure LoopRec where
  loop    : Nat
  quarter : Nat
  low     : Nat
  high    : Nat
  deriving DecidableEq, Repr

/-- One record of a trellis image (Table 1.12). -/
inductive Rec where
  | part (r : PartRec)
  | ctx (r : CtxRec)
  | split (r : SplitRec)
  | region (r : RegionRec)
  | pressQ (r : PressQRec)
  | table (r : TableRec)
  | port (r : PortForm)
  | route (r : RouteForm)
  | group (r : GroupRec)
  | cls (r : ClassRec)
  | loop (r : LoopRec)
  deriving DecidableEq, Repr

/-- A trellis image as verified (Table 1.11), with its bytes for SHAPE_DIGEST (R62). -/
structure Image where
  gen       : Nat
  key       : Nat
  dev       : BitVec 13
  devCount  : Nat
  partCount : Nat
  features  : BitVec 256
  recs      : List Rec
  raw       : Bytes
  deriving DecidableEq, Repr

/-- The configuration in force: the records applied so far, each at its partition's racking (R32). -/
structure Active where
  dev      : BitVec 13 := 0
  devCount : Nat := 0
  features : BitVec 256 := 0
  parts    : List PartRec := []
  ctxs     : List CtxRec := []
  splits   : List SplitRec := []
  regions  : List RegionRec := []
  pressQs  : List PressQRec := []
  tables   : List TableRec := []
  ports    : List PortForm := []
  routes   : List RouteForm := []
  groups   : List GroupRec := []
  classes  : List ClassRec := []
  loops    : List LoopRec := []
  deriving DecidableEq, Repr

/-- TRELLIS registers and the image being verified or staged (Tables 1.3, 1.4; R33, R360). -/
structure Trellis where
  addr     : BitVec 48 := 0
  len      : BitVec 25 := 0
  st       : BitVec 3 := 0
  reject   : BitVec 8 := 0
  pend     : List Nat := []
  gen      : Nat := 0
  staged   : Option Image := none
  keys     : Map (Option Digest) := []
  keysNext : Map (Option (Option Digest)) := []
  stageKeys : Map (Option Digest) := []
  deriving DecidableEq, Repr

/-! ## Host interface -/

/-- A high half latched by a 32-bit low read (R43): the requester, the register's address and the half. -/
structure Latch where
  req  : Requester
  sp   : RegSpace
  addr : Nat
  hi   : BitVec 32
  deriving DecidableEq, Repr

/-- Completion status of the last host request: successful, Unsupported Request (R12), or poisoned data (R277). -/
inductive BusStatus where
  | ok
  | unsupported
  | poisoned
  deriving DecidableEq, Repr

/-- PCIe side of the hub (R11 to R14, R43). -/
structure HostIf where
  rdata     : Word := 0
  rstatus   : BusStatus := .ok
  bar2Data  : Bytes := []
  devIrqVec : BitVec 11 := 0
  bar2Base  : BitVec 18 := 0
  bar2Key   : BitVec 10 := 0
  mmioWin   : BitVec 5 := 0
  bar2Log2  : Nat := 30
  cfg       : Map (BitVec 32) := []
  msixTable : Map Word := []
  msixPba   : Map Bool := []
  msixSent  : Map Nat := []
  latches   : List Latch := []
  aer       : Bool := false
  deriving DecidableEq, Repr

/-! ## Queues, contexts, partitions -/

/-- Where a fetched command stands (R19, R22): fetched, running, or ended and waiting for its record. -/
inductive CmdSt where
  | fetched
  | running
  | ended
  deriving DecidableEq, Repr

/-- One fetched 64 B command (Table 1.7) and its progress. `left` counts the work still to end (cores, transfers,
batches), `step` the descriptors taken, `early` marks a command behind a VINTAGE_END, which belongs to the next vintage. -/
structure Cmd where
  opcode    : Byte
  flags     : Byte
  tag       : BitVec 16
  wait      : Word
  signal    : Word
  launch    : Nat
  body      : Bytes
  resvOk    : Bool
  serial    : Nat
  st        : CmdSt := .fetched
  status    : Byte := 0
  outInv    : Bool := false
  late      : Bool := false
  launchMet : Bool := false
  early     : Bool := false
  reached   : Bool := false
  vint      : Nat := 0
  ranges    : List Range := []
  left      : Nat := 0
  step      : Nat := 0
  signing   : Bool := false
  ctxFail   : Bool := false
  deriving DecidableEq, Repr

/-- A command queue with its configuration block (Table 1.5; R16 to R24). A field `none` stands for the reset value
that depends on the queue number (MSIX). `failed` marks a queue in error because its context failed (R17, R39), until it is enabled
again; `dbWait` is a tail written during a racking (R18). -/
structure Queue where
  base   : BitVec 56 := 0
  cqBase : BitVec 56 := 0
  msix   : Option (BitVec 11) := none
  prio   : BitVec 2 := 1
  cqSize : Nat := 6
  qSize  : Nat := 6
  irqEn  : Bool := false
  enable : Bool := false
  err    : Bool := false
  failed : Bool := false
  head   : Nat := 0
  tail   : Nat := 0
  cqHead : Nat := 0
  cqTail : Nat := 0
  phase  : Bool := true
  cmds   : List Cmd := []
  count  : Nat := 0
  dbWait : Option Nat := none
  deriving DecidableEq, Repr

/-- A loaded extent entry (Table 12.2; R288). -/
structure Ext where
  idx      : Nat
  vstart   : Nat
  len      : Nat
  pstart   : Nat
  key      : BitVec 10
  rd       : BitVec 4
  wr       : BitVec 4
  ex       : BitVec 4
  pageable : Bool
  present  : Bool
  deriving DecidableEq, Repr

/-- A context: its loaded extents, events, fault queue and measurement log (R21, R288, R299, R303, R385). -/
structure Ctx where
  ext         : List Ext := []
  xtCount     : Nat := 0
  ranCmd      : Bool := false
  events      : Map Word := []
  dbErrors    : BitVec 32 := 0
  fqHead      : BitVec 12 := 0
  fqTail      : BitVec 12 := 0
  fqPhase     : Bool := true
  fqOverflow  : Bool := false
  fqLost      : BitVec 32 := 0
  fqUsed      : Nat := 0
  mlogUsed    : Nat := 0
  mlogReserve : Nat := 0
  deriving DecidableEq, Repr

/-- A partition: PART_STATUS, its vintage and what the vintage has seen (R32 to R40, R46, R56 to R61). `features`, `shape`, `dev` and
`devCount` are those of the image that it applied last (R25, R41, R58). -/
structure Part where
  st           : BitVec 2 := 3
  invalidLast  : Bool := false
  lastInvalid  : BitVec 32 := 0
  vintage      : Nat := 0
  openCount    : Nat := 0
  budget       : Nat := 0
  forced       : Bool := false
  recorded     : Bool := false
  usable       : List (Nat × BitVec 32) := []
  stepsDone    : Bool := false
  joint        : List Nat := []
  hold         : List (Nat × Nat) := []
  dirty        : Bool := false
  outInvalid   : Bool := false
  inexactSeen  : Bool := false
  overflowSeen : Bool := false
  measureLimit : Bool := false
  launches     : Nat := 0
  provFirst    : Option (Nat × Nat) := none
  mlogTotal    : Nat := 0
  prevDigest   : Digest := 0
  features     : BitVec 256 := 0
  shape        : Bytes := []
  dev          : BitVec 13 := 0
  devCount     : Nat := 0
  disagree     : List Nat := []
  deriving DecidableEq, Repr

/-! ## Cores -/

/-- What a core's sequencer does (R106, R126, R129): idle, running a kernel, halted with items outstanding, or stopped
by a core halt or a device stop. -/
inductive Run where
  | idle
  | running
  | halting
  | stopped
  deriving DecidableEq, Repr

/-- A kernel that a DISPATCH command starts on a core (R106). -/
structure Kernel where
  queue : Nat
  cmd   : Nat
  ctx   : Nat
  level : BitVec 2
  ring  : BitVec 2
  entry : Word
  block : List Word
  deriving DecidableEq, Repr

/-- A write that a result port still waits for: an operation's result or a restore behind it (R95, R96); `deliver` is
clear for a load that delivers nothing (R118, R215). -/
structure PortPend where
  port    : Nat
  restore : Bool
  value   : Word
  deliver : Bool := true
  miss    : Bool := false
  deriving DecidableEq, Repr

/-- An op word queued in VQ with the SA and SB captured at its push (R145) and the ring that pushed it. -/
structure VqItem where
  w    : Word
  sa   : Word
  sb   : Word
  ring : BitVec 2
  deriving DecidableEq, Repr

/-- A descriptor address queued at MQ, DQ, PQ or CQ, with the ring that pushed it and its position in PUSHED (R107). -/
structure QItem where
  va   : Word
  ring : BitVec 2
  idx  : Nat
  deriving DecidableEq, Repr

/-- A queue unit (R107): the items pushed, the completed prefix, the queued items, and completed items beyond the prefix. -/
structure QUnit where
  pushed : Nat := 0
  done   : Nat := 0
  err    : Bool := false
  items  : List QItem := []
  ended  : List Nat := []
  deriving DecidableEq, Repr

/-- A line of a scalar cache (R114, R115, R118). -/
structure CLine where
  valid  : Bool := false
  dirty  : Bool := false
  age    : BitVec 2 := 0
  line   : Nat := 0
  key    : BitVec 10 := 0
  data   : Bytes := []
  deriving DecidableEq, Repr

/-- The sequencer and its scalar units (Tables 4.5 to 4.8, 5.5). `eff` holds the control registers that need SYNC by port, as they
govern; `ctl` the other ones, and the writes to those of `eff` that wait for SYNC (R112). `pc` is where the next bundle lies, `first` the handler
shadow entry it comes from after an entry. `loopPend` marks a loop decision not yet made (R109); `mute` tells why no event is
sampled: 1 after SYNC, 2 after RET or a gate. `divIn` is the operand port of DIV; `divA` what it keeps. -/
structure Seq where
  run       : Run := .idle
  pc        : Word := 0
  g         : Map Word := []
  preds     : BitVec 8 := 1
  ring      : BitVec 2 := 0
  ie        : Bool := false
  ieGrant   : Bool := false
  ctl       : Map Word := []
  eff       : Map Word := []
  shadow    : Map Word := []
  shadowB   : Map (BitVec 128) := []
  tbDirty   : BitVec 4 := 0
  icinv     : Bool := false
  cycleBase : Nat := 0
  stalls    : Nat := 0
  first     : Option Nat := none
  mute      : BitVec 2 := 0
  fetchMiss : Option (Nat × BitVec 10) := none
  context   : Nat := 0
  level     : BitVec 2 := 1
  queue     : Nat := 0
  cmd       : Nat := 0
  kernels   : List Kernel := []
  alu0A     : Word := 0
  alu0Res   : Word := 0
  alu1A     : Word := 0
  alu1Res   : Word := 0
  mulA      : Word := 0
  mulRes    : Map Word := []
  mulPend   : List PortPend := []
  divIn     : Word := 0
  divA      : Word := 0
  divB      : Word := 0
  divOp     : Nat := 0
  divRes    : Word := 0
  divBusy   : Bool := false
  divAband  : Bool := false
  divZero   : Bool := false
  divAfter  : Option Word := none
  lsuData   : Word := 0
  lsuMode   : Word := 3
  lsuRes    : Map Word := []
  lsuPend   : List PortPend := []
  maint     : Bool := false
  loopLen   : Word := 0
  loopPend  : Bool := false
  haltDue   : Option Nat := none
  lastIssue : Nat := 0
  deriving DecidableEq, Repr

/-- A tensor slot (R162). -/
structure TSlot where
  bound  : Bool := false
  wr     : Bool := false
  desc   : Bytes := []
  cursor : Nat := 0
  deriving DecidableEq, Repr

/-- The vector engine (Table 6.1) and its queue VQ. Register bytes are numbered 8192 × register + byte, mask bits
8192 × register + bit. `run` lists executed op words that DONE does not count yet, each with the items it counts for and the
memory-side adds it waits for. -/
structure Vec where
  sa     : Word := 0
  sb     : Word := 0
  vres   : Word := 0
  regs   : Map Byte := []
  masks  : Map Bool := []
  flags  : BitVec 4 := 0
  slots  : Map TSlot := []
  pushed : Nat := 0
  done   : Nat := 0
  err    : Bool := false
  items  : List VqItem := []
  run    : List (Nat × Nat) := []
  deriving DecidableEq, Repr

/-- A pass in the array (R174 to R189): its descriptor, its place in PUSHED, the set it uses, whether its tile is there, and its results
once computed, each with its flags (Table 3.7 order) and poison mark. -/
structure Pass where
  idx      : Nat
  ring     : BitVec 2
  desc     : Bytes
  set      : Bool
  loaded   : Bool
  computed : Bool
  results  : List (BitVec 128) := []
  resFlags : List (BitVec 4) := []
  resBad   : List Bool := []
  badAddr  : Option Nat := none
  deriving DecidableEq, Repr

/-- The contents of one register set (R170, R178): nothing loaded since it was zeroed, or a tile by columns with its format, block
scales, and the address of a poisoned granule met in a column. `stream` marks a vector written into every column (R183). -/
structure Tile where
  loaded : Bool := false
  fmt    : Nat := 0
  mx     : Bool := false
  depth  : Nat := 0
  stream : Bool := false
  cols   : List (List Word) := []
  scales : List Bytes := []
  bad    : List (Option Nat) := []
  deriving DecidableEq, Repr

/-- The matrix array (R178, R181): both register sets, the set of the last pass accepted, the passes accepted, and the replay buffer
with the fill's fields, its rows, their scales and the poisoned granule met in each. -/
structure Mat where
  set0      : Tile := {}
  set1      : Tile := {}
  cur       : Bool := false
  passes    : List Pass := []
  rbValid   : Bool := false
  rbRows    : Nat := 0
  rbDepth   : Nat := 0
  rbFmt     : Byte := 0
  rbData    : List (List Word) := []
  rbScale   : List Bytes := []
  rbBad     : List (Option Nat) := []
  deriving DecidableEq, Repr

/-- The core store block (Table 9.3), the core's residue-error counter (R208), and the sticky flags of its memory-side adds (R81). -/
structure Store where
  eccCorr   : Nat := 0
  eccCheck  : Nat := 0
  eccUncorr : Nat := 0
  eccLast   : Word := 0
  scrubEn   : Bool := true
  pace      : Byte := 64
  scrubPos  : Nat := 0
  scrubOn   : Bool := false
  residue   : Nat := 0
  addFlags  : BitVec 4 := 0
  lastRead  : Bytes := []
  lastBad   : Bool := false
  deriving DecidableEq, Repr

/-- CACHE_PWR (Table 9.4) with the way in transition: data cache or not, way, powering up or not (R222). -/
structure CachePwr where
  dcOn    : BitVec 8 := 0xFF
  icOn    : BitVec 8 := 0xFF
  dcTgt   : BitVec 8 := 0xFF
  icTgt   : BitVec 8 := 0xFF
  clamped : Bool := false
  trans   : Option (Bool × Nat × Bool) := none
  idleCut : Bool := false
  deriving DecidableEq, Repr

/-- A core's ring block (Table 5.6). -/
structure RingBlock where
  trapBase  : Word := 0
  tstackPtr : Word := 0
  tstackLim : Word := 0
  gateBase  : Word := 0
  gateCount : BitVec 13 := 0
  deriving DecidableEq, Repr

/-- An LSU ADD request on its way to the memory (R101). -/
structure MemAdd where
  pa   : Nat
  size : Nat
  data : Word
  key  : BitVec 10
  ctx  : Nat
  deriving DecidableEq, Repr

/-- A VATADD request on its way to a guarded cell (R159); `item` is the op word's position in PUSHED. -/
structure CellAdd where
  pa   : Nat
  xa   : BitVec 128
  key  : BitVec 10
  ctx  : Nat
  item : Nat
  deriving DecidableEq, Repr

/-- One core. -/
structure CoreSt where
  seq    : Seq := {}
  vec    : Vec := {}
  mat    : Mat := {}
  mq     : QUnit := {}
  dq     : QUnit := {}
  pq     : QUnit := {}
  cq     : QUnit := {}
  icache : Map CLine := []
  dcache : Map CLine := []
  pwr    : CachePwr := {}
  store  : Store := {}
  rb     : RingBlock := {}
  adds   : List MemAdd := []
  cells  : List CellAdd := []
  deriving DecidableEq, Repr

/-! ## Table press -/

/-- Who sent a batch (R237): a core through PQ, or a descriptor of a PRESS command. -/
inductive BatchSrc where
  | pq (core : Nat) (idx : Nat)
  | cmd (queue : Nat) (serial : Nat)
  deriving DecidableEq, Repr

/-- A batch waiting in a lane (R237) with its descriptor. -/
structure BatchItem where
  src  : BatchSrc
  va   : Nat
  ring : BitVec 2
  ctx  : Nat
  desc : Bytes
  deriving DecidableEq, Repr

/-- One output vector being pooled (R244): its guarded sums with the special classes that entered each (bits 0 +∞, 1 −∞, 2 NaN), flags and
marks; `left` counts terms still to arrive. -/
structure Bag where
  n      : Nat
  left   : Nat
  sums   : List Guarded
  seen   : List (BitVec 3)
  flags  : BitVec 4
  poison : Bool
  error  : Bool
  deriving DecidableEq, Repr

/-- A row fetch a lane has still to issue (R237): bag, row, weight bits and whether weight or index read poisoned. -/
structure FetchTodo where
  bag : Nat
  row : Nat
  w   : Word
  bad : Bool
  deriving DecidableEq, Repr

/-- The batch a lane runs, under a number that its fetches and journal adds carry. `adds` counts journal adds not yet answered; `full`
gathers what they answered, `flags` the flags of its conversions. -/
structure BatchRun where
  id    : Nat
  item  : BatchItem
  desc  : Bytes
  bags  : List Bag
  todo  : List FetchTodo
  adds  : Nat
  full  : Bool
  flags : BitVec 4
  error : Bool
  deriving DecidableEq, Repr

/-- One press lane. -/
structure Lane where
  queue : List BatchItem := []
  run   : Option BatchRun := none
  deriving DecidableEq, Repr

/-- The journal entry of one row (R255): index position, data slot, guarded elements with the special classes that entered each (as in
`Bag`), poison bit, blended mark. -/
structure JEntry where
  row     : Nat
  pos     : Nat
  slot    : Nat
  elems   : List Guarded
  seen    : List (BitVec 3)
  poison  : Bool
  blended : Bool := false
  deriving DecidableEq, Repr

/-- A journal bank in use: its epoch, its entries in index order (R255), whether the epoch is closed, and the next fetch number of
each press when its last blend write was made (R258). -/
structure Bank where
  epoch   : Nat := 0
  used    : Bool := false
  closed  : Bool := false
  entries : List JEntry := []
  marks   : List Nat := []
  deriving DecidableEq, Repr

/-- A table (R242, R256, Table 10.6): 0 absent, 1 online, 2 draining, 3 offline; its record; open epoch; banks. -/
structure Table where
  st         : BitVec 2 := 0
  rc         : Option TableRec := none
  openEpoch  : Nat := 0
  banks      : Map Bank := []
  overflowed : Bool := false
  discarded  : Bool := false
  maxCount   : Nat := 0
  blendWait  : Nat := 0
  deriving DecidableEq, Repr

/-- Where a fetch's copy of a row comes from (R247). -/
inductive CopySrc where
  | cache (key : Nat)
  | cutting (slot : Nat)
  | home
  deriving DecidableEq, Repr

/-- A row fetch in flight: lane, batch, bag, row, copy bytes as read at issue with their poison, and the journal answer
once it has arrived (R247). `stale` marks a copy that a blend write has overtaken (R251). -/
structure Fetch where
  id      : Nat
  lane    : Nat
  run     : Nat
  bag     : Nat
  table   : Nat
  row     : Nat
  w       : Word
  wbad    : Bool
  src     : CopySrc
  copy    : Bytes
  bad     : Bool
  need    : Bool
  journal : Option (List (Nat × JEntry))
  stale   : Bool
  deriving DecidableEq, Repr

/-- Why a press writes a cutting or invalidates cached rows: a cutting is made (R251), an entry is blended (R258), a row is marked poisoned
(Table 8.3). -/
inductive CutWhy where
  | create
  | blend
  | poison
  deriving DecidableEq, Repr

/-- Press requests (Table 10.7). -/
inductive PressReq where
  | jlookup (table row fetch : Nat)
  | jadd (table row : Nat) (elems : List (BitVec 128)) (poison : Bool) (run : Nat)
  | cutWrite (table row slot : Nat) (data : Bytes) (bad : Bool) (why : CutWhy)
  | dirChange (table row slot : Nat) (st : BitVec 2)
  | rcInval (table row : Nat) (why : CutWhy)
  | candidate (table row : Nat)
  | cutCount (table row slot : Nat)
  deriving DecidableEq, Repr

/-- Answers to press requests (Table 10.7). -/
inductive PressAns where
  | entries (fetch : Nat) (es : List (Nat × JEntry))
  | added (run : Nat) (full : Bool)
  | cutWritten (table slot : Nat) (why : CutWhy)
  | dirChanged (table slot : Nat) (st : BitVec 2)
  | invalidated (table row : Nat) (why : CutWhy)
  | considered
  | count (table row slot n : Nat)
  deriving DecidableEq, Repr

/-- A row that waits for the fetch slot of its row-cache fill (R248, R259). -/
structure RowFill where
  table : Nat
  row   : Nat
  data  : Bytes
  deriving DecidableEq, Repr

/-- A cutting being made, judged or retired by its home press (R250, R251), and the answers still awaited: step 1 state 1 in the
directories, 2 the home row is to be read once a fetch slot is granted, 3 copies being written, 4 state 2 in the directories, 5 counts asked for, 6 state 3 in the
directories, 7 retiring until its fetches have completed, 8 state 0 in the directories. `below` counts quarters below the bound. -/
structure CutMove where
  table  : Nat
  row    : Nat
  slot   : Nat
  step   : Nat
  wait   : Nat
  below  : Nat := 0
  deriving DecidableEq, Repr

/-- A row-cache entry's tag (R248) and hot mark (R250); the row lies in the row-cache store (R241). -/
structure RowLine where
  valid : Bool := false
  ref   : Bool := false
  hot   : Bool := false
  count : Nat := 0
  table : Nat := 0
  row   : Nat := 0
  deriving DecidableEq, Repr

/-- A cutting directory entry (R250): 0 free, 1 creating, 2 live, 3 retiring. -/
structure DirEnt where
  st    : BitVec 2 := 0
  table : Nat := 0
  row   : Nat := 0
  slot  : Nat := 0
  count : Nat := 0
  deriving DecidableEq, Repr

/-- One quarter's press (R235 to R261, Table 10.6). Row-cache entries are numbered 8 × set + way; sketch counters
65536 × row + column; requests and answers are kept per sending quarter, oldest first, and so are the journal adds set aside until their
bank is free (R256). `bgSlots` are fetch slots granted to blending and cutting moves and not used yet (R259). -/
structure Press where
  lanes     : Map Lane := []
  nextRun   : Nat := 0
  fetches   : List Fetch := []
  nextFetch : Nat := 0
  nFetches  : Nat := 0
  cacheHits : Nat := 0
  cutHits   : Nat := 0
  overlays  : Nat := 0
  clampsCut : BitVec 32 := 0
  clampsSet : BitVec 32 := 0
  serveUsed : Nat := 0
  serveWin  : List Nat := []
  sinceBlend : Nat := 0
  bgSlots   : Nat := 0
  fills     : List RowFill := []
  rr        : Nat := 0
  residue   : Nat := 0
  blendFlg  : BitVec 4 := 0
  tableSel  : BitVec 12 := 0
  tCut      : Nat := 2
  active    : Option Nat := none
  cache     : Map RowLine := []
  sketch    : Map Nat := []
  ageHits   : Nat := 0
  ageCount  : Nat := 0
  movesDone : Nat := 0
  dir       : Map DirEnt := []
  moves     : List CutMove := []
  reqs      : Map (List PressReq) := []
  parked    : Map (List PressReq) := []
  answers   : Map (List PressAns) := []
  deriving DecidableEq, Repr

/-! ## HBM -/

/-- One granule of a request held by a pseudo-channel: the request cut to it, its class (R269) and context, its place in arrival order,
and the place of the request's first granule. -/
structure HReq where
  req   : HbmReq
  cls   : BitVec 2
  ctx   : Option Nat
  write : Bool
  seq   : Nat
  id    : Nat
  deriving DecidableEq, Repr

/-- One pseudo-channel (R270, R278). `cur` are the weighted round-robin values in the order urgent, normal, bulk,
background; `usedUrg` is the urgent data-bus time used in the window, in ns; `parErr` marks a parity error of the last command, `retry`
the access it makes the channel repeat (Table 11.1); `refBank` is the bank that a refresh occupies (R275). -/
structure PChan where
  reads    : List HReq := []
  writes   : List HReq := []
  served   : List HReq := []
  draining : Bool := false
  seq      : Nat := 0
  cur      : List Int := [0, 0, 0, 0]
  usedUrg  : Nat := 0
  fixQ     : List Nat := []
  parErr   : Bool := false
  retry    : Option HReq := none
  refBank  : Option (Nat × Nat) := none
  refDone  : Nat := 0
  lastData : Bytes := []
  lastBad  : Bool := false
  deriving DecidableEq, Repr

/-- One HBM controller (Tables 11.8, 11.10). `scrubPos` is 4p + g (R280); `addFlags` are the sticky flags of its memory-side adds (R81). -/
structure HbmCtl where
  w         : Weights := {}
  wNext     : Option Weights := none
  urgUse    : BitVec 10 := 0
  eccCorr   : Nat := 0
  eccCheck  : Nat := 0
  eccUncorr : Nat := 0
  eccLast   : Word := 0
  parRetry  : Nat := 0
  scrubEn   : Bool := true
  hours     : Byte := 24
  scrubPos  : Nat := 0
  scrubOn   : Bool := false
  doubled   : Bool := false
  temp      : Byte := 0
  wClamps   : BitVec 32 := 0
  addFlags  : BitVec 4 := 0
  deriving DecidableEq, Repr

/-- A key slot (R282, R361): 0 EMPTY, 1 BYPASS, 2 LOADED, with its generation and XTS key pair. -/
structure KeySlot where
  st  : BitVec 2 := 0
  gen : BitVec 16 := 0
  key : BitVec 512 := 0
  deriving DecidableEq, Repr

/-- A change of a key slot waiting for rackings (R282): the value and the partitions still to rack. -/
structure KeyPend where
  slot  : Nat
  value : KeySlot
  parts : List Nat
  deriving DecidableEq, Repr

/-- Transaction tags of one quarter's controllers (R274): (requester, class) of each in use, the highest count, and the requests that wait
for a tag, for room in a write queue or for the clearing of a region, in arrival order, with whether each writes. -/
structure Tags where
  used : List (MemAgent × BitVec 2) := []
  high : Nat := 0
  wait : List (HbmReq × Bool) := []
  deriving DecidableEq, Repr

/-! ## Fabric -/

/-- A router, or a gateway between quarters (R225, Table 9.6). -/
structure Hop where
  quarter : Nat
  x       : Nat
  y       : Nat
  deriving DecidableEq, Repr

/-- A packet on the fabric (R226, R228): class, ends, size, where it is and by which input (0 an attachment, 1 west, 2 east,
3 north, 4 south, 5 + k the gateway from place k, 10 its sink, 11 to 16 the edge units, Table 9.6), whether it is on the wire to that place, and whether it has yet to
cross a die-to-die link. -/
structure FPacket where
  id      : Nat
  cls     : Nat
  src     : Attach
  dst     : Attach
  bytes   : Nat
  at_     : Hop
  inp     : Nat
  wire    : Bool
  outward : Bool
  deriving DecidableEq, Repr

/-- A response that a request reserved space for (R230): the request's packet, its two ends, the bytes, whether the target has accepted
the request, and the packet that carries the response once it is sent. -/
structure Owed where
  req   : Nat
  src   : Attach
  dst   : Attach
  bytes : Nat
  taken : Bool := false
  reply : Option Nat := none
  deriving DecidableEq, Repr

/-- The quarter fabrics. Delivered packets leave `packets` and count in `delivered` by class; `owed` lists the responses that space is
reserved for. -/
structure Fabric where
  packets   : List FPacket := []
  owed      : List Owed := []
  next      : Nat := 0
  delivered : Map Nat := []
  deriving DecidableEq, Repr

/-! ## Translation and DMA -/

/-- An entry of a quarter's ATS translation cache (R291). -/
structure AtsEnt where
  pasid : BitVec 20
  page  : Nat
  dest  : Nat
  rd    : Bool
  wr    : Bool
  deriving DecidableEq, Repr

/-- A Page Request sent to the host (R298); `dead` once a forced racking has ended its transfer, so that the response is discarded
(R300). -/
structure PageReq where
  pasid : BitVec 20
  page  : Nat
  wr    : Bool
  group : Nat
  dead  : Bool := false
  deriving DecidableEq, Repr

/-- Translation registers (Table 12.7) and PCIe translation traffic. `invWait` and `atsDrops` hold the numbers of the chunks in flight that
an invalidation or an ATS Invalidate Request waits for (R291, R292). -/
structure Xlat where
  invCtx     : BitVec 10 := 0
  invFirst   : BitVec 12 := 0
  invCount   : BitVec 13 := 0
  busy       : Bool := false
  invErr     : Bool := false
  doneSeq    : BitVec 16 := 0
  invIgnored : Nat := 0
  stale      : Nat := 0
  busyCtx    : Nat := 0
  invWait    : List Nat := []
  nextChunk  : Nat := 0
  ats        : Map (List AtsEnt) := []
  atsWait    : List (Nat × BitVec 20 × Nat) := []
  atsDrops   : List (List Nat) := []
  atsInvDone : Nat := 0
  pageReqs   : List PageReq := []
  tlb        : Map (List (Nat × Nat)) := []
  deriving DecidableEq, Repr

/-- Who sent a transfer (R294): a command's descriptor, or a DQ push of a core. -/
inductive XferSrc where
  | cmd (queue : Nat) (serial : Nat) (desc : Nat)
  | dq (core : Nat) (idx : Nat)
  deriving DecidableEq, Repr

/-- Where a transfer stands (Table 12.7, CHAN_STATUS). -/
inductive XferSt where
  | waiting
  | running
  | preempted
  | parked
  deriving DecidableEq, Repr

/-- A chunk in flight (R296): row, offset, length, source and destination pieces as translated (physical address and bytes),
their key slots, the extent entries and the host pages (PASID and page) it was translated through, and its number. -/
structure Chunk where
  row  : Nat
  off  : Nat
  len  : Nat
  src  : List (Nat × Nat)
  dst  : List (Nat × Nat)
  skey : BitVec 10
  dkey : BitVec 10
  exts : List Nat
  pages : List (BitVec 20 × Nat)
  id   : Nat
  deriving DecidableEq, Repr

/-- A DMA transfer (R294 to R303). `row`, `off` are where translation goes on; `progress` counts completed chunks;
`digest` holds the bytes written so far when it is measured. `parking` holds a fault met (on the host's page, on the destination,
its virtual address) until the issued chunks complete. -/
structure Xfer where
  src      : XferSrc
  ctx      : Nat
  ring     : BitVec 2
  level    : BitVec 2
  descVa   : Nat
  fill     : Bool
  cls      : Nat
  measured : Bool
  rowBytes : Nat
  rows     : Nat
  srcVa    : Nat
  srcStr   : Int
  dstVa    : Nat
  dstStr   : Int
  pattern  : Word
  st       : XferSt := .waiting
  row      : Nat := 0
  off      : Nat := 0
  flight   : List Chunk := []
  progress : Nat := 0
  digest   : Bytes := []
  faultSeq : BitVec 32 := 0
  parking  : Option (Bool × Bool × Nat) := none
  deriving DecidableEq, Repr

/-- A transfer on its way to its channel, which its COPY or FILL step takes in (R295). A command's descriptor has been read and
checked already, and `meas` tells whether it holds a log entry (R303). -/
structure Arrive where
  src   : XferSrc
  ctx   : Nat
  ring  : BitVec 2
  level : BitVec 2
  va    : Nat
  desc  : Option Bytes
  meas  : Bool := false
  deriving DecidableEq, Repr

/-- One DMA channel: arrivals, its transfers in arrival order, HOST_RESP and the park counts (Table 12.7). -/
structure Chan where
  arrive   : List Arrive := []
  xfers    : List Xfer := []
  hostResp : BitVec 3 := 0
  parks    : BitVec 32 := 0
  lastSeq  : Map (BitVec 32) := []
  deriving DecidableEq, Repr

/-- A rescue channel (R301, Table 12.7). -/
structure Rescue where
  desc : Map Word := []
  st   : BitVec 2 := 0
  addr : BitVec 48 := 0
  run  : Option Xfer := none
  skey : BitVec 10 := 0
  deriving DecidableEq, Repr

/-! ## Maruno link -/

/-- One direction's key material and packet sequence number (R313 to R315). -/
structure DirKey where
  key : BitVec 256 := 0
  iv  : BitVec 96 := 0
  psn : Nat := 0
  deriving DecidableEq, Repr

/-- An SPDM session (R313): exchanged, finished, requester side, both directions, key updates in progress. -/
structure Session where
  exchanged : Bool := false
  ready     : Bool := false
  requester : Bool := false
  who       : Option PeerId := none
  tx        : DirKey := {}
  rx        : DirKey := {}
  updating  : Bool := false
  deriving DecidableEq, Repr

/-- A packet waiting to be sent on a link VC: header type, payload, and the port a route uses. -/
structure OutPkt where
  vc      : Bool
  typ     : BitVec 2
  plain   : Bool
  payload : Bytes
  port    : Nat
  deriving DecidableEq, Repr

/-- A Maruno port (Tables 13.7, 13.10; R309 to R311). Credits are in 64 B units: held for LVC0 and LVC1, and owed to
the partner for each. `since` is the device time at which the state was entered, `progAt` that of the last progress of ACK, `lost` that
at which each lane lost signal or lock, `lastCtl` that of the last LVC0 packet; `lastVc` is the VC of the last packet. -/
structure Port where
  st        : Nat := 8
  cause     : Nat := 0
  partDev   : BitVec 13 := 0
  partPort  : BitVec 5 := 0
  reversed  : Bool := false
  hold      : Bool := false
  flitsTx   : Nat := 0
  flitsRx   : Nat := 0
  fecCorr   : Nat := 0
  fecBad    : Nat := 0
  retries   : Nat := 0
  authFail  : Nat := 0
  departs   : Nat := 0
  lanes     : Map Byte := []
  ecn       : Nat := 0
  routeSel  : BitVec 13 := 0
  replay    : List (Nat × Nat × Bytes) := []
  txSeq     : Nat := 0
  rxSeq     : Nat := 0
  nakSent   : Bool := false
  cred0     : Nat := 0
  cred1     : Nat := 0
  owe0      : Nat := 0
  owe1      : Nat := 0
  rxBytes   : Bytes := []
  txBytes   : Bytes := []
  txPad     : Nat := 0
  outQ      : List OutPkt := []
  sess      : Session := {}
  flitOut   : Bytes := []
  mode      : BitVec 2 := 1
  since     : Nat := 0
  progAt    : Nat := 0
  lost      : Map Nat := []
  lastCtl   : Option Nat := none
  lastVc    : Bool := false
  deriving DecidableEq, Repr

/-- An Ethernet route's session and transport (R317, R321, Table 13.11); times as in `Port`. `unacked` lists sent packets by PSN
with their port. -/
structure Route where
  st       : Nat := 0
  cause    : Nat := 0
  sess     : Session := {}
  unacked  : List (Nat × Nat × Bytes) := []
  timeouts : Nat := 0
  ackDue   : Bool := false
  since    : Nat := 0
  progAt   : Nat := 0
  ackAt    : Nat := 0
  nakAt    : Option Nat := none
  lastCtl  : Option Nat := none
  lastVc   : Bool := false
  cred0    : Nat := 0
  cred1    : Nat := 0
  owe0     : Nat := 0
  owe1     : Nat := 0
  outQ     : List OutPkt := []
  frameOut : Bytes := []
  deriving DecidableEq, Repr

/-! ## Collectives and time -/

/-- A collective descriptor queued or running (Table 14.2), with its launcher. -/
structure CollItem where
  core  : Option (Nat × Nat)
  cmd   : Option (Nat × Nat)
  ctx   : Nat
  ring  : BitVec 2
  desc  : Bytes
  late  : Bool := false
  due   : Bool := false
  deriving DecidableEq, Repr

/-- A received collective piece (Table 14.6) with the cellar count at its arrival. -/
structure Piece where
  rank   : Nat
  seq    : Nat
  kind   : Nat
  step   : Nat
  op     : Nat
  fmt    : Nat
  count  : Nat
  offset : Nat
  elems  : Nat
  flags  : Byte
  data   : Bytes
  count0 : Nat
  deriving DecidableEq, Repr

/-- The operation a member runs (R334 to R345): its item, the device time and the cellar count of its start, its contribution, the
pieces received, the segment it runs with the flags of the segments before (R340), and of this segment the rounds done, the running
values with their flags, and its own finished block with its flags. -/
structure CollRun where
  item   : CollItem
  began  : Nat
  start  : Nat
  own    : List (BitVec 128)
  pieces : List Piece := []
  seg    : Nat := 0
  flags  : BitVec 4 := 0
  round  : Nat := 0
  value  : List Guarded := []
  fpval  : List (BitVec 128) := []
  vflags : BitVec 4 := 0
  block  : Option (List (BitVec 128 × BitVec 4)) := none
  passed : Bool := false
  deriving DecidableEq, Repr

/-- A collective group's local member (R337, R342 to R345, Table 14.10). -/
structure Group where
  nextSeq   : BitVec 32 := 0
  tag       : Option (BitVec 32) := none
  running   : Option CollRun := none
  queue     : List CollItem := []
  early     : List Piece := []
  lateAbort : Bool := false
  cause     : Byte := 0
  lastLag   : Option (Nat × Int) := none
  maxLag    : Option (Nat × Int) := none
  missing   : Option Nat := none
  aborts    : Nat := 0
  ended     : Map Nat := []
  deriving DecidableEq, Repr

/-- A quarter's collective unit (Table 14.10). -/
structure Coll where
  sel      : BitVec 12 := 0
  discards : Nat := 0
  residue  : Nat := 0
  deriving DecidableEq, Repr

/-- The cellar count and its block (R347 to R350, Table 14.11). `slew` counts ticks still to insert, or to
withhold when negative; `slewAt` and `edgeAt` are device times of the last slew and of the last edge or exchange. -/
structure Cellar where
  count    : Nat := 0
  ctrl     : BitVec 29 := 0
  period   : BitVec 32 := 1000000
  load     : Word := 0
  locked   : Bool := false
  holdover : Bool := false
  refLost  : Bool := false
  armed    : Bool := false
  refused  : Bool := false
  missed   : BitVec 16 := 0
  offset   : Int := 0
  launches : Nat := 0
  slew     : Int := 0
  seq      : BitVec 16 := 0
  t1       : Option Nat := none
  t2       : Option Nat := none
  t3       : Option Nat := none
  replied  : Bool := true
  stepped  : Bool := false
  slewAt   : Option Nat := none
  edgeAt   : Nat := 0
  deriving DecidableEq, Repr

/-! ## Management and power -/

/-- What the signing engine signs (R357): a provenance record of a queue's command, an SPDM response, or the
verification of a firmware update, answered on the binding it arrived on. -/
inductive SignReq where
  | provenance (queue serial part : Nat) (pa : Nat) (key : BitVec 10) (record : Option Bytes)
  | challenge (b : Binding)
  | session (peer : SpdmPeer)
  | firmware (b : Binding)
  deriving DecidableEq, Repr

/-- The last answer on a management interface (R354 to R362). -/
inductive Answer where
  | none
  | refused
  | base (code : Byte)
  | eid (e : Byte)
  | version
  | capabilities
  | algorithms
  | digests (slots : Byte)
  | certificate (debug : Bool)
  | emptySlot
  | challenge (sig : Bytes)
  | measurements
  | session
  | finished
  | keyUpdated
  | heartbeat
  | ended
  | sensor (id : Nat) (value : Int)
  | thresholds
  | firmware (ok : Bool)
  | loaded
  deriving DecidableEq, Repr

/-- Events that the controller sends (R362, R383): a crossing of a sensor's warning or critical level, upward or not, and a fault
of SEV3 or SEV4. -/
inductive MgmtEvent where
  | crossing (sensor : Nat) (critical up : Bool)
  | fault (src : Nat) (cause : Byte) (sev : Nat)
  deriving DecidableEq, Repr

/-- The management controller and root of trust (R353 to R362). Flash bytes are those of Table 18.7. -/
structure Mgmt where
  i3cAddr  : Option (BitVec 7) := .none
  eid      : Byte := 0
  i3cDown  : Bool := false
  i3cFault : Nat := 0
  answer   : Answer := .none
  ansI3c   : Bool := true
  sess     : Map Session := []
  flash    : Map Byte := []
  updated  : Bool := false
  sensors  : Map Int := []
  limits   : Map (Option (Int × Int)) := []
  events   : List MgmtEvent := []
  signing  : Option SignReq := .none
  prov     : List SignReq := []
  others   : List SignReq := []
  keys     : Map KeySlot := []
  keyPend  : List KeyPend := []
  secrets  : Bool := true
  deriving DecidableEq, Repr

/-- The test access port (R359): IDCODE selected, bypass, the open nonce, DEBUG, next allowed attempt. -/
structure Jtag where
  ir      : Nat := 0
  nonce   : Option (BitVec 256) := none
  debug   : Bool := false
  nextTry : Nat := 0
  deriving DecidableEq, Repr

/-- A quarter's power loop and block (R363 to R367, R414): the cap in W, powers in 0.1 W, the last ten samples, newest first; `target`
is the AVSBus frame sent and not yet answered, in mV, with whether a clock step up waits for it, `raise` the device time from which the
clock may step up, `tries` the failures of the frame. -/
structure Power where
  cap     : BitVec 16 := 550
  now     : BitVec 16 := 0
  samples : List Nat := []
  mhz     : Nat := 1500
  mv      : Nat := 800
  clamps  : BitVec 32 := 0
  safety  : BitVec 2 := 0
  events  : Nat := 0
  above   : Bool := false
  held    : Bool := false
  sinceUp : Nat := 0
  holdAt  : Nat := 0
  target  : Option (Nat × Bool) := none
  raise   : Option Nat := none
  tries   : Nat := 0
  phase   : Nat := 0
  cycles  : Nat := 0
  halted  : Bool := false
  deriving DecidableEq, Repr

/-- A unit state word (Table 15.7). -/
structure UnitWord where
  gen   : BitVec 32 := 0
  oper  : BitVec 2 := 0
  adm : BitVec 2 := 0
  deriving DecidableEq, Repr

/-! ## Fault collector -/

/-- A fault on its way to the collector (R373, the alarm path): source, severity, cause, target, injection mark, detail.
`own` marks a fault the sequencer of a core itself raised (R385), `dry` one whose source held no class-1 credit for its detail (R380). -/
structure Alarm where
  src  : Nat
  sev  : Nat
  cause : Byte
  ctx  : Option Nat
  part : Option Nat
  inj  : Bool := false
  own  : Bool := false
  dry  : Bool := false
  addr : Nat := 0
  info : BitVec 32 := 0
  deriving DecidableEq, Repr

/-- A fault slot (Table 16.3). `wait` marks a record whose detail is on its way. -/
structure FSlot where
  valid   : Bool := false
  sev     : Nat := 0
  esc     : Bool := false
  inj     : Bool := false
  detail  : Bool := false
  wait    : Bool := false
  fatal   : Bool := false
  src     : Byte := 0
  cause   : Byte := 0
  rep     : Byte := 0
  ctx     : Option Nat := none
  part    : Option Nat := none
  maxSev  : Nat := 0
  cellar  : Word := 0
  addr    : Word := 0
  seq     : BitVec 32 := 0
  info    : BitVec 32 := 0
  deriving DecidableEq, Repr

/-- An injection channel (R392, Table 16.8). -/
structure Inject where
  target  : BitVec 32 := 0
  armed   : Bool := false
  refused : Bool := false
  src     : Nat := 0
  code    : Nat := 0
  kind    : Nat := 0
  remain  : Nat := 0
  deriving DecidableEq, Repr

/-- The fault collector (Table 16.8), the alarms and details on their way to it, and the errors its own storage holds
(word number to flipped bits). `edge` is the device time of the last edge of ALIVE. -/
structure Collector where
  slots     : Map FSlot := []
  first     : FSlot := {}
  concur    : BitVec 256 := 0
  concurN   : Nat := 0
  irqVec    : BitVec 11 := 0x7FF
  ackStale  : Nat := 0
  faultN    : Nat := 0
  sevN      : Map Nat := []
  escN      : Nat := 0
  sev0      : Map Nat := []
  dropped   : Map Nat := []
  seq       : BitVec 32 := 1
  fatal     : Bool := false
  alive     : Bool := false
  aliveOn   : Bool := false
  edge      : Nat := 0
  hbAt      : Option Nat := none
  hbLost    : Bool := false
  inj0      : Inject := {}
  inj1      : Inject := {}
  flight    : List Alarm := []
  details   : Map (Option (Nat × BitVec 32)) := []
  firstWait : Option Nat := none
  stErr     : Map WordErr := []
  readOut   : Word := 0
  deriving DecidableEq, Repr

/-! ## Boot, and the state -/

/-- Boot and reset (Table 17.5; R395 to R405). -/
structure Boot where
  phase    : BitVec 4 := 0
  last     : BitVec 4 := 0
  fwSlot   : BitVec 2 := 0
  failed   : BitVec 12 := 0
  fallback : BitVec 12 := 0
  resetLow : Bool := true
  perstLow : Bool := true
  rails    : Bool := false
  refclk   : Bool := true
  d2d      : Bool := false
  cores    : BitVec 64 := 0
  hbmDone  : BitVec 12 := 0
  trained  : BitVec 12 := 0
  linkUp   : Bool := false
  tripped  : Bool := false
  deriving DecidableEq, Repr

/-- The state of the block. `pending` is the queue of commands, front first; `free` and `now` are the model's own. -/
structure State where
  pending   : List Instr := []
  free      : Nat := 0
  now       : Nat := 0
  mem       : List Host.Cell := []
  poison    : Map (BitVec 3) := []
  written   : Map Bool := []
  sramErr   : Map WordErr := []
  hbmErr    : Map (Map Byte) := []
  sramFix   : List (Nat × WordErr) := []
  hostBad   : Map Bool := []
  clearing  : List Nat := []
  host      : HostIf := {}
  trellis   : Trellis := {}
  active    : Active := {}
  parts     : Map Part := []
  ctxs      : Map Ctx := []
  queues    : Map Queue := []
  cores     : Map CoreSt := []
  presses   : Map Press := []
  tables    : Map Table := []
  hbm       : Map HbmCtl := []
  pchans    : Map PChan := []
  tags      : Map Tags := []
  fabric    : Fabric := {}
  xlat      : Xlat := {}
  chans     : Map Chan := []
  rescues   : Map Rescue := []
  ports     : Map Port := []
  routes    : Map Route := []
  groups    : Map Group := []
  colls     : Map Coll := []
  cellar    : Cellar := {}
  mgmt      : Mgmt := {}
  jtag      : Jtag := {}
  power     : Map Power := []
  units     : Map UnitWord := []
  unitRefused : Nat := 0
  faults    : Collector := {}
  boot      : Boot := {}
  deriving DecidableEq, Repr

/-- Reasons a step can stop with a fault. -/
inductive Fault where
  /-- Raised by the meanings of DATA_FLIT and IDLE_FLIT for an operand that spells no command of the block: a flit that is not
  272 bytes long (R307). Safe: the hardware never meets such a command. -/
  | illFormed
  deriving DecidableEq, Repr

/-- Reasons a step can be refused. -/
inductive Refusal where
  /-- The command has no meaning in the model yet. Safe: nothing can be proved of a step that is refused. -/
  | notModelled (mnemonic : String)
  deriving DecidableEq, Repr

/-- The state right after a cold reset begins (R397, R398): every field at its reset value, nothing listed in memory, and
no command pending. -/
def State.reset : State := {}

end Sys2Proof.Machine
end

