-- ==== Sys2Proof/Machine/Flags.lean ====
section
/-!
DEFINITION. Exact values, rounding, the four arithmetic flags, and conversion into every number format (R63 to R86).
-/

namespace Sys2Proof.Machine

/-! ## Flags (Table 3.7), in the bit order of RDFLAGS (R153) -/

abbrev Flags := BitVec 4

def fInexact : Flags := 1
def fOverflow : Flags := 2
def fInvalid : Flags := 4
def fCvtSat : Flags := 8

/-- `f` when `b` holds, no flag otherwise. -/
def flagIf (b : Bool) (f : Flags) : Flags := if b then f else 0

/-! ## Exact values -/

/-- An exact operand or intermediate value: a NaN (signalling or not, R69), an infinity, or (-1)^neg × m × 2^e. -/
inductive Val where
  | nan (sig : Bool)
  | inf (neg : Bool)
  | fin (neg : Bool) (m : Nat) (e : Int)
  deriving DecidableEq, Repr

def Val.zero : Val := .fin false 0 0

def Val.isNan : Val → Bool
  | .nan _ => true
  | _ => false

def Val.isSig : Val → Bool
  | .nan s => s
  | _ => false

def Val.isZero : Val → Bool
  | .fin _ m _ => m == 0
  | _ => false

def Val.isInf : Val → Bool
  | .inf _ => true
  | _ => false

def Val.sign : Val → Bool
  | .nan _ => false
  | .inf n => n
  | .fin n _ _ => n

def Val.neg : Val → Val
  | .nan s => .nan s
  | .inf n => .inf !n
  | .fin n m e => .fin (!n) m e

def Val.abs : Val → Val
  | .nan s => .nan s
  | .inf _ => .inf false
  | .fin _ m e => .fin false m e

def Val.ofInt (i : Int) : Val := .fin (i < 0) i.natAbs 0

/-- A finite value as a multiple of 2^q, for q not above its exponent. -/
def scaled (n : Bool) (m : Nat) (e q : Int) : Int :=
  let k : Int := (m <<< (e - q).toNat : Nat)
  if n then -k else k

/-- Exact sum. The sign of a zero sum of non-zero terms follows the rounding mode (R67). -/
def Val.add (rm : BitVec 2) (a b : Val) : Val × Flags :=
  let sg := flagIf (a.isSig || b.isSig) fInvalid
  match a, b with
  | .nan _, _ => (.nan false, sg)
  | _, .nan _ => (.nan false, sg)
  | .inf x, .inf y => if x = y then (.inf x, 0) else (.nan false, fInvalid)
  | .inf x, .fin .. => (.inf x, 0)
  | .fin .., .inf y => (.inf y, 0)
  | .fin x m e, .fin y n f =>
    if m = 0 && n = 0 then (.fin (if x = y then x else rm == 3) 0 0, 0)
    else
      let q := min e f
      let t := scaled x m e q + scaled y n f q
      if t = 0 then (.fin (rm == 3) 0 0, 0) else (.fin (t < 0) t.natAbs q, 0)

/-- Exact product. -/
def Val.mul (a b : Val) : Val × Flags :=
  let sg := flagIf (a.isSig || b.isSig) fInvalid
  match a, b with
  | .nan _, _ => (.nan false, sg)
  | _, .nan _ => (.nan false, sg)
  | .inf x, .inf y => (.inf (x != y), 0)
  | .inf x, .fin y n _ => if n = 0 then (.nan false, fInvalid) else (.inf (x != y), 0)
  | .fin x m _, .inf y => if m = 0 then (.nan false, fInvalid) else (.inf (x != y), 0)
  | .fin x m e, .fin y n f => (.fin (x != y) (m * n) (e + f), 0)

/-- a × b + c with every step exact. An invalid product decides whatever c holds (R150). -/
def Val.fma (rm : BitVec 2) (a b c : Val) : Val × Flags :=
  let (p, f) := a.mul b
  let (r, g) := p.add rm c
  (r, f ||| g)

/-- Multiply a value by 2^k. -/
def Val.scale (v : Val) (k : Int) : Val :=
  match v with
  | .fin n m e => .fin n m (e + k)
  | w => w

/-- Total order of two values that are not NaN; -0 stands below +0 when `signed` is set (R150, R186). -/
def Val.lt (signed : Bool) (a b : Val) : Bool :=
  match a, b with
  | .nan _, _ => false
  | _, .nan _ => false
  | .inf x, .inf y => x && !y
  | .inf x, .fin .. => x
  | .fin .., .inf y => !y
  | .fin x m e, .fin y n f =>
    let q := min e f
    let i := scaled x m e q
    let j := scaled y n f q
    i < j || (signed && m == 0 && n == 0 && x && !y)

/-- Equality of values that are not NaN; the two zeros are equal. -/
def Val.eqv (a b : Val) : Bool := !a.isNan && !b.isNan && !(a.lt false b) && !(b.lt false a)

/-! ## Rounding (R71, R72) -/

/-- Round m × 2^e, plus a positive amount too small to see when `sticky` is set, to a multiple of 2^q in mode `rm`: the
multiple and whether bits were discarded. -/
def roundTo (rm : BitVec 2) (neg : Bool) (m : Nat) (e q : Int) (sticky : Bool) : Nat × Bool :=
  let up (n : Nat) (gt tie inex : Bool) : Nat :=
    match rm with
    | 0 => if gt || (tie && n % 2 = 1) then n + 1 else n
    | 1 => n
    | 2 => if inex && !neg then n + 1 else n
    | _ => if inex && neg then n + 1 else n
  if q ≤ e then
    let n := m <<< (e - q).toNat
    (up n false false sticky, sticky)
  else
    let k := (q - e).toNat
    let n := m >>> k
    let r := m % 2 ^ k
    let half := 2 ^ (k - 1)
    let inex := r != 0 || sticky
    (up n (half < r || (r = half && sticky)) (r = half && !sticky) inex, inex)

/-! ## Formats (Tables 3.1, 3.2) -/

/-- A floating-point format: exponent and fraction widths, bias, exponent and significand of the largest finite value, and
whether it has infinities. -/
structure FpFmt where
  eb     : Nat
  fb     : Nat
  bias   : Nat
  emax   : Int
  nmax   : Nat
  hasInf : Bool
  deriving DecidableEq, Repr

/-- Layout of format codes 0x0 to 0x7 (Table 3.2). -/
def fpFmt : Nat → Option FpFmt
  | 0 => some ⟨11, 52, 1023, 1023, 2 ^ 53 - 1, true⟩
  | 1 => some ⟨8, 23, 127, 127, 2 ^ 24 - 1, true⟩
  | 2 => some ⟨8, 7, 127, 127, 2 ^ 8 - 1, true⟩
  | 3 => some ⟨5, 10, 15, 15, 2 ^ 11 - 1, true⟩
  | 4 => some ⟨5, 2, 15, 15, 7, true⟩
  | 5 => some ⟨4, 3, 7, 8, 14, false⟩
  | 6 => some ⟨3, 2, 3, 4, 7, false⟩
  | 7 => some ⟨2, 1, 1, 2, 3, false⟩
  | _ => none

/-- Width in bits of the integer formats. -/
def intFmt : Nat → Option Nat
  | 8 => some 8
  | 9 => some 4
  | 10 => some 16
  | 11 => some 32
  | 12 => some 64
  | _ => none

/-- Width in bits of a format code (Table 3.1); 0 for a code that is no format. -/
def fmtBits : Nat → Nat
  | 0 => 64 | 1 => 32 | 2 => 16 | 3 => 16 | 4 => 8 | 5 => 8 | 6 => 6 | 7 => 4
  | 8 => 8 | 9 => 4 | 10 => 16 | 11 => 32 | 12 => 64 | 13 => 128 | _ => 0

/-- Bytes of a format's container in a vector register (Table 6.2). -/
def container (f : Nat) : Nat := max 1 (fmtBits f / 8)

/-- A format narrower than 8 bits (R70). -/
def subByte (f : Nat) : Bool := f = 6 || f = 7 || f = 9

/-- Canonical NaN of a floating-point format (R68). -/
def canonNan (F : FpFmt) : Nat :=
  if F.hasInf then (2 ^ F.eb - 1) * 2 ^ F.fb + 2 ^ (F.fb - 1) else 2 ^ (F.eb + F.fb) - 1

/-- Sign and magnitude put together. -/
def withSign (F : FpFmt) (neg : Bool) (mag : Nat) : Nat := (if neg then 2 ^ (F.eb + F.fb) else 0) + mag

/-- Encoding of the largest finite value (Table 3.2). -/
def maxFinite (F : FpFmt) : Nat := ((F.emax + F.bias).toNat <<< F.fb) + (F.nmax - 2 ^ F.fb)

/-- Encoding of infinity. -/
def infBits (F : FpFmt) : Nat := (2 ^ F.eb - 1) * 2 ^ F.fb

/-- Encode a finite value, plus a sticky remainder, with one rounding; overflow follows Table 3.8. -/
def encodeFp (F : FpFmt) (rm : BitVec 2) (sat : Bool) (neg : Bool) (m : Nat) (e : Int) (sticky : Bool) : Nat × Flags :=
  if m = 0 then (withSign F neg 0, 0)
  else
    let x : Int := m.log2 + e
    let emin : Int := 1 - F.bias
    let (n, _) := roundTo rm neg m e (x - F.fb) sticky
    let (n, x') := if n = 2 ^ (F.fb + 1) then (2 ^ F.fb, x + 1) else (n, x)
    if F.emax < x' || (x' = F.emax && F.nmax < n) then
      let toInf := F.hasInf && !sat && (rm = 0 || (rm = 2 && !neg) || (rm = 3 && neg))
      (withSign F neg (if toInf then infBits F else maxFinite F), fCvtSat)
    else if emin ≤ x' && emin ≤ x then
      (withSign F neg (((x' - emin + 1).toNat <<< F.fb) + (n - 2 ^ F.fb)), 0)
    else
      (withSign F neg (roundTo rm neg m e (emin - F.fb) sticky).1, 0)

/-! ## XA128 (R75 to R78) -/

def xaNan : BitVec 128 := 0x80000000000000000000000000000000#128
def xaNinf : BitVec 128 := 0x80000000000000000000000000000001#128
def xaMin : BitVec 128 := 0x80000000000000000000000000000002#128
def xaMax : BitVec 128 := 0x7FFFFFFFFFFFFFFFFFFFFFFFFFFFFFFE#128
def xaPinf : BitVec 128 := 0x7FFFFFFFFFFFFFFFFFFFFFFFFFFFFFFF#128

/-- Class of an encoding (R76, Table 3.4). -/
def xaClass (x : BitVec 128) : XClass :=
  if x = xaNan then .nan else if x = xaNinf then .ninf else if x = xaPinf then .pinf else .fin

/-- The class rule of R76, and whether it makes a NaN from the two infinities. -/
def classAdd : XClass → XClass → XClass × Bool
  | .nan, _ => (.nan, false)
  | _, .nan => (.nan, false)
  | .pinf, .ninf => (.nan, true)
  | .ninf, .pinf => (.nan, true)
  | .pinf, _ => (.pinf, false)
  | _, .pinf => (.pinf, false)
  | .ninf, _ => (.ninf, false)
  | _, .ninf => (.ninf, false)
  | .fin, .fin => (.fin, false)

/-- Encoding of a class; the finite part is kept. -/
def xaOfClass (c : XClass) (x : BitVec 128) : BitVec 128 :=
  match c with
  | .fin => x
  | .pinf => xaPinf
  | .ninf => xaNinf
  | .nan => xaNan

/-- Saturate an exact multiple of 2^-64 to the finite range (R77, R78). -/
def xaSat (i : Int) : BitVec 128 × Flags :=
  if xaMax.toInt < i then (xaMax, fOverflow)
  else if i < xaMin.toInt then (xaMin, fOverflow)
  else (BitVec.ofInt 128 i, 0)

/-- Fixed-order addition (R76, R77). -/
def xaAdd (a b : BitVec 128) : BitVec 128 × Flags :=
  let (c, inv) := classAdd (xaClass a) (xaClass b)
  if c = .fin then xaSat (a.toInt + b.toInt) else (xaOfClass c 0, flagIf inv fInvalid)

/-- The exact value of an encoding (R85). -/
def xaVal (x : BitVec 128) : Val :=
  match xaClass x with
  | .nan => .nan false
  | .pinf => .inf false
  | .ninf => .inf true
  | .fin => .fin (x.toInt < 0) x.toInt.natAbs (-64)

/-- Conversion into XA128 (R84, Table 3.8). -/
def toXa (rm : BitVec 2) (v : Val) (sticky : Bool := false) : BitVec 128 × Flags :=
  match v with
  | .nan s => (xaNan, flagIf s fInvalid)
  | .inf n => (if n then xaNinf else xaPinf, 0)
  | .fin n m e =>
    let (k, inex) := roundTo rm n m e (-64) sticky
    let (x, f) := xaSat (if n then -(k : Int) else k)
    (x, f ||| flagIf inex fInexact)

/-- A magnitude of 2^63 or more. -/
def Val.beyond : Val → Bool
  | .fin _ m e => m != 0 && 63 ≤ (m.log2 : Int) + e
  | _ => false

/-- Entry of an exact product or term (R79): beyond the window OVERFLOW alone is set (step 4), else the term is rounded in RNE (step 5).
A magnitude in (XA_MAX, 2^63) saturates with OVERFLOW (log entry 15). -/
def xaTerm (v : Val) : BitVec 128 × Flags :=
  if v.beyond then (if v.sign then xaMin else xaMax, fOverflow) else toXa 0 v

/-- Adding an operand to the guarded form (R78). -/
def Guarded.add (g : Guarded) (x : BitVec 128) : Guarded × Flags :=
  let (c, inv) := classAdd g.cls (xaClass x)
  (⟨if xaClass x = .fin then g.reg + x.signExtend 144 else g.reg, c⟩, flagIf inv fInvalid)

/-- Narrowing the guarded form to XA128 (R78). -/
def Guarded.narrow (g : Guarded) : BitVec 128 × Flags :=
  if g.cls = .fin then xaSat g.reg.toInt else (xaOfClass g.cls 0, 0)

/-! ## Conversion into any format (R82 to R85) -/

/-- Encoding of an integer format. -/
def encodeInt (w : Nat) (i : Int) : Nat := (BitVec.ofInt w i).toNat

/-- One conversion with one rounding: destination format, mode, SAT bit, value and sticky remainder (Table 3.8). -/
def convert (fd : Nat) (rm : BitVec 2) (sat : Bool) (v : Val) (sticky : Bool := false) : BitVec 128 × Flags :=
  match fpFmt fd with
  | some F =>
    match v with
    | .nan s =>
      if fd = 6 || fd = 7 then (0, fInvalid) else (BitVec.ofNat 128 (canonNan F), flagIf s fInvalid)
    | .inf n =>
      if F.hasInf then (BitVec.ofNat 128 (withSign F n (infBits F)), 0)
      else (BitVec.ofNat 128 (withSign F n (maxFinite F)), fCvtSat ||| fInvalid)
    | .fin n m e => let (x, f) := encodeFp F rm sat n m e sticky; (BitVec.ofNat 128 x, f)
  | none =>
    match intFmt fd with
    | some w =>
      let lo : Int := -(2 ^ (w - 1))
      let hi : Int := 2 ^ (w - 1) - 1
      match v with
      | .nan _ => (0, fInvalid)
      | .inf n => (BitVec.ofNat 128 (encodeInt w (if n then lo else hi)), fCvtSat ||| fInvalid)
      | .fin n m e =>
        let k := (roundTo rm n m e 0 sticky).1
        let i : Int := if n then -(k : Int) else k
        if i < lo then (BitVec.ofNat 128 (encodeInt w lo), fCvtSat)
        else if hi < i then (BitVec.ofNat 128 (encodeInt w hi), fCvtSat)
        else (BitVec.ofNat 128 (encodeInt w i), 0)
    | none => toXa rm v sticky

/-! ## Division and square root, rounded once (R150) -/

/-- Integer square root of `n` with result below 2^bits, by bits from the top. -/
def isqrt (n : Nat) : Nat → Nat → Nat
  | 0, r => r
  | k + 1, r => let t := r + 2 ^ k; if t * t ≤ n then isqrt n k t else isqrt n k r

/-- The quotient a ÷ b: its value with enough bits, whether bits follow, and the flags of its operands. -/
def Val.div (a b : Val) : Val × Bool × Flags :=
  let sg := flagIf (a.isSig || b.isSig) fInvalid
  match a, b with
  | .nan _, _ => (.nan false, false, sg)
  | _, .nan _ => (.nan false, false, sg)
  | .inf _, .inf _ => (.nan false, false, fInvalid)
  | .inf x, .fin y _ _ => (.inf (x != y), false, 0)
  | .fin x _ _, .inf y => (.fin (x != y) 0 0, false, 0)
  | .fin x m e, .fin y n f =>
    if n = 0 then (if m = 0 then (.nan false, false, fInvalid) else (.inf (x != y), false, 0))
    else if m = 0 then (.fin (x != y) 0 0, false, 0)
    else
      let k := 128 + n.log2
      let q := (m <<< k) / n
      (.fin (x != y) q (e - f - k), (m <<< k) % n != 0, 0)

/-- The square root of a: its value with enough bits, whether bits follow, and its flags. -/
def Val.sqrt (a : Val) : Val × Bool × Flags :=
  match a with
  | .nan s => (.nan false, false, flagIf s fInvalid)
  | .inf n => if n then (.nan false, false, fInvalid) else (.inf false, false, 0)
  | .fin n m e =>
    if m = 0 then (.fin n 0 0, false, 0)
    else if n then (.nan false, false, fInvalid)
    else
      let k := 256 + (if e % 2 = 0 then 0 else 1)
      let w := m <<< k
      let r := isqrt w (w.log2 / 2 + 1) 0
      (.fin false r ((e - k) / 2), r * r != w, 0)

end Sys2Proof.Machine
end

