-- ==== Sys2Proof/Machine/Layout.lean ====
section
/-!
DEFINITION. Where things lie: a core's SRAM (R210, R218), the store of a table press with the bytes of its journal index, cutting
directory and row-cache tags (R241, R248, R250, R255), and a line of an HBM pseudo-channel (R263).
-/

namespace Sys2Proof.Machine

def sramBase : Nat := 0x10000000000

/-! ## The row-cache store of a quarter (R241) -/

/-- Journal data-slot pitch of a table (R241). -/
def jpitch (t : TableRec) : Nat := cdiv (18 * t.rowElems + cdiv t.rowElems 4) 64 * 64

/-- Scratch and resident units of a core (R28, R30): without a record, 512 units of scratch. -/
def Active.splitOf (A : Active) (c : Nat) : SplitRec :=
  (A.splits.find? fun r => r.core = c).getD ⟨0, c, 512, 0, 0⟩

/-- Bytes of a core's row-cache part. -/
def Active.rcPart (A : Active) (c : Nat) : Nat := (A.splitOf c).rowcache * 0x10000

/-- Bytes of a quarter's row-cache store (R241). -/
def Active.rcBytes (A : Active) (q : Nat) : Nat := ((from_ (16 * q) 16).map A.rcPart).sum

def Active.pressQ (A : Active) (q : Nat) : Option PressQRec := A.pressQs.find? fun r => r.quarter = q

/-- Tables homed in a quarter, in ascending table ID. -/
def Active.homes (A : Active) (q : Nat) : List TableRec :=
  sortBy (fun a b => a.table < b.table) (A.tables.filter fun t => t.homeQ = q)

/-- Bytes of the journal index and of the cutting directory, and of one row-cache set with its tag line. -/
def Active.idxBytes (A : Active) (q : Nat) : Nat := 128 * ((A.homes q).map (·.journalRows)).sum
def PressQRec.dirBytes (r : PressQRec) : Nat := 32 * r.cutSlots
def PressQRec.setBytes (r : PressQRec) : Nat := 128 + 8 * r.cutPitch

/-- Sets of a quarter's row cache, S of R241. -/
def Active.rcSets (A : Active) (q : Nat) : Nat :=
  match A.pressQ q with
  | none => 0
  | some r => (A.rcBytes q - A.idxBytes q - r.dirBytes) / r.setBytes

/-- Bytes of a quarter's press area (R241). -/
def Active.areaBytes (A : Active) (r : PressQRec) : Nat :=
  r.cutSlots * r.cutPitch + 4 * ((A.homes r.quarter).map fun t => t.journalRows * jpitch t).sum

/-- Address of a byte of the store: the parts of local cores 0 to 15 lie end to end. -/
def Active.storeAddr (A : Active) : List Nat → Nat → Nat
  | [], o => o
  | c :: l, o =>
    let r := A.splitOf c
    if o < A.rcPart c then sramBase + c * 0x2000000 + (r.scratch + r.resident) * 0x10000 + o else A.storeAddr l (o - A.rcPart c)

/-- Offset in its quarter's store of a byte of core `c`'s row-cache part. -/
def Active.storeOff (A : Active) (c off : Nat) : Nat :=
  let r := A.splitOf c
  ((from_ (16 * (c / 16)) (c % 16)).map A.rcPart).sum + (off - (r.scratch + r.resident) * 0x10000)

/-- Addresses and lengths of a range of the store, cut where it passes from one core's part to another. -/
def Active.storePieces (A : Active) (q o n : Nat) : List (Nat × Nat) :=
  let cs := from_ (16 * q) 16
  let at_ := A.storeAddr cs
  let k := (List.range 16).foldl (fun k i =>
    let e := ((cs.take (i + 1)).map A.rcPart).sum
    if o < e && e < o + k then e - o else k) n
  if k = n then [(at_ o, n)] else [(at_ o, k), (at_ (o + k), n - k)]

/-- Offset in the store of entry `k` (8 × set + way) of the row cache (R248). -/
def Active.rcOff (A : Active) (q : Nat) (r : PressQRec) (k : Nat) : Nat :=
  A.idxBytes q + r.dirBytes + k / 8 * r.setBytes + 128 + k % 8 * r.cutPitch

/-- Address of data slot `k` of the bank of epoch `e` of a home table (R241, R255). -/
def Active.slotOf (A : Active) (t : TableRec) (e k : Nat) : Option Nat :=
  (A.pressQ t.homeQ).map fun r =>
    let before := ((A.homes t.homeQ).filter fun x => x.table < t.table).map fun x => 4 * x.journalRows * jpitch x
    r.areaBase + r.cutSlots * r.cutPitch + before.sum + (e % 4 * t.journalRows + k) * jpitch t

/-! ## Bytes of the journal index, the cutting directory and the tags -/

/-- An index entry (R255). -/
def JEntry.bytes (j : JEntry) (table : Nat) : Bytes :=
  leBytes 5 j.row ++ leBytes 2 (table + 2 ^ 12 + 2 ^ 13 * b2n j.poison) ++ leBytes 4 j.slot ++ leBytes 5 0

/-- A directory entry (R250). -/
def DirEnt.bytes (e : DirEnt) : Bytes :=
  leBytes 5 e.row ++ leBytes 2 (e.table + 2 ^ 12 * e.st.toNat) ++ leBytes 3 e.slot ++ leBytes 1 e.count ++ leBytes 5 0

/-- A tag (R248). -/
def RowLine.bytes (e : RowLine) : Bytes :=
  leBytes 5 e.row ++ leBytes 2 (e.table + 2 ^ 12 * b2n e.valid + 2 ^ 13 * b2n e.ref) ++ leBytes 1 e.count ++ leBytes 8 0

/-- The guarded elements of a journal slot in memory (R255). -/
def journalSlotBytes (t : TableRec) (es : List Guarded) : Bytes :=
  let cls (g : Guarded) : Nat := match g.cls with
    | .fin => 0
    | .pinf => 1
    | .ninf => 2
    | .nan => 3
  let quad (i : Nat) : Nat := ((List.range 4).map fun j => cls (es.getD (4 * i + j) {}) * 4 ^ j).sum
  let bs := es.flatMap (fun g => leBytes 16 g.reg.toNat) ++ es.flatMap (fun g => leBytes 2 (g.reg.toNat / 2 ^ 128)) ++
    (List.range (cdiv t.rowElems 4)).flatMap fun i => leBytes 1 (quad i)
  bs ++ List.replicate (jpitch t - bs.length) 0

/-- The index entry at a byte of the store's index, of a home table: its 16 bytes. -/
def State.indexBytes (s : State) : List TableRec → Nat → Bytes
  | [], _ => []
  | t :: l, o =>
    let n := 128 * t.journalRows
    if o < n then
      let x := s.tables.look t.table {}
      let b := x.banks.look (o / (32 * t.journalRows)) {}
      match b.entries.find? fun j => b.used && j.pos = o % (32 * t.journalRows) / 16 with
      | some j => j.bytes t.table
      | none => List.replicate 16 0
    else s.indexBytes l (o - n)

/-- A byte of a quarter's store that the press keeps as an index entry, a directory entry or a tag; `none` for the bytes of a cached row,
which lie in memory (log entry 31). -/
def State.storeByte (s : State) (q o : Nat) : Option Byte :=
  let A := s.active
  match A.pressQ q with
  | none => none
  | some r =>
    let p := s.presses.look q {}
    let at_ (bs : Bytes) (i : Nat) : Option Byte := some (bs.getD i 0)
    let d := o - A.idxBytes q
    let c := d - r.dirBytes
    if o < A.idxBytes q then at_ (s.indexBytes (A.homes q) o) (o % 16)
    else if d < r.dirBytes then at_ ((p.dir.look (d / 16) {}).bytes) (d % 16)
    else if c / r.setBytes < A.rcSets q && c % r.setBytes < 128 then
      at_ ((p.cache.look (8 * (c / r.setBytes) + c % r.setBytes / 16) {}).bytes) (c % 16)
    else none

/-! ## A line of a pseudo-channel (R263, Table 11.2) -/

def lineColumn (p : Nat) : Nat := bits p 1 0
def lineBank (p : Nat) : Nat := bits p 5 2 ^^^ bits p 11 8
def lineGroup (p : Nat) : Nat := lineBank p / 4
def lineSid (p : Nat) : Nat := bits p 7 6
def lineRow (p : Nat) : Nat := bits p 21 8

end Sys2Proof.Machine
end

