-- ==== Sys2Proof/Machine/Ops.lean ====
section
/-!
DEFINITION. Named operations over the state: its parts by number, ownership, free values, faults, interrupts, error injection,
memory with its error codes and encryption, and translation. Every access of an engine to memory goes through `memRd` and `memWr`.
-/

namespace Sys2Proof.Machine

/-- What a meaning answers. -/
abbrev Res := Host.Outcome State Fault Refusal

/-! ## Parts of the state by number -/

/-- Core `k`. -/
def State.core (s : State) (k : Nat) : CoreSt := s.cores.look k {}
def State.setCore (s : State) (k : Nat) (x : CoreSt) : State := { s with cores := s.cores.set k x }
def State.onCore (s : State) (k : Nat) (f : CoreSt → CoreSt) : State := s.setCore k (f (s.core k))

/-- Partition `k`. -/
def State.part (s : State) (k : Nat) : Part := s.parts.look k {}
def State.setPart (s : State) (k : Nat) (x : Part) : State := { s with parts := s.parts.set k x }
def State.onPart (s : State) (k : Nat) (f : Part → Part) : State := s.setPart k (f (s.part k))

/-- Context `k`. -/
def State.ctx (s : State) (k : Nat) : Ctx := s.ctxs.look k {}
def State.setCtx (s : State) (k : Nat) (x : Ctx) : State := { s with ctxs := s.ctxs.set k x }
def State.onCtx (s : State) (k : Nat) (f : Ctx → Ctx) : State := s.setCtx k (f (s.ctx k))

/-- Command queue `k`. -/
def State.queue (s : State) (k : Nat) : Queue := s.queues.look k {}
def State.setQueue (s : State) (k : Nat) (x : Queue) : State := { s with queues := s.queues.set k x }
def State.onQueue (s : State) (k : Nat) (f : Queue → Queue) : State := s.setQueue k (f (s.queue k))

/-- Table press of a quarter `k`. -/
def State.press (s : State) (k : Nat) : Press := s.presses.look k {}
def State.setPress (s : State) (k : Nat) (x : Press) : State := { s with presses := s.presses.set k x }
def State.onPress (s : State) (k : Nat) (f : Press → Press) : State := s.setPress k (f (s.press k))

/-- Table `k`. -/
def State.table (s : State) (k : Nat) : Table := s.tables.look k {}
def State.setTable (s : State) (k : Nat) (x : Table) : State := { s with tables := s.tables.set k x }
def State.onTable (s : State) (k : Nat) (f : Table → Table) : State := s.setTable k (f (s.table k))

/-- HBM controller `k`. -/
def State.ctl (s : State) (k : Nat) : HbmCtl := s.hbm.look k {}
def State.setCtl (s : State) (k : Nat) (x : HbmCtl) : State := { s with hbm := s.hbm.set k x }
def State.onCtl (s : State) (k : Nat) (f : HbmCtl → HbmCtl) : State := s.setCtl k (f (s.ctl k))

/-- Pseudo-channel `k`. -/
def State.pchan (s : State) (k : Nat) : PChan := s.pchans.look k {}
def State.setPchan (s : State) (k : Nat) (x : PChan) : State := { s with pchans := s.pchans.set k x }
def State.onPchan (s : State) (k : Nat) (f : PChan → PChan) : State := s.setPchan k (f (s.pchan k))

/-- Transaction tags of a quarter `k`. -/
def State.tag (s : State) (k : Nat) : Tags := s.tags.look k {}
def State.setTag (s : State) (k : Nat) (x : Tags) : State := { s with tags := s.tags.set k x }
def State.onTag (s : State) (k : Nat) (f : Tags → Tags) : State := s.setTag k (f (s.tag k))

/-- DMA channel `k`. -/
def State.chan (s : State) (k : Nat) : Chan := s.chans.look k {}
def State.setChan (s : State) (k : Nat) (x : Chan) : State := { s with chans := s.chans.set k x }
def State.onChan (s : State) (k : Nat) (f : Chan → Chan) : State := s.setChan k (f (s.chan k))

/-- Rescue channel `k`. -/
def State.rescue (s : State) (k : Nat) : Rescue := s.rescues.look k {}
def State.setRescue (s : State) (k : Nat) (x : Rescue) : State := { s with rescues := s.rescues.set k x }
def State.onRescue (s : State) (k : Nat) (f : Rescue → Rescue) : State := s.setRescue k (f (s.rescue k))

/-- Maruno port `k`. -/
def State.port (s : State) (k : Nat) : Port := s.ports.look k {}
def State.setPort (s : State) (k : Nat) (x : Port) : State := { s with ports := s.ports.set k x }
def State.onPort (s : State) (k : Nat) (f : Port → Port) : State := s.setPort k (f (s.port k))

/-- Ethernet route `k`. -/
def State.route (s : State) (k : Nat) : Route := s.routes.look k {}
def State.setRoute (s : State) (k : Nat) (x : Route) : State := { s with routes := s.routes.set k x }
def State.onRoute (s : State) (k : Nat) (f : Route → Route) : State := s.setRoute k (f (s.route k))

/-- Collective group `k`. -/
def State.group (s : State) (k : Nat) : Group := s.groups.look k {}
def State.setGroup (s : State) (k : Nat) (x : Group) : State := { s with groups := s.groups.set k x }
def State.onGroup (s : State) (k : Nat) (f : Group → Group) : State := s.setGroup k (f (s.group k))

/-- Collective unit `k`. -/
def State.coll (s : State) (k : Nat) : Coll := s.colls.look k {}
def State.setColl (s : State) (k : Nat) (x : Coll) : State := { s with colls := s.colls.set k x }
def State.onColl (s : State) (k : Nat) (f : Coll → Coll) : State := s.setColl k (f (s.coll k))

/-- Power block `k`. -/
def State.pwr (s : State) (k : Nat) : Power := s.power.look k {}
def State.setPwr (s : State) (k : Nat) (x : Power) : State := { s with power := s.power.set k x }
def State.onPwr (s : State) (k : Nat) (f : Power → Power) : State := s.setPwr k (f (s.pwr k))

/-- Unit state word `k`. -/
def State.unit (s : State) (k : Nat) : UnitWord := s.units.look k {}
def State.setUnit (s : State) (k : Nat) (x : UnitWord) : State := { s with units := s.units.set k x }
def State.onUnit (s : State) (k : Nat) (f : UnitWord → UnitWord) : State := s.setUnit k (f (s.unit k))

def State.onSeq (s : State) (c : Nat) (f : Seq → Seq) : State := s.onCore c fun x => { x with seq := f x.seq }
def State.onVec (s : State) (c : Nat) (f : Vec → Vec) : State := s.onCore c fun x => { x with vec := f x.vec }
def State.onMat (s : State) (c : Nat) (f : Mat → Mat) : State := s.onCore c fun x => { x with mat := f x.mat }
def State.onStore (s : State) (c : Nat) (f : Store → Store) : State := s.onCore c fun x => { x with store := f x.store }

/-! ## Ownership (R29, R34, Table 0.4) -/

def State.ctxRec (s : State) (k : Nat) : Option CtxRec := s.active.ctxs.find? fun r => r.ctx = k
def State.partRec (s : State) (p : Nat) : Option PartRec := s.active.parts.find? fun r => r.part = p

/-- Partition of a context (R34). -/
def State.partOfCtx (s : State) (k : Nat) : Option Nat := (s.ctxRec k).map (·.part)

/-- Partition that owns a core, a press lane, a DMA channel (R29). -/
def State.partOfCore (s : State) (c : Nat) : Option Nat :=
  (s.active.parts.find? fun r => r.coreMask.getLsbD c).map (·.part)
def State.partOfLane (s : State) (l : Nat) : Option Nat :=
  (s.active.parts.find? fun r => r.laneMask.getLsbD l).map (·.part)
def State.partOfChan (s : State) (ch : Nat) : Option Nat :=
  (s.active.parts.find? fun r => r.dmaMask.getLsbD ch).map (·.part)

/-- Cores of a partition, in ascending number. -/
def State.coresOf (s : State) (p : Nat) : List Nat :=
  (List.range 64).filter fun c => s.partOfCore c == some p

/-- Contexts of a partition, in ascending number. -/
def State.ctxsOf (s : State) (p : Nat) : List Nat :=
  sortBy (fun a b => a < b) ((s.active.ctxs.filter fun r => r.part = p).map (·.ctx))

/-- Queues of a partition that are enabled, or that were disabled while commands they had started still run (R16, R36). -/
def State.queuesOf (s : State) (p : Nat) : List Nat :=
  ((s.ctxsOf p).flatMap fun k => from_ (8 * k) 8).filter fun n => (s.queue n).enable || !(s.queue n).cmds.isEmpty

/-- The class that a queue runs in (R16, Table 11.5): QUEUE_CTRL.PRIO; urgent as normal where no CLASS_RESERVATION record in force sets
URGENT_QUEUES (log entry 88). -/
def State.queueLevel (s : State) (n : Nat) : BitVec 2 :=
  let p := (s.queue n).prio
  if p = 0 && !(s.active.classes.any (·.urgentQueues)) then 1 else p

/-- Offered features (R25): ARITH_GEN bit 0 and bits 8 to 17. -/
def offered : BitVec 256 := 0x3FF01#256

/-- The features that govern a partition: those of the image it applied at its last racking (R25, R41); of the device where no
partition is meant, those of DEV_FEATURES_ACTIVE. -/
def State.featuresOf (s : State) (p : Option Nat) : BitVec 256 :=
  match p with
  | some p => if (s.part p).st = 3 then s.active.features else (s.part p).features
  | none => s.active.features

/-- A feature bit as it governs a partition (R26). -/
def State.feature (s : State) (p : Option Nat) (i : Nat) : Bool := (s.featuresOf p).getLsbD i

/-- The features that govern a core: those of its partition. -/
def State.coreFeatures (s : State) (c : Nat) : BitVec 256 := s.featuresOf (s.partOfCore c)

/-- The device ID that a partition's image gave the device (Table 1.11). -/
def State.devOf (s : State) (p : Nat) : BitVec 13 := if (s.part p).st = 3 then s.active.dev else (s.part p).dev

/-- The split of a core's SRAM (R28, R30). -/
def State.split (s : State) (c : Nat) : SplitRec := s.active.splitOf c

/-! ## Units (R368 to R370) -/

/-- Set OPER; every change increments GEN (Table 15.7). -/
def State.setOper (s : State) (u : Nat) (v : BitVec 2) : State :=
  s.onUnit u fun w => if w.oper = v then w else { w with oper := v, gen := w.gen + 1 }

/-- A unit accepts new work only when ADMIT is 0 and OPER is 0 (R370). -/
def State.admits (s : State) (u : Nat) : Bool := (s.unit u).adm == 0 && (s.unit u).oper == 0

/-! ## Free values, interrupts to the host, faults -/

/-- The next free value (log entry 11). -/
def State.fresh (s : State) : Word × State := (Config.freeValue s.free, { s with free := s.free + 1 })

/-- `n` free bytes. -/
def freshBytes : Nat → State → Bytes × State
  | 0, s => ([], s)
  | n + 1, s =>
    let (w, s) := s.fresh
    let (bs, s) := freshBytes n s
    (w.setWidth 8 :: bs, s)

/-- Word `i` of the MSI-X table; a vector is masked at reset by bit 32 of its second word (R14, log entry 8). -/
def State.msixWord (s : State) (i : Nat) : Word := s.host.msixTable.look i (if i % 2 = 1 then 0x100000000 else 0)

/-- Raise an MSI-X vector: sent when its mask is clear, else held pending (R11, R14). -/
def State.msix (s : State) (v : Nat) : State :=
  if (s.msixWord (2 * v + 1)).getLsbD 32 then { s with host := { s.host with msixPba := s.host.msixPba.set v true } }
  else { s with host := { s.host with msixSent := s.host.msixSent.set v (s.host.msixSent.look v 0 + 1) } }

/-- The trellis and racking event interrupt (Table 1.3). -/
def State.devIrq (s : State) : State := s.msix s.host.devIrqVec.toNat

/-- A source holds no class-1 credit for a detail: its slot is occupied, or an alarm on its way has the credit (R230, R380). -/
def Collector.noCredit (f : Collector) (src : Nat) : Bool :=
  (f.slots.look src {}).valid || f.flight.any fun b => b.src = src && b.sev != 0 && !b.dry

/-- A fault leaves its source on the alarm path (R373). A fault of SEV1 or above makes the judged span of its partition unclean
(R46); a unit that raises SEV2 or above against itself has failed (R369). -/
def State.raise (s : State) (a : Alarm) : State :=
  let a := { a with dry := a.sev != 0 && s.faults.noCredit a.src }
  let s := { s with faults := { s.faults with flight := s.faults.flight ++ [a] } }
  if a.sev = 0 then s
  else
    match a.part <|> a.ctx.bind s.partOfCtx with
    | some p => s.onPart p fun x => { x with dirty := true }
    | none => if 2 ≤ a.sev && a.src < 120 && a.ctx.isNone && a.part.isNone then s.setOper a.src 2 else s

/-- A fault by its source, severity, cause and context. -/
def State.sev (s : State) (src sev : Nat) (cause : Byte) (ctx : Option Nat) (addr : Nat := 0) (info : BitVec 32 := 0)
    (inj : Bool := false) : State :=
  s.raise { src := src, sev := sev, cause := cause, ctx := ctx, part := none, inj := inj, addr := addr, info := info }

/-! ## Injection (R392, R393) -/

/-- Checks left on a channel for a checker of a source. -/
def Inject.on (x : Inject) (src code : Nat) : Nat :=
  if x.armed && x.src = src && x.code = code then x.remain else 0

def Inject.use (x : Inject) (n : Nat) : Inject :=
  if n = 0 then x else { x with remain := x.remain - n, armed := n < x.remain }

/-- `n` checks of a checker: the kind of the first one injected (0 ONE, 1 TWO, 2 ALL), how many channel 0 and then channel 1
took, and the state with the counts taken down. -/
def State.inject (s : State) (src code n : Nat) : Option Nat × State :=
  let f := s.faults
  let a := min n (f.inj0.on src code)
  let b := if f.inj0.on src code ≤ n then min (n - a) (f.inj1.on src code) else 0
  let k := if 0 < a then some f.inj0.kind else if 0 < b then some f.inj1.kind else none
  (k, { s with faults := { f with inj0 := f.inj0.use a, inj1 := f.inj1.use b } })

/-! ## The address map (Table 0.6) -/

def mmioBase : Nat := 0x20000000000
def hostBase : Nat := 0x400000000000
def hbmTop : Nat := 0xC000000000

/-- The range of Table 0.6 that an access of `n` bytes lies in whole (R3, R4). -/
inductive Zone where
  | hbm
  | sram
  | mmio
  | host
  | none
  deriving DecidableEq, Repr

def zone (a n : Nat) : Zone :=
  if a + n ≤ hbmTop then .hbm
  else if sramBase ≤ a && a + n ≤ sramBase + 0x80000000 then .sram
  else if mmioBase ≤ a && a + n ≤ mmioBase + 0x100000000 then .mmio
  else if hostBase ≤ a && a + n ≤ 2 * hostBase then .host
  else .none

/-- Core and offset of an SRAM address (R210). -/
def sramRel (a : Nat) : Nat := a % sramBase
def sramCore (a : Nat) : Nat := sramRel a / 0x2000000
def sramOff (a : Nat) : Nat := a % 0x2000000

/-- The region that an HBM access lies in (R265, R267). -/
def State.region (s : State) (a n : Nat) : Option RegionRec :=
  s.active.regions.find? fun r => r.base ≤ a && a + n ≤ r.base + r.len

/-- Parity of a number's bits. -/
def parity (n : Nat) : Nat := (List.range 22).foldl (fun a i => a + (n >>> i) % 2) 0 % 2

/-- The interleave hash of a line address (Table 11.4). -/
def hashLine (p : Nat) : Nat :=
  [0x041041, 0x082082, 0x104104, 0x208208, 0x010410, 0x020820].foldr (fun m h => parity (p &&& m) + 2 * h) 0

/-- Stack, device pseudo-channel and line address of an address in a region (R266). -/
def placeIn (r : RegionRec) (a : Nat) : Nat × Nat × Nat :=
  let n := (a - r.base) / 256
  let st := if r.spread then 12 else 3
  let l := n / (64 * st)
  let u := n % (64 * st)
  let p := r.storeOff * 4096 + l
  let k := (u / 64 + l) % st
  let stack := if r.spread then k else 3 * r.quarter + k
  (stack, 64 * stack + ((u % 64) ^^^ hashLine p), p)

/-- Where an HBM address lies; stack 0 for an address in no region. -/
def State.place (s : State) (a : Nat) : Nat × Nat × Nat :=
  match s.region a 1 with
  | some r => placeIn r a
  | none => (0, 0, 0)

/-! ## Bytes of memory -/

/-- A byte of memory as stored; an unlisted byte reads 0 (log entry 5). -/
def State.byte (s : State) (a : Nat) : Byte := Map.look s.mem a 0

/-- `n` bytes as stored. -/
def State.bytes (s : State) (a n : Nat) : Bytes := Map.run s.mem 0 a n

/-- Store bytes in the list of cells, keeping it canonical. -/
def memPut (m : List Host.Cell) (a : Nat) : Bytes → List Host.Cell
  | [] => m
  | b :: bs => memPut (Map.put m a b 0) (a + 1) bs

/-- Store bytes. -/
def State.store (s : State) (a : Nat) (bs : Bytes) : State := { s with mem := memPut s.mem a bs }

/-- Zero a range, as whole granules: its bytes, poison and flipped bits go (R216, R220, Table 1.13). -/
def State.zero (s : State) (lo hi : Nat) : State :=
  { s with
    mem := Map.cut s.mem lo hi
    poison := s.poison.cut (lo / 64) (hi / 64)
    sramErr := s.sramErr.cut ((lo - sramBase) / 8) ((hi - sramBase) / 8) }

/-- The poison bit of a granule is stored as three copies and read by majority (R214, R276). -/
def State.setPoison (s : State) (g : Nat) : State := { s with poison := s.poison.set g 7 }
def State.unPoison (s : State) (g : Nat) : State := { s with poison := s.poison.del g }

/-- Majority of three bits from bit `i` of a metadata symbol. -/
def maj3 (m : Byte) (i : Nat) : Bool :=
  2 ≤ b2n (m.getLsbD i) + b2n (m.getLsbD (i + 1)) + b2n (m.getLsbD (i + 2))

def State.poisoned (s : State) (g : Nat) : Bool := maj3 ((s.poison.look g 0).setWidth 8) 0

/-! ## HBM symbol code (R276) -/

/-- Multiplication by α in GF(2^8) with x^8 + x^4 + x^3 + x^2 + 1. -/
def gfX (a : Byte) : Byte := (a <<< 1) ^^^ (if a.msb then 0x1D else 0)

/-- a × α^n. -/
def gfMulPow : Nat → Byte → Byte
  | 0, a => a
  | n + 1, a => gfMulPow n (gfX a)

/-- Outcome of a codeword's syndromes, computed from its error symbols (the code is linear). -/
inductive Ecc where
  | clean
  | single (j : Nat) (v : Byte)
  | bad
  deriving DecidableEq, Repr

def hbmEcc (errs : Map Byte) : Ecc :=
  let s0 := errs.foldl (fun a e => a ^^^ e.2) 0
  let s1 := errs.foldl (fun a e => a ^^^ gfMulPow e.1 e.2) 0
  let s2 := errs.foldl (fun a e => a ^^^ gfMulPow (2 * e.1) e.2) 0
  if s0 = 0 && s1 = 0 && s2 = 0 then .clean
  else if s0 = 0 || s1 = 0 then .bad
  else
    match (List.range 68).find? fun j => gfMulPow j s0 = s1 && gfMulPow j s1 = s2 with
    | some j => .single j s0
    | none => .bad

/-- Put an error value on a symbol. -/
def flipSym (errs : Map Byte) (j : Nat) (v : Byte) : Map Byte := errs.put j (errs.look j 0 ^^^ v) 0

/-- A granule as the controller sees it: its outcome, data after correction, POISON and CLEAR as read. -/
structure Gran where
  ecc    : Ecc
  data   : Bytes
  poison : Bool
  clear  : Bool
  deriving DecidableEq, Repr

def State.written? (s : State) (g : Nat) : Bool := s.written.look g false

/-- Read a codeword with these error symbols. -/
def State.codeword (s : State) (g : Nat) (errs : Map Byte) : Gran :=
  let ecc := hbmEcc errs
  let errs := match ecc with
    | .single j v => flipSym errs j v
    | _ => errs
  let raw := s.bytes (64 * g) 64
  let data := (List.range 64).map fun i => raw.getD i 0 ^^^ errs.look (67 - i) 0
  let meta_ : Byte := (s.poison.look g 0).setWidth 8 ||| (if s.written? g then 0 else 0x38)
  let meta_ := meta_ ^^^ errs.look 3 0
  ⟨ecc, data, maj3 meta_ 0, maj3 meta_ 3⟩

/-- Record an error event in a controller's counters (Tables 11.7, 11.10): kind 1 data, 2 check, 3 uncorrectable. -/
def State.hbmEvent (s : State) (stack kind g : Nat) : State :=
  s.onCtl stack fun h =>
    let h := { h with eccLast := BitVec.ofNat 64 (64 * g + kind * 2 ^ 48) }
    match kind with
    | 1 => { h with eccCorr := h.eccCorr + 1 }
    | 2 => { h with eccCheck := h.eccCheck + 1 }
    | _ => { h with eccUncorr := h.eccUncorr + 1 }

/-- Read and check one granule (R277): counters, faults, marking and the rewrite queue of R278. `own` is the partition that
a scrub's fault names when there is no context (R280). A rescue channel's failures raise no severity (R302). A clear granule keeps what is
stored and raises no severity. -/
def State.hbmGran (s : State) (g : Nat) (ctx own : Option Nat) (rescue : Bool := false) : State × Gran :=
  let (stack, pc, _) := s.place (64 * g)
  let src := 76 + stack
  let (inj, s) := s.inject src 6 1
  let errs := s.hbmErr.look g []
  let errs := match inj with
    | some 0 => flipSym errs 0 1
    | some 1 => flipSym (flipSym errs 0 1) 1 1
    | _ => errs
  let r := s.codeword g errs
  let al (sev : Nat) (cause : Byte) : Alarm :=
    { src := src, sev := sev, cause := cause, ctx := ctx, part := if ctx.isNone then own else none,
      inj := inj.isSome, addr := 64 * g }
  let queueFix (s : State) : State :=
    s.onPchan pc fun x => if x.fixQ.contains g || 16 ≤ x.fixQ.length then x else { x with fixQ := x.fixQ ++ [g] }
  match r.ecc with
  | .clean => (s, r)
  | .single j _ =>
    let kind := if 4 ≤ j then 1 else 2
    if r.poison then (s, r)
    else if r.clear then (s.hbmEvent stack kind g, r)
    else
      (queueFix ((s.hbmEvent stack kind g).raise { al 0 (BitVec.ofNat 8 kind) with ctx := none, part := none }), r)
  | .bad =>
    if r.poison then (s, r)
    else
      let s := s.hbmEvent stack 3 g
      let s := if rescue then s else s.raise (al 1 3)
      let s := s.store (64 * g) r.data
      (({ s with hbmErr := s.hbmErr.del g, written := s.written.set g true }).setPoison g, { r with poison := true, clear := false })

/-! ## Keys (R281, R282) -/

/-- What a key slot does for a partition's access: `none` for an EMPTY slot, else the key pair of a LOADED one. Without HBM_ENCRYPT
every slot acts as BYPASS. -/
def State.keyOf (s : State) (p : Option Nat) (k : BitVec 10) : Option (Option (BitVec 512)) :=
  if s.feature p 17 then
    let x := s.mgmt.keys.look k.toNat {}
    if x.st = 0 then none else if x.st = 1 then some none else some (some x.key)
  else some none

/-- A granule's data under a key, read or written. -/
def crypt (enc : Bool) (key : Option (BitVec 512)) (g : Nat) (d : Bytes) : Bytes :=
  match key with
  | none => d
  | some k => xts enc k g d

/-! ## SRAM (R214 to R216) -/

/-- Number of flipped bits of a word. -/
def WordErr.count (e : WordErr) : Nat :=
  (List.range 64).foldl (fun a i => a + b2n (e.data.getLsbD i)) 0 +
  (List.range 8).foldl (fun a i => a + b2n (e.check.getLsbD i)) 0

/-- SEC-DED outcome of a word's flipped bits: clean, a correction of a data bit or of a check bit with the flips it makes, or
uncorrectable. Three or more flips take a free outcome (R214, log entry 12). -/
inductive SecDed where
  | clean
  | data (fix : WordErr)
  | check (fix : WordErr)
  | bad
  deriving DecidableEq, Repr

def secDed (e : WordErr) (free : Word) : SecDed :=
  match e.count with
  | 0 => .clean
  | 1 => if e.check = 0 then .data e else .check e
  | 2 => .bad
  | _ =>
    match free.toNat % 3 with
    | 0 => .clean
    | 1 =>
      let i := free.toNat / 4 % 72
      if i < 64 then .data ⟨1 <<< i, 0⟩ else .check ⟨0, 1 <<< (i - 64)⟩
    | _ => .bad

def WordErr.xor (a b : WordErr) : WordErr := ⟨a.data ^^^ b.data, a.check ^^^ b.check⟩

/-- Check bits that an injected check receives (Table 16.7, codes 0, 1, 2 and 9). -/
def injErr : Option Nat → WordErr
  | some 0 => ⟨0, 1⟩
  | some 1 => ⟨0, 3⟩
  | _ => {}

/-- The free value that three or more flipped bits take. -/
def State.freshIf (s : State) (b : Bool) : Word × State := if b then s.fresh else (0, s)

/-- Queue a word for the rewrite of its corrected bits, unless it is queued already (R214). -/
def State.fixLater (s : State) (w : Nat) (f : WordErr) : State :=
  if s.sramFix.any fun q => q.1 == w then s else { s with sramFix := s.sramFix ++ [(w, f)] }

/-- A core's SRAM byte lies in the row-cache part (R218). -/
def State.inRowCache (s : State) (a : Nat) : Bool :=
  let r := s.split (sramCore a)
  (r.scratch + r.resident) * 0x10000 ≤ sramOff a

/-- The bytes of a word of SRAM as stored. -/
def State.sramRaw (s : State) (a : Nat) : Bytes :=
  let bs := s.bytes a 8
  if s.inRowCache a then
    let c := sramCore a
    let o := s.active.storeOff c (sramOff a)
    (List.range 8).map fun i => (s.storeByte (c / 16) (o + i)).getD (bs.getD i 0)
  else bs

/-- Word `w` of the device's SRAM, read and checked: the word delivered and whether it is poisoned (Table 9.2). -/
def State.sramWord (s : State) (w : Nat) (ctx : Option Nat) (rescue : Bool := false) : State × BitVec 64 × Bool :=
  let c := w / 0x400000
  let a := sramBase + 8 * w
  let g := a / 64
  let (inj, s) := s.inject c 0 1
  let e := (s.sramErr.look w {}).xor (injErr inj)
  let (free, s) := s.freshIf (2 < e.count)
  let d := BitVec.ofNat 64 (leNat (s.sramRaw a)) ^^^ e.data
  if s.poisoned g then (s, d, true)
  else
    let last (k : Nat) (x : Store) : Store := { x with eccLast := BitVec.ofNat 64 (sramOff a + k * 2 ^ 26) }
    match secDed e free with
    | .clean => (s, d, false)
    | .data f =>
      let s := s.onStore c fun x => last 1 { x with eccCorr := x.eccCorr + 1 }
      ((s.fixLater w f).sev c 0 1 none a 0 inj.isSome, d ^^^ f.data, false)
    | .check f =>
      let s := s.onStore c fun x => last 2 { x with eccCheck := x.eccCheck + 1 }
      ((s.fixLater w f).sev c 0 2 none a 0 inj.isSome, d, false)
    | .bad =>
      let s := s.onStore c fun x => last 3 { x with eccUncorr := x.eccUncorr + 1 }
      let s := s.setPoison g
      (if rescue then s else s.sev c 1 3 ctx a 0 inj.isSome, d, true)

/-- Write part of a word, or the whole of it (R216). -/
def State.sramPut (s : State) (w off : Nat) (bs : Bytes) (ctx : Option Nat) : State :=
  let a := sramBase + 8 * w
  let done (s : State) : State :=
    { s with sramErr := s.sramErr.del w, sramFix := s.sramFix.filter fun q => q.1 != w }
  if bs.length = 8 then (done s).store a bs
  else
    let (s, d, _) := s.sramWord w ctx
    (done s).store a (patch (leBytes 8 d.toNat) off bs)

/-! ## Accesses -/

/-- Who accesses memory: its source number (Table 16.1), context, partition, press of a quarter, and key slot. `part = none`
reaches every partition's memory (the hub, BAR2, rescue channels); `quiet` raises no fault; `ring0` marks ring 0 of a core, which may read
row-cache parts (R219), `rescue` a rescue channel, which reaches every part and region (R301), `all` the zeroing of bring-up (R400). -/
structure Who where
  src   : Nat
  ctx   : Option Nat := none
  part  : Option Nat := none
  press : Option Nat := none
  key   : BitVec 10 := 0
  quiet : Bool := false
  plain : Bool := false
  ring0 : Bool := false
  rescue : Bool := false
  all   : Bool := false
  deriving DecidableEq, Repr

/-- What a read returns: bytes, the address of the first poisoned granule met, and whether it failed. -/
structure Rd where
  data : Bytes := []
  bad  : Option Nat := none
  err  : Bool := false
  deriving DecidableEq, Repr

/-- Whether an SRAM byte may be read or written (R30, R219, R301): a row-cache part by its quarter's press, and read by ring 0. -/
def State.sramOk (s : State) (w : Who) (wr : Bool) (a : Nat) : Bool :=
  w.rescue || w.all ||
    if s.inRowCache a then w.press == some (sramCore a / 16) || (w.ring0 && !wr)
    else
      match w.part with
      | none => w.press.isNone
      | some p => s.partOfCore (sramCore a) == some p

/-- Whether a region may be accessed (R267, R301): a press-owned one by the press of QUARTER. -/
def regionOk (w : Who) (r : RegionRec) : Bool :=
  w.rescue || if r.press then w.press == some r.quarter else w.part.isNone || w.part == some r.part

/-- The check of an access before it touches memory: allowed, refused as a permission failure, or outside the map or every
region (R4, R267), or under an EMPTY slot (R282). -/
inductive Gate where
  | ok
  | perm
  | outside
  | empty
  deriving DecidableEq, Repr

def State.gate (s : State) (w : Who) (a n : Nat) (wr : Bool := false) : Gate :=
  match zone a n with
  | .none => .outside
  | .mmio => .perm
  | .host => .ok
  | .sram => if s.sramOk w wr a && s.sramOk w wr (a + n - 1) then .ok else .perm
  | .hbm =>
    match s.region a n with
    | none => .outside
    | some r =>
      if !regionOk w r then .perm
      else if !w.plain && (s.keyOf w.part w.key).isNone then .empty else .ok

/-- The fault of an access outside the map or every region, or under an EMPTY slot, against its context. -/
def State.refuse (s : State) (w : Who) (g : Gate) (a : Nat) : State :=
  if w.quiet then s
  else
    match g with
    | .outside => s.sev w.src 2 7 w.ctx a
    | .empty => s.sev (76 + (s.place a).1) 2 7 w.ctx a
    | _ => s

/-- Cut a range of `n` bytes at granule ends: addresses and lengths. -/
def cutGran : Nat → Nat → Nat → List (Nat × Nat)
  | 0, _, _ => []
  | f + 1, a, n =>
    let k := min n (64 - a % 64)
    if k = 0 then [] else (a, k) :: cutGran f (a + k) (n - k)

/-- Words of SRAM read in turn. -/
def sramWords (ctx : Option Nat) (rescue : Bool) : Nat → State → Nat → State × Bytes × Bool
  | 0, s, _ => (s, [], false)
  | n + 1, s, w =>
    let (s, d, b) := s.sramWord w ctx rescue
    let (s, ds, b') := sramWords ctx rescue n s (w + 1)
    (s, leBytes 8 d.toNat ++ ds, b || b')

/-- Read part of one granule. -/
def State.rdGran (s : State) (w : Who) (a n : Nat) : State × Rd :=
  let g := a / 64
  match zone a n with
  | .hbm =>
    let (s, r) := s.hbmGran g w.ctx none w.rescue
    let key := if w.plain then none else (s.keyOf w.part w.key).getD none
    let d := if r.clear && !r.poison then List.replicate 64 0 else crypt false key g r.data
    (s, ⟨(d.drop (a % 64)).take n, if r.poison then some (64 * g) else none, false⟩)
  | .sram =>
    let w0 := sramRel a / 8
    let w1 := sramRel (a + n - 1) / 8
    let (s, d, b) := sramWords w.ctx w.rescue (w1 + 1 - w0) s w0
    (s, ⟨(d.drop (a % 8)).take n, if b then some (64 * g) else none, false⟩)
  | _ =>
    (s, ⟨s.bytes a n, if s.poisoned g then some (64 * g) else none, s.hostBad.look g false⟩)

def rdGrans (w : Who) : List (Nat × Nat) → State → State × Rd
  | [], s => (s, {})
  | (a, n) :: l, s =>
    let (s, r) := s.rdGran w a n
    let (s, r') := rdGrans w l s
    (s, ⟨r.data ++ r'.data, r.bad <|> r'.bad, r.err || r'.err⟩)

/-- Read `n` bytes at a device physical address. -/
def State.memRd (s : State) (w : Who) (a n : Nat) : State × Rd :=
  if n = 0 then (s, {})
  else
    match s.gate w a n with
    | .ok => rdGrans w (cutGran (n / 64 + 2) a n) s
    | g => (s.refuse w g a, { err := true })

/-- SRAM words written in turn. -/
def sramPuts : Nat → State → Nat → Bytes → Option Nat → State
  | 0, s, _, _, _ => s
  | f + 1, s, o, bs, ctx =>
    if bs.isEmpty then s
    else
      let k := 8 - o % 8
      sramPuts f (s.sramPut (o / 8) (o % 8) (bs.take k) ctx) (o + k) (bs.drop k) ctx

/-- Write part of one granule, or the whole of it (R216, R279). `mark` leaves the granule poisoned. -/
def State.wrGran (s : State) (w : Who) (a : Nat) (bs : Bytes) (mark : Bool) : State :=
  let g := a / 64
  let whole := bs.length = 64
  let s := match zone a bs.length with
    | .hbm =>
      let key := if w.plain then none else (s.keyOf w.part w.key).getD none
      let (s, d) :=
        if whole then (s.unPoison g, bs)
        else
          let (s, r) := s.hbmGran g w.ctx none w.rescue
          let old := if r.clear then List.replicate 64 0 else crypt false key g r.data
          (s, patch old (a % 64) bs)
      ({ s with hbmErr := s.hbmErr.del g, written := s.written.set g true }).store (64 * g) (crypt true key g d)
    | .sram =>
      let s := if whole then s.unPoison g else s
      sramPuts 9 s (sramRel a) bs w.ctx
    | _ =>
      let s := if whole then s.unPoison g else s
      ({ s with hostBad := s.hostBad.del g }).store a bs
  if mark then s.setPoison g else s

def wrGrans (w : Who) (mark : Bool) : List (Nat × Nat) → Bytes → State → State
  | [], _, s => s
  | (a, n) :: l, bs, s => wrGrans w mark l (bs.drop n) (s.wrGran w a (bs.take n) mark)

/-- Write bytes at a device physical address: the state, and whether the access failed; a failed one writes no byte. -/
def State.memWr (s : State) (w : Who) (a : Nat) (bs : Bytes) (mark : Bool := false) : State × Bool :=
  if bs.isEmpty then (s, false)
  else
    match s.gate w a bs.length true with
    | .ok => (wrGrans w mark (cutGran (bs.length / 64 + 2) a bs.length) bs s, false)
    | g => (s.refuse w g a, true)

/-! ## Translation (R284 to R290) -/

/-- Kinds of access that PERM grants (Table 12.2). -/
inductive Acc where
  | rd
  | wr
  | ex
  deriving DecidableEq, Repr

def Ext.grants (e : Ext) (ring : BitVec 2) (a : Acc) : Bool :=
  match a with
  | .rd => e.rd.getLsbD ring.toNat
  | .wr => e.wr.getLsbD ring.toNat
  | .ex => e.ex.getLsbD ring.toNat

/-- The valid extent of a context that covers `n` bytes at `va`. -/
def State.extAt (s : State) (k va n : Nat) : Option Ext :=
  (s.ctx k).ext.find? fun e => e.vstart ≤ va && va + n ≤ e.vstart + e.len

/-- Outcome of a translation: the physical address, key slot and entry, a miss, or a permission failure. -/
inductive Xl where
  | ok (pa : Nat) (key : BitVec 10) (idx : Nat)
  | miss
  | perm
  deriving DecidableEq, Repr

/-- Translation for a compute engine: only pinned entries count (R289), permission by ring (R290). -/
def State.xl (s : State) (k : Nat) (ring : BitVec 2) (a : Acc) (va n : Nat) : Xl :=
  match s.extAt k va n with
  | none => .miss
  | some e =>
    if e.pageable then .miss
    else if e.grants ring a then .ok (e.pstart + (va - e.vstart)) e.key e.idx else .perm

/-- First-level buffers (R289) by agent: instruction fetch 0 + core, LSU 64 + core, vector engine 128 + core, matrix array
192 + core, press lanes 256 + lane, collective units 288 + quarter, DMA channels 292 + channel, the command layer 548. An entry is
(context, entry index), the most recently used first, at most sixteen. -/
def State.touch (s : State) (agent k idx : Nat) : State :=
  let l := s.xlat.tlb.look agent []
  let l := ((k, idx) :: l.filter (· != (k, idx))).take 16
  { s with xlat := { s.xlat with tlb := s.xlat.tlb.set agent l } }

/-- An engine of a context. -/
structure Eng where
  src   : Nat
  agent : Nat
  ctx   : Nat
  ring  : BitVec 2
  deriving DecidableEq, Repr

/-- The physical access an engine makes through an extent with this key slot. -/
def State.who (s : State) (e : Eng) (key : BitVec 10) : Who :=
  { src := e.src, ctx := some e.ctx, part := some ((s.partOfCtx e.ctx).getD 64), key := key }

/-- Outcome of an engine's access to a virtual address. -/
inductive VRd where
  | ok (r : Rd)
  | miss
  | perm
  deriving DecidableEq, Repr

/-- Read `n` bytes of virtual memory. MMIO and the host window are out of an engine's reach (R156, R177). -/
def State.vRd (s : State) (e : Eng) (va n : Nat) : State × VRd :=
  match s.xl e.ctx e.ring .rd va n with
  | .miss => (s, .miss)
  | .perm => (s, .perm)
  | .ok pa key idx =>
    if zone pa n = .mmio || zone pa n = .host then (s, .perm)
    else
      let s := s.touch e.agent e.ctx idx
      let (s, r) := s.memRd (s.who e key) pa n
      (s, .ok r)

/-- Whether an engine may access `n` bytes at `va`, and where they lie. -/
def State.vOk (s : State) (e : Eng) (a : Acc) (va n : Nat) : Option (Nat × BitVec 10) :=
  if n = 0 then some (0, 0)
  else
    match s.xl e.ctx e.ring a va n with
    | .ok pa key _ => if zone pa n = .mmio || zone pa n = .host then none else some (pa, key)
    | _ => none

/-- Write bytes of virtual memory after a check that passed: the state and whether the access failed. -/
def State.vWr (s : State) (e : Eng) (va : Nat) (bs : Bytes) (mark : Bool := false) : State × Bool :=
  match s.xl e.ctx e.ring .wr va bs.length with
  | .ok pa key idx =>
    if zone pa bs.length = .mmio || zone pa bs.length = .host then (s, true)
    else (s.touch e.agent e.ctx idx).memWr (s.who e key) pa bs mark
  | _ => (s, true)

end Sys2Proof.Machine
end

