-- ==== Sys2Proof/Machine/Sha.lean ====
section
/-!
DEFINITION. SHA-384, by which the spec digests images, transfers and records (R27, R57, R59); FIPS 180-4 as named by the spec
(log entry 10).
-/

namespace Sys2Proof.Machine

/-- `rootFrom k x n r`: the largest of `r` to `r + 2 ^ n - 1` whose `k`-th power does not exceed `x`, bit by bit. -/
def rootFrom (k x : Nat) : Nat → Nat → Nat
  | 0, r => r
  | n + 1, r => rootFrom k x n (if (r + 2 ^ n) ^ k ≤ x then r + 2 ^ n else r)

/-- The first 64 bits of the fraction of the `k`-th root of `p`, for a root below 8. -/
def rootFraction (k p : Nat) : Word := BitVec.ofNat 64 (rootFrom k (p * 2 ^ (64 * k)) 67 0)

/-- The primes below 410, of which there are eighty. -/
def shaPrimes : List Nat :=
  (List.range 410).filter fun p => 1 < p && (List.range 19).all fun d => d = 0 || p = d + 1 || p % (d + 1) != 0

/-- The round constants: fractions of the cube roots of the first eighty primes. -/
def shaK : List Word := shaPrimes.map (rootFraction 3)

/-- Working words: the last four values of each of the two recurrences of a round, newest first. -/
structure ShaWords where
  a : List Word
  e : List Word

/-- The words that SHA-384 starts from: fractions of the square roots of the ninth to sixteenth primes. -/
def shaInit : List Word := ((shaPrimes.drop 8).take 8).map (rootFraction 2)

/-- The sum modulo 2 of rotations of a word. -/
def spins (l : List Nat) (x : Word) : Word := l.foldl (fun y n => y ^^^ x.rotateRight n) 0

/-- The message words in order, of which `w` are the last sixteen, oldest first, and `n` are still to come. -/
def shaSched : Nat → List Word → List Word
  | 0, w => w
  | n + 1, w =>
    let at_ (i : Nat) : Word := w.getD i 0
    let next := at_ 0 + (spins [1, 8] (at_ 1) ^^^ (at_ 1 >>> 7)) + at_ 9 + (spins [19, 61] (at_ 14) ^^^ (at_ 14 >>> 6))
    w.headD 0 :: shaSched n (w.tail ++ [next])

/-- One round: a new value of each recurrence. A bit of the choice is `e`'s say between the next two, and of the majority what two of the
first three of `a` hold. -/
def ShaWords.round (v : ShaWords) (kw : Word) : ShaWords :=
  let a (i : Nat) : Word := v.a.getD i 0
  let e (i : Nat) : Word := v.e.getD i 0
  let choice := e 2 ^^^ (e 0 &&& (e 1 ^^^ e 2))
  let most := (a 0 &&& (a 1 ||| a 2)) ||| (a 1 &&& a 2)
  let mix := e 3 + spins [14, 18, 41] (e 0) + choice + kw
  ⟨(mix + spins [28, 34, 39] (a 0) + most) :: v.a.take 3, (a 3 + mix) :: v.e.take 3⟩

/-- One 128-byte block. -/
def shaBlock (h : List Word) (blk : Bytes) : List Word :=
  let m := (List.range 16).map fun i => BitVec.ofNat 64 (beNat ((blk.drop (8 * i)).take 8))
  let v := (List.zipWith (· + ·) shaK (shaSched 64 m)).foldl ShaWords.round ⟨h.take 4, h.drop 4⟩
  List.zipWith (· + ·) h (v.a ++ v.e)

/-- `n` blocks of a padded message. -/
def shaBlocks : Nat → List Word → Bytes → List Word
  | 0, h, _ => h
  | n + 1, h, m => shaBlocks n (shaBlock h (m.take 128)) (m.drop 128)

/-- The 48 bytes of SHA-384 of a message. -/
def sha384 (m : Bytes) : Bytes :=
  let n := m.length
  let z := (128 - (n + 17) % 128) % 128
  let p := m ++ [0x80] ++ List.replicate z 0 ++ beBytes 16 (8 * n)
  ((shaBlocks (p.length / 128) shaInit p).take 6).flatMap fun w => beBytes 8 w.toNat

/-- SHA-384 as a number whose byte 0 is the first byte of the digest (R6). -/
def sha384d (m : Bytes) : Digest := BitVec.ofNat 384 (leNat (sha384 m))

end Sys2Proof.Machine
end

