-- ==== Sys2Proof/Machine/Image.lean ====
section
/-!
DEFINITION. Trellis images: reading a record's fields, the checks of R428 in order, the trellis shape (R62), and extent tables
(R285 to R288).
-/

namespace Sys2Proof.Machine

/-! ## Records (Tables 1.11, 1.12, 1.16) -/

/-- PARTITION body (Table 1.15). -/
def parsePart (part : Nat) (b : Bytes) : Option Rec :=
  let dma := BitVec.ofNat 256 (fld b 16 32)
  let ok := zeroAt b 12 4 && fld b 48 1 < 2 && zeroAt b 49 7 &&
    !(dma.getLsbD 63 || dma.getLsbD 127 || dma.getLsbD 191 || dma.getLsbD 255)
  if ok then
    some (.part ⟨part, BitVec.ofNat 64 (fld b 0 8), BitVec.ofNat 32 (fld b 8 4), dma, fld b 48 1 = 1, fld b 56 8⟩)
  else none

/-- CONTEXT body (Table 12.1). -/
def parseCtx (part : Nat) (b : Bytes) : Option Rec :=
  let rings := fld b 5 1
  let ok := fld b 0 2 < 1024 && fld b 2 3 < 2 ^ 20 && rings % 4 = 0 && rings < 16 && fld b 6 2 < 1024 &&
    fld b 8 8 % 64 = 0 && fld b 16 8 % 4096 = 0 && 6 ≤ fld b 24 1 && fld b 24 1 ≤ 12 && zeroAt b 25 7 &&
    fld b 32 8 % 4096 = 0 && fld b 40 4 ≤ 65536 && zeroAt b 44 4
  if ok then
    some (.ctx ⟨part, fld b 0 2, BitVec.ofNat 20 (fld b 2 3), bit rings 2, bit rings 3, BitVec.ofNat 10 (fld b 6 2),
      fld b 8 8, fld b 16 8, fld b 24 1, fld b 32 8, fld b 40 4⟩)
  else none

/-- SRAM_SPLIT body (R30). -/
def parseSplit (part : Nat) (b : Bytes) : Option Rec :=
  if fld b 0 1 < 64 && zeroAt b 1 1 && fld b 2 2 < 1024 && fld b 4 2 < 1024 && fld b 6 2 < 1024 then
    some (.split ⟨part, fld b 0 1, fld b 2 2, fld b 4 2, fld b 6 2⟩)
  else none

def mib : Nat := 0x100000

/-- MiB of each pseudo-channel that a region occupies (R265). -/
def regionMib (r : RegionRec) : Nat := r.len / (64 * (if r.spread then 12 else 3) * mib)

/-- HBM_REGION body (Table 11.3, R265); a region on a failed stack is refused (R401). -/
def parseRegion (failed : BitVec 12) (part : Nat) (b : Bytes) : Option Rec :=
  let pl := fld b 17 1
  let r : RegionRec := ⟨part, fld b 0 8, fld b 8 8, fld b 16 1 = 1, bit pl 0, bits pl 2 1, fld b 18 2⟩
  let unit := if r.spread then 768 * mib else 192 * mib
  let sts := if r.spread then List.range 12 else from_ (3 * r.quarter) 3
  let ok := r.base % (64 * mib) = 0 && r.len % unit = 0 && fld b 16 1 < 2 && (!r.press || part = 0) && pl < 8 &&
    r.storeOff < 1024 && zeroAt b 20 4 && r.storeOff + regionMib r ≤ 1024 && r.base + r.len ≤ hbmTop &&
    !(r.press && r.spread) && sts.all fun k => !failed.getLsbD k
  if ok then some (.region r) else none

/-- PRESS_TABLE body in either form (Tables 10.2a, 10.2b). -/
def parsePress (part : Nat) (b : Bytes) : Option Rec :=
  if fld b 0 1 = 0 then
    let r : PressQRec := ⟨fld b 1 1, fld b 8 8, fld b 16 8, fld b 24 4, fld b 28 2, fld b 32 1⟩
    let ok := b.length = 40 && r.quarter < 4 && zeroAt b 2 6 && r.areaBase % mib = 0 && r.cutSlots ≤ 65536 &&
      256 ≤ r.cutPitch && r.cutPitch ≤ 4096 && r.cutPitch % 256 = 0 && zeroAt b 30 2 && 16 ≤ r.ageLog && r.ageLog ≤ 26 &&
      zeroAt b 33 7
    if ok then some (.pressQ r) else none
  else
    let bl := fld b 5 1
    let r : TableRec := ⟨part, fld b 1 1, fld b 2 2, fld b 4 1, BitVec.ofNat 2 bl, bit bl 2, bit bl 3, fld b 6 2, fld b 8 8,
      fld b 16 8, fld b 24 2, BitVec.ofNat 10 (fld b 26 2), fld b 28 4, fld b 32 4, fld b 40 4⟩
    let ok := fld b 0 1 = 1 && b.length = 48 && r.homeQ < 4 && r.table < 4096 && [0, 1, 2, 3, 4, 5, 8].contains r.fmt &&
      bl < 16 && 1 ≤ r.rowElems && r.rowElems ≤ 1024 && r.base % 64 = 0 && 1 ≤ r.rows && r.rows ≤ 2 ^ 40 &&
      r.pitch % 64 = 0 && r.rowElems * elemLen r.fmt + 8 ≤ r.pitch && r.pitch ≤ 4096 && fld b 26 2 < 1024 &&
      r.journalRows % 1024 = 0 && r.journalRows ≤ 262144 && (r.journalRows != 0 || !r.updatable) && zeroAt b 36 4 &&
      zeroAt b 44 4 && 1 ≤ r.epoch
    if ok then some (.table r) else none
where
  elemLen (f : Nat) : Nat := container f

/-- LINK_ROUTE body in either form (Tables 13.8, 13.9). -/
def parseLink (eth : Bool) (part : Nat) (b : Bytes) : Option Rec :=
  if fld b 0 1 = 0 then
    let mode := fld b 2 1
    let fl := fld b 3 1
    let native := mode = 1
    let ether := mode = 2
    let ok := part = 0 && b.length = 96 && fld b 1 1 < 32 && mode < 3 && (!ether || eth) && fl < 4 && (fl = 0 || ether) &&
      fld b 4 2 < 8192 && fld b 6 1 < 32 && (native || (zeroAt b 4 3 && zeroAt b 48 48)) &&
      fld b 7 1 < 64 && (ether || (zeroAt b 7 1 && zeroAt b 8 6 && zeroAt b 32 2)) && (!ether || 1 ≤ fld b 32 2) &&
      (bit fl 0 || zeroAt b 20 12) && zeroAt b 34 14
    if ok then
      some (.port ⟨fld b 1 1, BitVec.ofNat 2 mode, BitVec.ofNat 8 fl, BitVec.ofNat 13 (fld b 4 2), BitVec.ofNat 5 (fld b 6 1),
        BitVec.ofNat 6 (fld b 7 1), BitVec.ofNat 48 (fld b 8 6), BitVec.ofNat 16 (fld b 14 2), BitVec.ofNat 128 (fld b 16 16),
        BitVec.ofNat 16 (fld b 32 2), BitVec.ofNat 384 (fld b 48 48)⟩)
    else none
  else
    let ok := part = 0 && fld b 0 1 = 1 && b.length = 80 && zeroAt b 1 1 && fld b 2 2 < 8192 && fld b 4 4 != 0
    if ok then
      some (.route ⟨BitVec.ofNat 13 (fld b 2 2), BitVec.ofNat 32 (fld b 4 4), BitVec.ofNat 48 (fld b 8 6),
        BitVec.ofNat 16 (fld b 14 2), BitVec.ofNat 128 (fld b 16 16), BitVec.ofNat 384 (fld b 32 48)⟩)
    else none

/-- COLL_GROUP body (Table 14.1) and its configuration tag (R330). -/
def parseGroup (part : Nat) (b : Bytes) : Option Rec :=
  let n := fld b 4 2
  let mem := (List.range n).map fun m => fld b (24 + 4 * m) 4
  let ok := fld b 0 2 < 4096 && fld b 2 1 < 2 && 1 ≤ fld b 3 1 && fld b 3 1 ≤ 64 && 1 ≤ n && n ≤ 8192 && zeroAt b 6 2 &&
    1 ≤ fld b 12 4 && fld b 12 4 ≤ 1000000 && 16 ≤ fld b 16 4 && fld b 16 4 ≤ 2048 && zeroAt b 20 4 &&
    mem.all (· < 32768) && b.length = cdiv (24 + 4 * n) 8 * 8 && zeroAt b (24 + 4 * n) (b.length - (24 + 4 * n))
  if ok then
    some (.group ⟨part, fld b 0 2, fld b 2 1 = 1, fld b 3 1, n, fld b 8 4, fld b 12 4, fld b 16 4,
      mem.map fun x => (bits x 12 0, bits x 14 13), BitVec.ofNat 32 (leNat ((sha384 b).take 4))⟩)
  else none

/-- CLASS_RESERVATION body (Table 11.6). The rules of the serving lane bind only where ENABLE names one (log entry 70). -/
def parseClass (part : Nat) (b : Bytes) : Option Rec :=
  let ws (o : Nat) : Weights := ⟨fld b o 1, fld b (o + 1) 1, fld b (o + 2) 1, fld b (o + 3) 1⟩
  let sl := fld b 1 1
  let r : ClassRec := ⟨part, fld b 0 1, sl % 8, bit sl 7, fld b 2 2, fld b 4 1, fld b 5 1 = 1, ws 6, ws 10, ws 14⟩
  let inB (x : Weights → Nat) : Bool := x r.low ≤ x r.w && x r.w ≤ x r.high
  let ok := r.quarter < 4 && bits sl 6 3 = 0 && r.share < 1024 && (1 ≤ r.share || !r.enable) && r.urgentCap ≤ 40 && fld b 5 1 < 2 &&
    1 ≤ r.w.normal && 1 ≤ r.w.bulk && 1 ≤ r.w.back && inB (·.urg) && inB (·.normal) && inB (·.bulk) && inB (·.back) &&
    zeroAt b 18 6 && (r.enable || part = 0)
  if ok then some (.cls r) else none

/-- Range of a loop's bounds (Table 15.5). -/
def loopRange : Nat → Nat × Nat
  | 0 => (500, 1500)
  | 1 => (100, 650)
  | 2 => (1, 8)
  | 3 => (2, 15)
  | 4 => (2, 8)
  | _ => (2, 8)

/-- Bounds of a loop of a quarter in a configuration (R365). -/
def Active.bounds (A : Active) (loop q : Nat) : Nat × Nat :=
  match A.loops.find? fun r => r.loop = loop && r.quarter = q with
  | some r => (r.low, r.high)
  | none => loopRange loop

/-- A value moved to the nearer bound. -/
def clampTo (b : Nat × Nat) (v : Nat) : Nat := min (max v b.1) b.2

/-- LOOP_BOUND body (Table 15.5). -/
def parseLoop (part : Nat) (b : Bytes) : Option Rec :=
  let r : LoopRec := ⟨fld b 0 1, fld b 1 1, fld b 2 2, fld b 4 2⟩
  let (lo, hi) := loopRange r.loop
  let ok := part = 0 && r.loop < 6 && r.quarter < 4 && lo ≤ r.low && r.low ≤ r.high && r.high ≤ hi && zeroAt b 6 2 &&
    (r.loop != 0 || (r.low % 25 = 0 && r.high % 25 = 0))
  if ok then some (.loop r) else none

/-- Body length of a record type (Table 1.16); `n` is the member count of a COLL_GROUP, `form` byte 0 of the body. -/
def bodyLen (typ form n : Nat) : Nat :=
  match typ with
  | 1 => 64
  | 2 => 48
  | 3 => 8
  | 4 => 24
  | 5 => if form = 0 then 40 else 48
  | 6 => if form = 0 then 96 else 80
  | 7 => cdiv (24 + 4 * n) 8 * 8
  | 8 => 24
  | 9 => 8
  | _ => 0

/-- What a record check needs of the device: failed stacks and the requested features. -/
structure RecEnv where
  failed : BitVec 12
  eth    : Bool

/-- One record of the image (R427): its bytes from its header on. The spec calls bytes 5 to 7 of the 8 B header "five reserved bytes";
the model takes the three that the header has room for (DESIGN CHOICE, log entry 65). -/
def parseRec (e : RecEnv) (b : Bytes) : Option (Rec × Nat) :=
  let typ := fld b 0 2
  let len := fld b 2 2
  let part := fld b 4 1
  let body := (b.drop 8).take (len - 8)
  if !(part < 64 && zeroAt b 5 3 && 1 ≤ typ && typ ≤ 9 && len = 8 + bodyLen typ (fld b 8 1) (fld b 12 2) && len ≤ b.length)
  then none
  else
    (match typ with
      | 1 => parsePart part body
      | 2 => parseCtx part body
      | 3 => parseSplit part body
      | 4 => parseRegion e.failed part body
      | 5 => parsePress part body
      | 6 => parseLink e.eth part body
      | 7 => parseGroup part body
      | 8 => parseClass part body
      | _ => parseLoop part body).map fun r => (r, len)

/-- `n` records that fill the bytes exactly (R27). -/
def parseRecs (e : RecEnv) : Nat → Bytes → Option (List Rec)
  | 0, b => if b.isEmpty then some [] else none
  | n + 1, b =>
    match parseRec e b with
    | none => none
    | some (r, len) => (parseRecs e n (b.drop len)).map (r :: ·)

/-! ## The records of an image by kind -/

def Rec.toPart : Rec → Option PartRec
  | .part r => some r
  | _ => none
def Rec.toCtx : Rec → Option CtxRec
  | .ctx r => some r
  | _ => none
def Rec.toSplit : Rec → Option SplitRec
  | .split r => some r
  | _ => none
def Rec.toRegion : Rec → Option RegionRec
  | .region r => some r
  | _ => none
def Rec.toPressQ : Rec → Option PressQRec
  | .pressQ r => some r
  | _ => none
def Rec.toTable : Rec → Option TableRec
  | .table r => some r
  | _ => none
def Rec.toPort : Rec → Option PortForm
  | .port r => some r
  | _ => none
def Rec.toRoute : Rec → Option RouteForm
  | .route r => some r
  | _ => none
def Rec.toGroup : Rec → Option GroupRec
  | .group r => some r
  | _ => none
def Rec.toClass : Rec → Option ClassRec
  | .cls r => some r
  | _ => none
def Rec.toLoop : Rec → Option LoopRec
  | .loop r => some r
  | _ => none

/-- An image's records as a whole configuration. -/
def Image.config (i : Image) : Active where
  dev := i.dev
  devCount := i.devCount
  features := i.features
  parts := i.recs.filterMap Rec.toPart
  ctxs := i.recs.filterMap Rec.toCtx
  splits := i.recs.filterMap Rec.toSplit
  regions := i.recs.filterMap Rec.toRegion
  pressQs := i.recs.filterMap Rec.toPressQ
  tables := i.recs.filterMap Rec.toTable
  ports := i.recs.filterMap Rec.toPort
  routes := i.recs.filterMap Rec.toRoute
  groups := i.recs.filterMap Rec.toGroup
  classes := i.recs.filterMap Rec.toClass
  loops := i.recs.filterMap Rec.toLoop

/-- No two elements of a list are in conflict. -/
def pairwiseOk {α : Type} (ok : α → α → Bool) : List α → Bool
  | [] => true
  | a :: l => l.all (ok a) && pairwiseOk ok l

/-! ## Relations between records (R428 step 8) -/

def quarterMask (q : Nat) : BitVec 64 := 0xFFFF#64 <<< (16 * q)

/-- A range inside one region of a partition. -/
def Active.inRegion (A : Active) (part a n : Nat) : Bool :=
  A.regions.any fun r => !r.press && r.part = part && r.base ≤ a && a + n ≤ r.base + r.len

/-- Rules whose code is 0x04. -/
def Active.relOk (A : Active) (count : Nat) (tables : Map Table) : Bool :=
  let parts := A.parts.map (·.part)
  let hasPart (p : Nat) : Bool := p < count
  parts.length = count && (List.range count).all parts.contains &&
  pairwiseOk (fun a b => a.ctx != b.ctx) A.ctxs && A.ctxs.all (fun r => hasPart r.part) &&
  pairwiseOk (fun a b => a.core != b.core) A.splits &&
  A.regions.all (fun r => r.press || hasPart r.part) &&
  pairwiseOk (fun a b => a.quarter != b.quarter) A.pressQs &&
  A.pressQs.all (fun r => A.regions.any fun g =>
    g.press && g.quarter = r.quarter && g.base ≤ r.areaBase && r.areaBase + r.areaLen ≤ g.base + g.len) &&
  pairwiseOk (fun a b => a.cutPitch = b.cutPitch) A.pressQs &&
  (A.tables.all (fun t => t.cutMax = 0) || pairwiseOk (fun a b => a.cutSlots = b.cutSlots) A.pressQs) &&
  pairwiseOk (fun a b => a.table != b.table) A.tables &&
  A.tables.all (fun t =>
    hasPart t.part && A.inRegion t.part t.base (t.rows * t.pitch) &&
    A.pressQs.any (fun r => r.quarter = t.homeQ) &&
    (t.cutMax = 0 || A.pressQs.all fun r => t.pitch ≤ r.cutPitch) &&
    (let o := tables.look t.table {}
     match o.st with
     | 1 => (match o.rc with
       | some r => decide ({ r with cutMax := t.cutMax } = t)
       | none => true)
     | 2 => false
     | _ => true)) &&
  (!A.features.getLsbD 12 || A.tables.all (fun t => t.cutMax = 0) || A.pressQs.length = 4) &&
  pairwiseOk (fun a b => a.port != b.port) A.ports &&
  A.ports.all (fun f => f.mode != 1 || A.routes.all fun r => r.dest != f.partnerDev) &&
  A.routes.all (fun r => (List.range 32).all fun p => !r.portMask.getLsbD p || A.ports.any fun f => f.port = p && f.mode = 2) &&
  pairwiseOk (fun a b => a.group != b.group) A.groups &&
  A.groups.all (fun g =>
    hasPart g.part && pairwiseOk (fun (a b : Nat × Nat) => a.1 != b.1) g.members &&
    match g.members.find? fun m => m.1 = A.dev.toNat with
    | none => false
    | some m => A.parts.any fun r => r.part = g.part && r.coreMask &&& quarterMask m.2 != 0) &&
  pairwiseOk (fun a b => a.quarter != b.quarter) A.classes &&
  A.classes.all (fun r => !r.enable ||
    A.parts.any fun p => p.part = r.part && p.laneMask.getLsbD (8 * r.quarter + r.lane)) &&
  pairwiseOk (fun a b => a.loop != b.loop || a.quarter != b.quarter) A.loops

/-- Pseudo-channel storage of two regions overlaps (R265). -/
def storageMeet (a b : RegionRec) : Bool :=
  (a.spread || b.spread || a.quarter = b.quarter) &&
    a.storeOff < b.storeOff + regionMib b && b.storeOff < a.storeOff + regionMib a

def regionsMeet (a b : RegionRec) : Bool :=
  (a.base < b.base + b.len && b.base < a.base + a.len) || storageMeet a b

def partsMeet (a b : PartRec) : Bool :=
  a.coreMask &&& b.coreMask != 0 || a.laneMask &&& b.laneMask != 0 || a.dmaMask &&& b.dmaMask != 0

/-- Resources granted twice (0x06). -/
def Active.disjoint (A : Active) : Bool :=
  pairwiseOk (fun a b => !partsMeet a b) A.parts && pairwiseOk (fun a b => !regionsMeet a b) A.regions

/-- SRAM splits, press store layouts and staging totals (0x07; R28, R30, R240, R330). -/
def Active.storesOk (A : Active) : Bool :=
  A.splits.all (fun r =>
    r.scratch + r.resident + r.rowcache = 512 &&
    match A.parts.find? fun p => p.coreMask.getLsbD r.core with
    | some p => p.part = r.part
    | none => r.resident = 0 && r.part = 0) &&
  (List.range 4).all (fun q =>
    let n := A.rcBytes q
    let homes := A.tables.any fun t => t.homeQ = q
    (n = 0 && !homes || 32 * mib ≤ n && n ≤ 256 * mib) &&
    (match A.pressQs.find? fun r => r.quarter = q with
     | none => true
     | some r => A.areaBytes r ≤ r.areaLen && 64 ≤ A.rcSets q) &&
    ((A.groups.filter fun g => g.members.any fun m => m.1 = A.dev.toNat && m.2 = q).map (·.stage)).sum ≤ 2048)

/-! ## Extent tables (R285 to R288) -/

/-- Outcome of checking one entry: ignored, loaded, crossing a range of the map, or breaking R287. -/
inductive ExtChk where
  | skip
  | ok (e : Ext)
  | cross
  | bad
  deriving DecidableEq, Repr

/-- Cores that an SRAM range touches all belong to the partition, and it stays in their scratch and resident parts. -/
def Active.sramRange (A : Active) (p a n : Nat) : Bool :=
  let c0 := sramCore a
  let c1 := sramCore (a + n - 1)
  (from_ c0 (c1 + 1 - c0)).all fun c =>
    let top := if c = c1 then sramOff (a + n - 1) + 1 else 0x2000000
    let r := A.splitOf c
    (A.parts.any fun x => x.part = p && x.coreMask.getLsbD c) && top ≤ (r.scratch + r.resident) * 0x10000

/-- A physical range reaches into a range of Table 0.6 and out of it (R5). -/
def crosses (a n : Nat) : Bool :=
  zone a n = .none &&
    [(0, hbmTop), (sramBase, sramBase + 0x80000000), (mmioBase, mmioBase + 0x100000000), (hostBase, 2 * hostBase)].any
      fun r => a < r.2 && r.1 < a + n

/-- The fields of an extent entry (Table 12.2). -/
def parseExt (i : Nat) (b : Bytes) : Ext :=
  let perm := fld b 26 2
  let fl := fld b 28 1
  ⟨i, fld b 0 8, fld b 8 8, fld b 16 8, BitVec.ofNat 10 (fld b 24 2), BitVec.ofNat 4 perm, BitVec.ofNat 4 (perm / 16),
    BitVec.ofNat 4 (perm / 256), bit fl 1, bit fl 2⟩

/-- Table 12.2 and R287, apart from overlaps between entries. A range that crosses the address map decides the code whatever else is
wrong with the entry (R288). -/
def Active.checkEntry (A : Active) (p i : Nat) (b : Bytes) : ExtChk :=
  let fl := fld b 28 1
  if !bit fl 0 then .skip
  else
    let e := parseExt i b
    let form := e.vstart < 2 ^ 56 && e.vstart % 4096 = 0 && e.len % 4096 = 0 && 4096 ≤ e.len && e.len ≤ 2 ^ 48 &&
      e.pstart < 2 ^ 48 && e.pstart % 4096 = 0 && fld b 24 2 < 1024 && fld b 26 2 < 4096 && fl < 8 && zeroAt b 29 3 &&
      e.vstart + e.len ≤ 2 ^ 56 && (e.pageable || e.present)
    if crosses e.pstart e.len then .cross
    else if !form then .bad
    else
      match zone e.pstart e.len with
      | .none => .bad
      | .hbm =>
        if A.inRegion p e.pstart e.len && A.ctxs.any fun r => r.part = p && r.key = e.key then .ok e else .bad
      | .sram => if A.sramRange p e.pstart e.len && e.key = 0 then .ok e else .bad
      | .mmio =>
        if e.rd.getLsbD 2 || e.rd.getLsbD 3 || e.wr.getLsbD 2 || e.wr.getLsbD 3 || e.ex != 0 || e.pageable || e.key != 0
        then .bad else .ok e
      | .host => if e.pageable && e.ex = 0 && e.key = 0 then .ok e else .bad

def extsMeet (a b : Ext) : Bool := a.vstart < b.vstart + b.len && b.vstart < a.vstart + a.len

/-- Entries in ascending index, `none` for one whose read fails or finds poisoned data: the loaded ones, or the code of the first
failure. -/
def Active.checkEntries (A : Active) (p : Nat) : List (Option Bytes) → Nat → List Ext → List Ext ⊕ Nat
  | [], _, acc => .inl acc.reverse
  | none :: _, _, _ => .inr 4
  | some b :: bs, i, acc =>
    match A.checkEntry p i b with
    | .skip => A.checkEntries p bs (i + 1) acc
    | .cross => .inr 8
    | .bad => .inr 4
    | .ok e => if acc.any (extsMeet e) then .inr 4 else A.checkEntries p bs (i + 1) (e :: acc)

/-- The hub's own access: ring 0, no key, no PASID (R285, Table 11.9). -/
def hubWho : Who := { src := 138, quiet := true, plain := true }

/-- An area lies in the host window or in an HBM region of the partition (R285). -/
def Active.areaOk (A : Active) (p a n : Nat) : Bool :=
  n = 0 || zone a n = .host || (zone a n = .hbm && A.inRegion p a n)

/-- A context's extent table as read (R286): nothing where the header is bad, an area of the context lies outside its memory, or the
header's read fails; else its entries, `none` for one whose read fails or finds poisoned data. -/
def State.readTable (s : State) (A : Active) (r : CtxRec) : State × Option (List (Option Bytes)) :=
  let areas := A.areaOk r.part r.fqBase (64 * 2 ^ r.fqLog) &&
    (r.mlogBase = 0 || A.areaOk r.part r.mlogBase (64 * r.mlogLimit))
  if !(areas && A.areaOk r.part r.xtBase 64) then (s, none)
  else
    let (s, h) := s.memRd hubWho r.xtBase 64
    let n := fld h.data 4 2
    if h.err || h.bad.isSome || fld h.data 0 4 != 0x54584558 || 4096 < n || !zeroAt h.data 6 58 ||
        !A.areaOk r.part r.xtBase (64 + 32 * n) then (s, none)
    else
      let (s, es) := (List.range n).foldl (fun (a : State × List (Option Bytes)) i =>
        let (s, d) := a.1.memRd hubWho (r.xtBase + 64 + 32 * i) 32
        (s, (if d.err || d.bad.isSome then none else some d.data) :: a.2)) (s, [])
      (s, some es.reverse)

/-- Extent tables of some contexts. -/
def State.readTables (s : State) (A : Active) : List CtxRec → State × List (CtxRec × Option (List (Option Bytes)))
  | [] => (s, [])
  | r :: rs =>
    let (s, t) := s.readTable A r
    let (s, l) := s.readTables A rs
    (s, (r, t) :: l)

/-- Physical ranges of the valid entries of a table as read. -/
def tableSpans (t : Option (List (Option Bytes))) : List (Nat × Nat) :=
  (t.getD []).filterMap fun b => b.bind fun b => if bit (fld b 28 1) 0 then some (fld b 16 8, fld b 8 8) else none

/-- The three areas of a context whose table has `n` entries lie outside some extents, given by physical start and length (R285). -/
def areasClear (r : CtxRec) (n : Nat) (spans : List (Nat × Nat)) : Bool :=
  let clear (a k : Nat) : Bool := zone a k != .hbm || k = 0 || spans.all fun e => a + k ≤ e.1 || e.1 + e.2 ≤ a
  clear r.xtBase (64 + 32 * n) && clear r.fqBase (64 * 2 ^ r.fqLog) && (r.mlogBase = 0 || clear r.mlogBase (64 * r.mlogLimit))

/-- A table as read against R285 to R287, the header and the areas first: its loaded entries, or a reject code. `spans` are the valid
extents of every context that its areas must avoid; a range that breaks R285 is the failure of the context whose range it is
(DEDUCED, log entry 91). -/
def Active.checkTable (A : Active) (spans : List (Nat × Nat)) (r : CtxRec) : Option (List (Option Bytes)) → List Ext ⊕ Nat
  | none => .inr 4
  | some bs => if areasClear r bs.length spans then A.checkEntries r.part bs 0 [] else .inr 4

/-- Quarters in which a partition owns a core, a press lane or a DMA channel (R288). -/
def PartRec.quarters (r : PartRec) : List Nat :=
  (List.range 4).filter fun q =>
    r.coreMask &&& quarterMask q != 0 || (r.laneMask >>> (8 * q)) &&& 0xFF != 0 ||
      (r.dmaMask >>> (64 * q)) &&& 0xFFFFFFFFFFFFFFFF#256 != 0

/-- The first code among the tables' outcomes. -/
def firstCode : List (CtxRec × (List Ext ⊕ Nat)) → Option Nat
  | [] => none
  | (_, .inr k) :: _ => some k
  | (_, .inl _) :: l => firstCode l

/-- Step 9 of R428: the contexts in ascending number, then the numbers of entries (R288). -/
def State.checkTables (s : State) (A : Active) : State × Option Nat :=
  let (s, l) := s.readTables A (sortBy (fun a b => a.ctx < b.ctx) A.ctxs)
  let spans := l.flatMap fun x => tableSpans x.2
  let out := l.map fun x => (x.1, A.checkTable spans x.1 x.2)
  let few := (List.range 4).all fun q =>
    ((out.filter fun x => A.parts.any fun p => p.part = x.1.part && p.quarters.contains q).map fun x =>
      match x.2 with
      | .inl es => es.length
      | .inr _ => 0).sum ≤ 4096
  (s, firstCode out <|> if few then none else some 4)

/-! ## The whole image -/

/-- Number of set bits of a feature vector's ARITH_GEN byte. -/
def genBits (f : BitVec 256) : Nat := ((List.range 8).filter fun i => f.getLsbD i).length

/-- Steps 2 to 8 of R428 on the bytes read. `keys` are the key slots as they stood at staging (R360); while DEBUG is set every
image is refused with the signature's code (R359, log entry 26). -/
def checkImage (b : Bytes) (len gen : Nat) (keys : Map (Option Digest)) (debug : Bool) (failed : BitVec 12)
    (tables : Map Table) : Image ⊕ Nat :=
  let hdr := 224 ≤ len && len ≤ 0x1000000 && fld b 0 4 = 0x4C545258 && fld b 4 2 = 1 && fld b 6 2 = 128 && fld b 8 4 = len &&
    1 ≤ fld b 12 4 && fld b 12 4 ≤ 65535 && fld b 24 2 < 8192 && 1 ≤ fld b 27 1 && fld b 27 1 ≤ 64 && zeroAt b 28 4 &&
    1 ≤ fld b 64 2 && fld b 64 2 ≤ 8192 && zeroAt b 66 62
  if !hdr then .inr 4
  else
    match if fld b 26 1 < 4 then keys.look (fld b 26 1) none else none with
    | none => .inr 2
    | some key =>
      if debug || !Config.trellisSignature key (sha384d (b.take (len - 96))) (b.drop (len - 96)) then .inr 1
      else if fld b 16 8 ≤ gen then .inr 3
      else
        let f := BitVec.ofNat 256 (fld b 32 32)
        if f &&& ~~~offered != 0 || genBits f != 1 then .inr 5
        else
          match parseRecs ⟨failed, f.getLsbD 14⟩ (fld b 12 4) ((b.drop 128).take (len - 224)) with
          | none => .inr 4
          | some rs =>
            let i : Image := ⟨fld b 16 8, fld b 26 1, BitVec.ofNat 13 (fld b 24 2), fld b 64 2, fld b 27 1, f, rs, b⟩
            let A := i.config
            if !A.relOk i.partCount tables then .inr 4
            else if !A.disjoint then .inr 6
            else if !A.storesOk then .inr 7
            else .inl i

/-- Records as they enter the trellis shape (Table 2.5). -/
def shapeRecs : Nat → Bytes → Bytes
  | 0, _ => []
  | n + 1, b =>
    let len := fld b 2 2
    let r := b.take len
    let out := match fld b 0 2 with
      | 8 => []
      | 9 => []
      | 1 => patch r 64 (List.replicate 8 0)
      | 4 => patch r 25 (List.replicate 3 0)
      | _ => r
    out ++ shapeRecs n (b.drop len)

/-- SHAPE_DIGEST of an image (R62). -/
def Image.shape (i : Image) : Bytes :=
  let h := patch (patch (i.raw.take 128) 16 (List.replicate 8 0)) 26 [0]
  sha384 (h ++ shapeRecs i.recs.length ((i.raw.drop 128).take (i.raw.length - 224)))

end Sys2Proof.Machine
end

