-- ==== Sys2Proof/Machine/Tick.lean ====
section
/-!
DEFINITION. Device time: what one nanosecond does when nothing else happens, and how a command that stands for a moment brings
time to it (log entries 1 and 3).
-/

namespace Sys2Proof.Machine

/-- Core-clock cycles of a quarter that end in one nanosecond: the clock in MHz counts up a phase of 1,000 (R363). -/
def Power.tick (p : Power) : Power :=
  let x := p.phase + p.mhz
  { p with phase := x % 1000, cycles := p.cycles + x / 1000, sinceUp := p.sinceUp + 1 }

/-- Powers of the four quarters after one nanosecond; a stopped quarter clock (R422) does not count. -/
def tickQuarters (m : Map Power) : Map Power :=
  (List.range 4).foldl (fun m q => let p := m.look q {}; if p.halted then m else m.set q p.tick) m

/-- One nanosecond: device time and the cellar count advance (R347), and the quarter clocks run. -/
def State.tick (s : State) : State :=
  { s with
    now := s.now + 1
    cellar := { s.cellar with count := s.cellar.count + 1 }
    power := tickQuarters s.power }

/-- `n` nanoseconds at once: the cellar count and device time advance together. -/
def State.advance (s : State) (n : Nat) : State :=
  { s with
    now := s.now + n
    cellar := { s.cellar with count := s.cellar.count + n }
    power := (List.range 4).foldl (fun m q =>
      let p := m.look q {}
      if p.halted || n = 0 then m
      else
        let x := p.phase + n * p.mhz
        m.set q { p with phase := x % 1000, cycles := p.cycles + x / 1000, sinceUp := p.sinceUp + n }) s.power }

/-- Bring the cellar count to at least `t` (log entry 3). -/
def State.toCount (s : State) (t : Nat) : State := s.advance (t - s.cellar.count)

/-- Bring device time to at least `t`. -/
def State.toNow (s : State) (t : Nat) : State := s.advance (t - s.now)

end Sys2Proof.Machine
end

