-- ==== Sys2Proof/Machine/Hbm.lean ====
section
/-!
DEFINITION. The HBM controllers (R262 to R283): requests and transaction tags, arbitration by class, responses, rewrites, refresh,
scrubbing, region clearing and class weights.
-/

namespace Sys2Proof.Machine

/-- Whether the engines run: a SEV4 stops them all (R388). -/
def State.running (s : State) : Bool := !s.faults.fatal

/-- Whether the engines of a unit go on: neither SEV4 nor stop-now has stopped them (R370, R388). -/
def State.goes (s : State) (u : Nat) : Bool := s.running && (s.unit u).adm != 2

/-! ## Requesters -/

/-- The class record that is in force in a quarter (R271). -/
def State.classRec (s : State) (q : Nat) : Option ClassRec := s.active.classes.find? fun r => r.quarter = q

/-- Quarter that a requester sits in; 4 for the hub. -/
def agentQuarter : MemAgent → Nat
  | .core c => c.val / 16
  | .dma ch => ch.val / 64
  | .rescue q => q.val
  | .press q _ => q.val
  | .coll q _ => q.val
  | .bar2 => 4
  | .hub => 4

/-- The transfer that a DMA channel runs. -/
def State.runningXfer (s : State) (ch : Nat) : Option Xfer := (s.chan ch).xfers.find? fun x => x.st == .running

/-- The item that a group runs, and that a press lane runs. -/
def State.runningItem (s : State) (g : Nat) : Option CollItem := (s.group g).running.map (·.item)
def State.runningBatch (s : State) (q l : Nat) : Option BatchItem := (((s.press q).lanes.look l {}).run).map (·.item)

/-- The context that a requester works for; none for blending and cutting moves, rescue channels, BAR2 and the hub. -/
def State.agentCtx (s : State) : MemAgent → Option Nat
  | .core c => some (s.core c).seq.context
  | .dma ch => (s.runningXfer ch).map (·.ctx)
  | .press q (some l) => (s.runningBatch q l).map (·.ctx)
  | .coll _ g => (s.runningItem g).map (·.ctx)
  | _ => none

/-- Level of the queue that a requester's work came by. -/
def State.agentLevel (s : State) : MemAgent → BitVec 2
  | .core c => (s.core c).seq.level
  | .dma ch => ((s.runningXfer ch).map (·.level)).getD 1
  | .coll _ g =>
    match s.runningItem g with
    | some i => match i.cmd, i.core with
      | some (n, _), _ => s.queueLevel n
      | none, some (c, _) => (s.core c).seq.level
      | none, none => 1
    | none => 1
  | _ => 1

/-- The class of a request to a stack of quarter `q` (R269, Table 11.5): 0 urgent, 1 normal, 2 bulk, 3 background. -/
def State.agentClass (s : State) (q : Nat) (a : MemAgent) : BitVec 2 :=
  match a with
  | .press p (some l) =>
    match s.classRec p with
    | some r => if r.enable && r.lane = l.val then 0 else 1
    | none => 1
  | .press _ none => 3
  | .rescue _ => 1
  | .bar2 => 1
  | .hub => 1
  | a =>
    let v := s.agentLevel a
    if v = 0 && !(((s.classRec q).map (·.urgentQueues)).getD false) then 1 else v

/-- How a requester reaches memory (R267, R301, Table 11.9). -/
def State.agentWho (s : State) (a : MemAgent) (ctx : Option Nat) (slot : BitVec 10) : Who :=
  let part := ctx.map fun k => (s.partOfCtx k).getD 64
  let w : Who := { src := 138, ctx := ctx, part := part, key := slot }
  match a with
  | .core c => { w with src := c.val, part := some ((s.partOfCore c).getD 64), ring0 := (s.core c).seq.ring == 0 }
  | .dma ch => { w with src := 72 + ch.val / 64, part := some (part.getD 64) }
  | .rescue q => { w with src := 72 + q.val, quiet := true, rescue := true }
  | .press q _ => { w with src := 64 + q.val, press := some q.val }
  | .coll q _ => { w with src := 68 + q.val, part := some (part.getD 64) }
  | .bar2 => { w with src := 135, key := s.host.bar2Key, quiet := true }
  | .hub => { w with quiet := true, plain := true }

/-! ## Tags (R274) -/

def tagCount (t : Tags) (p : MemAgent × BitVec 2 → Bool) : Nat := (t.used.filter p).length

def agentDma : MemAgent → Bool
  | .dma _ => true
  | _ => false

def agentRescue : MemAgent → Bool
  | .rescue _ => true
  | _ => false

def agentPress : MemAgent → Bool
  | .press _ _ => true
  | _ => false

/-- A tag of quarter `q` is free for a request of this agent and class. -/
def tagFree (t : Tags) (q : Nat) (a : MemAgent) (cls : BitVec 2) : Bool :=
  t.used.length < 4096 &&
  (cls = 0 || tagCount t (fun u => u.2 != 0) < 3584) &&
  (cls != 3 || tagCount t (fun u => u.2 == 3) < 256) &&
  (agentQuarter a = q || agentQuarter a = 4 || tagCount t (fun u => agentQuarter u.1 == agentQuarter a) < 1024) &&
  match a with
  | .dma _ => tagCount t (fun u => agentDma u.1) < 2032
  | .rescue _ => tagCount t (fun u => agentDma u.1 || agentRescue u.1) < 2048
  | .press _ _ => tagCount t (fun u => agentPress u.1) < 1536
  | .core _ => tagCount t (fun u => u.1 == a) < 128
  | _ => true

def State.takeTag (s : State) (q : Nat) (a : MemAgent) (cls : BitVec 2) : State :=
  s.onTag q fun t =>
    let used := t.used ++ [(a, cls)]
    { t with used := used, high := max t.high used.length }

def State.dropTag (s : State) (q : Nat) (a : MemAgent) (cls : BitVec 2) : State :=
  s.onTag q fun t => { t with used := dropFirst (fun u => u == (a, cls)) t.used }

/-! ## Requests reach a controller -/

/-- The region of an address is being cleared (R268). -/
def State.isClearing (s : State) (a : Nat) : Bool :=
  match s.region a 1 with
  | some r => s.clearing.contains r.base
  | none => false

/-- The granules of a request, numbered from a place in arrival order. -/
def granules (r : HbmReq) (cls : BitVec 2) (ctx : Option Nat) (write : Bool) (seq : Nat) : List HReq :=
  let cuts := cutGran 6 r.addr.toNat r.len
  (cuts.zip (List.range cuts.length)).map fun ((a, n), i) =>
    { req := { r with addr := BitVec.ofNat 48 a, len := n, data := (r.data.drop (a - r.addr.toNat)).take n },
      cls := cls, ctx := ctx, write := write, seq := seq + i, id := seq }

/-- Two requests touch one granule. -/
def sameGran (a b : HbmReq) : Bool :=
  a.addr.toNat / 64 ≤ (b.addr.toNat + b.len - 1) / 64 && b.addr.toNat / 64 ≤ (a.addr.toNat + a.len - 1) / 64

/-- A request enters its controller, or is refused as R4, R267 and R282 give; `none` while its region is cleared, no tag is free, its write
queue is full (R268, R270, R274), or a request before it to one of its granules waits. -/
def State.hbmEnter (s : State) (before : List (HbmReq × Bool)) (r : HbmReq) (write : Bool) : Option State :=
  let ctx := s.agentCtx r.agent
  let w := s.agentWho r.agent ctx r.slot
  let a := r.addr.toNat
  match s.gate w a r.len write with
  | .ok =>
    let (stack, pc, _) := s.place a
    let q := stack / 3
    let cls := s.agentClass q r.agent
    let x := s.pchan pc
    let gs := granules r cls ctx write x.seq
    if s.isClearing a || !tagFree (s.tag q) q r.agent cls || (write && 64 < x.writes.length + gs.length) ||
        before.any (fun o => sameGran o.1 r) then none
    else
      let x := { x with seq := x.seq + gs.length }
      let x := if write then { x with writes := x.writes ++ gs } else { x with reads := x.reads ++ gs }
      some ((s.takeTag q r.agent cls).setPchan pc x)
  | g => some (s.refuse w g a)

/-- Waiting requests of a quarter's controllers enter as far as they can, in arrival order. -/
def hbmWaiting : List (HbmReq × Bool) → State → List (HbmReq × Bool) → State × List (HbmReq × Bool)
  | [], s, left => (s, left)
  | (r, wr) :: l, s, left =>
    match s.hbmEnter left r wr with
    | some s => hbmWaiting l s left
    | none => hbmWaiting l s (left ++ [(r, wr)])

def State.hbmAdmit (s : State) (q : Nat) : State :=
  let (s, left) := hbmWaiting (s.tag q).wait s []
  s.onTag q fun t => { t with wait := left }

/-- A request arrives behind those that wait; one that addresses no HBM is none of the controllers'. -/
def State.hbmArrive (s : State) (r : HbmReq) (write : Bool) : State :=
  if zone r.addr.toNat r.len != .hbm then
    let w := s.agentWho r.agent (s.agentCtx r.agent) r.slot
    s.refuse w (s.gate w r.addr.toNat r.len write) r.addr.toNat
  else
    let q := (s.place r.addr.toNat).1 / 3
    (s.onTag q fun t => { t with wait := t.wait ++ [(r, write)] }).hbmAdmit q

def execHbmReadRequest (req : HbmReq) (s : State) : Res := .next (s.hbmArrive req false)

def execHbmWriteRequest (req : HbmReq) (s : State) : Res := .next (s.hbmArrive req true)

/-! ## Arbitration (R270) -/

/-- A granule access may issue: no earlier request to its granule is outstanding. -/
def PChan.free (x : PChan) (r : HReq) : Bool :=
  (x.reads ++ x.writes ++ x.served).all fun o => o.seq ≥ r.seq || o.req.addr.toNat / 64 != r.req.addr.toNat / 64

/-- The bank, by stack ID and bank, that a request's granule lies in (Table 11.2). -/
def State.bankOf (s : State) (a : Nat) : Nat × Nat :=
  let (_, _, p) := s.place a
  (lineSid p, lineBank p)

/-- The requests of a list that a refresh of a bank leaves to choose from (R275). -/
def State.offBank (s : State) (x : PChan) (l : List HReq) : List HReq :=
  match x.refBank with
  | none => l
  | some b => l.filter fun r => s.bankOf r.req.addr.toNat != b

/-- The oldest request of a class that may issue. -/
def PChan.first (x : PChan) (l : List HReq) (cls : Nat) : Option HReq :=
  l.find? fun r => r.cls.toNat = cls && x.free r

/-- The weights of a controller in the order urgent, normal, bulk, background. -/
def Weights.list (w : Weights) : List Nat := [w.urg, w.normal, w.bulk, w.back]

/-- Smooth weighted round-robin over eligible classes: the class chosen and the new current values. -/
def wrr (cur : List Int) (w : List Nat) (elig : List Bool) : Option Nat × List Int :=
  let ok (i : Nat) : Bool := elig.getD i false && 0 < w.getD i 0
  let idx := (List.range 4).filter ok
  let cur := (List.range 4).map fun i => cur.getD i 0 + if ok i then (w.getD i 0 : Int) else 0
  let sum : Int := (idx.map fun i => (w.getD i 0 : Int)).sum
  match idx with
  | [] => (none, cur)
  | i :: is =>
    let c := is.foldl (fun b j => if cur.getD b 0 < cur.getD j 0 then j else b) i
    (some c, setAt cur c (cur.getD c 0 - sum))

/-- The write queue drains: 48 entries or no read ready, or a drain that has not come to 16 entries. -/
def PChan.drains (x : PChan) : Bool := x.draining || 48 ≤ x.writes.length || x.reads.all fun r => !x.free r

/-- A drain goes on while more than 16 entries remain. -/
def PChan.drained (x : PChan) : PChan := { x with draining := x.draining && 16 < x.writes.length }

/-- One choice of a pseudo-channel: the request and the state of its arbiter. -/
def State.hbmChoose (s : State) (pc : Nat) : Option HReq × PChan :=
  let x := s.pchan pc
  let stack := pc / 64
  let d := x.drains
  let l := s.offBank x (if d then x.writes else x.reads)
  let x := { x with draining := d }
  let cap := ((s.classRec (stack / 3)).map (·.urgentCap)).getD 0
  let fair (x : PChan) : Option HReq × PChan :=
    match wrr x.cur (s.ctl stack).w.list ((List.range 4).map fun c => (x.first l c).isSome) with
    | (some c, cur) => (x.first l c, { x with cur := cur, usedUrg := x.usedUrg + if c = 0 then 2 else 0 })
    | (none, _) => (none, x)
  match x.first l 0 with
  | some r => if x.usedUrg * 100 < cap * 1000 then (some r, { x with usedUrg := x.usedUrg + 2 }) else fair x
  | none => fair x

/-- Release the tag of a request once its last granule has been answered; requests that waited for it may enter. -/
def State.finishReq (s : State) (pc : Nat) (r : HReq) : State :=
  let x := s.pchan pc
  if (x.reads ++ x.writes ++ x.served).any fun o => o.id == r.id then s
  else (s.dropTag (pc / 192) r.req.agent r.cls).hbmAdmit (pc / 192)

/-- A command of a pseudo-channel meets a command/address parity error: the first is counted and retried, the second one in a row is a
SEV4 source (Table 11.1, R388). -/
def State.parityError (s : State) (pc : Nat) (r : Option HReq) : State :=
  let x := s.pchan pc
  let s := s.setPchan pc { x with parErr := true, retry := r }
  if x.parErr then s.sev (76 + pc / 64) 4 0x0F none
  else s.onCtl (pc / 64) fun h => { h with parRetry := h.parRetry + 1 }

/-- The access to issue: the one that a parity error makes the channel repeat, else its arbiter's choice. -/
def State.hbmNext (s : State) (pc : Nat) : Option HReq × PChan :=
  match (s.pchan pc).retry with
  | some r => (some r, s.pchan pc)
  | none => s.hbmChoose pc

def execHbmAccess (cmd : HbmCmd) (s : State) : Res :=
  let pc := cmd.pc
  match s.hbmNext pc with
  | (none, x) => .next (s.setPchan pc { x.drained with refBank := none })
  | (some r, x) =>
    let x := { x with refBank := none }
    if cmd.parity then .next ((s.setPchan pc x).parityError pc (some r))
    else
      let drop (l : List HReq) : List HReq := l.filter fun o => o.seq != r.seq
      let x := { x with retry := none, parErr := false }
      if r.write then
        let s := s.setPchan pc { x with writes := drop x.writes }.drained
        .next (((s.wrGran (s.agentWho r.req.agent r.ctx r.req.slot) r.req.addr.toNat r.req.data false).finishReq pc r).hbmAdmit (pc / 192))
      else .next (s.setPchan pc { x with reads := drop x.reads, served := x.served ++ [r] }.drained)

def execHbmResponse (pc : Fin 768) (k : Nat) (s : State) : Res :=
  match (s.pchan pc).served[k]? with
  | none => .next s
  | some r =>
    let s := s.onPchan pc fun x => { x with served := x.served.filter fun o => o.seq != r.seq }
    let (s, d) := s.rdGran (s.agentWho r.req.agent r.ctx r.req.slot) r.req.addr.toNat r.req.len
    .next ((s.onPchan pc fun x => { x with lastData := d.data, lastBad := d.bad.isSome }).finishReq pc r)

def execHbmWindowBoundary (st : Fin 12) (s : State) : Res :=
  let s := s.toCount (cdiv s.cellar.count 1000 * 1000)
  let pcs := from_ (64 * st.val) 64
  let used := pcs.foldl (fun m p => max m (s.pchan p).usedUrg) 0
  let s := pcs.foldl (fun s p => if (s.pchan p).usedUrg = 0 then s else s.onPchan p fun x => { x with usedUrg := 0 }) s
  .next (s.onCtl st fun h => { h with urgUse := BitVec.ofNat 10 (min used 1000), w := h.wNext.getD h.w, wNext := none })

/-! ## Rewrites, scrubbing, refresh (R275, R278, R280) -/

/-- Write back a granule's codeword as corrected. -/
def State.hbmFix (s : State) (g : Nat) (r : Gran) : State :=
  let s := s.store (64 * g) r.data
  { s with
    hbmErr := s.hbmErr.del g
    poison := if r.poison then s.poison.set g 7 else s.poison.del g
    written := if r.clear then s.written.del g else s.written.set g true }

/-- A rewrite reads the granule again; it is skipped when that reads clean, or when a write to the granule has arrived (R278). -/
def execHbmRewrite (pc : Fin 768) (s : State) : Res :=
  match (s.pchan pc).fixQ with
  | [] => .next s
  | g :: rest =>
    let s := s.onPchan pc fun x => { x with fixQ := rest }
    let r := s.codeword g (s.hbmErr.look g [])
    match if (s.pchan pc).writes.any fun o => o.req.addr.toNat / 64 == g then Ecc.clean else r.ecc with
    | .clean => .next s
    | .single _ _ => .next (s.hbmFix g r)
    | .bad => .next (s.hbmGran g none ((s.region (64 * g) 1).bind fun x => if x.press then none else some x.part)).1

/-- Granule that lies at line `p`, granule `j` of a device pseudo-channel, with its region (the inverse of R266). -/
def unplace (A : Active) (pc p j : Nat) : Option (Nat × RegionRec) :=
  let stack := pc / 64
  (A.regions.find? fun r =>
    r.storeOff * 4096 ≤ p && p < (r.storeOff + regionMib r) * 4096 && (r.spread || stack / 3 = r.quarter)).map fun r =>
      let st := if r.spread then 12 else 3
      let l := p - r.storeOff * 4096
      let k := if r.spread then stack else stack - 3 * r.quarter
      let n := l * (64 * st) + 64 * ((k + st - l % st) % st) + ((pc % 64) ^^^ hashLine p)
      ((r.base + 256 * n) / 64 + j, r)

/-- One pseudo-channel's part of a scrub step: single errors are rewritten corrected, uncorrectable granules marked poisoned. -/
def State.scrubGran (s : State) (pc p j : Nat) : State :=
  match unplace s.active pc p j with
  | none => s
  | some (g, r) =>
    if s.poisoned g then s
    else
      let c := s.codeword g (s.hbmErr.look g [])
      let s := (s.hbmGran g none (if r.press then none else some r.part)).1
      match c.ecc with
      | .single _ _ => (s.hbmFix g c).onPchan pc fun x => { x with fixQ := x.fixQ.filter (· != g) }
      | _ => s

def execHbmScrubStep (st : Fin 12) (s : State) : Res :=
  let h := s.ctl st
  if !h.scrubEn || !h.scrubOn then .next s
  else
    let s := (from_ (64 * st.val) 64).foldl (fun s pc => s.scrubGran pc (h.scrubPos / 4) (h.scrubPos % 4)) s
    .next (s.onCtl st fun h => { h with scrubPos := (h.scrubPos + 1) % 16777216 })

/-- A refresh or RFM command occupies its bank during the channel's next choice (log entry 74); one with a parity error is retried. -/
def execRefresh (cmd : HbmCmd) (b : HbmBank) (s : State) : Res :=
  if cmd.parity then .next (s.parityError cmd.pc (s.pchan cmd.pc).retry)
  else .next (s.onPchan cmd.pc fun x => { x with refDone := x.refDone + 1, refBank := some (b.sid.val, b.bank.val), parErr := false })

def execStackTempRead (st : Fin 12) (temp : Byte) (s : State) : Res :=
  .next (s.onCtl st fun h => { h with temp := temp, doubled := 85 < temp.toNat })

/-- Clearing ends; the requests that waited for the region may enter. -/
def execRegionClearDone (base : BitVec 48) (s : State) : Res :=
  .next ((List.range 4).foldl State.hbmAdmit { s with clearing := s.clearing.filter (· != base.toNat) })

/-! ## Weights (R271, R272) -/

/-- Bounds of a quarter's weights; without a record they equal the default weights. -/
def State.weightBounds (s : State) (q : Nat) : Weights × Weights :=
  match s.classRec q with
  | some r => (r.low, r.high)
  | none => ({}, {})

/-- A written weight moved to the nearer bound, and whether it moved. -/
def clampW (lo hi v : Nat) : Nat × Nat := (clampTo (lo, hi) v, b2n (clampTo (lo, hi) v != v))

def writesBlock : Requester → Bool
  | .host _ => true
  | .ring _ n => n = 0
  | .controller => true

def execHbmWeights (r : Requester) (st : Fin 12) (v : Word) (s : State) : Res :=
  if !writesBlock r then .next s
  else
    let (lo, hi) := s.weightBounds (st.val / 3)
    let (a, i) := clampW lo.urg hi.urg (bits v.toNat 7 0)
    let (b, j) := clampW lo.normal hi.normal (bits v.toNat 15 8)
    let (c, k) := clampW lo.bulk hi.bulk (bits v.toNat 23 16)
    let (d, l) := clampW lo.back hi.back (bits v.toNat 31 24)
    .next (s.onCtl st fun h =>
      { h with wNext := some ⟨a, b, c, d⟩, wClamps := h.wClamps + BitVec.ofNat 32 (i + j + k + l) })

end Sys2Proof.Machine
end

