-- ==== Sys2Proof/Machine/Fabric.lean ====
section
/-!
DEFINITION. The quarter fabrics and die-to-die links (R225 to R231): routes, buffers and credits, packets sent and arriving.
-/

namespace Sys2Proof.Machine

/-- Router that an attachment hangs on (R225, Table 9.6); the hub is place 4. -/
def attachHop : Attach → Hop
  | .core c => ⟨c.val / 16, c.val % 4, c.val % 16 / 4⟩
  | .hbm s => ⟨s.val / 3, s.val % 3, 0⟩
  | .press q => ⟨q.val, 3, 0⟩
  | .dma q => ⟨q.val, 3, 1⟩
  | .coll q => ⟨q.val, 3, 2⟩
  | .ports q => ⟨q.val, 3, 3⟩
  | .hub => ⟨4, 0, 0⟩

/-- Router of a quarter's gateway to another place. -/
def gateHop (q dest : Nat) : Hop := if dest = 4 then ⟨q, 0, 0⟩ else ⟨q, 0, q ^^^ dest⟩

/-- One step of the route, along x and then along y: the next router and the input it is entered by. -/
def meshStep (h t : Hop) : Hop × Nat :=
  if h.x < t.x then ({ h with x := h.x + 1 }, 1)
  else if t.x < h.x then ({ h with x := h.x - 1 }, 2)
  else if h.y < t.y then ({ h with y := h.y + 1 }, 3)
  else ({ h with y := h.y - 1 }, 4)

/-- Where a packet goes next from a place (R226): a router, across its one die-to-die link, or into its sink (input 10). -/
def nextHop (h : Hop) (dst : Attach) : Hop × Nat :=
  let t := attachHop dst
  if h = t then (h, 10)
  else if h.quarter = t.quarter then meshStep h t
  else if h.quarter = 4 then (gateHop t.quarter 4, 9)
  else
    let g := gateHop h.quarter t.quarter
    if h = g then
      if t.quarter = 4 then (t, 5 + h.quarter) else (⟨t.quarter, h.x, h.y⟩, 5 + h.quarter)
    else meshStep h g

/-- The input of its router that an attachment enters by: a core's port 0, and an input for each edge unit (Table 9.6). -/
def attachInput : Attach → Nat
  | .core _ => 0
  | .hbm _ => 11
  | .press _ => 12
  | .dma _ => 13
  | .coll _ => 14
  | .ports _ => 15
  | .hub => 16

/-- A packet has yet to cross a die-to-die link. -/
def yetToCross (h : Hop) (dst : Attach) : Bool := h.quarter != (attachHop dst).quarter

/-- The responses that a target has yet to send for the requests it has accepted, in one sub-channel of its input (R230). -/
def Fabric.promised (f : Fabric) (target : Attach) (outward : Bool) : Nat :=
  ((f.owed.filter fun o => o.taken && o.reply.isNone && o.dst = target && yetToCross (attachHop target) o.src = outward).map (·.bytes)).sum

/-- Whether the packets of a class and sub-channel at an input leave room for one more (Table 9.7). -/
def Fabric.room (f : Fabric) (h : Hop) (inp cls bytes : Nat) (outward : Bool) : Bool :=
  let here := f.packets.filter fun p => p.at_ = h && p.inp = inp && p.cls = cls && p.outward = outward
  match cls with
  | 0 => here.length < 2
  | 1 => here.isEmpty
  | 2 => (here.map (·.bytes)).sum + bytes ≤ 16384
  | _ => (here.map (·.bytes)).sum + bytes ≤ 8192

/-- The response that a packet asks for, or answers. -/
def Fabric.owedBy (f : Fabric) (id : Nat) : Option Owed := f.owed.find? fun o => o.req = id || o.reply = some id

/-- Whether a packet's sink takes it (Table 9.7, R230): a target accepts a request when its response sub-channel can hold the response
beside those it already promised; every other sink has its space reserved. -/
def Fabric.sinks (f : Fabric) (p : FPacket) : Bool :=
  if p.cls = 4 then
    let out := yetToCross (attachHop p.dst) p.src
    f.room (attachHop p.dst) (attachInput p.dst) 2 (f.promised p.dst out + ((f.owedBy p.id).map (·.bytes)).getD 0) out
  else true

/-- What a class carries between two attachments (Table 9.7, R311): fault records go to the hub's collector, collective pieces run between
collective units and Maruno ports, and a Maruno port sends link packets in classes 0 and 3 and nothing else. -/
def classFits (cls : Nat) (src dst : Attach) : Bool :=
  let isPorts : Attach → Bool
    | .ports _ => true
    | _ => false
  let member : Attach → Bool
    | .coll _ => true
    | .ports _ => true
    | _ => false
  match cls with
  | 1 => dst = .hub
  | 3 => member src && member dst
  | 0 => true
  | _ => !isPorts src && !isPorts dst

/-- The accepted request that a response of these bytes answers. -/
def Fabric.answers (f : Fabric) (src dst : Attach) (bytes : Nat) : Option Owed :=
  f.owed.find? fun o => o.taken && o.reply.isNone && o.dst = src && o.src = dst && o.bytes = bytes

/-- Put a new packet on its source's input. A request reserves space for its response (R230); a response answers an accepted request. -/
def Fabric.enter (f : Fabric) (cls : Nat) (src dst : Attach) (bytes resp : Nat) : Fabric :=
  let h := attachHop src
  let out := yetToCross h dst
  if bytes = 0 || !classFits cls src dst || !f.room h (attachInput src) cls bytes out then f
  else
    let p : FPacket := ⟨f.next, cls, src, dst, bytes, h, attachInput src, true, out⟩
    let put (f : Fabric) : Fabric := { f with packets := f.packets ++ [p], next := f.next + 1 }
    match cls with
    | 4 => put { f with owed := f.owed ++ [{ req := f.next, src := src, dst := dst, bytes := resp }] }
    | 2 =>
      match f.answers src dst bytes with
      | some o => put { f with owed := updFirst (fun x => x.req = o.req) (fun x => { x with reply := some f.next }) f.owed }
      | none => f
    | _ => put f

/-- A packet leaves its place for the next one when the place has room for it. -/
def Fabric.move (f : Fabric) (p : FPacket) : Fabric :=
  let first := f.packets.find? fun o => o.at_ = p.at_ && o.inp = p.inp && o.cls = p.cls && o.outward = p.outward && !o.wire
  let (h, inp) := nextHop p.at_ p.dst
  let out := yetToCross h p.dst
  let goes := if inp = 10 then f.sinks p else f.room h inp p.cls p.bytes out
  if p.wire || p.inp = 10 || first != some p || !goes then f
  else
    let moved := { p with at_ := h, inp := inp, wire := true, outward := out }
    { f with
      packets := (f.packets.filter fun o => o.id != p.id) ++ [moved]
      owed := if inp = 10 then updFirst (fun x => x.req = p.id) (fun x => { x with taken := true }) f.owed else f.owed }

def execFabricPacketSend (sel : FabricSel) (s : State) : Res :=
  match sel with
  | .new cls src dst bytes resp => .next { s with fabric := s.fabric.enter cls.val src dst bytes resp }
  | .held id =>
    match s.fabric.packets.find? fun p => p.id = id with
    | none => .next s
    | some p => .next { s with fabric := s.fabric.move p }

/-- A packet on the wire arrives, in the order sent; in its sink it is delivered, and a response frees the space reserved for it. -/
def execFabricPacketArrival (id : Nat) (s : State) : Res :=
  let f := s.fabric
  match f.packets.find? fun p => p.id = id && p.wire with
  | none => .next s
  | some p =>
    let first := f.packets.find? fun o => o.at_ = p.at_ && o.inp = p.inp && o.cls = p.cls && o.outward = p.outward && o.wire
    if first != some p then .next s
    else if p.inp = 10 then
      .next { s with fabric := { f with
        packets := f.packets.filter fun o => o.id != id
        owed := f.owed.filter fun o => o.reply != some id
        delivered := f.delivered.set p.cls (f.delivered.look p.cls 0 + 1) } }
    else
      .next { s with fabric := { f with packets := (f.packets.filter fun o => o.id != id) ++ [{ p with wire := false }] } }

/-- A die-to-die or hub link fails: SEV4 with the link as source (R227, R388). -/
def execD2dLinkFailure (d : Fin 10) (s : State) : Res := .next (s.sev (124 + d.val) 4 0x0E none)

end Sys2Proof.Machine
end

