-- ==== Sys2Proof/Machine/Queues.lean ====
section
/-!
DEFINITION. Command queues (R15 to R24, R429): doorbells, enabling, fetching, start conditions, completion records, and the
commands that need no engine.
-/

namespace Sys2Proof.Machine

/-! ## A queue and its commands -/

/-- The command layer of a queue's context: ring 2 through pinned extents (R429). -/
def cmdEng (n : Nat) : Eng := { src := 138, agent := 548, ctx := n / 8, ring := 2 }

def Queue.entries (q : Queue) : Nat := 2 ^ q.qSize
def Queue.cqEntries (q : Queue) : Nat := 2 ^ q.cqSize

/-- Commands available: tail − head modulo the ring size (R18). -/
def Queue.avail (q : Queue) : Nat := (q.tail + q.entries - q.head) % q.entries

/-- Completion entries that hold a record or are reserved for a fetched command (R19). -/
def Queue.cqUsed (q : Queue) : Nat := (q.cqTail + q.cqEntries - q.cqHead) % q.cqEntries + q.cmds.length

/-- PART_STATUS state of a queue's partition; 3 when its context is in none. -/
def State.partSt (s : State) (n : Nat) : BitVec 2 :=
  match s.partOfCtx (n / 8) with
  | some p => (s.part p).st
  | none => 3

/-- A read of one 8-byte field of a command's body, whose offset 0 is byte 32 of the command (Table 1.7). -/
def Cmd.body64 (c : Cmd) (off : Nat) : Nat := fld c.body off 8

/-- The 64 bytes of a command (Table 1.7). -/
def parseCmd (b : Bytes) : Cmd where
  opcode := BitVec.ofNat 8 (fld b 0 1)
  flags := BitVec.ofNat 8 (fld b 1 1)
  tag := BitVec.ofNat 16 (fld b 2 2)
  wait := BitVec.ofNat 64 (fld b 8 8)
  signal := BitVec.ofNat 64 (fld b 16 8)
  launch := fld b 24 8
  body := (b.drop 32).take 32
  resvOk := zeroAt b 4 4 && fld b 1 1 < 8 && bits (fld b 8 8) 62 56 = 0 && bits (fld b 16 8) 62 24 = 0
  serial := 0

/-- Events of a context (R21). -/
def State.event (s : State) (k e : Nat) : Word := (s.ctx k).events.look e 0

def Cmd.isEnd (c : Cmd) : Bool := c.opcode == 5

/-- A command has ended when it waits only for its record. -/
def Cmd.over (c : Cmd) : Bool := c.st == .ended

/-- A command of the vintage that has not ended, by its index among its queue's commands. -/
def Cmd.is (serial : Nat) (c : Cmd) : Bool := c.serial == serial && !c.early && c.st != .ended

/-- Change one command of a queue. -/
def State.onCmd (s : State) (n serial : Nat) (f : Cmd → Cmd) : State :=
  s.onQueue n fun q => { q with cmds := updFirst (Cmd.is serial) f q.cmds }

def State.cmd? (s : State) (n serial : Nat) : Option Cmd := (s.queue n).cmds.find? (Cmd.is serial)

/-- A command ends with a status (Table 1.9): one that ran when its context failed, with CONTEXT_FAILED and OUTPUT_INVALID (R385). -/
def Cmd.finish (status : Byte) (c : Cmd) : Cmd :=
  { c with st := .ended, status := if c.ctxFail then 5 else status, outInv := c.outInv || c.ctxFail }

/-- A command of a queue ends; a status other than OK makes the vintage unclean (R46). -/
def State.endCmd (s : State) (n serial : Nat) (status : Byte) : State :=
  match s.cmd? n serial with
  | some c =>
    if c.over then s
    else
      let s := s.onCmd n serial (Cmd.finish status)
      if status = 0 && !c.ctxFail then s
      else match s.partOfCtx (n / 8) with
        | some p => s.onPart p fun x => { x with dirty := true }
        | none => s
  | none => s

/-- A malformed command: no work, SEV1, and its queue moves to error (R20). -/
def State.malform (s : State) (n serial : Nat) : State :=
  ((s.endCmd n serial 1).sev 138 1 6 (some (n / 8))).onQueue n fun q => { q with err := true }

/-- A command whose target fails: status ACCESS with a cause, and no work (R429). -/
def State.accessFail (s : State) (n serial : Nat) (cause : Byte) : State :=
  (s.endCmd n serial 2).sev 138 1 cause (some (n / 8))

/-! ## Starting (R19 to R23) -/

/-- The oldest fetched command that has not started, with every earlier one. -/
def oldest : List Cmd → List Cmd → Option (List Cmd × Cmd)
  | _, [] => none
  | before, c :: l => if c.st = .fetched then some (before, c) else oldest (before ++ [c]) l

/-- WAIT is satisfied (R21). -/
def State.waitOk (s : State) (n : Nat) (c : Cmd) : Bool :=
  !c.wait.getLsbD 63 || bits c.wait.toNat 55 8 ≤ (s.event (n / 8) (bits c.wait.toNat 7 0)).toNat

/-- A command may start but for its LAUNCH_COUNT: partition open, this vintage, WAIT and FENCE satisfied (R21, R22). -/
def State.ready (s : State) (n : Nat) (before : List Cmd) (c : Cmd) : Bool :=
  s.partSt n == 0 && !c.early && s.waitOk n c && (!c.flags.getLsbD 1 || before.all Cmd.over)

/-- LAUNCH_AT lets the command start (R23). -/
def State.launchOk (s : State) (c : Cmd) : Bool :=
  !c.flags.getLsbD 2 || c.launchMet || c.launch ≤ s.cellar.count

/-- The oldest unstarted command of a queue, when it is of this opcode and may start. -/
def State.startable (s : State) (n : Nat) (op : Byte) : Option Cmd :=
  match oldest [] (s.queue n).cmds with
  | some (before, c) => if c.opcode = op && s.ready n before c && s.launchOk c then some c else none
  | none => none

/-- A timed launch that starts during holdover counts in HOLDOVER_LAUNCHES (R350). -/
def State.timedLaunch (s : State) (timed : Bool) : State :=
  if timed && s.cellar.holdover then { s with cellar := { s.cellar with launches := s.cellar.launches + 1 } } else s

/-- The command starts: LATE when its LAUNCH_COUNT has passed (R23), counted in LAUNCHES (Table 2.4). -/
def State.start (s : State) (n : Nat) (c : Cmd) : State :=
  let s := s.timedLaunch (c.flags.getLsbD 2)
  let late := c.flags.getLsbD 2 && !c.launchMet && decide (c.launch < s.cellar.count)
  let s := s.onQueue n fun q =>
    { q with cmds := updFirst (fun x => x.st = .fetched) (fun x => { x with st := .running, late := late }) q.cmds }
  match s.partOfCtx (n / 8) with
  | some p => s.onPart p fun x => { x with launches := x.launches + 1 }
  | none => s

/-! ## Completion records (R22, R24, Table 1.9) -/

/-- The sixteen bytes of a record. -/
def recordBytes (c : Cmd) (phase : Bool) : Bytes :=
  leBytes 2 c.tag.toNat ++ [c.status, BitVec.ofNat 8 (b2n c.outInv + 2 * b2n phase + 4 * b2n c.late)] ++
    leBytes 4 0 ++ leBytes 8 c.vint

/-- The oldest command of a queue leaves it: its record is written, its SIGNAL applied, its interrupt raised. A failure on the
ring is SEV2 against the context (R15, R429), and then neither record nor SIGNAL happens. -/
def State.record (s : State) (n : Nat) : State :=
  let q := s.queue n
  match q.cmds with
  | [] => s
  | c :: rest =>
    if !c.over || c.signing then s
    else
      let k := n / 8
      let va := q.cqBase.toNat + 16 * q.cqTail
      let s := s.setQueue n { q with cmds := rest }
      match s.vOk (cmdEng n) .wr va 16 with
      | none => (s.sev 138 2 7 (some k) va).onQueue n fun q => { q with err := true }
      | some _ =>
        let (s, err) := s.vWr (cmdEng n) va (recordBytes c q.phase)
        if err then s.onQueue n fun q => { q with err := true }
        else
          let last := q.cqTail + 1 = q.cqEntries
          let s := s.onQueue n fun q =>
            { q with cqTail := if last then 0 else q.cqTail + 1, phase := if last then !q.phase else q.phase }
          let s := if c.signal.getLsbD 63 then
              s.onCtx k fun x =>
                let e := bits c.signal.toNat 7 0
                { x with events := x.events.set e (x.events.look e 0 + BitVec.ofNat 64 (bits c.signal.toNat 23 8)) }
            else s
          if c.flags.getLsbD 0 && q.irqEn then s.msix (q.msix.getD (BitVec.ofNat 11 (2 * (n / 8)))).toNat else s

/-- Write the records of the `f` oldest commands that have ended. -/
def State.recordAll : Nat → State → Nat → State
  | 0, s, _ => s
  | f + 1, s, n =>
    match (s.queue n).cmds with
    | [] => s
    | c :: _ => if c.over && !c.signing then State.recordAll f (s.record n) n else s

/-! ## Queue configuration (R16, Table 1.5) -/

/-- The fields of QUEUE_CTRL that are effective at any time. -/
def Queue.ctrlNow (q : Queue) (v : Word) : Queue :=
  { q with msix := some (v.extractLsb' 37 11), prio := v.extractLsb' 32 2, irqEn := v.getLsbD 1 }

/-- The ring sizes a write made while ENABLE is 0 sets; a size outside 6 to 16 keeps its previous value. -/
def Queue.ctrlSizes (q : Queue) (v : Word) : Queue :=
  let a := bits v.toNat 20 16
  let b := bits v.toNat 12 8
  { q with cqSize := if 6 ≤ a && a ≤ 16 then a else q.cqSize, qSize := if 6 ≤ b && b ≤ 16 then b else q.qSize }

/-- A queue enabled afresh: both rings from entry 0 with PHASE 1, no error. -/
def Queue.fresh (q : Queue) : Queue :=
  { q with enable := true, err := false, failed := false, head := 0, tail := 0, cqHead := 0, cqTail := 0, phase := true }

/-- A queue disabled: commands not started are discarded (log entry 27), head and tail return to 0. -/
def Queue.stopped (q : Queue) : Queue :=
  { q with enable := false, head := 0, tail := 0, dbWait := none, cmds := q.cmds.filter fun c => c.st != .fetched }

/-- Class that a queue's work runs in: a class in PRIO that the image reserves nothing for runs as normal (R16, Table 11.5). -/

def queueExists (s : State) (n : Nat) : Bool := (s.ctxRec (n / 8)).isSome

def execQueueEnable (n : Fin 8192) (v : Word) (s : State) : Res :=
  let q := s.queue n
  if q.enable || !v.getLsbD 0 || !queueExists s n then .next s
  else .next (s.setQueue n ((q.ctrlNow v).ctrlSizes v).fresh)

def execQueueDisable (n : Fin 8192) (v : Word) (s : State) : Res :=
  let q := s.queue n
  if !q.enable || v.getLsbD 0 then .next s else .next (s.setQueue n (q.ctrlNow v).stopped)

/-! ## Doorbells (R18, Table 1.6) -/

def State.dbError (s : State) (k : Nat) : State :=
  s.onCtx k fun x => { x with dbErrors := if x.dbErrors = BitVec.allOnes 32 then x.dbErrors else x.dbErrors + 1 }

/-- A doorbell written during a racking, PART_STATUS states 1 and 2, is recorded and acted on once the racking completes. -/
def execQtailDb (k : Fin 1024) (j : Fin 8) (v : Word) (s : State) : Res :=
  let n := 8 * k.val + j.val
  let q := s.queue n
  if !q.enable || q.err || q.entries ≤ v.toNat then .next (s.dbError k)
  else if s.partSt n = 1 || s.partSt n = 2 then .next (s.setQueue n { q with dbWait := some v.toNat })
  else .next (s.setQueue n { q with tail := v.toNat })

def execCqheadDb (k : Fin 1024) (j : Fin 8) (v : Word) (s : State) : Res :=
  let n := 8 * k.val + j.val
  let q := s.queue n
  if !q.enable || q.err || q.cqEntries ≤ v.toNat then .next (s.dbError k)
  else .next (s.setQueue n { q with cqHead := v.toNat })

/-! ## Fetching (R19, R429) -/

/-- A queue may fetch: enabled, not in error, partition open, a command available, a completion slot free. One entry of the
completion ring stays unused so that a full ring differs from an empty one (log entry 28); nothing is fetched behind a second
VINTAGE_END. -/
def State.mayFetch (s : State) (n : Nat) : Bool :=
  let q := s.queue n
  q.enable && !q.err && s.partSt n == 0 && 0 < q.avail && q.cqUsed + 1 < q.cqEntries &&
    !(q.cmds.any fun c => c.isEnd && c.early)

/-- What a fetched command of the open vintage tells: its context has a command in the vintage (R37), and the first PROVENANCE command of
the partition and vintage (R56). -/
def State.fetched (s : State) (n : Nat) (c : Cmd) : State :=
  if c.early then s
  else
    let s := s.onCtx (n / 8) fun x => { x with ranCmd := true }
    match s.partOfCtx (n / 8) with
    | some p => if c.opcode = 6 then s.onPart p fun x => { x with provFirst := x.provFirst <|> some (n, c.serial) } else s
    | none => s

def execCommandFetch (n : Fin 8192) (s : State) : Res :=
  if !s.mayFetch n then .next s
  else
    let q := s.queue n
    let k := n.val / 8
    let va := q.base.toNat + 64 * q.head
    let fail (s : State) (cause : Byte) : State :=
      (s.sev 138 2 cause (some k) va).onQueue n fun q => { q with err := true }
    match s.vRd (cmdEng n) va 64 with
    | (s, .ok r) =>
      let s := s.onQueue n fun q => { q with head := (q.head + 1) % q.entries }
      if r.err then .next (s.onQueue n fun q => { q with err := true })
      else if r.bad.isSome then .next (fail s 0x15)
      else
        let early := q.cmds.any fun c => c.isEnd && !c.early
        let serial := if early then (q.cmds.filter (·.early)).length else q.count
        let v := ((s.partOfCtx k).map fun p => (s.part p).vintage).getD 0
        let c := { parseCmd r.data with serial := serial, early := early, vint := if early then v + 1 else v }
        let s := s.onQueue n fun q => { q with cmds := q.cmds ++ [c], count := if early then q.count else q.count + 1 }
        let s := s.fetched n c
        if c.resvOk && c.opcode.toNat < 8 then .next s
        else
          let s := s.onQueue n fun q =>
            { q with err := true, cmds := q.cmds.dropLast ++ [{ c with st := .ended, status := 1 }] }
          let s := s.sev 138 1 6 (some k) va
          .next s
    | (s, _) => .next (fail s 7)

/-! ## Launch times, and commands that need no engine -/

def execLaunchCountReached (n : Fin 8192) (s : State) : Res :=
  match oldest [] (s.queue n).cmds with
  | some (before, c) =>
    if c.flags.getLsbD 2 && !c.launchMet && s.cellar.count ≤ c.launch && s.ready n before c then
      let s := s.toCount c.launch
      let s := s.onQueue n fun q =>
        { q with cmds := updFirst (fun x => x.st = .fetched) (fun x => { x with launchMet := true }) q.cmds }
      .next s
    else .next s
  | none => .next s

def execNop (n : Fin 8192) (s : State) : Res :=
  match s.startable n 0 with
  | some c =>
    let s := s.start n c
    .next (if zeroAt c.body 0 32 then s.endCmd n c.serial 0 else s.malform n c.serial)
  | none => .next s

def execVintageEnd (n : Fin 8192) (s : State) : Res :=
  match s.startable n 5 with
  | some c =>
    let s := s.start n c
    .next (if zeroAt c.body 0 32 then s.onCmd n c.serial fun x => { x with reached := true } else s.malform n c.serial)
  | none => .next s

def execWriteValue (n : Fin 8192) (s : State) : Res :=
  match s.startable n 7 with
  | some c =>
    let s := s.start n c
    let va := c.body64 0
    if va % 8 != 0 || !zeroAt c.body 16 16 then .next (s.malform n c.serial)
    else
      match s.vOk (cmdEng n) .wr va 8 with
      | none => .next (s.accessFail n c.serial 7)
      | some _ =>
        let (s, err) := s.vWr (cmdEng n) va (leBytes 8 (c.body64 8))
        .next (if err then s.accessFail n c.serial 7 else s.endCmd n c.serial 0)
  | none => .next s

/-- Cores named by a mask. -/
def maskCores (m : BitVec 64) : List Nat := (List.range 64).filter fun c => m.getLsbD c

/-- Whether a DISPATCH is malformed: a core outside the context's partition, a ring not allowed, or a reserved byte (R20, R284). -/
def State.dispatchBad (s : State) (n : Nat) (c : Cmd) : Bool :=
  let k := n / 8
  let ring := fld c.body 24 1
  !(maskCores (BitVec.ofNat 64 (c.body64 0))).all (fun x => (s.partOfCore x).isSome && s.partOfCore x == s.partOfCtx k) ||
    !zeroAt c.body 25 7 ||
    match s.ctxRec k with
    | some r => !((ring = 2 && r.ring2) || (ring = 3 && r.ring3))
    | none => true

def execDispatch (n : Fin 8192) (s : State) : Res :=
  match s.startable n 1 with
  | none => .next s
  | some c =>
    let s := s.start n c
    let k := n.val / 8
    if s.dispatchBad n c then .next (s.malform n c.serial)
    else
      match s.vRd (cmdEng n) (c.body64 16) 64 with
      | (s, .ok r) =>
        if r.err then .next (s.accessFail n c.serial 7)
        else if r.bad.isSome then .next (s.accessFail n c.serial 0x15)
        else
          let block := (List.range 8).map fun i => BitVec.ofNat 64 (fld r.data (8 * i) 8)
          let cores := maskCores (BitVec.ofNat 64 (c.body64 0))
          let kn : Kernel := ⟨n, c.serial, k, s.queueLevel n, BitVec.ofNat 2 (fld c.body 24 1), BitVec.ofNat 64 (c.body64 8), block⟩
          let s := cores.foldl (fun s x => s.onSeq x fun q => { q with kernels := q.kernels ++ [kn] }) s
          if cores.isEmpty then .next (s.endCmd n c.serial 0)
          else .next (s.onCmd n c.serial fun x => { x with left := cores.length })
      | (s, _) => .next (s.accessFail n c.serial 7)

def execCompletionWrite (n : Fin 8192) (s : State) : Res :=
  match (s.queue n).cmds with
  | c :: _ => if c.isEnd && !c.early && c.status = 0 && c.over && s.partSt n = 0 then .next s else .next (s.record n)
  | [] => .next s

/-- MALFORMED of any piece wins over ACCESS, and that over OK (R236). -/
def worse (a b : Byte) : Byte := if a = 1 || b = 1 then 1 else if a = 0 then b else a

/-- One piece of a command's work has ended; the command ends with the last (R106, R236, R294). -/
def State.workDone (s : State) (n serial : Nat) (status : Byte) : State :=
  match s.cmd? n serial with
  | some c =>
    if c.left ≤ 1 then s.endCmd n serial (worse c.status status)
    else s.onCmd n serial fun c => { c with left := c.left - 1, status := worse c.status status }
  | none => s

end Sys2Proof.Machine
end

