-- ==== Sys2Proof/Machine/Units.lean ====
section
/-!
DEFINITION. The queue units of a core (R107), interrupts to a core (R127), gathered arithmetic flags (R81), and the overlap check
between commands (R51).
-/

namespace Sys2Proof.Machine

/-- Set bit `v` of a core's IRQ_PENDING (control port 0x411). -/
def State.irq (s : State) (c v : Nat) : State :=
  s.onSeq c fun q => { q with ctl := q.ctl.set 0x411 (q.ctl.look 0x411 0 ||| (1 <<< v)) }

/-- The queue units other than VQ. -/
inductive QName where
  | mq
  | dq
  | pq
  | cq
  deriving DecidableEq, Repr

def CoreSt.unit (x : CoreSt) : QName → QUnit
  | .mq => x.mq
  | .dq => x.dq
  | .pq => x.pq
  | .cq => x.cq

def CoreSt.onUnit (x : CoreSt) (n : QName) (f : QUnit → QUnit) : CoreSt :=
  match n with
  | .mq => { x with mq := f x.mq }
  | .dq => { x with dq := f x.dq }
  | .pq => { x with pq := f x.pq }
  | .cq => { x with cq := f x.cq }

/-- An item is pushed: its place is the count of items before it. -/
def QUnit.push (u : QUnit) (va : Word) (ring : BitVec 2) : QUnit :=
  { u with pushed := u.pushed + 1, items := u.items ++ [⟨va, ring, u.pushed⟩] }

/-- DONE moves over the completed prefix. -/
def QUnit.advance : Nat → QUnit → QUnit
  | 0, u => u
  | f + 1, u =>
    if u.ended.contains u.done then
      QUnit.advance f { u with done := u.done + 1, ended := u.ended.filter (· != u.done) }
    else u

/-- An item completes. -/
def QUnit.complete (u : QUnit) (idx : Nat) : QUnit :=
  if u.items.any (fun i => i.idx = idx) then
    let u := { u with items := u.items.filter (fun i => i.idx != idx), ended := u.ended ++ [idx] }
    u.advance (u.ended.length)
  else u

/-- An item error: ERR sets, and that item and every later one are discarded. -/
def QUnit.fail (u : QUnit) (idx : Nat) : QUnit :=
  { u with err := true, items := u.items.filter (fun i => i.idx < idx) }

/-- STATUS of a queue unit: occupancy and ERR. -/
def QUnit.status (u : QUnit) : Word := BitVec.ofNat 64 (min u.items.length 63 + 256 * b2n u.err)

/-- The context a core runs. -/
def State.runCtx (s : State) (c : Nat) : Nat := (s.core c).seq.context

def State.itemDone (s : State) (c : Nat) (n : QName) (idx : Nat) : State :=
  s.onCore c fun x => x.onUnit n fun u => u.complete idx

/-- An item error of a core's queue unit: SEV1 against the context, and interrupt ENGINE_ERR (R107, R127). -/
def State.itemError (s : State) (c : Nat) (n : QName) (idx src : Nat) (cause : Byte) (addr info : Nat) : State :=
  ((s.onCore c fun x => x.onUnit n fun u => u.fail idx).irq c 32).sev src 1 cause (some (s.runCtx c)) addr (BitVec.ofNat 32 info)

/-- INFO of an item error's record: the item's position in PUSHED in bits [17:0], and in bits [31:18] the lowest failing active element
of an op word (R156) or the number of the failing operand of a pass or a batch (R177, R239); the division of the field is a DESIGN CHOICE, log entry 83. -/
def itemInfo (idx el : Nat) : BitVec 32 := BitVec.ofNat 32 (idx % 0x40000 + 0x40000 * el)

/-- The provenance record gathers INEXACT and OVERFLOW (R81). -/
def State.gather (s : State) (ctx : Nat) (f : Flags) : State :=
  if f &&& 3 = 0 then s
  else
    match s.partOfCtx ctx with
    | some p => s.onPart p fun x =>
        { x with inexactSeen := x.inexactSeen || f.getLsbD 0, overflowSeen := x.overflowSeen || f.getLsbD 1 }
    | none => s

/-! ## Overlap between commands (R51) -/

def Range.meets (a b : Range) : Bool := (a.wr || b.wr) && a.lo < b.hi && b.lo < a.hi

/-- Declared ranges of every running command of a queue's partition; a running command is ordered before no later one. -/
def State.liveRanges (s : State) (n : Nat) : List Range :=
  match s.partOfCtx (n / 8) with
  | none => []
  | some p => ((s.ctxsOf p).flatMap fun k => from_ (8 * k) 8).flatMap fun m =>
      ((s.queue m).cmds.filter fun c => c.st = .running).flatMap (·.ranges)

/-- A command declares its ranges. On a conflict with a running command it does not start after all, and its context takes SEV2 (R51). -/
def State.declare (s : State) (n serial : Nat) (rs : List Range) : State × Bool :=
  let live := s.liveRanges n
  if rs.any fun r => live.any r.meets then
    let s := match s.partOfCtx (n / 8) with
      | some p => s.onPart p fun x => { x with launches := x.launches - 1 }
      | none => s
    (s.sev 138 2 0x0A (some (n / 8)), false)
  else (s.onCmd n serial fun c => { c with ranges := rs }, true)

end Sys2Proof.Machine
end

