-- ==== Sys2Proof/Machine/Port.lean ====
section
/-!
DEFINITION. The Maruno link below its rows (R305 to R317, R326): the flit code, flits out and in, departures of ports and routes,
packets, their session protection, credits, and Ethernet frames. Log entries 40 to 46 name what the spec leaves open.
-/

namespace Sys2Proof.Machine

/-! ## CRC-32 of IEEE 802.3 (R307) -/

def crcBit (r : BitVec 32) : BitVec 32 := if r.getLsbD 0 then (r >>> 1) ^^^ 0xEDB88320 else r >>> 1

def crcByte (r : BitVec 32) (b : Byte) : BitVec 32 :=
  (List.range 8).foldl (fun r _ => crcBit r) (r ^^^ b.setWidth 32)

/-- The frame check sequence, in the byte order of the wire. -/
def crc32 (d : Bytes) : Bytes := leBytes 4 (~~~(d.foldl crcByte 0xFFFFFFFF)).toNat

/-! ## RS(136,128) over GF(2^8) (R308) -/

/-- Product in the field of R276. -/
def gfMul (a b : Byte) : Byte :=
  (List.range 8).foldl (fun r i => if b.getLsbD i then r ^^^ gfMulPow i a else r) 0

/-- α^n. -/
def gfPow (n : Nat) : Byte := gfMulPow (n % 255) 1

/-- Inverse: a^254. -/
def gfInv (a : Byte) : Byte :=
  let a2 := gfMul a a
  let a4 := gfMul a2 a2
  let a8 := gfMul a4 a4
  let a16 := gfMul a8 a8
  let a32 := gfMul a16 a16
  let a64 := gfMul a32 a32
  let a128 := gfMul a64 a64
  gfMul a128 (gfMul a64 (gfMul a32 (gfMul a16 (gfMul a8 (gfMul a4 a2)))))

/-- Product of a polynomial, highest coefficient first, by (x - α^i). -/
def polyRoot (p : Bytes) (i : Nat) : Bytes :=
  List.zipWith (· ^^^ ·) (p ++ [0]) (0 :: p.map fun c => gfMul c (gfPow i))

/-- g(x) without its leading coefficient, highest first. -/
def rsGen : Bytes := ((List.range 8).foldl polyRoot [1]).drop 1

/-- The eight parity bytes of a codeword's data, highest power first. -/
def rsParity (d : Bytes) : Bytes :=
  d.foldl (fun r b =>
    let f := b ^^^ r.headD 0
    List.zipWith (· ^^^ ·) (r.drop 1 ++ [0]) (rsGen.map fun g => gfMul f g)) (List.replicate 8 0)

/-- Value at α^i of a word, highest power first. -/
def rsSyn (w : Bytes) (i : Nat) : Byte := w.foldl (fun a b => gfMulPow i a ^^^ b) 0

/-- Value of a polynomial, lowest coefficient first, at x. -/
def polyEval (p : Bytes) (x : Byte) : Byte := p.foldr (fun c a => gfMul a x ^^^ c) 0

/-- Sum of two polynomials, lowest coefficient first. -/
def polyAdd : Bytes → Bytes → Bytes
  | [], q => q
  | p, [] => p
  | a :: p, b :: q => (a ^^^ b) :: polyAdd p q

/-- The shortest recurrence of the syndromes: locator, the polynomial of its last change, length, steps since, and that discrepancy. -/
structure RsLoc where
  loc  : Bytes := [1]
  prev : Bytes := [1]
  len  : Nat := 0
  gap  : Nat := 1
  disc : Byte := 1
  deriving DecidableEq, Repr

def rsStep (syn : Bytes) (r : RsLoc) (n : Nat) : RsLoc :=
  let d := (List.range (r.len + 1)).foldl (fun a i => a ^^^ gfMul (r.loc.getD i 0) (if i ≤ n then syn.getD (n - i) 0 else 0)) 0
  if d = 0 then { r with gap := r.gap + 1 }
  else
    let k := gfMul d (gfInv r.disc)
    let c := polyAdd r.loc (List.replicate r.gap 0 ++ r.prev.map (gfMul k))
    if 2 * r.len ≤ n then { loc := c, prev := r.loc, len := n + 1 - r.len, gap := 1, disc := d }
    else { r with loc := c, gap := r.gap + 1 }

/-- Decode a codeword of 136 bytes: the corrected word and the symbols corrected, at most four, or `none` when uncorrectable. -/
def rsDecode (w : Bytes) : Option (Bytes × Nat) :=
  let syn := (List.range 8).map (rsSyn w)
  if syn.all (· == 0) then some (w, 0)
  else
    let r := (List.range 8).foldl (rsStep syn) {}
    let roots := (List.range 136).filter fun j => polyEval r.loc (gfPow (255 - j)) == 0
    let om := (List.range 8).map fun i =>
      (List.range (i + 1)).foldl (fun a k => a ^^^ gfMul (r.loc.getD k 0) (syn.getD (i - k) 0)) 0
    let der := (List.range r.loc.length).map fun i => if i % 2 == 0 then r.loc.getD (i + 1) 0 else 0
    let fixed := roots.foldl (fun w j =>
      let x := gfPow (255 - j)
      let v := gfMul (gfPow j) (gfMul (polyEval om x) (gfInv (polyEval der x)))
      setAt w (135 - j) (w.getD (135 - j) 0 ^^^ v)) w
    if r.len ≤ 4 && roots.length = r.len && (List.range 8).all (fun i => rsSyn fixed i == 0) then some (fixed, r.len) else none

/-- Every second byte of a list, from the first on. -/
def evens : Bytes → Bytes
  | [] => []
  | [a] => [a]
  | a :: _ :: l => a :: evens l

/-- Two lists of equal length interleaved. -/
def weave (a b : Bytes) : Bytes := (a.zip b).flatMap fun p => [p.1, p.2]

/-- A received flit after FEC and CRC: its body when good, and the symbols corrected. -/
def flitDecode (f : Bytes) : Option Bytes × Nat :=
  let a := rsDecode (evens f)
  let b := rsDecode (evens (f.drop 1))
  let n := (a.map (·.2)).getD 0 + (b.map (·.2)).getD 0
  match a, b with
  | some (x, _), some (y, _) =>
    let body := weave (x.take 128) (y.take 128)
    (if crc32 (body.take 252) == body.drop 252 then some body else none, n)
  | _, _ => (none, n)

/-! ## Departures (R326, R319, R321) -/

def State.portForm (s : State) (p : Nat) : Option PortForm := s.active.ports.find? fun f => f.port = p
def State.routeForm (s : State) (d : Nat) : Option RouteForm := s.active.routes.find? fun f => f.dest.toNat = d

/-- Ports leave the usable sets of every partition (R324): those in `mask`, for one destination or for all. -/
def State.unusable (s : State) (mask : BitVec 32) (dest : Option Nat) : State :=
  let cut (u : Nat × BitVec 32) : Nat × BitVec 32 := if dest == none || dest == some u.1 then (u.1, u.2 &&& ~~~mask) else u
  { s with parts := s.parts.map fun e => (e.1, { e.2 with usable := e.2.usable.map cut }) }

/-- Holdover begins (R350), reported as SEV0 with the hub as source. -/
def State.holdover (s : State) : State :=
  if s.cellar.holdover then s
  else ({ s with cellar := { s.cellar with holdover := true, locked := false } }).sev 134 0 0x12 none

/-- The link that CELLAR_CTRL names as the source of time. -/
def Cellar.link (c : Cellar) : Option LinkId :=
  if c.ctrl.extractLsb' 0 2 = 2 then
    if c.ctrl.getLsbD 3 then some (.route ⟨(c.ctrl.extractLsb' 16 13).toNat, (c.ctrl.extractLsb' 16 13).isLt⟩)
    else some (.port ⟨(c.ctrl.extractLsb' 4 5).toNat, (c.ctrl.extractLsb' 4 5).isLt⟩)
  else none

/-- What a departure leaves of a port: its counters, its lanes, its mode and its last partner. -/
def Port.left (x : Port) (st cause now : Nat) : Port :=
  { x with
    st := st, cause := cause, since := now, progAt := now, replay := [], txSeq := 0, rxSeq := 0, nakSent := false,
    cred0 := 0, cred1 := 0, owe0 := 0, owe1 := 0, rxBytes := [], txBytes := [], txPad := 0, outQ := [], sess := {},
    lastCtl := none, lastVc := false }

/-- A port goes down. -/
def State.portDown (s : State) (p cause : Nat) : State :=
  let x := s.port p
  if x.st = 0 || x.st = 8 then s
  else
    let s := s.setPort p { x.left 8 cause s.now with departs := x.departs + 1 }
    let keeps (k : OutPkt) : Bool := !(k.vc && k.port = p)
    let trim (e : Nat × Route) : Nat × Route := (e.1, { e.2 with outQ := e.2.outQ.filter keeps })
    let s := { s with routes := s.routes.map trim }
    let s := (s.unusable (1 <<< p) none).sev (88 + p) 0 0x0D none
    let s := s.devIrq
    match s.cellar.link with
    | some (.port q) => if q = p then s.holdover else s
    | _ => s

/-- A route goes down; ports raise nothing for it. -/
def State.routeDown (s : State) (d cause : Nat) : State :=
  let x := s.route d
  if x.st = 8 then s
  else
    let s := s.setRoute d { st := 8, cause := cause, since := s.now }
    let s := s.unusable (BitVec.allOnes 32) (some d)
    match s.cellar.link with
    | some (.route q) => if q = d then s.holdover else s
    | _ => s

def State.linkDown (s : State) (l : LinkId) (cause : Nat) : State :=
  match l with
  | .port p => s.portDown p cause
  | .route d => s.routeDown d cause

/-! ## Packets (R312 to R315) -/

def State.sessOf (s : State) (l : LinkId) : Session :=
  match l with
  | .port p => (s.port p).sess
  | .route d => (s.route d).sess

def State.onSess (s : State) (l : LinkId) (f : Session → Session) : State :=
  match l with
  | .port p => s.onPort p fun x => { x with sess := f x.sess }
  | .route d => s.onRoute d fun x => { x with sess := f x.sess }

def State.linkSt (s : State) (l : LinkId) : Nat :=
  match l with
  | .port p => (s.port p).st
  | .route d => (s.route d).st

/-- The device at the far end of a link. -/
def State.linkDev (s : State) (l : LinkId) : BitVec 13 :=
  match l with
  | .port p => ((s.portForm p).map (·.partnerDev)).getD (s.port p).partDev
  | .route d => BitVec.ofNat 13 d

/-- The packet header (Table 13.4). -/
def packetHeader (len : Nat) (typ : BitVec 2) (plain : Bool) (src dst : BitVec 13) (psn : Nat) : Bytes :=
  leBytes 2 len ++ [BitVec.ofNat 8 (typ.toNat + 4 * b2n plain), 0] ++ leBytes 2 src.toNat ++ leBytes 2 dst.toNat ++ leBytes 8 psn

/-- The nonce of a packet (R314). -/
def DirKey.nonce (k : DirKey) (psn : Nat) : Bytes := xorB (leBytes 12 k.iv.toNat) (beBytes 12 psn)

/-- A packet as sent: plain, or encrypted with its tag. -/
def sealPacket (k : DirKey) (hdr payload : Bytes) (plain : Bool) : Bytes :=
  if plain then hdr ++ payload
  else
    let key := leBytes 32 k.key.toNat
    let n := k.nonce (fld hdr 8 8)
    let ct := gcmCrypt key n payload
    hdr ++ ct ++ gcmTag key n hdr ct

/-- The payload of a received packet, when its PSN is the next one and its tag verifies. -/
def openPacket (k : DirKey) (pkt : Bytes) : Option Bytes :=
  let hdr := pkt.take 16
  let ct := (pkt.drop 16).take (bits (fld pkt 0 2) 11 0)
  let tag := (pkt.drop (16 + ct.length)).take 16
  let key := leBytes 32 k.key.toNat
  let n := k.nonce (fld hdr 8 8)
  if fld hdr 8 8 = k.psn && gcmTag key n hdr ct == tag then some (gcmCrypt key n ct) else none

def packetType (pkt : Bytes) : Nat := bits (fld pkt 2 1) 1 0
def packetPlain (pkt : Bytes) : Bool := bit (fld pkt 2 1) 2
def packetLen (pkt : Bytes) : Nat := 16 + bits (fld pkt 0 2) 11 0 + if packetPlain pkt then 0 else 16

/-- Credits that a packet takes of its VC (R311). -/
def credits (n : Nat) : Nat := cdiv n 64

/-- Class on the quarter fabric of a link VC's traffic: 0 for LVC0, 3 for LVC1 (R311). -/
def linkClass (vc : Bool) : Nat := if vc then 3 else 0

/-- The unit of a quarter that sends and takes a link VC's packets: the hub for LVC0, the collective unit for LVC1 (R311). -/
def linkUnit (vc : Bool) (q : Nat) : Attach := if vc then .coll ⟨q % 4, Nat.mod_lt q (by decide)⟩ else .hub

def portsOf (q : Nat) : Attach := .ports ⟨q % 4, Nat.mod_lt q (by decide)⟩

/-- A packet received by a quarter's ports has room on the fabric. -/
def State.linkRoom (s : State) (vc : Bool) (q bytes : Nat) : Bool :=
  let src := portsOf q
  s.fabric.room (attachHop src) (attachInput src) (linkClass vc) bytes (yetToCross (attachHop src) (linkUnit vc q))

/-- Traffic of a link VC between a quarter's ports and its unit enters the fabric; what it carries takes effect with the command that
sends it or takes it in (log entry 4). -/
def State.linkTraffic (s : State) (vc inbound : Bool) (q bytes : Nat) : State :=
  let (a, b) := if inbound then (portsOf q, linkUnit vc q) else (linkUnit vc q, portsOf q)
  { s with fabric := s.fabric.enter (linkClass vc) a b bytes 0 }

/-- The quarter whose ports carry a link: of a route, that of the lowest port of its mask. -/
def State.linkQuarter (s : State) (l : LinkId) : Nat :=
  match l with
  | .port p => p.val / 8
  | .route d => (((s.routeForm d).bind fun f => (List.range 32).find? fun p => f.portMask.getLsbD p).getD 0) / 8

/-- A control packet is to be sent on a link. -/
def State.sendOn (s : State) (l : LinkId) (k : OutPkt) : State :=
  let s := s.linkTraffic k.vc false (s.linkQuarter l) (32 + k.payload.length)
  match l with
  | .port p => s.onPort p fun x => { x with outQ := x.outQ ++ [k] }
  | .route d => s.onRoute d fun x => { x with outQ := x.outQ ++ [k] }

/-! ## Flits out (R307, R309) -/

/-- A flit of a port with the credits it returns, and the check bits of an injected transmit check (Table 16.7, code 7). -/
def State.flit (s : State) (p : Nat) (data : Bool) (seq : Nat) (payload : Bytes) (nak : Bool) : State × Bytes :=
  let x := s.port p
  let vc1 := x.owe0 = 0
  let n := min 255 (if vc1 then x.owe1 else x.owe0)
  let s := s.onPort p fun x => if vc1 then { x with owe1 := x.owe1 - n } else { x with owe0 := x.owe0 - n }
  let hdr := b2n data + 4 * seq + 4096 * ((x.rxSeq + 1023) % 1024) + 0x400000 * b2n nak + 0x800000 * b2n (vc1 && 0 < n) + 0x1000000 * n
  let (inj, s) := s.inject (88 + p) 7 1
  let body := leBytes 4 hdr ++ payload ++ List.replicate (248 - payload.length) 0
  let crc := crc32 body
  let body := body ++ if inj = some 1 then crc.map (~~~ ·) else crc
  let (free, s) := s.freshIf (inj == some 0)
  let p0 := rsParity (evens body)
  let p0 := if inj = some 0 then setAt p0 0 (free.setWidth 8) else p0
  (s, body ++ weave p0 (rsParity (evens (body.drop 1))))

/-- An idle flit, which carries ACK, NAK, credits and the next SEQ. -/
def State.idle (s : State) (p : Nat) (nak : Bool) : State × Bytes := s.flit p false (s.port p).txSeq [] nak

/-- New data flits, each kept in the replay buffer. -/
def dataFlits (p : Nat) : List Bytes → State → State × Bytes
  | [], s => (s, [])
  | b :: l, s =>
    let x := s.port p
    let (s, f) := s.flit p true x.txSeq b false
    let s := s.onPort p fun x =>
      { x with
        replay := x.replay ++ [(x.txSeq, 0, b)], txSeq := (x.txSeq + 1) % 1024, flitsTx := x.flitsTx + 1
        progAt := if x.replay.isEmpty then s.now else x.progAt }
    let (s, fs) := dataFlits p l s
    (s, f ++ fs)

/-- Every flit of the replay buffer again, oldest first. -/
def replayFlits (p : Nat) : List (Nat × Nat × Bytes) → State → State × Bytes
  | [], s => (s, [])
  | (q, _, b) :: l, s =>
    let (s, f) := s.flit p true q b false
    let s := s.onPort p fun x => { x with flitsTx := x.flitsTx + 1 }
    let (s, fs) := replayFlits p l s
    (s, f ++ fs)

def State.flitsOut (s : State) (p : Nat) (fs : Bytes) : State := s.onPort p fun x => { x with flitOut := fs }

/-- A replay is asked for by a NAK or a timeout: every flit of the buffer once more; when one of them has been replayed 16 times without
being accepted, the port goes down instead (R309, R310). -/
def State.replayNow (s : State) (p : Nat) : State :=
  let x := s.port p
  if x.replay.isEmpty then s
  else if x.replay.any fun e => 16 ≤ e.2.1 then s.portDown p 2
  else
    let again := x.replay.map fun (e : Nat × Nat × Bytes) => (e.1, e.2.1 + 1, e.2.2)
    let s := s.setPort p { x with replay := again, retries := x.retries + 1, progAt := s.now }
    let (s, fs) := replayFlits p x.replay s
    s.flitsOut p fs

/-- Cut bytes into flit payloads; `last` also gives out an incomplete one. -/
def flitCut (last : Bool) : Nat → Bytes → List Bytes × Bytes
  | 0, b => ([], b)
  | f + 1, b =>
    if 248 ≤ b.length then
      let (l, r) := flitCut last f (b.drop 248)
      (b.take 248 :: l, r)
    else if last && !b.isEmpty then ([b], [])
    else ([], b)

/-- Zero bytes that the next flit begins with, to complete the null header that pads a flit's end after `n` bytes of packets (log entry
41). -/
def padRest (n : Nat) : Nat := if n % 248 = 0 then 0 else (16 - (248 - n % 248) % 16) % 16

/-! ## Flits in (R309) -/

/-- The port can receive: it is trained and not down. -/
def Port.live (x : Port) : Bool := 3 ≤ x.st && x.st ≤ 7

/-- ACK of a received flit frees the flits it covers. -/
def Port.ack (x : Port) (a now : Nat) : Port :=
  match x.replay with
  | [] => x
  | (q, _, _) :: _ =>
    let n := (a + 1024 - q) % 1024
    if n < x.replay.length then { x with replay := x.replay.drop (n + 1), progAt := now } else x

/-- A flit arrives on a native port: FEC and CRC, then ACK, NAK and credits, then its data; the port's next flit answers it. -/
def State.flitIn (s : State) (p : Nat) (f : Bytes) : State :=
  let x := s.port p
  if !x.live || x.mode != 1 then s
  else
    let (body, n) := flitDecode f
    let s := s.onPort p fun x => { x with fecCorr := x.fecCorr + n }
    match body with
    | none =>
      let s := s.onPort p fun x => { x with fecBad := x.fecBad + 1, nakSent := true }
      let (s, o) := s.idle p (!x.nakSent)
      s.flitsOut p o
    | some b =>
      let h := fld b 0 4
      let cr := bits h 31 24
      let s := s.onPort p fun x => if bit h 23 then { x with cred1 := x.cred1 + cr } else { x with cred0 := x.cred0 + cr }
      let s := s.onPort p fun x => x.ack (bits h 21 12) s.now
      let s := if bit h 22 then s.replayNow p else s
      if !(s.port p).live || bits h 1 0 != 1 then s
      else
        let ok := bits h 11 2 = x.rxSeq
        let s := s.onPort p fun x =>
          if ok then
            { x with rxSeq := (x.rxSeq + 1) % 1024, nakSent := false, flitsRx := x.flitsRx + 1
                     rxBytes := x.rxBytes ++ (b.drop 4).take 248 }
          else { x with nakSent := true }
        let (s, o) := s.idle p (!ok && !x.nakSent)
        s.onPort p fun x => { x with flitOut := (if bit h 22 then x.flitOut else []) ++ o }

/-- The first whole packet of a port's packet space and what follows it. A header of sixteen zero bytes is padding: a real one names two
different devices (R320; log entry 41). -/
def cutPacket : Nat → Bytes → Option (Bytes × Bytes)
  | 0, _ => none
  | f + 1, b =>
    if b.length < 16 then none
    else if (b.take 16).all (· == 0) then cutPacket f (b.drop 16)
    else
      let n := packetLen b
      if n ≤ b.length then some (b.take n, b.drop n) else none

def Port.nextPacket (x : Port) : Option (Bytes × Bytes) := cutPacket (x.rxBytes.length + 1) x.rxBytes

/-! ## Ethernet frames (R316) -/

/-- Ones' complement sum of 16-bit words, for the IPv4 header. -/
def ipSum : Bytes → Nat
  | [] => 0
  | [a] => 256 * a.toNat
  | a :: b :: l => 256 * a.toNat + b.toNat + ipSum l

def ipChecksum (h : Bytes) : Nat :=
  let x := ipSum h
  let x := x % 65536 + x / 65536
  0xFFFF - (x % 65536 + x / 65536)

/-- A frame of a port around a packet to a route. Header fields that the spec does not state (the IPv4 identification, hop limits, the flow
label, which ECN-capable codepoint, the UDP checksum) are free. -/
def State.frame (s : State) (f : PortForm) (r : RouteForm) (pkt : Bytes) : State × Bytes :=
  let (w, s) := s.fresh
  let (w2, s) := s.fresh
  let tos := 4 * f.dscp.toNat + (if w.getLsbD 0 then 1 else 2)
  let hop := bits w.toNat 15 8
  let udpLen := 8 + pkt.length
  let udp := beBytes 2 f.udp.toNat ++ beBytes 2 r.destUdp.toNat ++ beBytes 2 udpLen ++ beBytes 2 (bits w.toNat 31 16)
  let mac := beBytes 6 r.nextMac.toNat ++ beBytes 6 f.mac.toNat ++
    if f.eth.getLsbD 1 then beBytes 2 0x8100 ++ beBytes 2 f.vlan.toNat else []
  let ip :=
    if f.eth.getLsbD 0 then
      beBytes 2 0x86DD ++ beBytes 4 (0x60000000 + tos * 0x100000 + bits w2.toNat 19 0) ++ beBytes 2 udpLen ++
        [17, BitVec.ofNat 8 hop] ++ beBytes 16 f.ip.toNat ++ beBytes 16 r.destIp.toNat
    else
      let a := [0x45, BitVec.ofNat 8 tos] ++ beBytes 2 (20 + udpLen) ++ beBytes 2 (bits w2.toNat 15 0) ++ [0x40, 0] ++
        [BitVec.ofNat 8 hop, 17]
      let b := beBytes 4 (f.ip.toNat % 2 ^ 32) ++ beBytes 4 (r.destIp.toNat % 2 ^ 32)
      beBytes 2 0x0800 ++ a ++ beBytes 2 (ipChecksum (a ++ b)) ++ b
  let body := mac ++ ip ++ udp ++ pkt
  (s, body ++ crc32 body)

end Sys2Proof.Machine
end

