-- ==== Sys2Proof/Machine/Cellar.lean ====
section
/-!
DEFINITION. The cellar count (R347 to R350): slews, pulses, loads, the exchange of time messages over a link, and holdover. Log
entry 47 names what the spec leaves open.
-/

namespace Sys2Proof.Machine

def State.onCellar (s : State) (f : Cellar → Cellar) : State := { s with cellar := f s.cellar }

/-- SOURCE: 0 free, 1 pulse, 2 link. -/
def Cellar.source (c : Cellar) : Nat := (c.ctrl.extractLsb' 0 2).toNat
def Cellar.isMaster (c : Cellar) : Bool := c.ctrl.getLsbD 2

/-- A reference is back: holdover ends, reported as SEV0 with the hub as source. -/
def State.endHoldover (s : State) : State :=
  if s.cellar.holdover then (s.onCellar fun c => { c with holdover := false }).sev 134 0 0x12 none else s

/-- An error of the count has been measured, in 1/16 ns: the hub slews to remove its whole ticks, and LOCKED tells whether it is below
1 ns. -/
def Cellar.measured (c : Cellar) (err : Int) : Cellar :=
  { c with offset := err, slew := -(err.tdiv 16), missed := 0, locked := err.natAbs < 16 }

/-- One tick is inserted, or withheld while a nanosecond passes. -/
def execCellarSlew (s : State) : Res :=
  let c := s.cellar
  if c.slew = 0 then .next s
  else
    let s := match c.slewAt with
      | some t => s.toNow (t + 10000)
      | none => s
    let up := decide (0 < c.slew)
    let n := s.cellar.count
    let s := if up then s else s.tick
    let left := if up then c.slew - 1 else c.slew + 1
    .next (s.onCellar fun c =>
      { c with
        count := if up then n + 1 else n, slew := left, slewAt := some s.now
        locked := c.locked || (left = 0 && c.source != 0 && !c.holdover && !c.refLost) })

/-- Error of a count against the nearest multiple of SYNC_PERIOD, in 1/16 ns. -/
def pulseError (count frac period : Nat) : Int :=
  let r := count % period
  (16 * (if 2 * r ≤ period then (r : Int) else (r : Int) - period)) + frac

/-- A rising edge of CELLAR_SYNC: an armed load applies or is refused (R347), and under SOURCE pulse the error is measured. -/
def execCellarSyncEdge (frac : BitVec 4) (s : State) : Res :=
  let c := s.cellar
  let loads := c.armed && decide (c.count < c.load.toNat)
  let s := s.onCellar fun c =>
    { c with count := if loads then c.load.toNat else c.count, armed := false, refused := c.refused || (c.armed && !loads) }
  if c.source = 1 then
    let err := pulseError s.cellar.count (if loads then 0 else frac.toNat) c.period.toNat
    .next ((s.onCellar fun c => { c.measured err with edgeAt := s.now }).endHoldover)
  else .next s

def execLoadCmd (r : Requester) (v : Word) (s : State) : Res :=
  if writesBlock r && v = 1 then .next (s.onCellar fun c => { c with armed := true, refused := false }) else .next s

/-- Bits of CELLAR_CTRL that are not reserved (Table 14.11). -/
def cellarCtrlMask : BitVec 29 := 0x1FFF01FF

def execCellarCtrl (r : Requester) (v : Word) (s : State) : Res :=
  if writesBlock r then
    .next (s.onCellar fun c =>
      { c with
        ctrl := v.setWidth 29 &&& cellarCtrlMask, locked := false, slew := 0, missed := 0, replied := true, stepped := false
        t1 := none, t2 := none, t3 := none, edgeAt := s.now })
  else .next s

/-! ## Time messages (Table 14.9) -/

def timeMessage (msg : Nat) (seq : BitVec 16) (time : Nat) : Bytes :=
  [BitVec.ofNat 8 msg, 0] ++ leBytes 2 seq.toNat ++ leBytes 4 0 ++ leBytes 8 time

def timePacket (msg : Nat) (seq : BitVec 16) (time : Nat) : OutPkt := ⟨false, 0, false, timeMessage msg seq time, 32⟩

/-- A link-mode device begins a round: it notes t3 and asks the master. A round whose predecessor had no reply counts as missed. -/
def execTimeExchange (s : State) : Res :=
  match s.cellar.link with
  | none => .next s
  | some l =>
    if s.linkSt l != 6 then .next s
    else
      let s := s.toNow (s.cellar.edgeAt + s.cellar.period.toNat)
      let s := s.onCellar fun c =>
        { c with
          missed := if c.replied then 0 else if c.missed = 0xFFFF then 0xFFFF else c.missed + 1
          seq := c.seq + 1, t1 := none, t2 := none, t3 := some c.count, replied := false, edgeAt := s.now }
      .next (s.sendOn l (timePacket 3 s.cellar.seq 0))

/-- The last message of a round gives the offset of the follower: ((t2 - t1) - (t4 - t3)) ÷ 2, here in 1/16 ns. At first lock a
follower that is behind steps forward once. -/
def Cellar.finishRound (c : Cellar) (t1 t2 t3 t4 : Nat) : Cellar :=
  let err : Int := 8 * (((t2 : Int) - t1) - ((t4 : Int) - t3))
  let c : Cellar := { c.measured err with replied := true }
  if !c.stepped && decide (0 < c.slew) then { c with count := c.count + c.slew.toNat, slew := 0, locked := true, stepped := true }
  else { c with stepped := true }

/-- A time message arrives on a link (R348). -/
def State.timeIn (s : State) (l : LinkId) (b : Bytes) : State :=
  let c := s.cellar
  let msg := fld b 0 1
  let seq := BitVec.ofNat 16 (fld b 2 2)
  let time := fld b 8 8
  if msg = 3 then
    if c.isMaster then
      ((s.sendOn l (timePacket 1 seq 0)).sendOn l (timePacket 2 seq c.count)).sendOn l (timePacket 4 seq c.count)
    else s
  else if c.link != some l || seq != c.seq || c.replied then s
  else
    match msg with
    | 1 => s.onCellar fun c => { c with t2 := some c.count }
    | 2 => s.onCellar fun c => { c with t1 := some time }
    | 4 =>
      match c.t1, c.t2, c.t3 with
      | some t1, some t2, some t3 => (s.onCellar fun c => c.finishRound t1 t2 t3 time).endHoldover
      | _, _, _ => s
    | _ => s

/-- Three periods without an edge, or three exchanges without a reply (R350). -/
def execSyncLossTimeout (s : State) : Res :=
  let c := s.cellar
  if c.holdover then .next s
  else
    match c.source with
    | 1 =>
      let s := s.toNow (c.edgeAt + 3 * c.period.toNat)
      .next (s.onCellar fun c => { c with missed := 3 }).holdover
    | 2 => if 3 ≤ c.missed.toNat then .next s.holdover else .next s
    | _ => .next s

def execCellarRefLoss (s : State) : Res :=
  if s.cellar.refLost then .next s
  else .next ((s.onCellar fun c => { c with refLost := true }).sev 134 0 0x12 none)

def execCellarRefReturn (s : State) : Res :=
  if !s.cellar.refLost then .next s
  else .next ((s.onCellar fun c => { c with refLost := false }).sev 134 0 0x12 none)

end Sys2Proof.Machine
end

