-- ==== Sys2Proof/Machine/Dma.lean ====
section
/-!
DEFINITION. DMA (R294 to R303): descriptors, channels and levels, chunks, translation of host pages, faults and parking, resumption,
measured transfers, and the rescue channels.
-/

namespace Sys2Proof.Machine

/-! ## Descriptors (Table 12.3, R295) -/

structure DmaDesc where
  op       : Nat
  measured : Bool
  cls      : Nat
  rowBytes : Nat
  rows     : Nat
  src      : Nat
  srcStr   : Int
  dst      : Nat
  dstStr   : Int
  pattern  : Word

def parseDma (b : Bytes) : DmaDesc where
  op := fld b 0 1
  measured := bit (fld b 1 1) 0
  cls := bits (fld b 1 1) 2 1
  rowBytes := fld b 8 4
  rows := fld b 12 4
  src := fld b 16 8
  srcStr := fldS b 24 8
  dst := fld b 32 8
  dstStr := fldS b 40 8
  pattern := BitVec.ofNat 64 (fld b 48 8)

/-- Address of a place in a row. -/
def rowAt (base : Nat) (str : Int) (row off : Nat) : Nat := ((base : Int) + (row : Int) * str + off).toNat

/-- Lowest byte of all rows, and the byte after the highest. -/
def rowSpan (base : Nat) (str : Int) (rows rb : Nat) : Int × Int :=
  let last : Int := ((rows : Int) - 1) * str
  ((base : Int) + min 0 last, (base : Int) + max 0 last + rb)

def DmaDesc.srcSpan (d : DmaDesc) : Int × Int := rowSpan d.src d.srcStr d.rows d.rowBytes
def DmaDesc.dstSpan (d : DmaDesc) : Int × Int := rowSpan d.dst d.dstStr d.rows d.rowBytes

/-- A descriptor breaks R7, Table 12.3 or the malformed cases of R295; `tail` tells whether bytes 56 to 63 must be zero. -/
def dmaBad (b : Bytes) (tail measureOk : Bool) : Bool :=
  let d := parseDma b
  1 < d.op || 7 < fld b 1 1 || !zeroAt b 2 6 || (tail && !zeroAt b 56 8) || d.rowBytes = 0 || d.rows = 0 || 2 ^ 24 < d.rows ||
    (d.op = 1 && (d.src != 0 || d.srcStr != 0)) || (d.op = 0 && d.pattern != 0) || 2 ^ 40 < d.rows * d.rowBytes ||
    (1 < d.rows && d.dstStr.natAbs < d.rowBytes) ||
    (d.op = 0 && d.srcSpan.1 < d.dstSpan.2 && d.dstSpan.1 < d.srcSpan.2) || (d.measured && !measureOk)

/-- MEASURED may be set: the feature is active and MLOG_ENTRIES of the context is not 0. -/
def State.measureOk (s : State) (k : Nat) : Bool :=
  s.feature (s.partOfCtx k) 15 && match s.ctxRec k with
    | some r => 0 < r.mlogLimit
    | none => false

/-- The extent that an interval lies in, when it grants the access (R295); a pageable one passes in any state. -/
def State.spanExt (s : State) (k : Nat) (ring : BitVec 2) (a : Acc) (sp : Int × Int) : Option Ext :=
  if sp.1 < 0 then none
  else (s.extAt k sp.1.toNat (sp.2 - sp.1).toNat).filter fun e => e.grants ring a

/-- Outcome of checking a descriptor. -/
inductive DmaChk where
  | ok (rs : List Range)
  | bad
  | access
  deriving DecidableEq, Repr

def State.dmaCheck (s : State) (k : Nat) (ring : BitVec 2) (b : Bytes) : DmaChk :=
  let d := parseDma b
  if dmaBad b true (s.measureOk k) then .bad
  else
    let range (e : Ext) (sp : Int × Int) (wr : Bool) : Range :=
      ⟨e.pstart + (sp.1.toNat - e.vstart), e.pstart + (sp.2.toNat - e.vstart), wr⟩
    match s.spanExt k ring .wr d.dstSpan with
    | none => .access
    | some e =>
      if d.op = 1 then .ok [range e d.dstSpan true]
      else
        match s.spanExt k ring .rd d.srcSpan with
        | none => .access
        | some f => .ok [range f d.srcSpan false, range e d.dstSpan true]

/-! ## Translation (R289 to R291, R298) -/

/-- Outcome of translating a piece: pieces of physical memory with the host pages they came through, waiting for ATS on a page, or a
fault at a byte. -/
inductive PieceXl where
  | ok (l : List (Nat × Nat)) (key : BitVec 10) (exts : List Nat) (pages : List Nat)
  | wait (page : Nat)
  | fault (host : Bool) (va page : Nat)
  deriving DecidableEq, Repr

def State.pasidOf (s : State) (k : Nat) : BitVec 20 := ((s.ctxRec k).map (·.pasid)).getD 0

def State.atsLook (s : State) (q : Nat) (pasid : BitVec 20) (page : Nat) : Option AtsEnt :=
  (s.xlat.ats.look q []).find? fun e => e.pasid = pasid && e.page = page

/-- Host pages of a range, cut at 4 KiB: page, offset within it, bytes. -/
def hostPages : Nat → Nat → Nat → List (Nat × Nat × Nat)
  | 0, _, _ => []
  | f + 1, a, n =>
    let k := min n (4096 - a % 4096)
    if k = 0 then [] else (a / 4096, a % 4096, k) :: hostPages f (a + k) (n - k)

/-- Translate the host pages of a piece through a quarter's ATS cache. -/
def State.hostXl (s : State) (q : Nat) (pasid : BitVec 20) (a : Acc) (va : Nat) :
    List (Nat × Nat × Nat) → List (Nat × Nat) ⊕ PieceXl
  | [] => .inl []
  | (page, off, n) :: l =>
    match s.atsLook q pasid page with
    | none => .inr (.wait page)
    | some e =>
      if !(if a = .wr then e.wr else e.rd) then .inr (.fault true va page)
      else
        match s.hostXl q pasid a (va + n) l with
        | .inl ps => .inl ((hostBase + 4096 * e.dest + off, n) :: ps)
        | r => r

/-- Translate `n` bytes for a DMA channel of a quarter, through any valid extent of a context. -/
def State.pieceXl (s : State) (q k : Nat) (ring : BitVec 2) (a : Acc) (va n : Nat) : PieceXl :=
  match s.extAt k va n with
  | none => .fault false va 0
  | some e =>
    if (e.pageable && !e.present && zone e.pstart e.len != .host) || !e.grants ring a then .fault false va 0
    else
      let pa := e.pstart + (va - e.vstart)
      if zone pa n = .host then
        let hp := hostPages (n / 4096 + 2) (pa - hostBase) n
        match s.hostXl q (s.pasidOf k) a va hp with
        | .inl ps => .ok ps e.key [e.idx] (hp.map (·.1))
        | .inr r => r
      else .ok [(pa, n)] e.key [e.idx] []

/-- Ask the host for a page's translation, once. -/
def State.atsAsk (s : State) (q : Nat) (pasid : BitVec 20) (page : Nat) : State :=
  if s.xlat.atsWait.contains (q, pasid, page) then s
  else { s with xlat := { s.xlat with atsWait := s.xlat.atsWait ++ [(q, pasid, page)] } }

/-- Outcome of reading a descriptor: its bytes, the cause of a failure, or a host page whose translation it waits for. -/
inductive DescRd where
  | ok (b : Bytes)
  | fail (cause : Byte)
  | wait (page : Nat)
  deriving DecidableEq, Repr

/-- A channel reads a descriptor: an address that no valid entry covers, or one in an absent page, is an access failure (R289; log
entry 92). -/
def State.descRd (s : State) (ch : Nat) (e : Eng) (va : Nat) : State × DescRd :=
  match s.pieceXl (ch / 64) e.ctx e.ring .rd va 64 with
  | .wait page => (s, .wait page)
  | .fault _ _ _ => (s, .fail 7)
  | .ok ps key exts _ =>
    match ps with
    | (pa, _) :: _ =>
      let (s, r) := (exts.foldl (fun s i => s.touch e.agent e.ctx i) s).memRd (s.who e key) pa 64
      (s, if r.err then .fail 7 else if r.bad.isSome then .fail 0x15 else .ok r.data)
    | [] => (s, .fail 7)

/-! ## Channels (R294) -/

/-- Channel of a partition in a quarter for a source number. -/
def State.dmaChan (s : State) (p q num : Nat) : Option Nat :=
  match s.partRec p with
  | none => none
  | some r =>
    let l := (from_ (64 * q) 63).filter fun ch => r.dmaMask.getLsbD ch
    if l.isEmpty then none else l[num % l.length]?

def dmaSrc (ch : Nat) : Nat := 72 + ch / 64

def dmaEng (ch ctx : Nat) (ring : BitVec 2) : Eng := { src := dmaSrc ch, agent := 292 + ch, ctx := ctx, ring := ring }

/-- A command fails in its descriptors: no work, SEV1 from the DMA complex (R295, R373). -/
def State.dmaFail (s : State) (n serial q : Nat) (malformed : Bool) (cause : Byte) (va : Nat) : State :=
  let s := (s.endCmd n serial (if malformed then 1 else 2)).sev (72 + q) 1 cause (some (n / 8)) va
  if malformed then s.onQueue n fun x => { x with err := true } else s

/-- Why a command's descriptors do not pass: one of them fails, malformed or not, with a cause and its address, or waits for the
translation of a host page. -/
inductive ListBad where
  | bad (malformed : Bool) (cause : Byte) (va : Nat)
  | wait (page : Nat)
  deriving DecidableEq, Repr

/-- Read and check a command's descriptors in turn: their bytes and ranges, or why one does not pass. -/
def dmaList (ch k : Nat) (e : Eng) : Nat → Nat → State → State × (List (Bytes × List Range) ⊕ ListBad)
  | 0, _, s => (s, .inl [])
  | n + 1, va, s =>
    match s.descRd ch e va with
    | (s, .wait page) => (s, .inr (.wait page))
    | (s, .fail cause) => (s, .inr (.bad false cause va))
    | (s, .ok b) =>
      match s.dmaCheck k e.ring b with
      | .bad => (s, .inr (.bad true 6 va))
      | .access => (s, .inr (.bad false 7 va))
      | .ok rs =>
        match dmaList ch k e n (va + 64) s with
        | (s, .inl l) => (s, .inl ((b, rs) :: l))
        | (s, .inr x) => (s, .inr x)

/-- A transfer that asks to be measured reserves its log entry, or runs unmeasured and sets MEASURE_LIMIT (R303). A context whose
MLOG_BASE is 0 has no log and holds no entry (log entry 92). -/
def State.reserve (s : State) (k : Nat) (measured : Bool) : State × Bool :=
  if !measured then (s, false)
  else
    let x := s.ctx k
    let limit := match s.ctxRec k with
      | some r => if r.mlogBase = 0 then 0 else r.mlogLimit
      | none => 0
    let p := (s.partOfCtx k).getD 64
    if limit ≤ x.mlogUsed + x.mlogReserve || 65536 ≤ (s.part p).mlogTotal then
      (s.onPart p fun y => { y with measureLimit := true }, false)
    else
      let s := s.setCtx k { x with mlogReserve := x.mlogReserve + 1 }
      (s.onPart p fun y => { y with mlogTotal := y.mlogTotal + 1 }, true)

/-- The transfers of a command on their way to their channel, each with its log entry reserved. -/
def State.dmaArrive (s : State) (n serial k list : Nat) : List Bytes → Nat → State × List Arrive
  | [], _ => (s, [])
  | b :: bs, i =>
    let (s, m) := s.reserve k (parseDma b).measured
    let (s, l) := s.dmaArrive n serial k list bs (i + 1)
    (s, { src := .cmd n serial i, ctx := k, ring := 2, level := s.queueLevel n, va := list + 64 * i, desc := some b, meas := m } :: l)

def execDma (n : Fin 8192) (s : State) : Res :=
  match s.startable n 2 with
  | none => .next s
  | some c =>
    let k := n.val / 8
    let list := c.body64 0
    let count := fld c.body 8 2
    let q := fld c.body 10 1
    if !(s.admits (72 + q % 4)) then .next s
    else
      let u := s.start n c
      let chan := (s.partOfCtx k).bind fun p => s.dmaChan p (q % 4) n
      if list % 64 != 0 || count = 0 || 256 < count || 3 < q || !zeroAt c.body 11 21 then .next (u.malform n c.serial)
      else
        match chan with
        | none => .next (u.dmaFail n c.serial q true 6 list)
        | some ch =>
          match dmaList ch k (dmaEng ch k 2) count list u with
          | (_, .inr (.wait page)) => .next (s.atsAsk q (s.pasidOf k) page)
          | (u, .inr (.bad m cause va)) => .next (u.dmaFail n c.serial q m cause va)
          | (u, .inl ds) =>
            match u.declare n c.serial (ds.flatMap (·.2)) with
            | (u, false) => .next u
            | (u, true) =>
              let (u, arr) := u.dmaArrive n c.serial k list (ds.map (·.1)) 0
              let u := u.onCmd n c.serial fun x => { x with left := count }
              .next (u.onChan ch fun x => { x with arrive := x.arrive ++ arr })

/-- A DQ push sends its transfer to a channel of the core's quarter; without a channel it is malformed. -/
def State.dqPush (s : State) (c : Nat) (va : Word) (ring : BitVec 2) : State :=
  let x := s.core c
  let idx := x.dq.pushed
  let s := s.setCore c (x.onUnit .dq fun u => u.push va ring)
  let chan := (s.partOfCore c).bind fun p => s.dmaChan p (c / 16) c
  match chan with
  | none => s.itemError c .dq idx (72 + c / 16) 6 va.toNat idx
  | some ch =>
    s.onChan ch fun y => { y with arrive := y.arrive ++
      [⟨.dq c idx, x.seq.context, ring, x.seq.level, va.toNat, none, false⟩] }

/-! ## The end of a transfer -/

def XferSrc.sameWork (a b : XferSrc) : Bool :=
  match a, b with
  | .cmd n i _, .cmd m j _ => n = m && i = j
  | .dq c i, .dq d j => c = d && i ≤ j
  | _, _ => false

/-- Release the log entries that a context's measured transfers hold (R303). -/
def State.unreserve (s : State) (k : Nat) (measured : Bool) : State :=
  if measured then
    let s := s.onCtx k fun k => { k with mlogReserve := k.mlogReserve - 1 }
    match s.partOfCtx k with
    | some p => s.onPart p fun y => { y with mlogTotal := y.mlogTotal - 1 }
    | none => s
  else s

/-- Drop the transfers and arrivals of a channel that satisfy a test. -/
def State.dropXfers (s : State) (ch : Nat) (p : XferSrc → Nat → Bool) : State :=
  let s := ((s.chan ch).xfers.filter fun x => p x.src x.ctx).foldl (fun s x => s.unreserve x.ctx x.measured) s
  let s := ((s.chan ch).arrive.filter fun a => p a.src a.ctx).foldl (fun s a => s.unreserve a.ctx a.meas) s
  s.onChan ch fun c =>
    { c with xfers := c.xfers.filter (fun x => !p x.src x.ctx), arrive := c.arrive.filter (fun a => !p a.src a.ctx) }

/-- A transfer ends by failure or abort: a command completes ACCESS and runs none of its later descriptors, a DQ push is an item
error (R295, R300). -/
def State.xferFail (s : State) (ch : Nat) (src : XferSrc) (ctx : Nat) (malformed : Bool) (cause : Byte) (va : Nat) : State :=
  let s := s.dropXfers ch fun o _ => src.sameWork o
  match src with
  | .cmd n serial _ =>
    let s := (s.endCmd n serial (if malformed then 1 else 2)).sev (dmaSrc ch) 1 cause (some ctx) va
    if malformed then s.onQueue n fun x => { x with err := true } else s
  | .dq c idx => s.itemError c .dq idx (dmaSrc ch) cause va idx

/-! ## Taking a transfer in (R295, R297, R303) -/

def xferOf (a : Arrive) (b : Bytes) : Xfer :=
  let d := parseDma b
  { src := a.src, ctx := a.ctx, ring := a.ring, level := a.level, descVa := a.va, fill := d.op = 1, cls := d.cls,
    measured := d.measured, rowBytes := d.rowBytes, rows := d.rows, srcVa := d.src, srcStr := d.srcStr, dstVa := d.dst,
    dstStr := d.dstStr, pattern := d.pattern }

/-- A transfer that arrives at a higher level pre-empts the running one (R297). -/
def preempt (level : BitVec 2) (xs : List Xfer) : List Xfer :=
  xs.map fun x => if x.st = .running && level < x.level then { x with st := .preempted } else x

/-- The front arrival of a channel, with its descriptor as read. -/
def State.arriving (s : State) (ch : Nat) : Option (Arrive × State × DescRd) :=
  match (s.chan ch).arrive with
  | [] => none
  | a :: _ =>
    match a.desc with
    | some b => some (a, s, .ok b)
    | none =>
      if a.va % 64 != 0 then some (a, s, .fail 6)
      else
        let (s, r) := s.descRd ch (dmaEng ch a.ctx a.ring) a.va
        some (a, s, r)

/-- Take in the front arrival when its descriptor is of the wanted kind; COPY also takes in those that fail their checks. -/
def State.takeIn (s : State) (ch : Nat) (fill : Bool) : State :=
  if !s.running || !s.admits (dmaSrc ch) then s
  else
    match s.arriving ch with
    | none => s
    | some (a, _, .wait page) => s.atsAsk (ch / 64) (s.pasidOf a.ctx) page
    | some (a, t, .fail cause) =>
      if fill then s
      else (t.onChan ch fun c => { c with arrive := c.arrive.drop 1 }).xferFail ch a.src a.ctx (cause == 6) cause a.va
    | some (a, t, .ok b) =>
      if (fld b 0 1 == 1) != fill then s
      else
        let t := t.onChan ch fun c => { c with arrive := c.arrive.drop 1 }
        let chk := if a.desc.isSome then .ok [] else t.dmaCheck a.ctx a.ring b
        match chk with
        | .bad => t.xferFail ch a.src a.ctx true 6 a.va
        | .access => t.xferFail ch a.src a.ctx false 7 a.va
        | .ok _ =>
          let (t, m) := if a.desc.isSome then (t, a.meas) else t.reserve a.ctx (parseDma b).measured
          let x := { xferOf a b with measured := m }
          t.onChan ch fun c => { c with xfers := preempt x.level c.xfers ++ [x] }

def execCopy (ch : Fin 256) (s : State) : Res := .next (s.takeIn ch false)
def execFill (ch : Fin 256) (s : State) : Res := .next (s.takeIn ch true)

/-! ## Running (R297) -/

/-- The first transfer of a level, unless it is parked or about to park. -/
def levelFirst (xs : List Xfer) (l : BitVec 2) : Option Xfer :=
  match xs.find? fun x => x.level = l with
  | some x => if x.st = .parked || x.parking.isSome then none else some x
  | none => none

/-- The transfer a channel is to run: the first of the highest level that is not blocked. -/
def Chan.next (c : Chan) : Option Xfer :=
  levelFirst c.xfers 0 <|> levelFirst c.xfers 1 <|> levelFirst c.xfers 2 <|> levelFirst c.xfers 3

def Chan.onXfer (c : Chan) (src : XferSrc) (f : Xfer → Xfer) : Chan :=
  { c with xfers := updFirst (fun x => x.src = src) f c.xfers }

def execDmaTransferStart (ch : Fin 256) (s : State) : Res :=
  let c := s.chan ch
  match c.next with
  | none => .next s
  | some x =>
    if !s.goes (dmaSrc ch) || x.st = .running then .next s
    else
      let c := { c with xfers := preempt x.level c.xfers }
      if c.xfers.any fun y => y.st = .running then .next s
      else .next (s.setChan ch (c.onXfer x.src fun y => { y with st := .running }))

/-! ## Parking (R298, R299) -/

/-- Append a fault record to a context's fault queue, or count it lost when the queue holds 2^FQ_LOG records; raise the queue's vector.
The index that FQ_HEAD holds and the one written at count within the queue (log entry 93). -/
def State.faultRecord (s : State) (k : Nat) (rec : Bool → Bytes) : State :=
  match s.ctxRec k with
  | none => s
  | some r =>
    let x := s.ctx k
    let n := 2 ^ r.fqLog
    let t := x.fqTail.toNat % n
    let s :=
      if n ≤ x.fqUsed then s.setCtx k { x with fqOverflow := true, fqLost := x.fqLost + 1 }
      else
        let s := (s.memWr hubWho (r.fqBase + 64 * t) (rec x.fqPhase)).1
        s.setCtx k { x with
          fqTail := BitVec.ofNat 12 ((t + 1) % n), fqPhase := if t + 1 = n then !x.fqPhase else x.fqPhase, fqUsed := x.fqUsed + 1 }
    s.msix (2 * k + 1)

/-- A write of FQ_HEAD: the driver has consumed the records before the new head (R299). -/
def State.fqConsume (s : State) (k : Nat) (v : BitVec 12) : State :=
  let n := 2 ^ ((s.ctxRec k).map (·.fqLog)).getD 12
  s.onCtx k fun x => { x with fqHead := v, fqUsed := (x.fqTail.toNat % n + n - v.toNat % n) % n }

/-- The sixty-four bytes of a fault record (Table 12.4). -/
def faultBytes (ch : Nat) (x : Xfer) (host dst sent : Bool) (va seq : Nat) (phase : Bool) : Bytes :=
  let (kind, num, desc) := match x.src with
    | .cmd n _ i => (0, n, i)
    | .dq c _ => (1, c, 0)
  leBytes 1 (b2n phase + 2 * b2n host + 4 * b2n dst + 8 * b2n sent) ++ leBytes 1 x.level.toNat ++ leBytes 2 ch ++
    leBytes 2 x.ctx ++ leBytes 2 kind ++ leBytes 2 num ++ leBytes 6 0 ++ leBytes 8 va ++ leBytes 8 x.descVa ++ leBytes 4 desc ++
    leBytes 4 seq ++ leBytes 8 x.row ++ leBytes 8 x.off ++ leBytes 8 0

/-- The transfer parks once its issued chunks have completed. -/
def State.park (s : State) (ch : Nat) (src : XferSrc) : State :=
  match (s.chan ch).xfers.find? fun x => x.src = src with
  | none => s
  | some x =>
    match x.parking with
    | none => s
    | some (host, dst, va) =>
      if !x.flight.isEmpty then s
      else
        let c := s.chan ch
        let seq := c.parks + 1
        let side := if dst then Acc.wr else Acc.rd
        let pasid := s.pasidOf x.ctx
        let sent := host && s.xlat.pageReqs.length < 512
        let page := match s.extAt x.ctx va 1 with
          | some e => (e.pstart + (va - e.vstart) - hostBase) / 4096
          | none => 0
        let s := if sent then { s with xlat := { s.xlat with
            pageReqs := s.xlat.pageReqs ++ [⟨pasid, page, side = .wr, ch, false⟩] } } else s
        let s := s.setChan ch { c.onXfer src (fun y => { y with st := .parked, parking := none, faultSeq := seq }) with
          parks := seq, hostResp := 0, lastSeq := c.lastSeq.set x.level.toNat seq }
        let s := s.faultRecord x.ctx (faultBytes ch x host dst sent va seq.toNat)
        match src with
        | .dq core _ => s.irq core 33
        | .cmd _ _ _ => s

/-- A chunk faults: the transfer translates no further and parks. A page that granted too little is asked for again on a retry. -/
def State.chunkFault (s : State) (ch : Nat) (x : Xfer) (host dst : Bool) (va page : Nat) : State :=
  let q := ch / 64
  let pasid := s.pasidOf x.ctx
  let kept := (s.xlat.ats.look q []).filter fun e => !(e.pasid = pasid && e.page = page)
  let s := if host then { s with xlat := { s.xlat with ats := s.xlat.ats.set q kept } } else s
  let s := s.onChan ch fun c => c.onXfer x.src fun y => { y with parking := some (host, dst, va) }
  s.park ch x.src

/-- The running transfer of a channel that may translate a chunk. -/
def Chan.issuer (c : Chan) : Option Xfer :=
  c.xfers.find? fun x => x.st = .running && x.parking.isNone && x.row < x.rows && x.flight.length < 16

def execChunkTranslate (ch : Fin 256) (s : State) : Res :=
  match (s.chan ch).issuer with
  | none => .next s
  | some x =>
    if !s.goes (dmaSrc ch) then .next s
    else
      let q := ch.val / 64
      let pasid := s.pasidOf x.ctx
      let dva := rowAt x.dstVa x.dstStr x.row x.off
      let sva := rowAt x.srcVa x.srcStr x.row x.off
      let n := min (x.rowBytes - x.off) (4096 - dva % 4096)
      let src := if x.fill then PieceXl.ok [] 0 [] [] else s.pieceXl q x.ctx x.ring .rd sva n
      match src, s.pieceXl q x.ctx x.ring .wr dva n with
      | .fault h va p, _ => .next (s.chunkFault ch x h false va p)
      | .wait p, _ => .next (s.atsAsk q pasid p)
      | _, .fault h va p => .next (s.chunkFault ch x h true va p)
      | _, .wait p => .next (s.atsAsk q pasid p)
      | .ok a ak ai ap, .ok b bk bi bp =>
        let s := (bi ++ ai).foldl (fun s i => s.touch (292 + ch.val) x.ctx i) s
        let id := s.xlat.nextChunk
        let s := { s with xlat := { s.xlat with nextChunk := id + 1 } }
        let k : Chunk := ⟨x.row, x.off, n, a, b, ak, bk, ai ++ bi, (ap ++ bp).map fun p => (pasid, p), id⟩
        let wrap := x.off + n = x.rowBytes
        .next (s.onChan ch fun c => c.onXfer x.src fun y =>
          { y with flight := y.flight ++ [k], row := if wrap then y.row + 1 else y.row, off := if wrap then 0 else y.off + n })

/-! ## Completion of a chunk -/

/-- Read the pieces of a source, a granule at a time: each byte with its poison and the address its granule was read at, and where the
first read failed. -/
def readPieces (w : Who) : List (Nat × Nat) → State → State × List (Byte × Option Nat) × Option Nat
  | [], s => (s, [], none)
  | (a, n) :: l, s =>
    let cuts := cutGran (n / 64 + 2) a n
    let (s, bs, e) := cuts.foldl (fun (x : State × List (Byte × Option Nat) × Option Nat) (c : Nat × Nat) =>
      let (s, r) := x.1.memRd w c.1 c.2
      let p := if r.bad.isSome then some c.1 else none
      (s, x.2.1 ++ ((List.range c.2).map fun i => (r.data.getD i 0, p)), x.2.2 <|> if r.err then some c.1 else none)) (s, [], none)
    let (s, cs, f) := readPieces w l s
    (s, bs ++ cs, e <|> f)

/-- Write bytes to the pieces of a destination, a granule at a time; a granule that takes a poisoned byte is marked. Answers where the
first write failed. -/
def writePieces (w : Who) : List (Nat × Nat) → List (Byte × Bool) → State → State × Option Nat
  | [], _, s => (s, none)
  | (a, n) :: l, bs, s =>
    let cuts := cutGran (n / 64 + 2) a n
    let (s, rest, e) := cuts.foldl (fun (x : State × List (Byte × Bool) × Option Nat) (c : Nat × Nat) =>
      let here := x.2.1.take c.2
      let (s, f) := x.1.memWr w c.1 (here.map (·.1)) (here.any (·.2))
      (s, x.2.1.drop c.2, x.2.2 <|> if f then some c.1 else none)) (s, bs, none)
    let (s, f) := writePieces w l rest s
    (s, e <|> f)

/-- Bytes that a FILL writes from an address on. -/
def fillBytes (pattern : Word) (va n : Nat) : List (Byte × Option Nat) :=
  (List.range n).map fun i => (pattern.extractLsb' (8 * ((va + i) % 8)) 8, none)

/-- Move one chunk: the state, the bytes written, and the cause of a failure (0: none) with the physical address that failed. Poisoned
data goes to the host as a poisoned request (R277); for any other destination it is an error, and the chunk writes nothing (R215). -/
def State.moveChunk (s : State) (w : Who) (x : Xfer) (k : Chunk) : State × Bytes × Byte × Nat :=
  let (s, bs, e) :=
    if x.fill then (s, fillBytes x.pattern (rowAt x.dstVa x.dstStr k.row k.off) k.len, none)
    else readPieces { w with key := k.skey } k.src s
  match e, bs.findSome? (·.2) with
  | some a, _ => (s, [], 7, a)
  | none, bad =>
    if bad.isSome && !k.dst.all (fun d => zone d.1 d.2 = .host) then (s, [], 0x15, bad.getD 0)
    else
      match writePieces { w with key := k.dkey } k.dst (bs.map fun b => (b.1, b.2.isSome)) s with
      | (s, none) => (s, bs.map (·.1), 0, 0)
      | (s, some a) => (s, bs.map (·.1), 7, a)

/-- Write a measured transfer's log entry (Table 12.5). -/
def State.logEntry (s : State) (x : Xfer) : State :=
  match s.ctxRec x.ctx with
  | none => s
  | some r =>
    let (kind, num, i, d) := match x.src with
      | .cmd n serial d => (0, n, serial, d)
      | .dq c idx => (1, c, idx, 0)
    let e := sha384 x.digest ++ leBytes 2 (x.cls + 4 * kind) ++ leBytes 2 num ++ leBytes 4 i ++ leBytes 4 d ++ leBytes 4 0
    let k := s.ctx x.ctx
    let s := (s.memWr hubWho (r.mlogBase + 64 * k.mlogUsed) e).1
    s.onCtx x.ctx fun k => { k with mlogUsed := k.mlogUsed + 1, mlogReserve := k.mlogReserve - 1 }

/-- A transfer's last chunk has completed. -/
def State.xferDone (s : State) (ch : Nat) (x : Xfer) : State :=
  let s := s.onChan ch fun c => { c with xfers := dropFirst (fun y => y.src = x.src) c.xfers }
  let s := if x.measured then s.logEntry x else s
  match x.src with
  | .cmd n serial _ => s.workDone n serial 0
  | .dq c idx => s.itemDone c .dq idx

/-- The oldest chunk in flight of a transfer completes. -/
def State.finishChunk (s : State) (ch : Nat) (x : Xfer) (k : Chunk) (rest : List Chunk) : State :=
  let w : Who := { src := dmaSrc ch, ctx := some x.ctx, part := some ((s.partOfCtx x.ctx).getD 64) }
  let (s, bs, cause, _) := s.moveChunk w x k
  if cause != 0 then s.xferFail ch x.src x.ctx false cause (rowAt x.dstVa x.dstStr k.row k.off)
  else
    let y := { x with flight := rest, progress := x.progress + 1, digest := if x.measured then x.digest ++ bs else x.digest }
    let s := s.onChan ch fun c => c.onXfer x.src fun _ => y
    if y.row = y.rows && rest.isEmpty then s.xferDone ch y else s.park ch x.src

def execChunkComplete (ch : Fin 256) (s : State) : Res :=
  match (s.chan ch).xfers.find? fun x => !x.flight.isEmpty with
  | none => .next s
  | some x =>
    match x.flight with
    | [] => .next s
    | k :: rest => .next (s.finishChunk ch x k rest)

/-! ## The host's answers (R291, R298) -/

def execAtsCompletion (q : Fin 4) (pasid : BitVec 20) (page : Nat) (answer : Option (Nat × Bool × Bool)) (s : State) : Res :=
  if !s.xlat.atsWait.contains (q.val, pasid, page) then .next s
  else
    let e : AtsEnt := match answer with
      | some (at_, rd, wr) => ⟨pasid, page, at_, rd, wr⟩
      | none => ⟨pasid, page, 0, false, false⟩
    let old := (s.xlat.ats.look q []).filter fun o => !(o.pasid = pasid && o.page = page)
    .next { s with xlat := { s.xlat with
      atsWait := s.xlat.atsWait.filter (· != (q.val, pasid, page))
      ats := s.xlat.ats.set q ((e :: old).take 1024) } }

def prgCode : PrgCode → BitVec 3
  | .success => 1
  | .invalidRequest => 2
  | .responseFailure => 3

/-- A PRG Response for a channel is recorded in HOST_RESP; one for a transfer that a forced racking has ended is discarded (R298,
R300). -/
def execPrgResponse (ch : Fin 256) (code : PrgCode) (s : State) : Res :=
  let dead := match s.xlat.pageReqs.find? fun r => r.group = ch.val with
    | some r => r.dead
    | none => false
  let s := { s with xlat := { s.xlat with pageReqs := dropFirst (fun r => r.group = ch.val) s.xlat.pageReqs } }
  .next (if dead then s else s.onChan ch fun c => { c with hostResp := prgCode code })

/-- All chunks in flight. -/
def State.chunks (s : State) : List (Nat × Chunk) := s.chans.flatMap fun c => c.2.xfers.flatMap fun x => x.flight.map fun k => (x.ctx, k)

/-- Numbers of the chunks in flight that a test picks. -/
def State.chunkIds (s : State) (p : Nat → Chunk → Bool) : List Nat := (s.chunks.filter fun k => p k.1 k.2).map (·.2.id)

/-- Some of these chunks are still in flight. -/
def State.inFlight (s : State) (ids : List Nat) : Bool := s.chunks.any fun k => ids.contains k.2.id

/-- The matching entries go from every quarter; the completion waits for the chunks that were translated through them (R291). -/
def execAtsInvalidate (pasid : BitVec 20) (page pages : Nat) (s : State) : Res :=
  let hit (p : BitVec 20) (a : Nat) : Bool := p = pasid && page ≤ a && a < page + pages
  let wait := s.chunkIds fun _ k => k.pages.any fun p => hit p.1 p.2
  .next { s with xlat := { s.xlat with
    ats := s.xlat.ats.map fun q => (q.1, q.2.filter fun e => !hit e.pasid e.page)
    atsDrops := s.xlat.atsDrops ++ [wait] } }

def execAtsInvalidationComplete (s : State) : Res :=
  match s.xlat.atsDrops with
  | [] => .next s
  | d :: rest =>
    if s.inFlight d then .next s
    else .next { s with xlat := { s.xlat with atsDrops := rest, atsInvDone := s.xlat.atsInvDone + 1 } }

/-! ## Resumption (R300) -/

/-- A parked transfer named by channel, level and sequence number. -/
def State.parkedXfer (s : State) (ch : Nat) (level : BitVec 2) (seq : BitVec 32) : Option Xfer :=
  (s.chan ch).xfers.find? fun x => x.st = .parked && x.level = level && x.faultSeq = seq

def State.staleResume (s : State) : State := { s with xlat := { s.xlat with stale := s.xlat.stale + 1 } }

def execDmaResumeRetry (r : Requester) (ch : Fin 256) (level : BitVec 2) (seq : BitVec 32) (s : State) : Res :=
  if !writesBlock r then .next s
  else
    match s.parkedXfer ch level seq with
    | none => .next s.staleResume
    | some x => .next (s.onChan ch fun c => c.onXfer x.src fun y => { y with st := .preempted })

def execDmaResumeAbort (r : Requester) (ch : Fin 256) (level : BitVec 2) (seq : BitVec 32) (s : State) : Res :=
  if !writesBlock r then .next s
  else
    match s.parkedXfer ch level seq with
    | none => .next s.staleResume
    | some x => .next (s.xferFail ch x.src x.ctx false 7 x.descVa)

/-! ## Rescue channels (R301, R302) -/

/-- Bytes of a rescue descriptor. -/
def Rescue.bytes (r : Rescue) : Bytes := (List.range 8).flatMap fun i => leBytes 8 (r.desc.look i 0).toNat

def execRescueCmd (r : Requester) (q : Fin 4) (s : State) : Res :=
  let x := s.rescue q
  if !writesBlock r || r = .controller || x.st = 1 then .next s
  else
    let b := x.bytes
    let key := fld b 56 2
    if dmaBad b false false || fld b 1 1 != 0 || 1023 < key || !zeroAt b 58 6 then
      let (w, s) := s.fresh
      .next (s.setRescue q { x with st := 3, addr := w.setWidth 48 })
    else
      let a : Arrive := ⟨.dq (16 * q.val) 0, 0, 0, 1, 0, none, false⟩
      .next (s.setRescue q { x with st := 1, run := some (xferOf a b), skey := BitVec.ofNat 10 key })

/-- Chunks of one row from an offset on: offset and length. -/
def rowChunks : Nat → Nat → Nat → Nat → List (Nat × Nat)
  | 0, _, _, _ => []
  | f + 1, dst, off, n =>
    let k := min n (4096 - (dst + off) % 4096)
    if k = 0 then [] else (off, k) :: rowChunks f dst (off + k) (n - k)

/-- A chunk of a rescue transfer on physical addresses. -/
def rescueChunk (x : Xfer) (key : BitVec 10) (row off n : Nat) : Chunk :=
  ⟨row, off, n, [(rowAt x.srcVa x.srcStr row off, n)], [(rowAt x.dstVa x.dstStr row off, n)], key, key, [], [], 0⟩

/-- The lowest address of a range, by granules, that a requester does not reach. -/
def State.firstShut (s : State) (w : Who) (a n : Nat) : Option Nat :=
  ((cutGran (n / 64 + 2) a n).find? fun c => s.gate w c.1 c.2 != .ok).map (·.1)

/-- The address at which a rescue chunk leaves the memory it reaches, the source first. -/
def State.rescueBad (s : State) (w : Who) (x : Xfer) (k : Chunk) : Option Nat :=
  let d := rowAt x.dstVa x.dstStr k.row k.off
  let a := rowAt x.srcVa x.srcStr k.row k.off
  (if x.fill then none else s.firstShut w a k.len) <|> s.firstShut w d k.len

/-- Run the chunks of a rescue transfer until one fails; answers the address that failed. -/
def rescueRun (w : Who) (x : Xfer) : List Chunk → State → State × Option Nat
  | [], s => (s, none)
  | k :: l, s =>
    match s.rescueBad w x k with
    | some a => (s, some a)
    | none =>
      match s.moveChunk w x k with
      | (s, _, cause, a) => if cause = 0 then rescueRun w x l s else (s, some a)

def execRescueComplete (q : Fin 4) (s : State) : Res :=
  let r := s.rescue q
  match r.run with
  | none => .next s
  | some x =>
    if r.st != 1 then .next s
    else
      let w : Who := { src := 72 + q.val, key := r.skey, quiet := true, rescue := true }
      let ks := (List.range x.rows).flatMap fun row =>
        (rowChunks (x.rowBytes / 4096 + 2) (rowAt x.dstVa x.dstStr row 0) 0 x.rowBytes).map fun (o, n) => rescueChunk x r.skey row o n
      match rescueRun w x ks s with
      | (s, none) => .next (s.onRescue q fun r => { r with st := 2, run := none })
      | (s, some a) => .next (s.onRescue q fun r => { r with st := 3, addr := BitVec.ofNat 48 a, run := none })

/-! ## Invalidation of extent entries (R292, R293) -/

/-- The requester may use the INVAL registers for a context (R304). -/
def State.invalMay (s : State) (r : Requester) (k : Nat) : Bool :=
  match r with
  | .host _ => true
  | .controller => true
  | .ring c n => n = 0 || (n = 1 && (s.partOfCore c).isSome && s.partOfCore c == s.partOfCtx k)

/-- DONE_SEQ advances, with its interrupt. -/
def State.invalEnd (s : State) : State :=
  { s with xlat := { s.xlat with busy := false, doneSeq := s.xlat.doneSeq + 1 } }.devIrq

/-- Re-read one entry: the loaded list after it, and whether it fails. -/
def State.invalEntry (s : State) (r : CtxRec) (i : Nat) : State × Bool :=
  let (s, d) := s.memRd hubWho (r.xtBase + 64 + 32 * i) 32
  let x := s.ctx r.ctx
  let new := if d.err || d.bad.isSome then none else some (s.active.checkEntry r.part i d.data)
  match x.ext.find? fun e => e.idx = i with
  | none => (s, match new with
    | none => true
    | some _ => bit (fld d.data 28 1) 0)
  | some e =>
    if e.pageable then
      match new with
      | some (.ok f) =>
        if f.pageable && f.vstart = e.vstart && f.len = e.len then
          (s.setCtx r.ctx { x with ext := updFirst (fun g => g.idx = i) (fun _ => f) x.ext }, false)
        else (s.setCtx r.ctx { x with ext := updFirst (fun g => g.idx = i) (fun g => { g with present := false }) x.ext }, true)
      | _ => (s.setCtx r.ctx { x with ext := updFirst (fun g => g.idx = i) (fun g => { g with present := false }) x.ext }, true)
    else (s, new != some (.ok e))

def execInvalCmd (r : Requester) (s : State) : Res :=
  let k := s.xlat.invCtx.toNat
  let first := s.xlat.invFirst.toNat
  let count := s.xlat.invCount.toNat
  if !s.invalMay r k then .next s
  else if s.xlat.busy then .next { s with xlat := { s.xlat with invIgnored := s.xlat.invIgnored + 1 } }
  else
    match s.ctxRec k with
    | none => .next ({ s with xlat := { s.xlat with invErr := true } }.invalEnd)
    | some c =>
      if count = 0 || (s.ctx k).xtCount < first + count then
        .next ({ s with xlat := { s.xlat with invErr := true } }.invalEnd)
      else
        let hit (e : Nat × Nat) : Bool := e.1 = k && first ≤ e.2 && e.2 < first + count
        let tlb := s.xlat.tlb.map fun b => (b.1, b.2.filter fun e => !hit e)
        let wait := s.chunkIds fun c x => x.exts.any fun i => hit (c, i)
        let s := { s with xlat := { s.xlat with tlb := tlb } }
        let (s, err) := (from_ first count).foldl (fun (s, e) i =>
          let (s, f) := s.invalEntry c i
          (s, e || f)) (s, false)
        .next { s with xlat := { s.xlat with busy := true, busyCtx := k, invErr := err, invWait := wait } }

/-- Step 4 ends once no chunk that was translated through an old value is in flight. -/
def execInvalDone (s : State) : Res :=
  if !s.xlat.busy || s.inFlight s.xlat.invWait then .next s else .next s.invalEnd

end Sys2Proof.Machine
end

