-- ==== Sys2Proof/Machine/Operands.lean ====
section
/-!
DEFINITION. Operands: what the bits of each number format are worth, block scales, and packing of narrow elements in memory
(R64 to R70, R73, R74).
-/

namespace Sys2Proof.Machine

/-- Exact value of a floating-point encoding (R64); a NaN of FP64, FP32, BF16 or FP16 with its top fraction bit clear is
signalling (R69). -/
def decodeFp (code : Nat) (F : FpFmt) (x : Nat) : Val :=
  let s := x.testBit (F.eb + F.fb)
  let E := (x >>> F.fb) % 2 ^ F.eb
  let f := x % 2 ^ F.fb
  let emin : Int := 1 - F.bias
  if E = 2 ^ F.eb - 1 && F.hasInf then
    if f = 0 then .inf s else .nan (code < 4 && !f.testBit (F.fb - 1))
  else if code = 5 && E = 15 && f = 7 then .nan false
  else if E = 0 then .fin s f (emin - F.fb)
  else .fin s (2 ^ F.fb + f) (emin + (E - 1 : Nat) - F.fb)

/-- Exact value of an element of format `f` from its bits (R64, R65, R75). -/
def valOf (f : Nat) (x : BitVec 128) : Val :=
  match fpFmt f with
  | some F => decodeFp f F x.toNat
  | none =>
    match intFmt f with
    | some w => .ofInt (BitVec.ofNat w x.toNat).toInt
    | none => xaVal x

/-- Value of an E8M0 block scale (R74). -/
def scaleVal (x : Byte) : Val := if x = 0xFF then .nan false else .fin false 1 ((x.toNat : Int) - 127)

/-- Value of an MX element under its block's scale; an INT8 element n has the value n × 2^-6 (R73, R74). -/
def mxVal (f : Nat) (x : BitVec 128) (sc : Byte) : Val :=
  let v := valOf f x
  let v := if f = 8 then v.scale (-6) else v
  (v.mul (scaleVal sc)).1

/-- Bytes that n elements of a format occupy in memory, packed (R70). -/
def packedBytes (f n : Nat) : Nat := cdiv (n * fmtBits f) 8

/-- Element size in memory, in bytes, of a format of whole bytes. -/
def elemBytes (f : Nat) : Nat := container f

/-- Elements of a packing group: 4 for E3M2, 2 for E2M1 and INT4, else 1 (R70). -/
def groupLen (f : Nat) : Nat := if f = 6 then 4 else if f = 7 || f = 9 then 2 else 1

/-- Bytes of a packing group. -/
def groupBytes (f : Nat) : Nat := if f = 6 then 3 else if f = 7 || f = 9 then 1 else elemBytes f

/-- Element `i` of a packed row of bytes (R70). -/
def unpackAt (f : Nat) (bs : Bytes) (i : Nat) : BitVec 128 :=
  let w := fmtBits f
  if subByte f then
    let g := groupLen f
    let gb := groupBytes f
    let v := leNat ((bs.drop (i / g * gb)).take gb)
    BitVec.ofNat 128 ((v >>> (i % g * w)) % 2 ^ w)
  else BitVec.ofNat 128 (leNat ((bs.drop (i * (w / 8))).take (w / 8)))

/-- A row of `n` elements unpacked. -/
def unpack (f n : Nat) (bs : Bytes) : List (BitVec 128) := (List.range n).map (unpackAt f bs)

/-- Elements put together into packed bytes (R70); the last group of a row is whole by the rules that bound row lengths. -/
def pack (f : Nat) (xs : List (BitVec 128)) : Bytes :=
  let w := fmtBits f
  let v := xs.foldr (fun x a => x.toNat % 2 ^ w + a * 2 ^ w) 0
  leBytes (cdiv (xs.length * w) 8) v

/-- The 32 bytes of a guarded cell (R159). -/
def classCode : XClass → Nat
  | .fin => 0
  | .pinf => 1
  | .ninf => 2
  | .nan => 3

def codeClass : Nat → XClass
  | 0 => .fin
  | 1 => .pinf
  | 2 => .ninf
  | _ => .nan

def cellBytes (g : Guarded) : Bytes :=
  leBytes 18 g.reg.toNat ++ [BitVec.ofNat 8 (classCode g.cls)] ++ List.replicate 13 0

/-- A guarded cell as read; bytes 31:19 or bits [7:2] of byte 18 that are not zero make it NaN (R159). -/
def cellOf (bs : Bytes) : Guarded :=
  let k := fld bs 18 1
  ⟨BitVec.ofNat 144 (fld bs 0 18), if k ≥ 4 || !zeroAt bs 19 13 then .nan else codeClass k⟩

end Sys2Proof.Machine
end

