-- ==== Sys2Proof/Machine/VecMath.lean ====
section
/-!
DEFINITION. The reference algorithms RCP, RSQRT, EXP2 and LOG2 (R165, R166). Nodes are computed in integers with 2^-192 as unit,
which settles every rounding of the coefficients.
-/

namespace Sys2Proof.Machine

/-- Fraction bits of a node value. -/
def nodeBits : Nat := 192

/-- Square root of a fixed-point number below 4. -/
def fxSqrt (x : Nat) : Nat := isqrt (x <<< nodeBits) (nodeBits + 2) 0

/-- 2^(i / 2^k) in fixed point for i < 2^k, from the roots 2^(1/2), 2^(1/4), … -/
def fxRoots : Nat → Nat → Nat → Nat → Nat
  | 0, _, _, acc => acc
  | k + 1, i, root, acc =>
    let root := fxSqrt root
    fxRoots k i root (if i.testBit k then (acc * root) >>> nodeBits else acc)

/-- 2^(i/128). -/
def fxExp2 (i : Nat) : Nat := if i = 128 then 2 <<< nodeBits else fxRoots 7 i (2 <<< nodeBits) (1 <<< nodeBits)

/-- Bits of log2 of a fixed-point number in [1, 2), by repeated squaring. -/
def fxLogBits : Nat → Nat → Nat → Nat
  | 0, _, acc => acc
  | k + 1, x, acc =>
    let y := (x * x) >>> nodeBits
    if 2 <<< nodeBits ≤ y then fxLogBits k (y / 2) (2 * acc + 1) else fxLogBits k y (2 * acc)

/-- log2 of n/128 for 128 ≤ n ≤ 256, to 128 bits. -/
def fxLog2 (n : Nat) : Nat := if n = 256 then 1 <<< nodeBits else fxLogBits 128 ((n <<< nodeBits) / 128) 0 <<< (nodeBits - 128)

/-- The four functions. -/
inductive RefFn where
  | rcp
  | rsqrt
  | exp2
  | log2
  deriving DecidableEq, Repr

/-- Node `j` (0, 1, 2) of segment `k` (Table 6.10): its function value. -/
def refNode (f : RefFn) (k j : Nat) : Nat :=
  match f with
  | .rcp => (128 <<< nodeBits) / (128 + 2 * k + j)
  | .rsqrt =>
    let n := if k < 64 then 128 + 2 * k + j else 2 * (128 + 2 * (k - 64) + j)
    isqrt ((128 <<< (2 * nodeBits)) / n) (nodeBits + 1) 0
  | .exp2 => fxExp2 (2 * k + j)
  | .log2 => fxLog2 (128 + 2 * k + j)

/-- A fixed-point number rounded to a multiple of 2^-30, ties to even. -/
def round30 (x : Int) : Int :=
  let k := (roundTo 0 (x < 0) x.natAbs (-nodeBits) (-30) false).1
  if x < 0 then -(k : Int) else k

/-- Coefficients C0, C1, C2 of a segment (R165). -/
def refCoef (f : RefFn) (k : Nat) : Int × Int × Int :=
  let y0 : Int := refNode f k 0
  let y1 : Int := refNode f k 1
  let y2 : Int := refNode f k 2
  (round30 y0, round30 (-3 * y0 + 4 * y1 - y2), round30 (2 * y0 - 4 * y1 + 2 * y2))

/-- The polynomial of a segment at `t` (R166). -/
def refPoly (f : RefFn) (seg t : Nat) : Int :=
  let (c0, c1, c2) := refCoef f seg
  c0 + ((c1 * t) >>> 17) + ((c2 * (((t * t) >>> 17 : Nat) : Int)) >>> 17)

/-- Special inputs (Table 6.11); none for the normal path. -/
def refSpecial (f : RefFn) (x : Val) : Option (Val × Flags) :=
  match x with
  | .nan s => some (.nan false, flagIf s fInvalid)
  | .inf false => some (match f with
    | .rcp => (.zero, 0)
    | .rsqrt => (.zero, 0)
    | .exp2 => (.inf false, 0)
    | .log2 => (.inf false, 0))
  | .inf true => some (match f with
    | .rcp => (.fin true 0 0, 0)
    | .rsqrt => (.nan false, fInvalid)
    | .exp2 => (.zero, 0)
    | .log2 => (.nan false, fInvalid))
  | .fin n m _ =>
    if m = 0 then
      match f with
      | .rcp => some (.inf n, 0)
      | .rsqrt => some (.inf n, 0)
      | .exp2 => none
      | .log2 => some (.inf true, 0)
    else if n then
      match f with
      | .rcp => none
      | .rsqrt => some (.nan false, fInvalid)
      | .exp2 => none
      | .log2 => some (.nan false, fInvalid)
    else none

/-- Exponent and the 23 fraction bits of a non-zero magnitude, normalised (R166). -/
def refSplit (m : Nat) (e : Int) : Int × Nat :=
  let l := m.log2
  (e + l, ((m <<< 23) >>> l) - 2 ^ 23)

/-- ⌊x⌋ and the 23 fraction bits of x - ⌊x⌋, for EXP2. A magnitude beyond 2^11 takes the floor ±2^11: its result overflows, or rounds
as the smallest amount, in every FD alike. -/
def refFloor (n : Bool) (m : Nat) (e : Int) : Int × Nat :=
  if m = 0 then (0, 0)
  else if 11 ≤ m.log2 + e then (if n then -2048 else 2048, 0)
  else
    let x := scaled n m (max e (-400)) (min (max e (-400)) 0)
    let d := (-(min (max e (-400)) 0)).toNat
    let fl := x >>> d
    (fl, ((x - fl * 2 ^ d) * 2 ^ 23 / 2 ^ d).toNat)

/-- One element: the exact result of the evaluation, before the final rounding (R166). -/
def refEval (f : RefFn) (x : Val) : Val × Flags :=
  match refSpecial f x with
  | some r => r
  | none =>
    match x with
    | .fin n m e =>
      match f with
      | .rcp =>
        let (x, mf) := refSplit m e
        (.fin n (refPoly f (mf / 2 ^ 17) (mf % 2 ^ 17)).toNat (-30 - x), 0)
      | .rsqrt =>
        let (x, mf) := refSplit m e
        let odd := x % 2 != 0
        let x := if odd then x - 1 else x
        (.fin false (refPoly f (mf / 2 ^ 17 + (if odd then 64 else 0)) (mf % 2 ^ 17)).toNat (-30 - x / 2), 0)
      | .exp2 =>
        let (k, mf) := refFloor n m e
        (.fin false (refPoly f (mf / 2 ^ 17) (mf % 2 ^ 17)).toNat (k - 30), 0)
      | .log2 =>
        let (x, mf) := refSplit m e
        (((Val.ofInt (x * 2 ^ 30 + refPoly f (mf / 2 ^ 17) (mf % 2 ^ 17))).scale (-30)), 0)
    | v => (v, 0)

end Sys2Proof.Machine
end

