-- ==== Sys2Proof/Machine/VecOps.lean ====
section
/-!
DEFINITION. Op words of the vector engine: their fields, form checks, register accesses, and the operations that touch registers
only (R140 to R155, R164, R167).
-/

namespace Sys2Proof.Machine

/-! ## Op words (Table 6.3) -/

/-- An op word with the SA, SB and ring captured at its push, and its position in PUSHED. `loop` marks a body op word (R163). -/
structure OpW where
  opc   : Nat
  vd    : Nat
  va    : Nat
  vb    : Nat
  vc    : Nat
  fa    : Nat
  fd    : Nat
  mreg  : Nat
  men   : Bool
  mzero : Bool
  rm    : BitVec 2
  sat   : Bool
  scal  : Bool
  tile  : Bool
  bc    : Nat
  resv  : Nat
  vl    : Nat
  sa    : Word
  sb    : Word
  ring  : BitVec 2
  idx   : Nat
  loop  : Bool := false
  deriving DecidableEq, Repr

def parseOp (i : VqItem) (idx : Nat) : OpW :=
  let w := i.w.toNat
  { opc := bits w 63 56, vd := bits w 55 51, va := bits w 50 46, vb := bits w 45 41, vc := bits w 40 36,
    fa := bits w 35 32, fd := bits w 31 28, mreg := bits w 27 25, men := bit w 24, mzero := bit w 23,
    rm := BitVec.ofNat 2 (bits w 22 21), sat := bit w 20, scal := bit w 19, tile := bit w 18, bc := bits w 17 16,
    resv := bits w 15 14, vl := bits w 13 0, sa := i.sa, sb := i.sb, ring := i.ring, idx := idx }

/-- An item error of an op word: severity, cause, address, the lowest failing active element (R156), and whether an injected check
made it. -/
structure VErr where
  sev   : Nat := 1
  cause : Byte := 6
  addr  : Nat := 0
  elem  : Nat := 0
  inj   : Bool := false
  deriving DecidableEq, Repr

/-- A malformed op word (R144). -/
def malformed : VErr := {}

/-- How an operation uses a register field: not at all, a vector register whose elements VL bounds, one it bounds otherwise, or a
mask register. -/
inductive Role where
  | no
  | vec
  | aux
  | mask
  deriving DecidableEq, Repr

/-- An operation of Table 6.4: how it uses the fields of its op word, its formats, its destination elements, further form checks,
the feature it needs, whether it delivers a scalar, the words of registers and masks it reads where that is not one element of each
operand for each active element, and its effect. -/
structure VOp where
  d      : Role := .no
  a      : Role := .no
  b      : Role := .no
  c      : Bool := false
  code   : Bool := false
  rnd    : Bool := false
  scal   : Bool := false
  tile   : Bool := false
  msk    : Bool := true
  useVl  : Bool := true
  fmt    : Nat → Nat → Bool
  dst    : OpW → Nat := fun o => o.vl
  ok     : OpW → Bool := fun _ => true
  feat   : Option Nat := none
  scalar : Bool := false
  reads  : Option (Vec → OpW → List Nat) := none
  run    : Nat → OpW → State → State × Option VErr

def Role.off (r : Role) (x : Nat) : Bool :=
  match r with
  | .no => x != 0
  | .vec => false
  | .aux => false
  | .mask => 7 < x

/-- Elements that a register holds at a format's container width (Table 6.2). -/
def capOf (f : Nat) : Nat := 8192 / container f

/-- Fields that the operation does not use are zero (R143, R144). With SCAL set the register VB is not used. -/
def VOp.fieldsBad (p : VOp) (o : OpW) : Bool :=
  o.resv != 0 || p.d.off o.vd || p.a.off o.va || p.b.off o.vb || (!p.c && !p.code && o.vc != 0) ||
    (!p.rnd && (o.rm != 0 || o.sat)) || (!p.scal && o.scal) || (o.scal && o.vb != 0) ||
    (!p.tile && (o.tile || o.bc != 0)) || (!p.msk && (o.men || o.mzero || o.mreg != 0)) || (!p.useVl && o.vl != 0)

/-- Columns of a tile view (R155). -/
def OpW.cols (o : OpW) : Nat := bits o.sa.toNat 13 0

def VOp.tileBad (o : OpW) : Bool :=
  if o.tile then o.bc = 0 || o.bc = 3 || o.scal || o.cols = 0 || o.vl % o.cols != 0 else o.bc != 0

/-- VL within 8,192 and within every register operand (R144). -/
def VOp.vlBad (p : VOp) (o : OpW) : Bool :=
  8192 < o.vl || (p.a = .vec && capOf o.fa < o.vl) || (p.b = .vec && capOf o.fa < o.vl) ||
    ((p.d = .vec || p.c) && capOf o.fd < p.dst o)

def VOp.bad (p : VOp) (o : OpW) (feat : BitVec 256) : Bool :=
  p.fieldsBad o || !p.fmt o.fa o.fd || VOp.tileBad o || p.vlBad o || !p.ok o ||
    (match p.feat with
     | some f => !feat.getLsbD f
     | none => false)

/-! ## Registers (R141) -/

/-- Element `i` of register `r` as format `f` reads it. -/
def Vec.el (v : Vec) (r f i : Nat) : BitVec 128 :=
  let w := container f
  BitVec.ofNat 128 (leNat (Map.run v.regs 0 (8192 * r + w * i) w) % 2 ^ fmtBits f)

/-- The whole container of an element. -/
def Vec.raw (v : Vec) (r f i : Nat) : Nat :=
  let w := container f
  leNat (Map.run v.regs 0 (8192 * r + w * i) w)

def putBytes (m : Map Byte) (k : Nat) : Bytes → Map Byte
  | [] => m
  | b :: bs => putBytes (m.put k b 0) (k + 1) bs

/-- Write an element; the container's bits above its format are 0. -/
def Vec.setEl (r f i : Nat) (x : BitVec 128) (v : Vec) : Vec :=
  let w := container f
  { v with regs := putBytes v.regs (8192 * r + w * i) (leBytes w (x.toNat % 2 ^ fmtBits f)) }

def Vec.mbit (v : Vec) (m i : Nat) : Bool := v.masks.look (8192 * m + i) false

def Vec.setBit (m i : Nat) (x : BitVec 128) (v : Vec) : Vec := { v with masks := v.masks.put (8192 * m + i) (x != 0) false }

/-- Element i of the destination is active (R148); i is below VL. -/
def OpW.active (o : OpW) (v : Vec) (i : Nat) : Bool := !o.men || v.mbit o.mreg i

/-- Active elements below `n`. -/
def OpW.actives (o : OpW) (v : Vec) (n : Nat) : List Nat := (List.range n).filter (o.active v)

/-- The 64-bit words that hold element `i` of register `r` in format `f`, numbered over v0 to v31. -/
def regWords (r f i : Nat) : List Nat :=
  let w := 1024 * r + i * container f / 8
  if f = 13 then [w, w + 1] else [w]

/-- The word that holds bit `i` of mask register `m`, numbered after those of v31. -/
def maskWord (m i : Nat) : Nat := 32768 + 128 * m + i / 64

/-- Words of the mask that governs the op word. -/
def OpW.maskWords (o : OpW) : List Nat := if o.men then (List.range (cdiv o.vl 64)).map fun k => maskWord o.mreg (64 * k) else []

/-- Words of operand b for destination element `i`. -/
def OpW.bWords (o : OpW) (i : Nat) : List Nat :=
  if o.scal then []
  else regWords o.vb o.fa (if o.tile then if o.bc = 1 then i % o.cols else i / o.cols else i)

/-- Words of registers and masks that an op word reads (R148, R167): those of its mask, and of the elements behind its active ones. -/
def VOp.readWords (p : VOp) (v : Vec) (o : OpW) : List Nat :=
  let role (r : Role) (i : Nat) (x : Nat) (ws : List Nat) : List Nat :=
    match r with
    | .no => []
    | .vec => ws
    | .aux => ws
    | .mask => [maskWord x i]
  let all := match p.reads with
    | some f => f v o
    | none =>
      o.maskWords ++ (o.actives v o.vl).flatMap fun i =>
        role p.a i o.va (regWords o.va o.fa i) ++ role p.b i o.vb (o.bWords i) ++ (if p.c then regWords o.vc o.fd i else [])
  all.eraseDups

/-- Operand b: SB, a broadcast, or register VB (R143, R155). -/
def OpW.bAt (o : OpW) (v : Vec) (i : Nat) : BitVec 128 :=
  if o.scal then BitVec.ofNat 128 (o.sb.toNat % 2 ^ fmtBits o.fa)
  else if o.tile then v.el o.vb o.fa (if o.bc = 1 then i % o.cols else i / o.cols)
  else v.el o.vb o.fa i

/-- Raise flags in FLAGS and for the provenance record (R153). -/
def State.vecFlags (s : State) (c : Nat) (f : Flags) : State :=
  if f = 0 then s else (s.onVec c fun v => { v with flags := v.flags ||| f }).gather (s.runCtx c) f

/-- Residue checks of a core's XA128 adders over `n` additions; they end at the first mismatch, which counts in the residue counter
(R207, R208). -/
def State.residue (s : State) (c n : Nat) : State × Bool :=
  if n = 0 then (s, false)
  else
    let (hit, s) := s.inject c 5 1
    if hit.isSome then (s.onStore c fun x => { x with residue := x.residue + 1 }, true) else (s, false)

def residueErr : VErr := { sev := 2, cause := 5, inj := true }

/-- One element computed: its bits, its flags and the XA128 additions made. -/
abbrev El := BitVec 128 × Flags × Nat

/-- Elements from `i` on, in ascending order: active ones computed, inactive ones zeroed under MZERO (R148). A residue mismatch ends
the op word with no element at or above it written (Table 8.3). -/
def mapGo (c : Nat) (o : OpW) (v : Vec) (wr : Nat → BitVec 128 → Vec → Vec) (f : Nat → El) :
    Nat → Nat → State → State × Option VErr
  | 0, _, s => (s, none)
  | k + 1, i, s =>
    if o.active v i then
      let (x, fl, n) := f i
      let (s, hit) := s.residue c n
      if hit then (s, some residueErr) else mapGo c o v wr f k (i + 1) ((s.onVec c (wr i x)).vecFlags c fl)
    else mapGo c o v wr f k (i + 1) (if o.mzero then s.onVec c (wr i 0) else s)

/-- An elementwise operation into vector register VD. -/
def mapVec (f : Vec → OpW → Nat → El) (n : OpW → Nat := fun o => o.vl) (c : Nat) (o : OpW) (s : State) : State × Option VErr :=
  let v := (s.core c).vec
  mapGo c o v (Vec.setEl o.vd o.fd) (f v o) (n o) 0 s

/-- An elementwise operation into mask register VD. -/
def mapMask (f : Vec → OpW → Nat → Bool × Flags) (c : Nat) (o : OpW) (s : State) : State × Option VErr :=
  let v := (s.core c).vec
  mapGo c o v (Vec.setBit o.vd) (fun i => let (b, fl) := f v o i; (if b then 1 else 0, fl, 0)) o.vl 0 s

/-- Deliver a scalar; a body op word writes no VRES (R163). -/
def State.vres (s : State) (c : Nat) (o : OpW) (x : Nat) : State :=
  if o.loop then s else s.onVec c fun v => { v with vres := BitVec.ofNat 64 x }

/-! ## Formats -/

def fp4 (f : Nat) : Bool := f < 4
def intF (f : Nat) : Bool := f = 8 || f = 10 || f = 11 || f = 12
def anyF (f : Nat) : Bool := f < 14
def noXa (f : Nat) : Bool := f < 13
def same (p : Nat → Bool) (fa fd : Nat) : Bool := p fa && fd = fa
def two (p q : Nat → Bool) (fa fd : Nat) : Bool := p fa && q fd
def pairIn (l : List (Nat × Nat)) (fa fd : Nat) : Bool := l.contains (fa, fd)
def noFmt (fa fd : Nat) : Bool := fa = 0 && fd = 0
def wideF : Nat → Nat → Bool := pairIn [(3, 1), (2, 1), (1, 0)]

/-! ## Floating point (R150, R151) -/

def OpW.aVal (o : OpW) (v : Vec) (i : Nat) : Val := valOf o.fa (v.el o.va o.fa i)
def OpW.bVal (o : OpW) (v : Vec) (i : Nat) : Val := valOf o.fa (o.bAt v i)
def OpW.cVal (o : OpW) (v : Vec) (i : Nat) : Val := valOf o.fd (v.el o.vc o.fd i)

/-- Round an exact result once into FD. -/
def OpW.fin (o : OpW) (r : Val × Flags) : El :=
  let (x, f) := convert o.fd o.rm o.sat r.1
  (x, r.2 ||| f, 0)

def fpBin (f : OpW → Val → Val → Val × Flags) : VOp :=
  { d := .vec, a := .vec, b := .vec, rnd := true, scal := true, tile := true, fmt := same fp4,
    run := mapVec fun v o i => o.fin (f o (o.aVal v i) (o.bVal v i)) }

def fpFma (f : OpW → Val → Val → Val → Val × Flags) : VOp :=
  { d := .vec, a := .vec, b := .vec, c := true, rnd := true, scal := true, tile := true, fmt := same fp4,
    run := mapVec fun v o i => o.fin (f o (o.aVal v i) (o.bVal v i) (o.cVal v i)) }

def vFadd : VOp := fpBin fun o a b => a.add o.rm b
def vFsub : VOp := fpBin fun o a b => a.add o.rm b.neg
def vFmul : VOp := fpBin fun _ a b => a.mul b
def vFma : VOp := fpFma fun o a b c => a.fma o.rm b c
def vFnma : VOp := fpFma fun o a b c => a.neg.fma o.rm b c

/-- FMIN and FMAX on bits (R150). -/
def fMinMax (max : Bool) (f : Nat) (x y : BitVec 128) : BitVec 128 × Flags :=
  let a := valOf f x
  let b := valOf f y
  if a.isNan || b.isNan then ((convert f 0 false (.nan false)).1, flagIf (a.isSig || b.isSig) fInvalid)
  else (if (if max then a.lt true b else b.lt true a) then y else x, 0)

def fpMm (max : Bool) : VOp :=
  { d := .vec, a := .vec, b := .vec, scal := true, tile := true, fmt := same fp4,
    run := mapVec fun v o i => let (x, f) := fMinMax max o.fa (v.el o.va o.fa i) (o.bAt v i); (x, f, 0) }

def vFmin : VOp := fpMm false
def vFmax : VOp := fpMm true

/-- FNEG and FABS act on the sign bit; a NaN becomes the canonical NaN. -/
def fpSign (f : Nat → BitVec 128 → BitVec 128) : VOp :=
  { d := .vec, a := .vec, fmt := same fp4,
    run := mapVec fun v o i =>
      let x := v.el o.va o.fa i
      let a := valOf o.fa x
      if a.isNan then ((convert o.fa 0 false (.nan false)).1, flagIf a.isSig fInvalid, 0) else (f (fmtBits o.fa - 1) x, 0, 0) }

def vFneg : VOp := fpSign fun k x => x ^^^ (1#128 <<< k)
def vFabs : VOp := fpSign fun k x => x &&& ~~~(1#128 <<< k)

/-- Conditions of FCMP (R150). -/
def fcmpCond (k : Nat) (a b : Val) : Bool × Flags :=
  let nan := a.isNan || b.isNan
  let inv := flagIf (if 2 ≤ k && k ≤ 5 then nan else a.isSig || b.isSig) fInvalid
  let lt := a.lt false b
  let gt := b.lt false a
  let eq := a.eqv b
  (match k with
   | 0 => eq
   | 1 => !eq
   | 2 => lt
   | 3 => lt || eq
   | 4 => gt
   | 5 => gt || eq
   | 6 => nan
   | _ => !nan, inv)

def vFcmp : VOp :=
  { d := .mask, a := .vec, b := .vec, code := true, scal := true, tile := true, fmt := same fp4, ok := fun o => o.vc < 8,
    run := mapMask fun v o i => fcmpCond o.vc (o.aVal v i) (o.bVal v i) }

def vCvt : VOp :=
  { d := .vec, a := .vec, rnd := true, fmt := two anyF anyF, run := mapVec fun v o i => o.fin (o.aVal v i, 0) }

/-- A result that is not a dyadic number: its leading bits and whether more follow. -/
def OpW.finSticky (o : OpW) (r : Val × Bool × Flags) : El :=
  let (x, f) := convert o.fd o.rm o.sat r.1 r.2.1
  (x, r.2.2 ||| f, 0)

def vFdiv : VOp :=
  { d := .vec, a := .vec, b := .vec, rnd := true, scal := true, tile := true, fmt := same fp4,
    run := mapVec fun v o i => o.finSticky ((o.aVal v i).div (o.bVal v i)) }

def vFsqrt : VOp :=
  { d := .vec, a := .vec, rnd := true, fmt := same fp4, run := mapVec fun v o i => o.finSticky (o.aVal v i).sqrt }

def refOp (f : RefFn) : VOp :=
  { d := .vec, a := .vec, rnd := true, fmt := two (fun x => 1 ≤ x && x ≤ 3) (fun x => 1 ≤ x && x ≤ 3),
    run := mapVec fun v o i => o.fin (refEval f (o.aVal v i)) }

def vRcp : VOp := refOp .rcp
def vRsqrt : VOp := refOp .rsqrt
def vExp2 : VOp := refOp .exp2
def vLog2 : VOp := refOp .log2

def vWmul : VOp :=
  { d := .vec, a := .vec, b := .vec, rnd := true, scal := true, fmt := wideF,
    run := mapVec fun v o i => o.fin ((o.aVal v i).mul (o.bVal v i)) }

def vWfma : VOp :=
  { d := .vec, a := .vec, b := .vec, c := true, rnd := true, scal := true, fmt := wideF,
    run := mapVec fun v o i => o.fin ((o.aVal v i).fma o.rm (o.bVal v i) (o.cVal v i)) }

/-- Terms of an XDOT group added in ascending order (R151). -/
def dotGo (o : OpW) (v : Vec) : Nat → Nat → BitVec 128 × Flags → BitVec 128 × Flags
  | 0, _, r => r
  | k + 1, i, (x, f) =>
    let (p, f1) := (o.aVal v i).mul (o.bVal v i)
    let (t, f2) := xaTerm p
    let (y, f3) := xaAdd x t
    dotGo o v k (i + 1) (y, f ||| f1 ||| f2 ||| f3)

/-- Group size of XDOT. -/
def OpW.group (o : OpW) : Nat := o.sa.toNat

/-- Words that a dot product reads: element j of c and group j of a and b, for every active j. -/
def groupReads (g : OpW → Nat) (v : Vec) (o : OpW) : List Nat :=
  o.maskWords ++ (o.actives v (o.vl / g o)).flatMap fun j =>
    regWords o.vc o.fd j ++ (from_ (j * g o) (g o)).flatMap fun i => regWords o.va o.fa i ++ o.bWords i

def vXdot : VOp :=
  { d := .vec, a := .vec, b := .vec, c := true, scal := true,
    fmt := two (fun f => 2 ≤ f && f ≤ 10) (fun f => f = 13),
    dst := fun o => o.vl / o.group,
    ok := fun o => 1 ≤ o.group && o.group ≤ 8192 && 2 ^ o.group.log2 = o.group && o.vl % o.group = 0 && o.vl / o.group ≤ 512,
    reads := some (groupReads OpW.group)
    run := mapVec
      (fun v o j =>
        let (x, f) := dotGo o v o.group (j * o.group) (v.el o.vc 13 j, 0)
        (x, f, o.group))
      (fun o => o.vl / o.group) }

/-! ## MX helpers (R164) -/

/-- Largest exponent of an MX element format. -/
def mxEmax : Nat → Int
  | 4 => 15
  | 5 => 8
  | 6 => 4
  | 7 => 2
  | _ => 0

def mxF (f : Nat) : Bool := 4 ≤ f && f ≤ 8

/-- Exponent of the largest magnitude of a block: none when it holds a NaN or infinity, some none when every element is zero. -/
def blockExp : List Val → Option (Option Int)
  | [] => some none
  | x :: xs =>
    match x, blockExp xs with
    | .fin _ m e, some r =>
      if m = 0 then some r
      else match r with
        | some k => some (some (max k (e + m.log2)))
        | none => some (some (e + m.log2))
    | _, _ => none

/-- Scale of a block. -/
def mxScale (fd : Nat) (xs : List Val) : Nat :=
  match blockExp xs with
  | none => 0xFF
  | some none => 0
  | some (some k) => (min 254 (max 0 (k - mxEmax fd + 127))).toNat

/-- Elements of block `b` below VL. -/
def OpW.block (o : OpW) (b : Nat) : List Nat := from_ (32 * b) (min 32 (o.vl - 32 * b))

def vMxscale : VOp :=
  { d := .vec, a := .vec, feat := some 11, fmt := two (fun f => 1 ≤ f && f ≤ 3) mxF, dst := fun o => cdiv o.vl 32,
    reads := some fun v o =>
      o.maskWords ++ (((List.range (cdiv o.vl 32)).filter (o.active v)).flatMap o.block).flatMap (regWords o.va o.fa)
    run := fun c o s =>
      let v := (s.core c).vec
      mapGo c o v (Vec.setEl o.vd 8)
        (fun b =>
          let xs := (o.block b).map (o.aVal v)
          (BitVec.ofNat 128 (mxScale o.fd xs), flagIf (xs.any Val.isSig) fInvalid, 0)) (cdiv o.vl 32) 0 s }

def vMxquant : VOp :=
  { d := .vec, a := .vec, b := .aux, rnd := true, feat := some 11, fmt := two (fun f => 1 ≤ f && f ≤ 3) mxF,
    reads := some fun v o =>
      o.maskWords ++ (o.actives v o.vl).flatMap fun i => regWords o.va o.fa i ++ regWords o.vb 8 (i / 32)
    run := mapVec fun v o i =>
      let x := (v.el o.vb 8 (i / 32)).toNat
      let a := if x = 0xFF then .nan (o.aVal v i).isSig else (o.aVal v i).scale (127 - (x : Int) + (if o.fd = 8 then 6 else 0))
      o.fin (a, 0) }

/-! ## Integer and logic (R149 to R151) -/

/-- The container's value, signed. -/
def sInt (f : Nat) (x : BitVec 128) : Int := (BitVec.ofNat (fmtBits f) x.toNat).toInt

def intEl (f : Nat) (i : Int) : El := (BitVec.ofNat 128 (BitVec.ofInt (fmtBits f) i).toNat, 0, 0)

def intBin (fmt : Nat → Bool) (f : Nat → BitVec 128 → BitVec 128 → Int) : VOp :=
  { d := .vec, a := .vec, b := .vec, scal := true, tile := true, fmt := same fmt,
    run := mapVec fun v o i => intEl o.fa (f o.fa (v.el o.va o.fa i) (o.bAt v i)) }

def vIadd : VOp := intBin intF fun _ a b => a.toNat + b.toNat
def vIsub : VOp := intBin intF fun _ a b => (a.toNat : Int) - b.toNat
def vImul : VOp := intBin intF fun _ a b => a.toNat * b.toNat
def vImin : VOp := intBin intF fun f a b => min (sInt f a) (sInt f b)
def vImax : VOp := intBin intF fun f a b => max (sInt f a) (sInt f b)
def vIminu : VOp := intBin intF fun _ a b => min a.toNat b.toNat
def vImaxu : VOp := intBin intF fun _ a b => max a.toNat b.toNat
def vAnd : VOp := intBin anyF fun _ a b => (a &&& b).toNat
def vOr : VOp := intBin anyF fun _ a b => (a ||| b).toNat
def vXor : VOp := intBin anyF fun _ a b => (a ^^^ b).toNat
def vShl : VOp := intBin intF fun f a b => a.toNat <<< (b.toNat % fmtBits f)
def vShr : VOp := intBin intF fun f a b => a.toNat >>> (b.toNat % fmtBits f)
def vSra : VOp := intBin intF fun f a b => sInt f a >>> (b.toNat % fmtBits f)

/-- Conditions of ICMP (R150). -/
def icmpCond (k f : Nat) (a b : BitVec 128) : Bool :=
  match k with
  | 0 => a == b
  | 1 => a != b
  | 2 => sInt f a < sInt f b
  | 3 => sInt f a ≤ sInt f b
  | 4 => a.toNat < b.toNat
  | _ => a.toNat ≤ b.toNat

def vIcmp : VOp :=
  { d := .mask, a := .vec, b := .vec, code := true, scal := true, tile := true, fmt := same intF, ok := fun o => o.vc < 6,
    run := mapMask fun v o i => (icmpCond o.vc o.fa (v.el o.va o.fa i) (o.bAt v i), 0) }

def popBits (w x : Nat) : Nat := (List.range w).foldl (fun a i => a + b2n (x.testBit i)) 0

def vPopc : VOp :=
  { d := .vec, a := .vec, fmt := same intF, run := mapVec fun v o i => intEl o.fa (popBits (fmtBits o.fa) (v.el o.va o.fa i).toNat) }

def vIdot4 : VOp :=
  { d := .vec, a := .vec, b := .vec, c := true, scal := true, fmt := pairIn [(8, 11), (9, 11), (10, 12)],
    dst := fun o => o.vl / 4, ok := fun o => o.vl % 4 = 0, reads := some (groupReads fun _ => 4),
    run := mapVec
      (fun v o j => intEl o.fd ((from_ (4 * j) 4).foldl
        (fun t i => t + sInt o.fa (v.el o.va o.fa i) * sInt o.fa (o.bAt v i)) (v.el o.vc o.fd j).toNat))
      (fun o => o.vl / 4) }

def vXadd : VOp :=
  { d := .vec, a := .vec, b := .vec, scal := true, tile := true, fmt := same fun f => f = 13,
    run := mapVec fun v o i => let (x, f) := xaAdd (v.el o.va 13 i) (o.bAt v i); (x, f, 1) }

def vVset : VOp := { d := .vec, fmt := same noXa, run := mapVec fun _ o _ => (o.sa.setWidth 128, 0, 0) }
def vIota : VOp := { d := .vec, fmt := same intF, run := mapVec fun _ o i => intEl o.fd i }
def vVmov : VOp := { d := .vec, a := .vec, fmt := same anyF, run := mapVec fun v o i => (v.el o.va o.fa i, 0, 0) }

def vIwmul : VOp :=
  { d := .vec, a := .vec, b := .vec, scal := true, fmt := pairIn [(8, 10), (10, 11), (11, 12)],
    run := mapVec fun v o i => intEl o.fd (sInt o.fa (v.el o.va o.fa i) * sInt o.fa (o.bAt v i)) }

/-! ## Permutation (R149, R154) -/

/-- Indices below VL that the mask selects, in ascending order. -/
def OpW.selected (o : OpW) (v : Vec) : List Nat := (List.range o.vl).filter (v.mbit o.mreg)

/-- Write elements `i`, `i + 1`, … of VD. -/
def putEls (r f : Nat) : Nat → List (BitVec 128) → Vec → Vec
  | _, [], v => v
  | i, x :: xs, v => putEls r f (i + 1) xs (v.setEl r f i x)

/-- Words that an operation reads which takes element `src i` of a, where there is one, for active element i. -/
def srcReads (src : Vec → OpW → Nat → Option Nat) (v : Vec) (o : OpW) : List Nat :=
  o.maskWords ++ ((o.actives v o.vl).filterMap (src v o)).flatMap (regWords o.va o.fa)

/-- An element number below VL. -/
def OpW.below (o : OpW) (i : Nat) : Option Nat := if i < o.vl then some i else none

def vCompress : VOp :=
  { d := .vec, a := .vec, fmt := same anyF, scalar := true, ok := fun o => o.men && o.vd != o.va,
    reads := some (srcReads fun _ _ i => some i)
    run := fun c o s =>
      let v := (s.core c).vec
      let xs := (o.selected v).map (v.el o.va o.fa)
      let s := s.onVec c (putEls o.vd o.fd 0 xs)
      let s := if o.mzero then s.onVec c (putEls o.vd o.fd xs.length (List.replicate (o.vl - xs.length) 0)) else s
      (s.vres c o xs.length, none) }

def vExpand : VOp :=
  { d := .vec, a := .vec, fmt := same anyF, ok := fun o => o.men && o.vd != o.va,
    reads := some (srcReads fun v o i => some (((List.range i).filter (v.mbit o.mreg)).length))
    run := mapVec fun v o i => (v.el o.va o.fa ((List.range i).filter (v.mbit o.mreg)).length, 0, 0) }

/-- An index of VPERM: the unsigned integer in b's container, or in SB. -/
def OpW.permIdx (o : OpW) (v : Vec) (i : Nat) : Nat :=
  if o.scal then o.sb.toNat % 2 ^ (8 * container o.fa) else v.raw o.vb o.fa i

def vVperm : VOp :=
  { d := .vec, a := .vec, b := .vec, scal := true, fmt := same noXa,
    reads := some fun v o => (o.actives v o.vl).flatMap o.bWords ++ srcReads (fun v o i => o.below (o.permIdx v i)) v o
    run := mapVec fun v o i => let k := o.permIdx v i; (if k < o.vl then v.el o.va o.fa k else 0, 0, 0) }

def vSlideup : VOp :=
  { d := .vec, a := .vec, fmt := same anyF,
    reads := some (srcReads fun _ o i => if o.sa.toNat ≤ i then some (i - o.sa.toNat) else none)
    run := fun c o s =>
      let v := (s.core c).vec
      let k := min o.sa.toNat o.vl
      mapGo c o v (Vec.setEl o.vd o.fd) (fun i => (v.el o.va o.fa (i - k), 0, 0)) (o.vl - k) k s }

def vSlidedn : VOp :=
  { d := .vec, a := .vec, fmt := same anyF,
    reads := some (srcReads fun _ o i => o.below (i + o.sa.toNat))
    run := mapVec fun v o i => (if i + o.sa.toNat < o.vl then v.el o.va o.fa (i + o.sa.toNat) else 0, 0, 0) }

/-- Free values for the active elements. -/
def freeGo (c : Nat) (o : OpW) (v : Vec) : Nat → Nat → State → State
  | 0, _, s => s
  | k + 1, i, s =>
    if o.active v i then
      let (x, s) := s.fresh
      freeGo c o v k (i + 1) (s.onVec c (Vec.setEl o.vd o.fd i (x.setWidth 128)))
    else freeGo c o v k (i + 1) (if o.mzero then s.onVec c (Vec.setEl o.vd o.fd i 0) else s)

/-- The source element of element `i` of a transpose: i is (column, row) of a. -/
def OpW.transIdx (o : OpW) (i : Nat) : Nat := let r := o.vl / o.cols; i % r * o.cols + i / r

/-- A column count that does not divide VL has no stated transpose: its elements are free values (log entry 11). -/
def vTranspose : VOp :=
  { d := .vec, a := .vec, fmt := same noXa,
    reads := some (srcReads fun _ o i => o.below (o.transIdx i))
    run := fun c o s =>
      let v := (s.core c).vec
      if o.cols = 0 || o.vl % o.cols != 0 then (freeGo c o v o.vl 0 s, none)
      else mapVec (fun v o i => (v.el o.va o.fa (o.transIdx i), 0, 0)) (fun o => o.vl) c o s }

def vExtract : VOp :=
  { a := .vec, msk := false, fmt := same anyF, scalar := true,
    reads := some fun _ o => if o.sa.toNat < o.vl then regWords o.va o.fa o.sa.toNat else []
    run := fun c o s =>
      let v := (s.core c).vec
      let x := (v.el o.va o.fa o.sa.toNat).toNat
      let x := if o.fa = 13 && o.sb.getLsbD 0 then x / 2 ^ 64 else x
      (s.vres c o (if o.sa.toNat < o.vl then x else 0), none) }

/-- Element SB is the one destination element: written when active, zeroed under MZERO when not (R148). -/
def vInsert : VOp :=
  { d := .vec, fmt := same noXa,
    run := fun c o s =>
      let v := (s.core c).vec
      let i := o.sb.toNat
      let x := if o.active v i then o.sa.setWidth 128 else 0
      (if i < o.vl && (o.active v i || o.mzero) then s.onVec c (Vec.setEl o.vd o.fd i x) else s, none) }

/-! ## Reductions (R152) -/

/-- Combine neighbouring entries; an absent entry passes its partner on. -/
def pairUp (c : Nat) (f : BitVec 128 → BitVec 128 → El) : List (Option (BitVec 128)) → State → State × Option (List (Option (BitVec 128)))
  | [], s => (s, some [])
  | [x], s => (s, some [x])
  | x :: y :: l, s =>
    let (s, r) := match x, y with
      | some a, some b =>
        let (z, fl, n) := f a b
        let (s, hit) := s.residue c n
        if hit then (s, none) else (s.vecFlags c fl, some (some z))
      | none, y => (s, some y)
      | x, none => (s, some x)
    match r with
    | none => (s, none)
    | some z =>
      match pairUp c f l s with
      | (s, some zs) => (s, some (z :: zs))
      | (s, none) => (s, none)

/-- The whole tree. Entries of a register at or above VL are absent, so the tree over the entries below VL combines the same pairs. -/
def tree (c : Nat) (f : BitVec 128 → BitVec 128 → El) : Nat → List (Option (BitVec 128)) → State → State × Option (Option (BitVec 128))
  | 0, l, s => (s, some (l.head?.getD none))
  | k + 1, l, s =>
    match pairUp c f l s with
    | (s, some l) => tree c f k l s
    | (s, none) => (s, none)

/-- An element as it enters a floating-point tree: a NaN becomes the canonical NaN, a signalling one with INVALID (R68, R69). -/
def fpLeaf (o : OpW) (x : BitVec 128) : BitVec 128 × Flags :=
  let a := valOf o.fa x
  if a.isNan then ((convert o.fa 0 false (.nan false)).1, flagIf a.isSig fInvalid) else (x, 0)

def reduceOp (fmt : Nat → Nat → Bool) (rnd scalar : Bool) (leaf : OpW → BitVec 128 → BitVec 128 × Flags)
    (f : OpW → BitVec 128 → BitVec 128 → El) (ident : OpW → BitVec 128) : VOp :=
  { d := .vec, a := .vec, rnd := rnd, fmt := fmt, dst := fun _ => 1, scalar := scalar,
    run := fun c o s =>
      let v := (s.core c).vec
      if o.vl = 0 then (if scalar then s.vres c o (ident o).toNat else s, none)
      else
        let leaves := (List.range o.vl).map fun i => if o.active v i then some (leaf o (v.el o.va o.fa i)) else none
        let s := s.vecFlags c (leaves.foldl (fun fl x => fl ||| (x.map (·.2)).getD 0) 0)
        match tree c (f o) 14 (leaves.map fun x => x.map (·.1)) s with
        | (s, none) => (s, some residueErr)
        | (s, some r) =>
          let x := r.getD (ident o)
          let s := s.onVec c (Vec.setEl o.vd o.fd 0 x)
          (if scalar then s.vres c o x.toNat else s, none) }

def infOf (f : Nat) (neg : Bool) : BitVec 128 := (convert f 0 false (.inf neg)).1

def vFredsum : VOp :=
  reduceOp (same fp4) true true fpLeaf (fun o a b => o.fin ((valOf o.fa a).add o.rm (valOf o.fa b))) fun _ => 0
def vFredmin : VOp :=
  reduceOp (same fp4) false true fpLeaf (fun o a b => let (x, f) := fMinMax false o.fa a b; (x, f, 0)) fun o => infOf o.fa false
def vFredmax : VOp :=
  reduceOp (same fp4) false true fpLeaf (fun o a b => let (x, f) := fMinMax true o.fa a b; (x, f, 0)) fun o => infOf o.fa true
def vIredsum : VOp :=
  reduceOp (fun fa fd => intF fa && (fd = fa || fd = 12)) false true (fun o x => ((intEl o.fd (sInt o.fa x)).1, 0))
    (fun o a b => intEl o.fd (a.toNat + b.toNat)) fun _ => 0
def vXredsum : VOp :=
  reduceOp (same fun f => f = 13) false false (fun _ x => (x, 0)) (fun _ a b => let (x, f) := xaAdd a b; (x, f, 1)) fun _ => 0

/-! ## Masks and flags (R149, R153) -/

def maskBin (b : Role) (f : Bool → Bool → Bool) : VOp :=
  { d := .mask, a := .mask, b := b, fmt := noFmt, run := mapMask fun v o i => (f (v.mbit o.va i) (v.mbit o.vb i), 0) }

def vMand : VOp := maskBin .mask fun x y => x && y
def vMor : VOp := maskBin .mask fun x y => x || y
def vMxor : VOp := maskBin .mask fun x y => x != y
def vMandn : VOp := maskBin .mask fun x y => x && !y
def vMnot : VOp := maskBin .no fun x _ => !x
def vMset : VOp := { d := .mask, fmt := noFmt, run := mapMask fun _ _ _ => (true, 0) }

def vMpopc : VOp :=
  { a := .mask, msk := false, fmt := noFmt, scalar := true,
    run := fun c o s => (s.vres c o ((List.range o.vl).filter ((s.core c).vec.mbit o.va)).length, none) }

def vMfirst : VOp :=
  { a := .mask, msk := false, fmt := noFmt, scalar := true,
    run := fun c o s => (s.vres c o (((List.range o.vl).find? ((s.core c).vec.mbit o.va)).getD (2 ^ 64 - 1)), none) }

def vRdflags : VOp :=
  { msk := false, useVl := false, fmt := noFmt, scalar := true,
    run := fun c o s =>
      let s := s.vres c o (s.core c).vec.flags.toNat
      (if o.sa.getLsbD 0 then s.onVec c fun v => { v with flags := 0 } else s, none) }

end Sys2Proof.Machine
end

