-- ==== Sys2Proof/Machine/Vector.lean ====
section
/-!
DEFINITION. The vector engine's memory operations, tensor slots and loops, the start and completion of op words, and memory-side adds
into guarded cells (R142, R146, R153, R156 to R163, R167).
-/

namespace Sys2Proof.Machine

/-! ## Addresses (R156) -/

/-- One checked access: number of the element, group or record field, its lowest active element, and its virtual address; physical
address and key slot, and those of its further bytes where it crosses from one extent into the next. -/
structure MAcc where
  i    : Nat
  el   : Nat
  va   : Nat
  pa   : Nat
  key  : BitVec 10
  more : List (Nat × BitVec 10) := []
  deriving DecidableEq, Repr

def State.vecEng (s : State) (c : Nat) (o : OpW) : Eng := { src := c, agent := 128 + c, ctx := s.runCtx c, ring := o.ring }

/-- An address modulo 2^64. -/
def vaOf (base : Word) (k : Int) : Nat := (BitVec.ofInt 64 (base.toNat + k)).toNat

/-- Element size in memory of a format: the container. -/
def alignedTo (es : Nat) (o : OpW) : Bool := o.sa.toNat % es = 0 && o.sb.toNat % es = 0

/-- A signed stride: SB, or a default when SB is 0. -/
def OpW.stride (o : OpW) (dflt : Nat) : Int := if o.sb = 0 then dflt else o.sb.toInt

/-- One access checked for every kind it makes: where it lies, or the cause it fails with. -/
def State.vecPlace (s : State) (e : Eng) (va n : Nat) : List Acc → (Nat × BitVec 10 × Nat) ⊕ (Byte × Gate × Nat)
  | [] => .inr (7, .ok, 0)
  | a :: l =>
    match s.xl e.ctx e.ring a va n with
    | .miss => .inr (8, .ok, 0)
    | .perm => .inr (7, .ok, 0)
    | .ok pa key idx =>
      if zone pa n = .mmio || zone pa n = .host then .inr (7, .ok, 0)
      else if !l.isEmpty then s.vecPlace e va n l
      else
        match s.gate (s.who e key) pa n with
        | .ok => .inl (pa, key, idx)
        | g => .inr (7, g, pa)

/-- Bytes placed one by one, from `va` on: an access may lie in adjacent extents (R156). -/
def State.vecBytes (s : State) (e : Eng) (accs : List Acc) : Nat → Nat → List (Nat × BitVec 10 × Nat) ⊕ (Byte × Gate × Nat)
  | _, 0 => .inl []
  | va, n + 1 =>
    match s.vecPlace e va 1 accs with
    | .inr x => .inr x
    | .inl p =>
      match s.vecBytes e accs (va + 1) n with
      | .inl ps => .inl (p :: ps)
      | .inr x => .inr x

/-- An access checked: its one place, or the places of its bytes. Only a group of E3M2 elements, 3 bytes at any address, can lie in two
extents. -/
def State.vecPlaces (s : State) (e : Eng) (va n : Nat) (accs : List Acc) : List (Nat × BitVec 10 × Nat) ⊕ (Byte × Gate × Nat) :=
  match s.vecPlace e va n accs with
  | .inl p => .inl [p]
  | .inr x => if n = 3 then s.vecBytes e accs va n else .inr x

/-- Check every access in ascending element order, before any is made; the lowest failing one is the item error. An access is given by
its number, its lowest active element and its address. -/
def State.vecCheck (c : Nat) (o : OpW) (accs : List Acc) (n : Nat) : List (Nat × Nat × Nat) → State → State × (List MAcc ⊕ VErr)
  | [], s => (s, .inl [])
  | (i, el, va) :: l, s =>
    let e := s.vecEng c o
    match s.vecPlaces e va n accs with
    | .inr (cause, g, pa) => (s.refuse { src := c, ctx := some e.ctx } g pa, .inr { cause := cause, addr := va, elem := el })
    | .inl [] => (s, .inr { cause := 7, addr := va, elem := el })
    | .inl ((pa, key, idx) :: ps) =>
      let s := ps.foldl (fun s p => s.touch e.agent e.ctx p.2.2) (s.touch e.agent e.ctx idx)
      match State.vecCheck c o accs n l s with
      | (s, .inl ms) => (s, .inl (⟨i, el, va, pa, key, ps.map fun p => (p.1, p.2.1)⟩ :: ms))
      | (s, .inr err) => (s, .inr err)

/-- Read one access of `n` bytes. -/
def State.accRd (s : State) (c : Nat) (o : OpW) (m : MAcc) (n : Nat) : State × Rd :=
  let e := s.vecEng c o
  let (s, r) := s.memRd (s.who e m.key) m.pa (if m.more.isEmpty then n else 1)
  m.more.foldl (fun (x : State × Rd) p =>
    let (s, r) := x.1.memRd (x.1.who e p.2) p.1 1
    (s, ⟨x.2.data ++ r.data, x.2.bad <|> r.bad, x.2.err || r.err⟩)) (s, r)

/-- Read every access. Poison is an item error that writes nothing (R215). -/
def State.vecRead (c : Nat) (o : OpW) (n : Nat) : List MAcc → State → State × (List (MAcc × Bytes) ⊕ VErr)
  | [], s => (s, .inl [])
  | m :: l, s =>
    let (s, r) := s.accRd c o m n
    if r.bad.isSome then (s, .inr { cause := 0x15, addr := m.va, elem := m.el })
    else if r.err then (s, .inr { cause := 7, addr := m.va, elem := m.el })
    else
      match State.vecRead c o n l s with
      | (s, .inl ds) => (s, .inl ((m, r.data) :: ds))
      | (s, .inr err) => (s, .inr err)

/-- Write one access. -/
def State.accWr (s : State) (c : Nat) (o : OpW) (m : MAcc) (bs : Bytes) : State :=
  let e := s.vecEng c o
  let s := (s.memWr (s.who e m.key) m.pa (if m.more.isEmpty then bs else bs.take 1)).1
  (m.more.zip (bs.drop 1)).foldl (fun s p => (s.memWr (s.who e p.1.2) p.1.1 [p.2]).1) s

/-- Write in list order. -/
def State.vecWrite (c : Nat) (o : OpW) : List (MAcc × Bytes) → State → State
  | [], s => s
  | (m, bs) :: l, s => State.vecWrite c o l (s.accWr c o m bs)

/-- Accesses of the active elements below VL at their addresses. -/
def OpW.each (o : OpW) (v : Vec) (addr : Nat → Nat) : List (Nat × Nat × Nat) := (o.actives v o.vl).map fun i => (i, i, addr i)

/-- Packing groups below `n` that hold an active element (R70); a group is one element of a format of whole bytes. -/
def OpW.groups (o : OpW) (v : Vec) (f n : Nat) : List Nat :=
  (List.range (n / groupLen f)).filter fun g => (from_ (groupLen f * g) (groupLen f)).any (o.active v)

/-- Accesses of those groups, each with its lowest active element. -/
def OpW.groupAccs (o : OpW) (v : Vec) (f n : Nat) (addr : Nat → Nat) : List (Nat × Nat × Nat) :=
  (o.groups v f n).map fun g => (g, ((from_ (groupLen f * g) (groupLen f)).find? (o.active v)).getD 0, addr g)

/-- Load elements of format `f` below `n` into VD; `addr` gives the address of a group. -/
def loadEls (f n : Nat) (addr : Nat → Nat) (c : Nat) (o : OpW) (s : State) : State × Option VErr :=
  let v := (s.core c).vec
  match s.vecCheck c o [.rd] (groupBytes f) (o.groupAccs v f n addr) with
  | (s, .inr e) => (s, some e)
  | (s, .inl ms) =>
    match s.vecRead c o (groupBytes f) ms with
    | (s, .inr e) => (s, some e)
    | (s, .inl ds) =>
      let vals : Map (BitVec 128) :=
        ds.flatMap fun d => (List.range (groupLen f)).map fun j => (d.1.i * groupLen f + j, unpackAt f d.2 j)
      mapGo c o v (Vec.setEl o.vd f) (fun i => (vals.look i 0, 0, 0)) n 0 s

/-- The bytes a store puts at each access: whole groups, or a partly active group merged with what memory holds. -/
def storeData (f : Nat) (c : Nat) (o : OpW) (v : Vec) : List MAcc → State → State × (List (MAcc × Bytes) ⊕ VErr)
  | [], s => (s, .inl [])
  | m :: l, s =>
    let gl := groupLen f
    let is := from_ (gl * m.i) gl
    let whole := is.all (o.active v)
    match if whole then (s, .inl [(m, [])]) else s.vecRead c o (groupBytes f) [m] with
    | (s, .inr e) => (s, .inr e)
    | (s, .inl old) =>
      let ob := (old.head?.map (·.2)).getD []
      let xs := (List.range gl).map fun j =>
        if o.active v (gl * m.i + j) then v.el o.va f (gl * m.i + j) else unpackAt f ob j
      match storeData f c o v l s with
      | (s, .inl ds) => (s, .inl ((m, pack f xs) :: ds))
      | (s, .inr e) => (s, .inr e)

/-- Store elements of VA of format `f` below `n`. -/
def storeEls (f n : Nat) (addr : Nat → Nat) (c : Nat) (o : OpW) (s : State) : State × Option VErr :=
  let v := (s.core c).vec
  match s.vecCheck c o [.wr] (groupBytes f) (o.groupAccs v f n addr) with
  | (s, .inr e) => (s, some e)
  | (s, .inl ms) =>
    match storeData f c o v ms s with
    | (s, .inr e) => (s, some e)
    | (s, .inl ds) => (s.vecWrite c o ds, none)

/-! ## Strided and indexed operations (Table 6.6) -/

/-- SA of a sub-byte format starts a packing group: an E3M2 group starts at a multiple of 3 (R70, R156). -/
def unitOk (o : OpW) : Bool :=
  if subByte o.fa then o.sb = 0 && o.vl % groupLen o.fa = 0 && o.sa.toNat % groupBytes o.fa = 0 else alignedTo (container o.fa) o

def vVld : VOp :=
  { d := .vec, fmt := same anyF, ok := unitOk,
    run := fun c o s => loadEls o.fa o.vl (fun g => vaOf o.sa (g * o.stride (groupBytes o.fa))) c o s }

def vVst : VOp :=
  { a := .vec, fmt := same anyF, ok := unitOk,
    run := fun c o s => storeEls o.fa o.vl (fun g => vaOf o.sa (g * o.stride (groupBytes o.fa))) c o s }

def idxFmt : Nat → Nat → Bool := two (fun f => f = 11 || f = 12) fun f => f < 14 && !subByte f

/-- Address of an indexed element: SA + a_i × SB, a_i signed. -/
def OpW.idxAddr (o : OpW) (v : Vec) (i : Nat) : Nat := vaOf o.sa (sInt o.fa (v.el o.va o.fa i) * o.sb.toInt)

def vVgather : VOp :=
  { d := .vec, a := .vec, fmt := idxFmt, ok := fun o => alignedTo (container o.fd) o,
    run := fun c o s => loadEls o.fd o.vl (o.idxAddr (s.core c).vec) c o s }

/-- Words that a scatter reads: an index and a data element for each active one. -/
def scatReads (v : Vec) (o : OpW) : List Nat :=
  o.maskWords ++ (o.actives v o.vl).flatMap fun i => regWords o.va o.fa i ++ regWords o.vb o.fd i

def vVscatter : VOp :=
  { a := .vec, b := .aux, fmt := idxFmt, reads := some scatReads, ok := fun o => alignedTo (container o.fd) o && o.vl ≤ capOf o.fd,
    run := fun c o s =>
      let v := (s.core c).vec
      match s.vecCheck c o [.wr] (container o.fd) (o.each v (o.idxAddr v)) with
      | (s, .inr e) => (s, some e)
      | (s, .inl ms) => (s.vecWrite c o (ms.map fun m => (m, leBytes (container o.fd) (v.el o.vb o.fd m.i).toNat)), none) }

/-- Targets of VSCATADD (Table 6.7). -/
def scatOk (tgt fd : Nat) : Bool :=
  match tgt with
  | 11 => intF fd
  | 12 => intF fd
  | 13 => anyF fd
  | 1 => fd = 1
  | 0 => fd = 0 || fd = 1
  | _ => false

/-- One combine of Table 6.7: the memory value and the data element. -/
def scatCombine (o : OpW) (m x : BitVec 128) : El :=
  match o.vc with
  | 13 =>
    let (t, f) := toXa 0 (valOf o.fd x)
    let (y, g) := xaAdd m t
    (y, f ||| g, 1)
  | 0 => let (r, f) := (valOf 0 m).add o.rm (valOf o.fd x); let (y, g) := convert 0 o.rm o.sat r; (y, f ||| g, 0)
  | 1 => let (r, f) := (valOf 1 m).add o.rm (valOf o.fd x); let (y, g) := convert 1 o.rm o.sat r; (y, f ||| g, 0)
  | k => intEl k (m.toNat + sInt o.fd x)

/-- Elements combined in ascending order, each with memory as the lower elements left it; `cur` holds the values by address. -/
def scatGo (c : Nat) (o : OpW) (v : Vec) : List MAcc → Map (BitVec 128) → State → State × Option VErr
  | [], _, s => (s, none)
  | m :: l, cur, s =>
    let (y, f, n) := scatCombine o (cur.look m.pa 0) (v.el o.vb o.fd m.i)
    let (s, hit) := s.residue c n
    if hit then (s, some residueErr)
    else scatGo c o v l (cur.set m.pa y) ((s.vecWrite c o [(m, leBytes (container o.vc) y.toNat)]).vecFlags c f)

def vVscatadd : VOp :=
  { a := .vec, b := .aux, code := true, rnd := true, fmt := idxFmt, reads := some scatReads,
    ok := fun o => scatOk o.vc o.fd && alignedTo (container o.vc) o && o.vl ≤ capOf o.fd,
    run := fun c o s =>
      let v := (s.core c).vec
      match s.vecCheck c o [.rd, .wr] (container o.vc) (o.each v (o.idxAddr v)) with
      | (s, .inr e) => (s, some e)
      | (s, .inl ms) =>
        match s.vecRead c o (container o.vc) ms with
        | (s, .inr e) => (s, some e)
        | (s, .inl ds) =>
          scatGo c o v ms (ds.foldl (fun m d => m.set d.1.pa (BitVec.ofNat 128 (leNat d.2))) []) s }

/-- Conversions of VATADD in ascending order, and the requests they make (R159). -/
def vatGo (c : Nat) (o : OpW) (v : Vec) : List MAcc → State → State
  | [], s => s
  | m :: l, s =>
    let (x, f) := toXa 0 (valOf o.fd (v.el o.vb o.fd m.i))
    let q : CellAdd := { pa := m.pa, xa := x, key := m.key, ctx := s.runCtx c, item := o.idx }
    vatGo c o v l ((s.onCore c fun k => { k with cells := k.cells ++ [q] }).vecFlags c f)

def vVatadd : VOp :=
  { a := .vec, b := .aux, fmt := idxFmt, reads := some scatReads, ok := fun o => alignedTo 32 o && o.vl ≤ capOf o.fd,
    run := fun c o s =>
      let v := (s.core c).vec
      match s.vecCheck c o [.rd, .wr] 32 (o.each v (o.idxAddr v)) with
      | (s, .inr e) => (s, some e)
      | (s, .inl ms) => (vatGo c o v ms s, none) }

def vGld : VOp :=
  { d := .vec, fmt := same fun f => f = 13, ok := alignedTo 32,
    run := fun c o s =>
      let v := (s.core c).vec
      match s.vecCheck c o [.rd] 32 (o.each v fun i => vaOf o.sa (i * o.stride 32)) with
      | (s, .inr e) => (s, some e)
      | (s, .inl ms) =>
        match s.vecRead c o 32 ms with
        | (s, .inr e) => (s, some e)
        | (s, .inl ds) =>
          let vals : Map Guarded := ds.map fun d => (d.1.i, cellOf d.2)
          mapGo c o v (Vec.setEl o.vd 13) (fun i => let (x, f) := (vals.look i {}).narrow; (x, f, 0)) o.vl 0 s }

/-! ## Records (R161) -/

def OpW.fields (o : OpW) : Nat := 2 + o.vc % 4

def segOk (first : OpW → Nat) (o : OpW) : Bool :=
  o.vc % 4 != 3 && o.vc / 4 = 0 && first o + o.fields ≤ 32 && alignedTo (container o.fa) o

/-- Fields of the active records: number n × record + field, record, and address. -/
def OpW.records (o : OpW) (v : Vec) : List (Nat × Nat × Nat) :=
  (o.actives v o.vl).flatMap fun i => (List.range o.fields).map fun f =>
    (i * o.fields + f, i, vaOf o.sa (i * o.stride (o.fields * container o.fa) + f * container o.fa))

def vVldseg : VOp :=
  { d := .vec, code := true, feat := some 8, fmt := same fun f => f < 14 && !subByte f, ok := segOk (·.vd),
    run := fun c o s =>
      let v := (s.core c).vec
      match s.vecCheck c o [.rd] (container o.fa) (o.records v) with
      | (s, .inr e) => (s, some e)
      | (s, .inl ms) =>
        match s.vecRead c o (container o.fa) ms with
        | (s, .inr e) => (s, some e)
        | (s, .inl ds) =>
          let vals : Map (BitVec 128) := ds.map fun d => (d.1.i, BitVec.ofNat 128 (leNat d.2))
          ((List.range o.fields).foldl (fun s f =>
            (mapGo c o v (Vec.setEl (o.vd + f) o.fa) (fun i => (vals.look (i * o.fields + f) 0, 0, 0)) o.vl 0 s).1) s, none) }

def vVstseg : VOp :=
  { a := .vec, code := true, feat := some 8, fmt := same fun f => f < 14 && !subByte f, ok := segOk (·.va),
    reads := some fun v o =>
      o.maskWords ++ (o.actives v o.vl).flatMap fun i => (List.range o.fields).flatMap fun f => regWords (o.va + f) o.fa i
    run := fun c o s =>
      let v := (s.core c).vec
      match s.vecCheck c o [.wr] (container o.fa) (o.records v) with
      | (s, .inr e) => (s, some e)
      | (s, .inl ms) =>
        (s.vecWrite c o (ms.map fun m =>
          (m, leBytes (container o.fa) (v.el (o.va + m.i % o.fields) o.fa (m.i / o.fields)).toNat)), none) }

/-! ## Tensor slots (R162, Table 6.9) -/

def tFmt (d : Bytes) : Nat := fld d 8 1
def tDims (d : Bytes) : Nat := fld d 9 1
def tStr0 (d : Bytes) : Nat := fld d 10 2

/-- Size of a dimension; one at or above NDIM counts as 1. -/
def tSize (d : Bytes) (k : Nat) : Nat := if k < tDims d then fld d (16 + 4 * k) 4 else 1

/-- Byte stride of dimension `k` from 1 on. -/
def tStr (d : Bytes) (k : Nat) : Int := fldS d (36 + 6 * (k - 1)) 6

/-- The element count E. -/
def tCount (d : Bytes) : Nat := (List.range 5).foldl (fun a k => a * tSize d k) 1

/-- Address of the group that starts at tensor element `q`. -/
def tAddr (d : Bytes) (q : Nat) : Int :=
  let f := tFmt d
  let c0 := q % tSize d 0
  let a0 : Nat := if subByte f then c0 / groupLen f * groupBytes f else c0 * tStr0 d * container f
  let step := fun (p : Int × Nat) k => (p.1 + (p.2 % tSize d k : Nat) * tStr d k, p.2 / tSize d k)
  ((from_ 1 4).foldl step ((fld d 0 8 : Int) + a0, q / tSize d 0)).1

/-- Lowest address of the tensor, and the byte past its highest element. -/
def tSpan (d : Bytes) : Int × Int :=
  let f := tFmt d
  let w : Nat := if subByte f then tSize d 0 / groupLen f * groupBytes f else (tSize d 0 - 1) * tStr0 d * container f + container f
  (from_ 1 4).foldl
    (fun p k =>
      let x : Int := ((tSize d k : Int) - 1) * tStr d k
      (p.1 + min 0 x, p.2 + max 0 x)) ((fld d 0 8 : Int), (fld d 0 8 : Int) + w)

/-- A descriptor breaks Table 6.9. Every element address is aligned when BASE and the strides are: to the element size, or to the start
of a packing group (R70, R156). -/
def tBad (d : Bytes) : Bool :=
  let f := tFmt d
  14 ≤ f || tDims d = 0 || 5 < tDims d || tStr0 d = 0 || !zeroAt d 12 4 || !zeroAt d 60 4 ||
    (subByte f && (tStr0 d != 1 || tSize d 0 % groupLen f != 0)) ||
    (from_ (tDims d) (5 - tDims d)).any (fun k => !zeroAt d (16 + 4 * k) 4 || !zeroAt d (36 + 6 * (k - 1)) 6) ||
    2 ^ 48 ≤ tCount d ||
    fld d 0 8 % groupBytes f != 0 || (from_ 1 4).any fun k => 1 < tSize d k && tStr d k % groupBytes f != 0

/-- The lowest and highest element address lie in one pinned extent that grants an access (R162). -/
def State.tGrant (s : State) (e : Eng) (a : Acc) (d : Bytes) : Option Byte :=
  let (lo, hi) := tSpan d
  if tCount d = 0 then none
  else if lo < 0 then some 8
  else
    match s.xl e.ctx e.ring a lo.toNat (hi - lo).toNat with
    | .miss => some 8
    | .perm => some 7
    | .ok pa _ _ => if zone pa (hi - lo).toNat = .mmio || zone pa (hi - lo).toNat = .host then some 7 else none

def vTbind : VOp :=
  { d := .aux, msk := false, useVl := false, fmt := noFmt, ok := fun o => o.vd < 4 && o.sa.toNat % 64 = 0,
    run := fun c o s =>
      let e := s.vecEng c o
      match s.vRd e o.sa.toNat 64 with
      | (s, .miss) => (s, some { cause := 8, addr := o.sa.toNat })
      | (s, .perm) => (s, some { cause := 7, addr := o.sa.toNat })
      | (s, .ok r) =>
        if r.err then (s, some { cause := 7, addr := o.sa.toNat })
        else if r.bad.isSome then (s, some { cause := 0x15, addr := o.sa.toNat })
        else if tBad r.data then (s, some malformed)
        else
          let wr := o.sb.getLsbD 0
          match s.tGrant e .rd r.data <|> (if wr then s.tGrant e .wr r.data else none) with
          | some k => (s, some { cause := k, addr := (tSpan r.data).1.toNat })
          | none => (s.onVec c fun v => { v with slots := v.slots.set o.vd ⟨true, wr, r.data, 0⟩ }, none) }

def OpW.slot (o : OpW) (v : Vec) : TSlot := v.slots.look (o.vc % 4) {}

/-- Move a slot's cursor. -/
def State.cursor (s : State) (c k n : Nat) : State :=
  s.onVec c fun v => let x := v.slots.look k {}; { v with slots := v.slots.set k { x with cursor := x.cursor + n } }

/-- A tensor access: the elements from the cursor on, up to E; outside a loop the cursor then advances by VL. -/
def tensorRun (wr : Bool) (c : Nat) (o : OpW) (s : State) : State × Option VErr :=
  let x := o.slot (s.core c).vec
  if !x.bound || tFmt x.desc != o.fa || o.vl % groupLen o.fa != 0 || (wr && !x.wr) then (s, some malformed)
  else
    let n := min o.vl (tCount x.desc - x.cursor)
    let addr := fun g => (tAddr x.desc (x.cursor + g * groupLen o.fa)).toNat
    match if wr then storeEls o.fa n addr c o s else loadEls o.fa n addr c o s with
    | (s, some e) => (s, some e)
    | (s, none) => (if o.loop then s else s.cursor c (o.vc % 4) o.vl, none)

def vTld : VOp := { d := .vec, code := true, fmt := same anyF, ok := fun o => o.vc < 4, run := tensorRun false }
def vTst : VOp :=
  { a := .vec, code := true, fmt := same anyF, ok := fun o => o.vc < 4,
    reads := some fun v o =>
      let x := o.slot v
      o.maskWords ++ (o.actives v (min o.vl (tCount x.desc - x.cursor))).flatMap (regWords o.va o.fa)
    run := tensorRun true }

/-- The TLOOP op word by itself: only VL is used; its effect is `State.tloop`. -/
def vTloop : VOp := { msk := false, fmt := noFmt, ok := fun o => 1 ≤ o.sa.toNat && o.sa.toNat ≤ 16, run := fun _ _ s => (s, none) }

/-! ## The operations by opcode (Table 6.4) -/

def vecOp : Nat → Option VOp
  | 0x00 => some vFadd
  | 0x01 => some vFsub
  | 0x02 => some vFmul
  | 0x03 => some vFma
  | 0x04 => some vFnma
  | 0x05 => some vFmin
  | 0x06 => some vFmax
  | 0x07 => some vFneg
  | 0x08 => some vFabs
  | 0x09 => some vFcmp
  | 0x0A => some vCvt
  | 0x0B => some vFdiv
  | 0x0C => some vFsqrt
  | 0x0D => some vRcp
  | 0x0E => some vRsqrt
  | 0x0F => some vExp2
  | 0x10 => some vLog2
  | 0x11 => some vWmul
  | 0x12 => some vWfma
  | 0x13 => some vXdot
  | 0x14 => some vMxscale
  | 0x15 => some vMxquant
  | 0x20 => some vIadd
  | 0x21 => some vIsub
  | 0x22 => some vImul
  | 0x23 => some vImin
  | 0x24 => some vImax
  | 0x25 => some vIminu
  | 0x26 => some vImaxu
  | 0x27 => some vAnd
  | 0x28 => some vOr
  | 0x29 => some vXor
  | 0x2A => some vShl
  | 0x2B => some vShr
  | 0x2C => some vSra
  | 0x2D => some vIcmp
  | 0x2E => some vPopc
  | 0x2F => some vIdot4
  | 0x30 => some vXadd
  | 0x31 => some vVset
  | 0x32 => some vIota
  | 0x33 => some vVmov
  | 0x34 => some vIwmul
  | 0x40 => some vCompress
  | 0x41 => some vExpand
  | 0x42 => some vVperm
  | 0x43 => some vSlideup
  | 0x44 => some vSlidedn
  | 0x45 => some vTranspose
  | 0x46 => some vExtract
  | 0x47 => some vInsert
  | 0x48 => some vFredsum
  | 0x49 => some vFredmin
  | 0x4A => some vFredmax
  | 0x4B => some vIredsum
  | 0x4C => some vXredsum
  | 0x50 => some vMand
  | 0x51 => some vMor
  | 0x52 => some vMxor
  | 0x53 => some vMandn
  | 0x54 => some vMnot
  | 0x55 => some vMset
  | 0x56 => some vMpopc
  | 0x57 => some vMfirst
  | 0x60 => some vVld
  | 0x61 => some vVst
  | 0x62 => some vVgather
  | 0x63 => some vVscatter
  | 0x64 => some vVscatadd
  | 0x65 => some vVldseg
  | 0x66 => some vVstseg
  | 0x67 => some vTld
  | 0x68 => some vTst
  | 0x69 => some vVatadd
  | 0x6A => some vGld
  | 0x70 => some vTbind
  | 0x71 => some vTloop
  | 0x72 => some vRdflags
  | _ => none

/-! ## Running op words (R146, R167) -/


/-- `n` injected checks of the register code: an uncorrectable one ends the op word (R167). -/
def vecEcc (c : Nat) : Nat → State → State × Option VErr
  | 0, s => (s, none)
  | n + 1, s =>
    let (hit, s) := s.inject c 1 1
    match hit with
    | none => (s, none)
    | some 0 => vecEcc c n (s.sev c 0 2 none 0 0 true)
    | some _ => (s, some { sev := 2, cause := 3, inj := true })

/-- One op word: its form, its register reads, its effect. -/
def State.vecRun (s : State) (c : Nat) (p : VOp) (o : OpW) : State × Option VErr :=
  if p.bad o (s.coreFeatures c) then (s, some malformed)
  else
    let armed := s.faults.inj0.on c 1 + s.faults.inj1.on c 1
    let n := if armed = 0 then 0 else min armed (p.readWords (s.core c).vec o).length
    match vecEcc c n s with
    | (s, some e) => (s, some e)
    | (s, none) => p.run c o s

/-- An item error of VQ (R107): ERR sets, that op word and every later one are discarded, ENGINE_ERR is raised (R127). -/
def State.vecFail (s : State) (c idx : Nat) (e : VErr) : State :=
  let s := (s.onVec c fun v => { v with err := true, items := [] }).irq c 32
  s.raise { src := c, sev := e.sev, cause := e.cause, ctx := some (s.runCtx c), part := none, inj := e.inj, addr := e.addr,
            info := itemInfo idx e.elem }

/-- Position in PUSHED of the oldest op word that has not started. -/
def Vec.front (v : Vec) : Nat := v.pushed - v.items.length

/-- Memory-side adds that wait for op words at `idx` up to `idx + n`. -/
def CoreSt.addsOf (x : CoreSt) (idx n : Nat) : Nat := (x.cells.filter fun q => idx ≤ q.item && q.item < idx + n).length

/-- `n` op words from `idx` on have run; DONE waits for their memory-side adds. -/
def State.vecRan (s : State) (c idx n : Nat) : State :=
  s.onCore c fun x =>
    { x with vec := { x.vec with items := x.vec.items.drop n, run := x.vec.run ++ [(n, x.addsOf idx n)] } }

/-- One add of the op words `off` places behind DONE has been performed. -/
def runDec : Nat → List (Nat × Nat) → List (Nat × Nat)
  | _, [] => []
  | off, (n, k) :: l => if off < n then (n, k - 1) :: l else (n, k) :: runDec (off - n) l

/-- The flags of a memory-side add enter the sticky status of the store island or HBM controller that made it (R76, R81). No register
shows that status (DESIGN CHOICE, log entry 84). -/
def State.addStatus (s : State) (owner : Nat) (f : Flags) : State :=
  if f = 0 then s
  else if owner < 64 then s.onStore owner fun x => { x with addFlags := x.addFlags ||| f }
  else s.onCtl (owner - 76) fun x => { x with addFlags := x.addFlags ||| f }

/-- The add of one request onto its cell (R159). -/
def State.cellAdd (s : State) (q : CellAdd) : State :=
  let w : Who := { src := 138, ctx := some q.ctx, part := some ((s.partOfCtx q.ctx).getD 64), key := q.key }
  let (s, r) := s.memRd w q.pa 32
  if r.err || r.bad.isSome then s
  else
    let owner := if zone q.pa 32 = .sram then sramCore q.pa else 76 + (s.place q.pa).1
    let (s, hit) := if zone q.pa 32 = .sram then s.residue owner (if xaClass q.xa = .fin then 1 else 0) else (s, false)
    if hit then (s.setPoison (q.pa / 64)).sev owner 1 5 (some q.ctx) q.pa 0 true
    else
      let (g, f) := (cellOf r.data).add q.xa
      (s.addStatus owner f).memWr w q.pa (cellBytes g) |>.1

/-- The oldest request of a core performed at its memory (R159). -/
def State.cellPop (s : State) (c : Nat) : State :=
  match (s.core c).cells with
  | [] => s
  | q :: l =>
    (s.onCore c fun x =>
      { x with cells := l, vec := { x.vec with run := runDec (q.item - x.vec.done) x.vec.run } }).cellAdd q

/-- Every waiting request of a core performed. -/
def State.cellAll (s : State) (c : Nat) : State := (s.core c).cells.foldl (fun s _ => s.cellPop c) s

/-- Op words that access memory themselves: they follow the adds of earlier ones (R146, R147). -/
def OpW.touches (o : OpW) : Bool := (0x60 ≤ o.opc && o.opc ≤ 0x6A && o.opc != 0x69) || o.opc = 0x70

/-- The op word waits for the memory-side adds of earlier op words. -/
def State.waitsAdds (s : State) (c : Nat) (o : OpW) : Bool := o.touches && !(s.core c).cells.isEmpty

/-- The op word at the front of VQ runs when it has this opcode. -/
def State.vecStep (s : State) (c opc : Nat) (p : VOp) : State :=
  let v := (s.core c).vec
  match v.items with
  | [] => s
  | i :: _ =>
    let o := parseOp i v.front
    if o.opc != opc || !s.goes c || s.waitsAdds c o then s
    else
      match s.vecRun c p o with
      | (s, some e) => s.vecFail c o.idx e
      | (s, none) => s.vecRan c o.idx 1

/-! ## Tensor loops (R163) -/

/-- Slots that a body op word names. -/
def OpW.named (o : OpW) : Option Nat := if o.opc = 0x67 || o.opc = 0x68 then some (o.vc % 4) else none

def TSlot.left (x : TSlot) : Int := (tCount x.desc : Int) - x.cursor

/-- One op word of a body with this VL. -/
def State.bodyOp (s : State) (c vl : Nat) (o : OpW) : State × Option (Nat × VErr) :=
  match vecOp o.opc with
  | none => (s, some (o.idx, malformed))
  | some p =>
    let s := if o.touches then s.cellAll c else s
    let r := s.vecRun c p { o with vl := vl, loop := true }
    (r.1, r.2.map fun e => (o.idx, e))

/-- The first op word of a body whose own form is malformed, with VL left out of the question. -/
def State.bodyForm (s : State) (c : Nat) (body : List OpW) : Option Nat :=
  (body.find? fun o =>
    match vecOp o.opc with
    | none => true
    | some p => p.bad { o with vl := 0, loop := true } (s.coreFeatures c)).map (·.idx)

/-- The body in order with this VL; an error names the op word it happened in. -/
def bodyRun (c vl : Nat) : List OpW → State → State × Option (Nat × VErr)
  | [], s => (s, none)
  | o :: l, s =>
    let r := s.bodyOp c vl o
    if r.2.isSome then r else bodyRun c vl l r.1

/-- Iterations over `left` elements in chunks. -/
def loopGo (c chunk : Nat) (body : List OpW) (slots : List Nat) : Nat → Nat → State → State × Option (Nat × VErr)
  | 0, _, s => (s, none)
  | k + 1, left, s =>
    let vl := min chunk left
    match bodyRun c vl body s with
    | (s, some e) => (s, some e)
    | (s, none) => loopGo c chunk body slots k (left - vl) (slots.foldl (fun s q => s.cursor c q vl) s)

/-- The body of a TLOOP is malformed. -/
def bodyBad (v : Vec) (e0 : Int) (o : OpW) : Bool :=
  o.vl != 0 || (0x70 ≤ o.opc && o.opc ≤ 0x72) ||
    match o.named with
    | some k => (v.slots.look k {}).left != e0
    | none => false

/-- TLOOP runs once its whole body has been pushed. A chunk of 0 makes no iteration (R144); the form of the body's op words is judged
without one too. -/
def State.tloop (s : State) (c : Nat) : State :=
  let v := (s.core c).vec
  match v.items with
  | [] => s
  | i :: l =>
    let o := parseOp i v.front
    if o.opc != 0x71 || !s.goes c then s
    else if vTloop.bad o (s.coreFeatures c) then s.vecFail c o.idx malformed
    else if l.length < o.sa.toNat then s
    else
      let k := o.sa.toNat
      let body := (List.range k).zipWith (fun j i => parseOp i (o.idx + 1 + j)) (l.take k)
      let x := v.slots.look 0 {}
      if !x.bound || body.any (bodyBad v x.left) then s.vecFail c o.idx malformed
      else
        let n := if o.vl = 0 then 0 else cdiv x.left.toNat o.vl
        let form := if n = 0 then s.bodyForm c body else none
        if let some idx := form then s.vecFail c idx malformed
        else
        match loopGo c o.vl body (body.filterMap OpW.named).eraseDups n x.left.toNat s with
        | (s, some (idx, e)) => s.vecFail c idx e
        | (s, none) => s.vecRan c o.idx (k + 1)

def execFadd (c : Fin 64) (s : State) : Res := .next (s.vecStep c 0x00 vFadd)
def execFsub (c : Fin 64) (s : State) : Res := .next (s.vecStep c 0x01 vFsub)
def execFmul (c : Fin 64) (s : State) : Res := .next (s.vecStep c 0x02 vFmul)
def execFma (c : Fin 64) (s : State) : Res := .next (s.vecStep c 0x03 vFma)
def execFnma (c : Fin 64) (s : State) : Res := .next (s.vecStep c 0x04 vFnma)
def execFmin (c : Fin 64) (s : State) : Res := .next (s.vecStep c 0x05 vFmin)
def execFmax (c : Fin 64) (s : State) : Res := .next (s.vecStep c 0x06 vFmax)
def execFneg (c : Fin 64) (s : State) : Res := .next (s.vecStep c 0x07 vFneg)
def execFabs (c : Fin 64) (s : State) : Res := .next (s.vecStep c 0x08 vFabs)
def execFcmp (c : Fin 64) (s : State) : Res := .next (s.vecStep c 0x09 vFcmp)
def execCvt (c : Fin 64) (s : State) : Res := .next (s.vecStep c 0x0A vCvt)
def execFdiv (c : Fin 64) (s : State) : Res := .next (s.vecStep c 0x0B vFdiv)
def execFsqrt (c : Fin 64) (s : State) : Res := .next (s.vecStep c 0x0C vFsqrt)
def execRcp (c : Fin 64) (s : State) : Res := .next (s.vecStep c 0x0D vRcp)
def execRsqrt (c : Fin 64) (s : State) : Res := .next (s.vecStep c 0x0E vRsqrt)
def execExp2 (c : Fin 64) (s : State) : Res := .next (s.vecStep c 0x0F vExp2)
def execLog2 (c : Fin 64) (s : State) : Res := .next (s.vecStep c 0x10 vLog2)
def execWmul (c : Fin 64) (s : State) : Res := .next (s.vecStep c 0x11 vWmul)
def execWfma (c : Fin 64) (s : State) : Res := .next (s.vecStep c 0x12 vWfma)
def execXdot (c : Fin 64) (s : State) : Res := .next (s.vecStep c 0x13 vXdot)
def execMxscale (c : Fin 64) (s : State) : Res := .next (s.vecStep c 0x14 vMxscale)
def execMxquant (c : Fin 64) (s : State) : Res := .next (s.vecStep c 0x15 vMxquant)
def execIadd (c : Fin 64) (s : State) : Res := .next (s.vecStep c 0x20 vIadd)
def execIsub (c : Fin 64) (s : State) : Res := .next (s.vecStep c 0x21 vIsub)
def execImul (c : Fin 64) (s : State) : Res := .next (s.vecStep c 0x22 vImul)
def execImin (c : Fin 64) (s : State) : Res := .next (s.vecStep c 0x23 vImin)
def execImax (c : Fin 64) (s : State) : Res := .next (s.vecStep c 0x24 vImax)
def execIminu (c : Fin 64) (s : State) : Res := .next (s.vecStep c 0x25 vIminu)
def execImaxu (c : Fin 64) (s : State) : Res := .next (s.vecStep c 0x26 vImaxu)
def execAnd (c : Fin 64) (s : State) : Res := .next (s.vecStep c 0x27 vAnd)
def execOr (c : Fin 64) (s : State) : Res := .next (s.vecStep c 0x28 vOr)
def execXor (c : Fin 64) (s : State) : Res := .next (s.vecStep c 0x29 vXor)
def execShl (c : Fin 64) (s : State) : Res := .next (s.vecStep c 0x2A vShl)
def execShr (c : Fin 64) (s : State) : Res := .next (s.vecStep c 0x2B vShr)
def execSra (c : Fin 64) (s : State) : Res := .next (s.vecStep c 0x2C vSra)
def execIcmp (c : Fin 64) (s : State) : Res := .next (s.vecStep c 0x2D vIcmp)
def execPopc (c : Fin 64) (s : State) : Res := .next (s.vecStep c 0x2E vPopc)
def execIdot4 (c : Fin 64) (s : State) : Res := .next (s.vecStep c 0x2F vIdot4)
def execXadd (c : Fin 64) (s : State) : Res := .next (s.vecStep c 0x30 vXadd)
def execVset (c : Fin 64) (s : State) : Res := .next (s.vecStep c 0x31 vVset)
def execIota (c : Fin 64) (s : State) : Res := .next (s.vecStep c 0x32 vIota)
def execVmov (c : Fin 64) (s : State) : Res := .next (s.vecStep c 0x33 vVmov)
def execIwmul (c : Fin 64) (s : State) : Res := .next (s.vecStep c 0x34 vIwmul)
def execCompress (c : Fin 64) (s : State) : Res := .next (s.vecStep c 0x40 vCompress)
def execExpand (c : Fin 64) (s : State) : Res := .next (s.vecStep c 0x41 vExpand)
def execVperm (c : Fin 64) (s : State) : Res := .next (s.vecStep c 0x42 vVperm)
def execSlideup (c : Fin 64) (s : State) : Res := .next (s.vecStep c 0x43 vSlideup)
def execSlidedn (c : Fin 64) (s : State) : Res := .next (s.vecStep c 0x44 vSlidedn)
def execTranspose (c : Fin 64) (s : State) : Res := .next (s.vecStep c 0x45 vTranspose)
def execExtract (c : Fin 64) (s : State) : Res := .next (s.vecStep c 0x46 vExtract)
def execInsert (c : Fin 64) (s : State) : Res := .next (s.vecStep c 0x47 vInsert)
def execFredsum (c : Fin 64) (s : State) : Res := .next (s.vecStep c 0x48 vFredsum)
def execFredmin (c : Fin 64) (s : State) : Res := .next (s.vecStep c 0x49 vFredmin)
def execFredmax (c : Fin 64) (s : State) : Res := .next (s.vecStep c 0x4A vFredmax)
def execIredsum (c : Fin 64) (s : State) : Res := .next (s.vecStep c 0x4B vIredsum)
def execXredsum (c : Fin 64) (s : State) : Res := .next (s.vecStep c 0x4C vXredsum)
def execMand (c : Fin 64) (s : State) : Res := .next (s.vecStep c 0x50 vMand)
def execMor (c : Fin 64) (s : State) : Res := .next (s.vecStep c 0x51 vMor)
def execMxor (c : Fin 64) (s : State) : Res := .next (s.vecStep c 0x52 vMxor)
def execMandn (c : Fin 64) (s : State) : Res := .next (s.vecStep c 0x53 vMandn)
def execMnot (c : Fin 64) (s : State) : Res := .next (s.vecStep c 0x54 vMnot)
def execMset (c : Fin 64) (s : State) : Res := .next (s.vecStep c 0x55 vMset)
def execMpopc (c : Fin 64) (s : State) : Res := .next (s.vecStep c 0x56 vMpopc)
def execMfirst (c : Fin 64) (s : State) : Res := .next (s.vecStep c 0x57 vMfirst)
def execVld (c : Fin 64) (s : State) : Res := .next (s.vecStep c 0x60 vVld)
def execVst (c : Fin 64) (s : State) : Res := .next (s.vecStep c 0x61 vVst)
def execVgather (c : Fin 64) (s : State) : Res := .next (s.vecStep c 0x62 vVgather)
def execVscatter (c : Fin 64) (s : State) : Res := .next (s.vecStep c 0x63 vVscatter)
def execVscatadd (c : Fin 64) (s : State) : Res := .next (s.vecStep c 0x64 vVscatadd)
def execVldseg (c : Fin 64) (s : State) : Res := .next (s.vecStep c 0x65 vVldseg)
def execVstseg (c : Fin 64) (s : State) : Res := .next (s.vecStep c 0x66 vVstseg)
def execTld (c : Fin 64) (s : State) : Res := .next (s.vecStep c 0x67 vTld)
def execTst (c : Fin 64) (s : State) : Res := .next (s.vecStep c 0x68 vTst)
def execVatadd (c : Fin 64) (s : State) : Res := .next (s.vecStep c 0x69 vVatadd)
def execGld (c : Fin 64) (s : State) : Res := .next (s.vecStep c 0x6A vGld)
def execTbind (c : Fin 64) (s : State) : Res := .next (s.vecStep c 0x70 vTbind)
def execRdflags (c : Fin 64) (s : State) : Res := .next (s.vecStep c 0x72 vRdflags)
def execTloop (c : Fin 64) (s : State) : Res := .next (s.tloop c)

/-! ## Completion (R107, R159) -/

/-- DONE moves over the oldest executed op words once their adds have been performed. An op word at the front whose opcode is not in
Table 6.4 is the item error of R144. -/
def execVectorOpDone (c : Fin 64) (s : State) : Res :=
  let v := (s.core c).vec
  match v.run, v.items with
  | (n, 0) :: l, _ => .next (s.onVec c fun v => { v with done := v.done + n, run := l })
  | _, i :: _ =>
    let o := parseOp i v.front
    .next (if s.goes c && (vecOp o.opc).isNone then s.vecFail c o.idx malformed else s)
  | _, [] => .next s

/-- The oldest request of a core is performed at its memory; any order ends the same. -/
def execGuardedCellAdd (c : Fin 64) (s : State) : Res := .next (s.cellPop c)

end Sys2Proof.Machine
end

