-- ==== Sys2Proof/Machine/Matrix.lean ====
section
/-!
DEFINITION. The matrix array and its epilogue: pass descriptors, tiles, the six cell operations, results, and completion (R168 to
R200).
-/

namespace Sys2Proof.Machine

/-! ## Pass descriptors (Tables 7.1, 7.3, 8.2) -/

structure PassD where
  op     : Nat
  stream : Bool
  load   : Nat
  shiftOn : Bool
  fill   : Bool
  use    : Bool
  acc    : Bool
  fa     : Nat
  mxA    : Bool
  fb     : Nat
  mxB    : Bool
  cols   : Nat
  shift  : Nat
  rows   : Nat
  depth  : Nat
  aBase  : Nat
  aStr   : Int
  bBase  : Nat
  bStr   : Nat
  asStr  : Nat
  aScale : Nat
  bScale : Nat
  bsStr  : Nat
  cStr   : Nat
  cBase  : Nat
  dBase  : Nat
  dStr   : Nat
  stat   : Nat
  out    : Nat
  ef     : Nat
  rm     : BitVec 2
  sat    : Bool
  smode  : Nat
  sfmt   : Nat
  ew     : Nat
  eStr   : Int
  eBase  : Nat
  sAddr  : Nat
  resv   : Bool
  deriving DecidableEq, Repr

def parsePass (b : Bytes) : PassD :=
  let by8 (i : Nat) : Nat := fld b i 1
  { op := bits (by8 0) 2 0, stream := bit (by8 1) 0, load := bits (by8 1) 2 1, shiftOn := bit (by8 1) 3,
    fill := bit (by8 1) 4, use := bit (by8 1) 5, acc := bit (by8 1) 6,
    fa := bits (by8 2) 3 0, mxA := bit (by8 2) 4, fb := bits (by8 3) 3 0, mxB := bit (by8 3) 4,
    cols := bits (by8 4) 5 0, shift := fld b 6 2, rows := fld b 8 3, depth := bits (fld b 12 2) 11 0,
    aBase := fld b 16 8, aStr := fldS b 24 8, bBase := fld b 32 8, bStr := fld b 40 4, asStr := fld b 44 4,
    aScale := fld b 48 8, bScale := fld b 56 8, bsStr := fld b 64 4, cStr := fld b 68 4, cBase := fld b 72 8,
    dBase := fld b 80 8, dStr := fld b 88 4, stat := fld b 96 8,
    out := bits (by8 104) 3 0, ef := bits (by8 104) 7 4, rm := BitVec.ofNat 2 (by8 105), sat := bit (by8 105) 2,
    smode := bits (by8 106) 1 0, sfmt := bits (by8 106) 2 2, ew := bits (by8 107) 1 0,
    eStr := fldS b 108 4, eBase := fld b 112 8, sAddr := fld b 120 8,
    resv := by8 0 ≥ 8 || bit (by8 1) 7 || by8 2 ≥ 32 || by8 3 ≥ 32 || by8 4 ≥ 64 || by8 5 != 0 || by8 11 != 0 ||
      fld b 12 4 ≥ 4096 || !zeroAt b 92 4 || by8 105 ≥ 8 || by8 106 ≥ 8 || by8 107 ≥ 4 }

/-- Format class, elements per cell, and greatest depth (Table 7.1). -/
def fmtClass : Nat → Option (Nat × Nat × Nat)
  | 0 => some (0, 1, 128)
  | 1 => some (1, 1, 128)
  | 2 => some (2, 4, 512)
  | 3 => some (2, 4, 512)
  | 4 => some (3, 8, 1024)
  | 5 => some (3, 8, 1024)
  | 6 => some (3, 8, 1024)
  | 8 => some (3, 8, 1024)
  | 7 => some (4, 16, 2048)
  | 9 => some (4, 16, 2048)
  | _ => none

/-- The accumulator is XA128 (Table 7.1). -/
def PassD.xa (p : PassD) : Bool := 2 ≤ p.fa

/-- Accumulator format and its bytes. -/
def PassD.accFmt (p : PassD) : Nat := if p.xa then 13 else 0
def PassD.accSize (p : PassD) : Nat := if p.xa then 16 else 8

/-- Columns of results per row. -/
def PassD.outCols (p : PassD) : Nat := if p.stream then 1 else p.cols

def PassD.rowBytes (p : PassD) : Nat := packedBytes p.fa p.depth
def PassD.colBytes (p : PassD) : Nat := packedBytes p.fb p.depth
def PassD.blocks (p : PassD) : Nat := cdiv p.depth 32

/-- Byte distance between streamed rows (R175, R182). -/
def PassD.aStep (p : PassD) : Int := if p.shiftOn then (packedBytes p.fa p.shift : Nat) else p.aStr

def scaleSize (p : PassD) : Nat := if p.sfmt = 1 then 8 else 4

/-- A byte interval from its lowest to past its highest byte: `n` steps of `str` from `base`, `w` bytes each. -/
def span (base : Nat) (str : Int) (n w : Nat) : Int × Int :=
  let d := ((n : Int) - 1) * str
  ((base : Int) + min 0 d, (base : Int) + max 0 d + w)

/-- The operands of a pass, in the order of R177. -/
inductive Operand where
  | a
  | b
  | aScale
  | bScale
  | c
  | d
  | epi
  | stat
  deriving DecidableEq, Repr

/-- The interval of the epilogue operand: the scale range and the E range together (R195). -/
def PassD.epiSpan (p : PassD) : Option (Int × Int) :=
  let n := if p.smode = 1 then 1 else if p.stream then p.rows else p.cols
  let sc := if p.smode = 0 then none else some (span p.sAddr 0 1 (scaleSize p * n))
  let e := if p.ew = 0 then none else some (span p.eBase p.eStr p.rows (p.outCols * container p.ef))
  match sc, e with
  | some x, some y => some (min x.1 y.1, max x.2 y.2)
  | x, none => x
  | none, y => y

/-- Intervals that a pass reads, from the lowest to past the highest byte of each operand (R177). -/
def PassD.reads (p : PassD) : List (Operand × Int × Int) :=
  let rows (b : Bool) (o : Operand) (i : Int × Int) : List (Operand × Int × Int) := if b && 0 < p.rows then [(o, i)] else []
  let load := p.load != 0
  rows (!p.use) .a (span p.aBase p.aStep p.rows p.rowBytes) ++
  (if load then [(.b, span p.bBase p.bStr p.cols p.colBytes)] else []) ++
  rows (p.mxA && !p.use) .aScale (span p.aScale p.asStr p.rows p.blocks) ++
  (if load && p.mxB then [(.bScale, span p.bScale p.bsStr p.cols p.blocks)] else []) ++
  rows p.acc .c (span p.cBase p.cStr p.rows (p.outCols * p.accSize)) ++
  (match p.epiSpan with
   | some i => rows true .epi i
   | none => [])

/-- Intervals that a pass writes. -/
def PassD.writes (p : PassD) : List (Operand × Int × Int) :=
  (if 0 < p.rows then [(.d, span p.dBase p.dStr p.rows (packedBytes p.out p.outCols))] else []) ++
  (if p.stat != 0 then [(.stat, span p.stat 0 1 8)] else [])

/-- Number of an operand in the order of R177, from 1. -/
def Operand.code : Operand → Nat
  | .a => 1
  | .b => 2
  | .aScale => 3
  | .bScale => 4
  | .c => 5
  | .d => 6
  | .epi => 7
  | .stat => 8

/-- Every interval with the access it makes, in the order of R177. -/
def PassD.spans (p : PassD) : List (Operand × Acc × Int × Int) :=
  sortBy (fun x y => x.1.code < y.1.code) (p.reads.map (fun r => (r.1, .rd, r.2)) ++ p.writes.map fun w => (w.1, .wr, w.2))

def meet (a b : Int × Int) : Bool := a.1 < b.2 && b.1 < a.2

/-- In-place accumulation (R188). -/
def PassD.inPlace (p : PassD) : Bool :=
  p.acc && p.cBase = p.dBase && p.cStr = p.dStr && !subByte p.out && container p.out = p.accSize

/-- A written range overlaps a range read (R188). -/
def PassD.overlap (p : PassD) : Bool :=
  p.writes.any fun w => p.reads.any fun r => meet w.2 r.2 && !(p.inPlace && w.1 == .d && r.1 == .c)

def mxFmt (f : Nat) : Bool := 4 ≤ f && f ≤ 8

/-- Epilogue fields break R199. -/
def PassD.epiBad (p : PassD) : Bool :=
  14 ≤ p.out || p.smode = 3 || p.ew = 3 || (p.smode = 0 && (p.sAddr != 0 || p.sfmt != 0)) ||
    (p.ew = 0 && (p.ef != 0 || p.eBase != 0 || p.eStr != 0)) || (p.ew != 0 && (14 ≤ p.ef || subByte p.ef)) ||
    p.sAddr % scaleSize p != 0 || (p.ew != 0 && (p.eBase % container p.ef != 0 || p.eStr % container p.ef != 0)) ||
    (subByte p.out && (p.stream || p.cols % groupLen p.out != 0))

/-- The pass is malformed by its own fields (R169, R176, R180 to R183, R185). -/
def PassD.bad (p : PassD) (feat : BitVec 256) (lead : Bool) : Bool :=
  match fmtClass p.fa, fmtClass p.fb with
  | some (ca, _, md), some (cb, _, _) =>
    p.resv || 6 ≤ p.op || p.load = 3 || ca != cb ||
      ((p.mxA || p.mxB) && !feat.getLsbD 11) || (p.mxA && !mxFmt p.fa) || (p.mxB && !mxFmt p.fb) ||
      (p.op != 0 && (!feat.getLsbD 10 || ca < 2)) ||
      (p.op = 5 && !((p.fa = 8 || p.fa = 9) && (p.fb = 8 || p.fb = 9) && !p.mxA && !p.mxB)) ||
      p.cols = 0 || 32 < p.cols || p.depth = 0 || md < p.depth ||
      (if p.shiftOn then p.shift = 0 || p.depth < p.shift else p.shift != 0) ||
      p.depth % groupLen p.fa != 0 || p.depth % groupLen p.fb != 0 ||
      p.aBase % groupBytes p.fa != 0 || p.aStr % groupBytes p.fa != 0 || p.bBase % groupBytes p.fb != 0 ||
      p.bStr % groupBytes p.fb != 0 ||
      (if p.acc then p.cBase % p.accSize != 0 || p.cStr % p.accSize != 0 else p.cBase != 0 || p.cStr != 0) ||
      p.epiBad || p.dBase % groupBytes p.out != 0 || p.dStr % groupBytes p.out != 0 || p.stat % 8 != 0 ||
      (!p.mxA && (p.aScale != 0 || p.asStr != 0)) || (!p.mxB && (p.bScale != 0 || p.bsStr != 0)) ||
      (p.load = 2 && (!lead || !feat.getLsbD 9 || p.stream || p.rows = 0)) ||
      (p.shiftOn && (p.stream || p.aStr != 0 || p.mxA || p.shift % groupLen p.fa != 0)) ||
      (p.stream && (p.cols != 1 || p.load = 2)) ||
      ((p.fill || p.use) && (p.stream || p.shiftOn)) || (p.fill && p.use) ||
      (p.fill && (65536 < p.rows * p.rowBytes || (p.mxA && 2048 < p.rows * p.blocks))) ||
      (p.use && (p.aBase != 0 || p.aStr != 0 || p.aScale != 0 || p.asStr != 0)) || p.overlap
  | _, _ => true

/-- REPLAY_USE against the valid fill (R181). -/
def Mat.useBad (m : Mat) (p : PassD) (fmtA : Byte) : Bool :=
  p.use && (!m.rbValid || m.rbRows != p.rows || m.rbDepth != p.depth || m.rbFmt != fmtA)

/-- A lead core of a partition that has them granted (R2, Table 0.4). -/
def State.leadCore (s : State) (c : Nat) : Bool :=
  c % 4 = 0 && ((s.partOfCore c).bind s.partRec).any (·.lead)

/-! ## Errors of MQ -/

/-- An item error of a pass (R107, R191, R208): that pass and every later one are discarded; in a fill it invalidates the buffer. -/
def State.mqFail (s : State) (c idx : Nat) (fill : Bool) (e : VErr) : State :=
  let s := s.onCore c fun x =>
    { x with mq := x.mq.fail idx,
             mat := { x.mat with passes := x.mat.passes.filter (fun p => p.idx < idx), rbValid := x.mat.rbValid && !fill } }
  (s.irq c 32).raise { src := c, sev := e.sev, cause := e.cause, ctx := some (s.runCtx c), part := none, inj := e.inj,
                       addr := e.addr, info := itemInfo idx e.elem }

/-! ## Acceptance (R174, R177, R181) -/

def matEng (s : State) (c : Nat) (ring : BitVec 2) : Eng := { src := c, agent := 192 + c, ctx := s.runCtx c, ring := ring }

/-- Intervals checked in turn: the first that fails, with its cause, its lowest address and its operand. -/
def State.passSpans (s : State) (e : Eng) : List (Operand × Acc × Int × Int) → Option (Byte × Gate × Nat × Nat × Operand)
  | [] => none
  | (o, a, lo, hi) :: l =>
    if lo < 0 then some (8, .ok, 0, 0, o)
    else
      match s.vecPlace e lo.toNat (hi - lo).toNat [a] with
      | .inl _ => s.passSpans e l
      | .inr (cause, g, pa) => some (cause, g, pa, lo.toNat, o)

/-- The oldest item of MQ that the array has not accepted. -/
def CoreSt.nextPass (x : CoreSt) : Option QItem :=
  x.mq.items.find? fun i => !x.mat.passes.any fun p => p.idx = i.idx

def execPassAccept (c : Fin 64) (s : State) : Res :=
  match (s.core c).nextPass with
  | none => .next s
  | some i =>
    if !s.goes c then .next s
    else
      let e := matEng s c i.ring
      let va := i.va.toNat
      let fail (s : State) (cause : Byte) (addr : Nat) (fill : Bool) : Res :=
        .next (s.mqFail c i.idx fill { cause := cause, addr := addr })
      if va % 128 != 0 then fail s 6 0 false
      else
        match s.vRd e va 128 with
        | (s, .miss) => fail s 8 va false
        | (s, .perm) => fail s 7 va false
        | (s, .ok r) =>
          if r.err then fail s 7 va false
          else if r.bad.isSome then fail s 0x15 va false
          else
            let p := parsePass r.data
            let m := (s.core c).mat
            if p.bad (s.coreFeatures c) (s.leadCore c) || m.useBad p (BitVec.ofNat 8 (fld r.data 2 1)) then fail s 6 0 p.fill
            else
              match s.passSpans e p.spans with
              | some (cause, g, pa, lo, o) =>
                .next ((s.refuse { src := c, ctx := some e.ctx } g pa).mqFail c i.idx p.fill
                  { cause := cause, addr := lo, elem := o.code })
              | none =>
                let set := if p.load = 1 then !m.cur else m.cur
                let q : Pass := { idx := i.idx, ring := i.ring, desc := r.data, set := set, loaded := p.load != 1, computed := false }
                .next (s.onMat c fun m =>
                  { m with
                    cur := set, passes := m.passes ++ [q],
                    rbValid := p.fill || m.rbValid,
                    rbRows := if p.fill then p.rows else m.rbRows,
                    rbDepth := if p.fill then p.depth else m.rbDepth,
                    rbFmt := if p.fill then BitVec.ofNat 8 (fld r.data 2 1) else m.rbFmt })

/-! ## Order between passes (R187) -/

/-- A pass waits for an earlier one that has not completed. -/
def passWaits (p q : PassD) : Bool :=
  (p.reads ++ p.writes).any (fun a => q.writes.any fun w => meet a.2 w.2) || p.writes.any fun w => q.reads.any fun a => meet w.2 a.2

/-- The passes before the first that satisfies `f`, and that one. -/
def splitPass (f : Pass → Bool) : List Pass → Option (List Pass × Pass)
  | [] => none
  | p :: l => if f p then some ([], p) else (splitPass f l).map fun r => (p :: r.1, r.2)

def clearOf (before : List Pass) (p : PassD) : Bool := before.all fun q => !passWaits p (parsePass q.desc)

def State.onPass (s : State) (c idx : Nat) (f : Pass → Pass) : State :=
  s.onMat c fun m => { m with passes := updFirst (fun p => p.idx = idx) f m.passes }

/-! ## Reading operands -/

/-- The state while a pass reads: the first poisoned granule met and whether an access failed. -/
structure PRun where
  s   : State
  bad : Option Nat
  err : Bool

/-- Read `n` bytes of an operand: the bytes and the poisoned granule they lie in. -/
def PRun.rd (r : PRun) (e : Eng) (va : Int) (n : Nat) : PRun × Bytes × Option Nat :=
  match r.s.vRd e va.toNat n with
  | (s, .ok d) => (⟨s, r.bad <|> d.bad, r.err || d.err⟩, d.data, d.bad)
  | (s, _) => (⟨s, r.bad, true⟩, [], none)

/-- A row or column: its elements, its block scales, and the poisoned granule met. -/
abbrev Vecs := List Word × Bytes × Option Nat

def words (f n : Nat) (bs : Bytes) : List Word := (unpack f n bs).map (·.setWidth 64)

/-- One streamed row or stationary column with its scales. -/
def PRun.line (r : PRun) (e : Eng) (f depth : Nat) (mx : Bool) (va sva : Int) : PRun × Vecs :=
  let (r, d, b) := r.rd e va (packedBytes f depth)
  if mx then
    let (r, sc, b') := r.rd e sva (cdiv depth 32)
    (r, words f depth d, sc, b <|> b')
  else (r, words f depth d, [], b)

/-- Lines `m`, `m + 1`, … -/
def PRun.lines (e : Eng) (f depth : Nat) (mx : Bool) (base : Int) (str : Int) (sbase : Int) (sstr : Int) :
    Nat → Nat → PRun → PRun × List Vecs
  | 0, _, r => (r, [])
  | k + 1, m, r =>
    let (r, v) := r.line e f depth mx (base + m * str) (sbase + m * sstr)
    let (r, vs) := PRun.lines e f depth mx base str sbase sstr k (m + 1) r
    (r, v :: vs)

/-- Read a tile from memory (R175, R178). -/
def PRun.tile (r : PRun) (e : Eng) (p : PassD) : PRun × Tile :=
  let (r, vs) := PRun.lines e p.fb p.depth p.mxB p.bBase p.bStr p.bScale p.bsStr p.cols 0 r
  (r, { loaded := true, fmt := p.fb, mx := p.mxB, depth := p.depth, stream := p.stream,
        cols := vs.map (·.1), scales := vs.map (·.2.1), bad := vs.map (·.2.2) })

def Mat.tile (m : Mat) (set : Bool) : Tile := if set then m.set1 else m.set0
def Mat.setTile (m : Mat) (set : Bool) (t : Tile) : Mat := if set then { m with set1 := t } else { m with set0 := t }

/-- `n` free words. -/
def freshWords : Nat → State → List Word × State
  | 0, s => ([], s)
  | n + 1, s =>
    let (w, s) := s.fresh
    let (ws, s) := freshWords n s
    (w :: ws, s)

/-- Column `c` of a set as a pass reads it. A set not loaded since it was zeroed reads zero. What a KEEP pass finds beyond the tile
that was loaded, or under another format, the spec does not state: those elements are free values (log entry 11). -/
def State.tileCol (s : State) (t : Tile) (p : PassD) (c : Nat) : State × Vecs :=
  if !t.loaded then (s, List.replicate p.depth 0, if p.mxB then List.replicate p.blocks 0 else [], none)
  else
    let c' := if t.stream then 0 else c
    let have_ := if t.fmt = p.fb then (t.cols.getD c' []).take p.depth else []
    let (more, s) := freshWords (p.depth - have_.length) s
    let sc := if t.mx then (t.scales.getD c' []).take p.blocks else []
    let (moreSc, s) := if p.mxB then freshBytes (p.blocks - sc.length) s else ([], s)
    (s, have_ ++ more.map (fun w => BitVec.ofNat 64 (w.toNat % 2 ^ fmtBits p.fb)), if p.mxB then sc ++ moreSc else [],
      t.bad.getD c' none)

/-- Columns of a set in order. -/
def tileCols (t : Tile) (p : PassD) : List Nat → State → State × List Vecs
  | [], s => (s, [])
  | c :: l, s =>
    let (s, v) := s.tileCol t p c
    let (s, vs) := tileCols t p l s
    (s, v :: vs)

/-- Exact values of a line's elements under its scales. -/
def lineVals (f : Nat) (mx : Bool) (v : Vecs) : List Val :=
  (List.range v.1.length).zipWith
    (fun i x => if mx then mxVal f (x.setWidth 128) (v.2.1.getD (i / 32) 0) else valOf f (x.setWidth 128)) v.1

/-! ## The cells (R171, R185, R186) -/

/-- The exact term of an XA operation, before it enters XA128 (Table 7.6). -/
def cellTerm (op w : Nat) (a b : Val) (x y : Word) : Val × Flags :=
  match op with
  | 0 => a.mul b
  | 1 => a.add 0 b
  | 2 => a.add 0 b
  | 3 => let (d, f) := a.add 0 b.neg; (d.abs, f)
  | 4 => let (d, f) := a.add 0 b.neg; let (q, g) := d.mul d; (q, f ||| g)
  | _ => (.ofInt (popBits w (x ^^^ y).toNat), 0)

/-- min and max of XA128 values (R186). -/
def xaPick (mx : Bool) (a b : BitVec 128) : BitVec 128 :=
  if xaClass a = .nan || xaClass b = .nan then xaNan
  else if (if mx then a.toInt < b.toInt else b.toInt < a.toInt) then b else a

/-- combine(acc, term) in XA128 (R171, R185). -/
def xaCombine (op : Nat) (acc t : BitVec 128) : BitVec 128 × Flags :=
  match op with
  | 1 => (xaPick false acc t, 0)
  | 2 => (xaPick true acc t, 0)
  | _ => xaAdd acc t

/-- Ascending k over one result in XA128. -/
def xaDot (op w : Nat) : List (Val × Word) → List (Val × Word) → BitVec 128 × Flags → BitVec 128 × Flags
  | (a, x) :: as, (b, y) :: bs, (acc, f) =>
    let (v, f1) := cellTerm op w a b x y
    let (t, f2) := xaTerm v
    let (r, f3) := xaCombine op acc t
    xaDot op w as bs (r, f ||| f1 ||| f2 ||| f3)
  | _, _, r => r

/-- Ascending k over one result in FP64, rounded at each step in RNE. -/
def fpDot : List Val → List Val → BitVec 128 × Flags → BitVec 128 × Flags
  | a :: as, b :: bs, (acc, f) =>
    let (v, f1) := a.fma 0 b (valOf 0 acc)
    let (r, f2) := convert 0 0 false v
    fpDot as bs (r, f ||| f1 ||| f2)
  | _, _, r => r

/-- The identity of an operation (Table 7.6). -/
def opIdentity (op : Nat) : BitVec 128 :=
  match op with
  | 1 => xaPinf
  | 2 => xaNinf
  | _ => 0

/-- One accumulated result. -/
def PassD.dot (p : PassD) (a b : Vecs) (init : BitVec 128) : BitVec 128 × Flags :=
  let av := lineVals p.fa p.mxA a
  let bv := lineVals p.fb p.mxB b
  if p.xa then xaDot p.op (fmtBits p.fa) (av.zip a.1) (bv.zip b.1) (init, 0) else fpDot av bv (init, 0)

/-- XA128 additions of one result, each residue-checked (R207). -/
def PassD.checks (p : PassD) : Nat := if p.xa && p.op != 1 && p.op != 2 then p.depth else 0

/-! ## The epilogue (R196, R197) -/

/-- v × s, v + e or v × e on exact values. -/
def epiStep (p : PassD) (mul : Bool) (v : Val × Flags) (x : Val) : Val × Flags :=
  let (r, f) := if mul then v.1.mul x else v.1.add p.rm x
  (r, v.2 ||| f)

/-- One result of D from its accumulator, scale and elementwise operand. -/
def PassD.finish (p : PassD) (acc : BitVec 128) (sc e : Option Val) : BitVec 128 × Flags :=
  let v : Val × Flags := (valOf p.accFmt acc, 0)
  let v := match sc with
    | some x => epiStep p true v x
    | none => v
  let v := match e with
    | some x => epiStep p (p.ew = 2) v x
    | none => v
  let x := if p.xa && v.1.isZero then .zero else v.1
  let (d, f) := convert p.out p.rm p.sat x
  (d, v.2 ||| f)

/-! ## One pass -/

/-- What a pass has computed so far. -/
structure POut where
  xs   : List (BitVec 128) := []
  fs   : List Flags := []
  bads : List Bool := []

/-- Results in ascending row and column; stops at a residue mismatch (Table 8.3). -/
def passGo (c : Nat) (e : Eng) (p : PassD) (as bs : List Vecs) : List (Nat × Nat) → PRun → POut → PRun × POut × Bool
  | [], r, o => (r, o, false)
  | (m, j) :: l, r, o =>
    let a := as.getD m ([], [], none)
    let b := bs.getD (if p.stream then m % 32 else j) ([], [], none)
    let (r, init, cb) :=
      if p.acc then
        let (r, d, b) := r.rd e ((p.cBase + m * p.cStr + j * p.accSize : Nat) : Int) p.accSize
        (r, BitVec.ofNat 128 (leNat d), b)
      else (r, opIdentity p.op, none)
    let (acc, f) := p.dot a b init
    let (s, hit) := r.s.residue c p.checks
    if hit then ({ r with s := s }, o, true)
    else
      let r := { r with s := s }
      let (r, sc, sb) :=
        if p.smode = 0 then (r, none, none)
        else
          let k := if p.smode = 2 then (if p.stream then m else j) else 0
          let (r, d, b) := r.rd e ((p.sAddr + k * scaleSize p : Nat) : Int) (scaleSize p)
          (r, some (valOf (if p.sfmt = 1 then 0 else 1) (BitVec.ofNat 128 (leNat d))), b)
      let (r, ev, eb) :=
        if p.ew = 0 then (r, none, none)
        else
          let (r, d, b) := r.rd e ((p.eBase : Int) + m * p.eStr + (j * container p.ef : Nat)) (container p.ef)
          (r, some (valOf p.ef (BitVec.ofNat 128 (leNat d))), b)
      let (x, g) := p.finish acc sc ev
      let bad := a.2.2.isSome || b.2.2.isSome || cb.isSome || sb.isSome || eb.isSome
      passGo c e p as bs l r { xs := o.xs ++ [x], fs := o.fs ++ [f ||| g], bads := o.bads ++ [bad] }

/-- `n` injected checks of the set and replay-buffer code (R191). -/
def matEcc (c : Nat) : Nat → State → State × Bool
  | 0, s => (s, false)
  | n + 1, s =>
    let (hit, s) := s.inject c 2 1
    match hit with
    | none => (s, false)
    | some 0 => matEcc c n (s.sev c 0 2 none 0 0 true)
    | some _ => (s, true)

/-- 64-bit words of sets and replay buffer that a pass reads; a pass without rows reads none (R179). -/
def PassD.eccWords (p : PassD) : Nat :=
  let e := ((fmtClass p.fb).map (·.2.1)).getD 1
  if p.rows = 0 then 0
  else cdiv p.depth e * (if p.stream then min 32 p.rows else p.cols) + (if p.use then p.rows * cdiv p.rowBytes 8 else 0)

/-- Bytes of row `m` of D with the poison of the results in them. -/
def PassD.rowOut (p : PassD) (q : Pass) (m : Nat) : List (Byte × Bool) :=
  let n := p.outCols
  let xs := (q.results.drop (m * n)).take n
  let bads := (q.resBad.drop (m * n)).take n
  let gl := groupLen p.out
  let gb := groupBytes p.out
  (List.range (xs.length / gl * gb)).zipWith (fun i b => (b, ((bads.drop (i / gb * gl)).take gl).any id)) (pack p.out xs)

/-- Write the rows of D that have results (R175, R190). -/
def passWrite (e : Eng) (p : PassD) (q : Pass) : List Nat → State → State
  | [], s => s
  | m :: l, s =>
    let bs := p.rowOut q m
    let va := p.dBase + m * p.dStr
    let s := match s.vOk e .wr va bs.length with
      | some (pa, key) => (writePieces (s.who e key) [(pa, bs.length)] bs s).1
      | none => s
    passWrite e p q l s

/-- The flags that the pass gathered. -/
def Pass.allFlags (q : Pass) : Flags := q.resFlags.foldl (· ||| ·) 0

/-- OVF_COLS (R198): bit c, or bit j mod 32 in streaming mode. -/
def Pass.ovfCols (q : Pass) (p : PassD) : BitVec 32 :=
  let n := p.outCols
  ((List.range q.resFlags.length).zip q.resFlags).foldl
    (fun v r => if r.2 &&& (fOverflow ||| fCvtSat) = 0 then v
      else v ||| (1 <<< (if p.stream then r.1 % 32 else r.1 % n))) 0

/-- The pass status word (Table 7.7). -/
def Pass.statusWord (q : Pass) (p : PassD) : Nat :=
  q.allFlags.toNat + 32 * b2n (q.resBad.any id) + (q.ovfCols p).toNat * 2 ^ 32

/-- SEV1 for a poisoned granule read (R190). -/
def State.passPoison (s : State) (c : Nat) (q : Pass) : State :=
  match q.badAddr with
  | some a => s.sev c 1 0x15 (some (s.runCtx c)) a (BitVec.ofNat 32 q.idx)
  | none => s

/-- The oldest pass that has not computed, when it is of this operation and may start: its tile is in place and no earlier pass holds it
back. -/
def State.passReady (s : State) (c op : Nat) : Option (Pass × PassD) :=
  match splitPass (fun q => !q.computed) (s.core c).mat.passes with
  | some (before, q) =>
    let p := parsePass q.desc
    if p.op = op && q.loaded && clearOf before p && s.goes c then some (q, p) else none
  | none => none

/-- Streamed rows: from the replay buffer, or from memory. -/
def PRun.aRows (r : PRun) (e : Eng) (p : PassD) (m : Mat) : PRun × List Vecs :=
  if p.use then (r, (m.rbData.zip m.rbScale).zipWith (fun d b => (d.1, d.2, b)) m.rbBad)
  else PRun.lines e p.fa p.depth p.mxA p.aBase p.aStep p.aScale p.asStr p.rows 0 r

/-- A pass computes all its results. -/
def State.passRun (s : State) (c op : Nat) : State :=
  match s.passReady c op with
  | none => s
  | some (q, p) =>
    let e := matEng s c q.ring
    match matEcc c (min (s.faults.inj0.on c 2 + s.faults.inj1.on c 2) p.eccWords) s with
    | (s, true) => s.mqFail c q.idx p.fill { sev := 2, cause := 3, inj := true }
    | (s, false) =>
      let r : PRun := ⟨s, q.badAddr, false⟩
      let (r, t) := if p.load = 2 then r.tile e p else (r, (s.core c).mat.tile q.set)
      let s := if p.load = 2 then r.s.onMat c fun m => m.setTile q.set t else r.s
      let (s, bs) := tileCols t p (List.range (if p.stream then min 32 p.rows else p.cols)) s
      let (r, as) := PRun.aRows { r with s := s } e p (s.core c).mat
      let s := if p.fill then r.s.onMat c fun m =>
          { m with rbData := as.map (·.1), rbScale := as.map (·.2.1), rbBad := as.map (·.2.2) }
        else r.s
      let places := (List.range p.rows).flatMap fun m => (List.range p.outCols).map fun j => (m, j)
      let r : PRun := { r with s := s, bad := r.bad <|> (as.findSome? (·.2.2)) <|> (if p.rows = 0 then none else bs.findSome? (·.2.2)) }
      let (r, o, hit) := passGo c e p as bs places r {}
      let q := { q with computed := true, results := o.xs, resFlags := o.fs, resBad := o.bads, badAddr := r.bad }
      let s := r.s.gather e.ctx q.allFlags
      if hit then ((passWrite e p q (List.range p.rows) s).passPoison c q).mqFail c q.idx p.fill residueErr
      else if r.err then s.mqFail c q.idx p.fill { cause := 7, addr := p.aBase }
      else s.onPass c q.idx fun _ => q

def execMac (c : Fin 64) (s : State) : Res := .next (s.passRun c 0)
def execMinPlus (c : Fin 64) (s : State) : Res := .next (s.passRun c 1)
def execMaxPlus (c : Fin 64) (s : State) : Res := .next (s.passRun c 2)
def execL1 (c : Fin 64) (s : State) : Res := .next (s.passRun c 3)
def execL2sq (c : Fin 64) (s : State) : Res := .next (s.passRun c 4)
def execHamming (c : Fin 64) (s : State) : Res := .next (s.passRun c 5)

/-- The oldest SWAP tile is loaded into its set once every earlier pass on that set has computed (R178, R179). -/
def execTileCommit (c : Fin 64) (s : State) : Res :=
  match splitPass (fun q => !q.loaded) (s.core c).mat.passes with
  | none => .next s
  | some (before, q) =>
    let p := parsePass q.desc
    if !s.goes c || before.any (fun b => b.set = q.set && !b.computed) || !clearOf before p then .next s
    else
      let (r, t) := PRun.tile ⟨s, none, false⟩ (matEng s c q.ring) p
      if r.err then .next (r.s.mqFail c q.idx p.fill { cause := 7, addr := p.bBase })
      else
        .next ((r.s.onMat c fun m => m.setTile q.set t).onPass c q.idx fun q => { q with loaded := true, badAddr := r.bad })

/-- The oldest pass writes its results and status word and completes (R189). A KEEP pass without rows does nothing (R179). -/
def execPassComplete (c : Fin 64) (s : State) : Res :=
  match (s.core c).mat.passes with
  | q :: _ =>
    if !q.computed then .next s
    else
      let p := parsePass q.desc
      let e := matEng s c q.ring
      let s := passWrite e p q (List.range p.rows) s
      let s := if p.stat != 0 && (0 < p.rows || p.load = 1) then (s.vWr e p.stat (leBytes 8 (q.statusWord p))).1 else s
      let s := s.passPoison c q
      .next (((s.onMat c fun m => { m with passes := m.passes.drop 1 })).itemDone c .mq q.idx)
  | [] => .next s

end Sys2Proof.Machine
end

