-- ==== Sys2Proof/Machine/Coll.lean ====
section
/-!
DEFINITION. Collectives (R328 to R346, R351): groups, descriptors, the algorithms and their packets, completion, timeout and abort. Log
entries 48 to 52 name what the spec leaves open.
-/

namespace Sys2Proof.Machine

/-! ## Groups (R328, R329) -/

def State.groupRec (s : State) (g : Nat) : Option GroupRec := s.active.groups.find? fun r => r.group = g

/-- Rank and quarter of this device's member. -/
def State.member (s : State) (r : GroupRec) : Nat × Nat :=
  match findIdx (fun m : Nat × Nat => m.1 = (s.devOf r.part).toNat) r.members 0 with
  | some i => (i, (r.members.getD i (0, 0)).2)
  | none => (0, 0)

/-- Source number of the unit of a group's member (Table 16.1). -/
def State.collSrc (s : State) (r : GroupRec) : Nat := 68 + (s.member r).2

/-! ## Descriptors (Table 14.2) -/

structure CollD where
  op    : Nat
  fmt   : Nat
  group : Nat
  root  : Nat
  count : Nat
  src   : Nat
  dst   : Nat
  start : Nat
  scale : Nat
  stat  : Nat
  epi   : PassD
  resv  : Bool
  deriving DecidableEq, Repr

/-- The accumulator of a reduction is XA128 (Table 14.4). -/
def collXa (fmt : Nat) : Bool := 3 ≤ fmt

/-- The epilogue fields as those of a pass without elementwise operand (R335). -/
def collEpi (b : Bytes) : PassD :=
  let f : Byte := if collXa (bits (fld b 1 1) 3 0) then 2 else 0
  parsePass ([0, 0, f, f] ++ List.replicate 100 0 ++ (b.drop 40).take 4 ++ List.replicate 12 0 ++ (b.drop 48).take 8)

def parseColl (b : Bytes) : CollD where
  op := bits (fld b 0 1) 2 0
  fmt := bits (fld b 1 1) 3 0
  group := bits (fld b 2 2) 11 0
  root := bits (fld b 4 2) 12 0
  count := fld b 8 4
  src := fld b 16 8
  dst := fld b 24 8
  start := fld b 32 8
  scale := fld b 48 8
  stat := fld b 56 8
  epi := collEpi b
  resv := 8 ≤ fld b 0 1 || 16 ≤ fld b 1 1 || 4096 ≤ fld b 2 2 || 8192 ≤ fld b 4 2 || !zeroAt b 6 2 || !zeroAt b 12 4 ||
    8 ≤ fld b 41 1 || 8 ≤ fld b 42 1 || !zeroAt b 43 5

/-- The operation is a reduction. -/
def CollD.reduces (d : CollD) : Bool := d.op ≤ 2

/-- Formats a reduction takes (Table 14.4). -/
def collFmt (f : Nat) : Bool := f ≤ 5 || f = 8 || (10 ≤ f && f ≤ 13)

/-- B: elements of a block (R334). -/
def blockLen (count n : Nat) : Nat := cdiv count n

/-- First element of block `m` and the elements in it. -/
def blockOf (count n m : Nat) : Nat × Nat :=
  let b := blockLen count n
  let lo := min (m * b) count
  (lo, min b (count - lo))

/-- Elements of a segment of an operation: as many as fit the staging that its group reserves, and at least one (R340; log entry 94). -/
def segLen (r : GroupRec) (d : CollD) : Nat := max 1 (1024 * r.stage / if collXa d.fmt then 19 else 8 * r.n)

def segCount (r : GroupRec) (d : CollD) : Nat := max 1 (cdiv d.count (segLen r d))

/-- First element of segment `k` and the elements in it. -/
def segOf (r : GroupRec) (d : CollD) (k : Nat) : Nat × Nat :=
  let lo := min (k * segLen r d) d.count
  (lo, min (segLen r d) (d.count - lo))

/-- The part of block `m` that lies in a segment. -/
def blockIn (r : GroupRec) (d : CollD) (m : Nat) (seg : Nat × Nat) : Nat × Nat :=
  let (b, n) := blockOf d.count r.n m
  let lo := max b seg.1
  (lo, min (b + n) (seg.1 + seg.2) - lo)

/-- Elements that a member reads from SRC and writes to DST (Table 14.3). -/
def CollD.srcN (d : CollD) (me : Nat) : Nat :=
  match d.op with
  | 4 => if me = d.root then d.count else 0
  | 5 => 0
  | _ => d.count

def CollD.dstN (d : CollD) (n me : Nat) : Nat :=
  match d.op with
  | 0 => if me = d.root then d.count else 0
  | 2 => (blockOf d.count n me).2
  | 3 => n * d.count
  | 4 => if me = d.root && d.dst = 0 then 0 else d.count
  | 5 => 0
  | _ => d.count

/-- Format of the elements of DST. -/
def CollD.dstFmt (d : CollD) : Nat := if d.reduces then d.epi.out else d.fmt

/-- Byte intervals that the operation accesses (R336): kind, first byte, length. -/
def CollD.spans (d : CollD) (n me : Nat) : List (Acc × Nat × Nat) :=
  let src := d.srcN me * elemBytes d.fmt
  let dst := d.dstN n me * elemBytes d.dstFmt
  let sc := if d.epi.smode = 0 || !d.reduces then 0 else scaleSize d.epi * if d.epi.smode = 2 then d.count else 1
  ([(Acc.rd, d.src, src), (Acc.wr, d.dst, dst), (Acc.rd, d.scale, sc), (Acc.wr, d.stat, if d.stat = 0 then 0 else 8)] :
    List (Acc × Nat × Nat)).filter fun x => 0 < x.2.2

/-- The descriptor is malformed for the member `me` of `n` (R336). -/
def CollD.bad (d : CollD) (b : Bytes) (n me : Nat) (command : Bool) : Bool :=
  let src := d.srcN me * elemBytes d.fmt
  let dst := d.dstN n me * elemBytes d.dstFmt
  d.resv || 5 < d.op || n ≤ d.root || (d.op != 0 && d.op != 4 && d.root != 0) ||
    (if d.op = 5 then d.count != 0 else d.count = 0 || 2 ^ 26 < d.count) ||
    (d.op = 2 && d.count % n != 0) || 13 < d.fmt || subByte d.fmt ||
    (if d.reduces then !collFmt d.fmt || d.epi.epiBad || subByte d.epi.out || d.epi.ef != 0 || d.epi.ew != 0
      else !zeroAt b 40 16) ||
    (command && d.start != 0) || d.stat % 8 != 0 || (d.srcN me = 0 && d.src != 0) ||
    (d.dstN n me = 0 && d.dst != 0) || (0 < src && 0 < dst && d.src < d.dst + dst && d.dst < d.src + src)

/-! ## Packets (Table 14.6) -/

/-- Running XA values in the journal-slot layout (R255, R341). -/
def packGuarded (gs : List Guarded) : Bytes :=
  let n := gs.length
  let cls := (List.range (cdiv n 4)).map fun i =>
    BitVec.ofNat 8 ((List.range 4).foldl (fun a j => a + (classCode ((gs.getD (4 * i + j) {}).cls)) <<< (2 * j)) 0)
  gs.flatMap (fun g => leBytes 16 (g.reg.toNat % 2 ^ 128)) ++ gs.flatMap (fun g => leBytes 2 (g.reg.toNat / 2 ^ 128)) ++ cls

/-- Element `i` of `n` running values. -/
def unpackGuarded (b : Bytes) (n i : Nat) : Guarded :=
  ⟨BitVec.ofNat 144 (fld b (16 * i) 16 + fld b (16 * n + 2 * i) 2 * 2 ^ 128),
    codeClass (bits (fld b (18 * n + i / 4) 1) (2 * (i % 4) + 1) (2 * (i % 4)))⟩

/-- A piece to be sent. -/
structure SendPiece where
  kind  : Nat
  step  : Nat
  off   : Nat
  n     : Nat
  flags : Byte
  data  : Bytes
  deriving DecidableEq, Repr

/-- Cut `n` elements from element `off` on into pieces of at most `k`. -/
def cutPieces (k : Nat) : Nat → Nat → Nat → List (Nat × Nat)
  | 0, _, _ => []
  | f + 1, off, n => if n = 0 then [] else (off, min n k) :: cutPieces k f (off + min n k) (n - min n k)

/-- Pieces of elements of one format, `xs` from element `off` on, each with its flags. -/
def elemPieces (kind size off : Nat) (xs : List (BitVec 128 × Flags)) : List SendPiece :=
  (cutPieces (2016 / size) (xs.length + 1) 0 xs.length).map fun (i, n) =>
    let l := (xs.drop i).take n
    ⟨kind, 0, off + i, n, (l.foldl (fun a x => a ||| x.2) (0 : Flags)).setWidth 8, l.flatMap fun x => leBytes size x.1.toNat⟩

/-- Pieces of the running values of the elements from `off` on. -/
def runPieces (step off : Nat) (xa : Bool) (gs : List Guarded) (fs : List (BitVec 128)) (fl : Flags) : List SendPiece :=
  if xa then
    (cutPieces 108 (gs.length + 1) 0 gs.length).map fun (i, n) =>
      ⟨1, step, off + i, n, fl.setWidth 8, packGuarded ((gs.drop i).take n)⟩
  else
    (cutPieces 252 (fs.length + 1) 0 fs.length).map fun (i, n) =>
      ⟨1, step, off + i, n, fl.setWidth 8, ((fs.drop i).take n).flatMap fun x => leBytes 8 x.toNat⟩

/-- The port that a stream of a group takes among a set (R324). -/
def streamPort (set : BitVec 32) (group stream : Nat) : Option Nat :=
  let key : Word := BitVec.ofNat 64 (group * 65536 + stream)
  ((List.range 32).filter fun p => set.getLsbD p).foldl (fun best p =>
    let h := (key ^^^ ((BitVec.ofNat 64 p) <<< 56)) * 0x9E3779B97F4A7C15
    match best with
    | none => some (p, h)
    | some (b, hb) => if hb < h then some (p, h) else some (b, hb)) (none : Option (Nat × Word)) |>.map (·.1)

/-- Ports of a set that some stream number maps to, each with its lowest one (R341). -/
def streamPorts (set : BitVec 32) (group : Nat) : List (Nat × Nat) :=
  let l := (List.range 1024).map fun st => (streamPort set group st, st)
  ((List.range 32).filter fun p => set.getLsbD p).filterMap fun p =>
    (l.find? fun x => x.1 == some p).map fun x => (p, x.2)

/-- Ports of a partition for a destination (R324). -/
def State.usable (s : State) (p dev : Nat) : BitVec 32 := Map.look (s.part p).usable dev 0

/-- The bytes of a piece. -/
def pieceBytes (r : GroupRec) (me seq : Nat) (d : CollD) (stream : Nat) (x : SendPiece) : Bytes :=
  leBytes 2 r.group ++ leBytes 2 me ++ leBytes 4 seq ++ leBytes 4 r.tag.toNat ++
    [BitVec.ofNat 8 x.kind, BitVec.ofNat 8 x.step, BitVec.ofNat 8 d.op, BitVec.ofNat 8 d.fmt] ++ leBytes 4 d.count ++ leBytes 4 x.off ++
    leBytes 2 x.n ++ [x.flags, 0] ++ leBytes 2 stream ++ leBytes 2 0 ++ x.data

/-- Send pieces to one rank, spread over its usable set; to an empty set they are lost (R326). -/
def State.sendPieces (s : State) (r : GroupRec) (seq : Nat) (d : CollD) (dest : Nat) (xs : List SendPiece) : State :=
  let me := (s.member r).1
  let dev := (r.members.getD dest (0, 0)).1
  let ports := streamPorts (s.usable r.part dev) r.group
  if dest = me || ports.isEmpty then s
  else
    (xs.zip (List.range xs.length)).foldl (fun s (x, i) =>
      let (p, st) := ports.getD (i % ports.length) (0, 0)
      let k : OutPkt := ⟨true, 1, false, pieceBytes r me seq d st x, p⟩
      let eth : Bool := match s.portForm p with
        | some f => f.mode == 2
        | none => false
      let s := s.linkTraffic true false (p / 8) (32 + k.payload.length)
      if eth then s.onRoute dev fun y => { y with outQ := y.outQ ++ [k] }
      else s.onPort p fun y => { y with outQ := y.outQ ++ [k] }) s

/-- Send the same pieces to every other rank. -/
def State.sendPiecesAll (s : State) (r : GroupRec) (seq : Nat) (d : CollD) (xs : List SendPiece) : State :=
  (List.range r.n).foldl (fun s m => s.sendPieces r seq d m xs) s

/-! ## What has arrived -/

/-- The piece of a kind and step from a rank that covers an element. -/
def covers (kind step rank j : Nat) (p : Piece) : Bool :=
  p.kind = kind && p.step = step && p.rank = rank && p.offset ≤ j && j < p.offset + p.elems

def CollRun.piece (u : CollRun) (kind step rank j : Nat) : Option Piece := u.pieces.find? (covers kind step rank j)

/-- Elements `lo` to `lo + n` from a rank, when all have arrived; this member's own contribution is at hand. -/
def CollRun.elems (u : CollRun) (me rank size lo n : Nat) : Option (List (BitVec 128)) :=
  if rank = me then some ((u.own.drop lo).take n)
  else (from_ lo n).mapM fun j => (u.piece 0 0 rank j).map fun p =>
    BitVec.ofNat 128 (fld p.data ((j - p.offset) * size) size)

/-- A packet of a kind without elements has arrived from a rank. -/
def CollRun.signalled (u : CollRun) (step rank : Nat) : Bool :=
  u.pieces.any fun p => p.kind = 3 && p.step = step && p.rank = rank

/-! ## Combining (R335, R203) -/

/-- Entry of an element into the combine (Table 14.4). -/
def collEntry (f : Nat) (x : BitVec 128) : BitVec 128 × Flags :=
  if f = 13 then (x, 0) else if collXa f then toXa 0 (valOf f x) else convert 0 0 false (valOf f x)

/-- Running values of XA elements: the classes combine, and the registers of finite parts add (R78). -/
def Guarded.combine (a b : Guarded) : Guarded × Flags :=
  let (c, inv) := classAdd a.cls b.cls
  (⟨a.reg + b.reg, c⟩, flagIf inv fInvalid)

/-- One FP64 node, in RNE. -/
def fpNode (a b : BitVec 128 × Flags) : BitVec 128 × Flags :=
  let (v, f) := (valOf 0 a.1).add 0 (valOf 0 b.1)
  let (x, g) := convert 0 0 false v
  (x, a.2 ||| b.2 ||| f ||| g)

def fpPairs : List (BitVec 128 × Flags) → List (BitVec 128 × Flags)
  | a :: b :: l => fpNode a b :: fpPairs l
  | l => l

/-- The pairwise tree over rank positions (R203). -/
def fpTree : Nat → List (BitVec 128 × Flags) → BitVec 128 × Flags
  | 0, l => l.headD (0, 0)
  | k + 1, l => fpTree k (fpPairs l)

/-- One combined element from its contributions in rank order, with its flags. -/
def collCombine (f : Nat) (xs : List (BitVec 128)) : BitVec 128 × Flags :=
  let es := xs.map (collEntry f)
  if collXa f then
    let (g, fl) := es.foldl (fun (a : Guarded × Flags) e =>
      let (g, i) := a.1.add e.1
      (g, a.2 ||| e.2 ||| i)) ({}, 0)
    let (x, o) := g.narrow
    (x, fl ||| o)
  else fpTree 13 es

/-- Additions that the combine of some contributions checks: one for each element that is not of a special class (R207). -/
def collChecks (f : Nat) (xs : List (BitVec 128)) : Nat :=
  if collXa f then (xs.filter fun x => xaClass (collEntry f x).1 = .fin).length else 0

/-! ## The unit's accesses -/

def State.collEng (s : State) (r : GroupRec) (i : CollItem) : Eng :=
  { src := s.collSrc r, agent := 288 + (s.member r).2, ctx := i.ctx, ring := i.ring }

/-- Read bytes of an interval that passed its checks: the bytes, and the cause that stops the operation (Table 14.5). -/
def State.collRead (s : State) (e : Eng) (va n : Nat) : State × Bytes × Option Nat :=
  match s.vRd e va n with
  | (s, .ok r) => (s, r.data, if r.err then some 2 else if r.bad.isSome then some 6 else none)
  | (s, _) => (s, [], some 2)

/-- Elements `lo` to `lo + n` finished by the epilogue from their combined values (R335, R196). -/
def State.collFinish (s : State) (e : Eng) (d : CollD) (lo : Nat) (xs : List (BitVec 128 × Flags)) :
    State × List (BitVec 128 × Flags) × Option Nat :=
  let p := d.epi
  let sz := scaleSize p
  let fin (sc : Nat → Option Val) : List (BitVec 128 × Flags) :=
    (xs.zip (List.range xs.length)).map fun (x, i) =>
      let (y, f) := p.finish x.1 (sc i) none
      (y, x.2 ||| f)
  let val (b : Bytes) (i : Nat) : Option Val :=
    some (valOf (if p.sfmt = 1 then 0 else 1) (BitVec.ofNat 128 (fld b (i * sz) sz)))
  match p.smode with
  | 1 =>
    let (s, b, c) := s.collRead e d.scale sz
    (s, fin fun _ => val b 0, c)
  | 2 =>
    let (s, b, c) := s.collRead e (d.scale + lo * sz) (xs.length * sz)
    (s, fin fun i => val b i, c)
  | _ => (s, fin fun _ => none, none)

/-- Residue checks of a combine; a mismatch counts in the unit (R207, R343). -/
def State.collResidue (s : State) (r : GroupRec) (n : Nat) : State × Bool :=
  let q := (s.member r).2
  if n = 0 then (s, false)
  else
    let (hit, s) := s.inject (68 + q) 5 n
    if hit.isSome then (s.onColl q fun u => { u with residue := u.residue + 1 }, true) else (s, false)

/-- Combine block elements `lo` to `lo + n` of every rank and finish them; `none` while contributions are missing. -/
def State.collBlock (s : State) (r : GroupRec) (e : Eng) (d : CollD) (u : CollRun) (lo n : Nat) :
    State × Option (List (BitVec 128 × Flags) × Option Nat) :=
  let me := (s.member r).1
  match (List.range r.n).mapM fun m => u.elems me m (elemBytes d.fmt) lo n with
  | none => (s, none)
  | some xs =>
    let sums := (List.range n).map fun j => collCombine d.fmt (xs.map fun l => l.getD j 0)
    let (s, hit) := s.collResidue r (collChecks d.fmt xs.flatten)
    if hit then (s, some ([], some 5))
    else
      let (s, ys, c) := s.collFinish e d lo sums
      (s, some (ys, c))

/-! ## The end of an operation -/

/-- Each rank's lag: the count at its last packet less the count at the start; the largest, lowest rank on a tie (R345). -/
def CollRun.lag (u : CollRun) (n : Nat) : Option (Nat × Int) :=
  (List.range n).foldl (fun best m =>
    let at_ := (u.pieces.filter fun p => p.rank = m).map (·.count0)
    match at_ with
    | [] => best
    | t :: ts =>
      let l : Int := ((ts.foldl max t : Nat) : Int) - u.start
      match best with
      | none => some (m, l)
      | some (b, lb) => if lb < l then some (m, l) else some (b, lb)) none

/-- Lowest other rank from which no packet has arrived. -/
def CollRun.missing (u : CollRun) (n me : Nat) : Option Nat :=
  (List.range n).find? fun m => m != me && !u.pieces.any fun p => p.rank = m

/-- What every end of an operation records in its group. -/
def State.collClose (s : State) (r : GroupRec) (u : CollRun) : State :=
  s.onGroup r.group fun g =>
    let l := u.lag r.n
    { g with
      running := none, ended := g.ended.set ((g.nextSeq.toNat + 2 ^ 32 - 1) % 2 ^ 32) u.item.ctx, lastLag := l <|> g.lastLag
      maxLag := match l, g.maxLag with
        | some a, some b => some (if b.2 < a.2 then a else b)
        | some a, none => some a
        | none, b => b }

/-- Write the status word, when the descriptor gives a place for it (Table 14.5). -/
def State.collStatus (s : State) (e : Eng) (d : CollD) (v : Nat) : State :=
  if d.stat = 0 || d.stat % 8 != 0 || (s.vOk e .wr d.stat 8).isNone then s
  else (s.vWr e d.stat (leBytes 8 v)).1

/-- Group-queue items that an item error of a core discards (R107): its later ones on every group. -/
def State.dropCq (s : State) (c idx : Nat) : State :=
  let later (i : CollItem) : Bool := match i.core with
    | some (k, j) => k = c && idx ≤ j
    | none => false
  { s with groups := s.groups.map fun e =>
      (e.1, { e.2 with queue := e.2.queue.filter (fun i => !later i), running := e.2.running.filter fun u => !later u.item }) }

/-- Flags of the block that the member has finished itself. -/
def CollRun.blockFlags (u : CollRun) : Flags := (u.block.getD []).foldl (fun a y => a ||| y.2) 0

/-- An operation aborts (R343): abort packets unless the cause was received, unspecified bytes in DST, the status word, and the end of
its command or item. `own` is the status of a failed check of this member's own. -/
def State.collAbort (s : State) (r : GroupRec) (u : CollRun) (cause : Nat) (remote : Bool) (own : Option Byte) : State :=
  let d := parseColl u.item.desc
  let e := s.collEng r u.item
  let (me, q) := s.member r
  let seq := (s.group r.group).nextSeq.toNat + 2 ^ 32 - 1
  let s := if remote then s else s.sendPiecesAll r (seq % 2 ^ 32) d [⟨4, 0, 0, 0, BitVec.ofNat 8 cause, []⟩]
  let n := d.dstN r.n me * elemBytes d.dstFmt
  let s := if own.isSome || n = 0 then s
    else
      let (b, s) := freshBytes n s
      (s.vWr e d.dst b).1
  let miss := u.missing r.n me
  let fl := u.pieces.foldl (fun a p => if p.kind = 2 then a ||| p.flags.setWidth 4 else a) (u.vflags ||| u.flags ||| u.blockFlags)
  let s := s.collStatus e d (fl.toNat + 0x20 * b2n u.item.late + 0x40 + 0x80 * b2n remote + 0x100 * cause + 0x10000 * miss.getD 0)
  let s := ((s.collClose r u).gather u.item.ctx fl).onGroup r.group fun g =>
    { g with cause := BitVec.ofNat 8 cause, aborts := g.aborts + 1, missing := miss }
  let a : Alarm := { src := 68 + q, sev := if cause = 5 then 2 else 1, cause := 0x14, ctx := some u.item.ctx, part := none,
                     inj := cause == 5, info := BitVec.ofNat 32 cause }
  let s := s.raise a
  match u.item.cmd, u.item.core with
  | some (qn, serial), _ =>
    let s := s.endCmd qn serial (own.getD 4)
    if own = some 1 then s.onQueue qn fun x => { x with err := true } else s
  | none, some (c, idx) => ((s.onCore c fun x => x.onUnit .cq fun u => u.fail idx).irq c 32).dropCq c idx
  | none, none => s

/-- An operation completes: status word, flags, lags, and the end of its command or item. -/
def State.collEnd (s : State) (r : GroupRec) (u : CollRun) (fl : Flags) : State :=
  let d := parseColl u.item.desc
  let s := s.collStatus (s.collEng r u.item) d (fl.toNat + 0x20 * b2n u.item.late)
  let s := (s.collClose r u).gather u.item.ctx fl
  match u.item.cmd, u.item.core with
  | some (qn, serial), _ => s.endCmd qn serial 0
  | none, some (c, idx) => s.itemDone c .cq idx
  | none, none => s

/-! ## Algorithms (Table 14.7) -/

inductive CollAlg where
  | direct
  | rdouble
  | rsag
  | scatter
  | dissem
  deriving DecidableEq, Repr

/-- Rounds of a power of two, or of the next one. -/
def log2up (n : Nat) : Nat := ((List.range 14).find? fun k => n ≤ 2 ^ k).getD 13

def collAlg (r : GroupRec) (d : CollD) : CollAlg :=
  let small := decide (d.count * elemBytes d.fmt < r.threshold)
  match d.op with
  | 0 | 1 =>
    if !small then .rsag
    else if r.n ≤ r.directMax then .direct
    else if 2 ^ log2up r.n = r.n then .rdouble
    else .rsag
  | 4 => if small then .direct else .scatter
  | 5 => if r.n ≤ r.directMax then .direct else .dissem
  | _ => .direct

/-- Running values at the start of a segment: the member's own contribution after its entry. -/
def CollRun.enter (u : CollRun) (d : CollD) (seg : Nat × Nat) : CollRun :=
  let es := ((u.own.drop seg.1).take seg.2).map (collEntry d.fmt)
  let fl := es.foldl (fun a e => a ||| e.2) (0 : Flags)
  if collXa d.fmt then { u with value := es.map fun e => ((({} : Guarded).add e.1).1), vflags := fl }
  else { u with fpval := es.map (·.1), vflags := fl }

def noFlags (xs : List (BitVec 128)) : List (BitVec 128 × Flags) := xs.map fun x => (x, 0)

/-- The first sends of the segment that an operation is to run (R338, R340). -/
def State.collFirst (s : State) (r : GroupRec) (d : CollD) (u : CollRun) (seq : Nat) : State × CollRun :=
  let me := (s.member r).1
  let size := elemBytes d.fmt
  let seg := segOf r d u.seg
  let part (x : Nat × Nat) : List SendPiece := elemPieces 0 size x.1 (noFlags ((u.own.drop x.1).take x.2))
  let blk (m : Nat) : List SendPiece := part (blockIn r d m seg)
  let whole := part seg
  let blocks (s : State) : State := (List.range r.n).foldl (fun s m => s.sendPieces r seq d m (blk m)) s
  match collAlg r d, d.op with
  | .direct, 0 => (if me = d.root then s else s.sendPieces r seq d d.root whole, u)
  | .direct, 2 => (blocks s, u)
  | .direct, 4 => (if me = d.root then s.sendPiecesAll r seq d whole else s, u)
  | .direct, 5 => (s.sendPiecesAll r seq d [⟨3, 0, 0, 0, 0, []⟩], u)
  | .direct, _ => (s.sendPiecesAll r seq d whole, u)
  | .rdouble, _ =>
    let u := u.enter d seg
    (if r.n = 1 then s else s.sendPieces r seq d (me ^^^ 1) (runPieces 0 seg.1 (collXa d.fmt) u.value u.fpval u.vflags), u)
  | .rsag, _ => (blocks s, u)
  | .scatter, _ =>
    if me = d.root then ((blocks s).sendPiecesAll r seq d (blk me), { u with passed := true }) else (s, u)
  | .dissem, _ => (if r.n = 1 then s else s.sendPieces r seq d ((me + 1) % r.n) [⟨3, 0, 0, 0, 0, []⟩], u)

def joinFlags (fs : List Flags) : Flags := fs.foldl (· ||| ·) 0

/-- What moving on leads to: the operation goes on, or aborts with a cause. -/
abbrev CollGo := State × CollRun × Option Nat

/-- One round of recursive doubling, when the partner's running values have arrived. -/
def State.collRound (s : State) (r : GroupRec) (d : CollD) (u : CollRun) (seq : Nat) : CollGo × Bool :=
  let me := (s.member r).1
  let peer := me ^^^ (2 ^ u.round)
  let (lo, n) := segOf r d u.seg
  let js := from_ lo n
  let have_ := js.all fun j => (u.piece 1 u.round peer j).isSome
  if log2up r.n ≤ u.round || !have_ then ((s, u, none), false)
  else
    let ps := u.pieces.filter fun p => p.kind = 1 && p.step = u.round && p.rank = peer && lo ≤ p.offset && p.offset < lo + n
    let pf := ps.foldl (fun a p => a ||| p.flags.setWidth 4) (0 : Flags)
    let theirs := js.map fun j => match u.piece 1 u.round peer j with
      | some p => unpackGuarded p.data p.elems (j - p.offset)
      | none => {}
    let (s, hit) := s.collResidue r (if collXa d.fmt then (theirs.filter fun b => b.cls = .fin).length else 0)
    if hit then ((s, u, some 5), false)
    else
      let u :=
        if collXa d.fmt then
          let cs : List (Guarded × Flags) := (u.value.zip theirs).map fun (a, b) => if me < peer then a.combine b else b.combine a
          { u with value := cs.map Prod.fst, vflags := u.vflags ||| pf ||| joinFlags (cs.map Prod.snd) }
        else
          let cs : List (BitVec 128 × Flags) := (u.fpval.zip js).map fun (a, j) =>
            let b : BitVec 128 := match u.piece 1 u.round peer j with
              | some p => BitVec.ofNat 128 (fld p.data ((j - p.offset) * 8) 8)
              | none => 0
            if me < peer then fpNode (a, 0) (b, 0) else fpNode (b, 0) (a, 0)
          { u with fpval := cs.map Prod.fst, vflags := u.vflags ||| pf ||| joinFlags (cs.map Prod.snd) }
      let u := { u with round := u.round + 1 }
      let s := if u.round < log2up r.n then
          s.sendPieces r seq d (me ^^^ (2 ^ u.round)) (runPieces u.round lo (collXa d.fmt) u.value u.fpval u.vflags)
        else s
      ((s, u, none), true)

/-- One move of an operation after a packet: a round, a finished block, or a block passed on. -/
def State.collMove (s : State) (r : GroupRec) (d : CollD) (u : CollRun) (seq : Nat) : CollGo × Bool :=
  let me := (s.member r).1
  let size := elemBytes d.fmt
  let (lo, n) := blockIn r d me (segOf r d u.seg)
  match collAlg r d with
  | .direct => ((s, u, none), false)
  | .rdouble => s.collRound r d u seq
  | .rsag =>
    if u.block.isSome then ((s, u, none), false)
    else
      match s.collBlock r (s.collEng r u.item) d u lo n with
      | (s, none) => ((s, u, none), false)
      | (s, some (_, some c)) => ((s, u, some c), false)
      | (s, some (ys, none)) =>
        let xs := elemPieces 2 (elemBytes d.epi.out) lo ys
        let s := if d.op = 0 then s.sendPieces r seq d d.root xs else s.sendPiecesAll r seq d xs
        ((s, { u with block := some ys }, none), true)
  | .scatter =>
    if u.passed then ((s, u, none), false)
    else
      match u.elems me d.root size lo n with
      | none => ((s, u, none), false)
      | some xs =>
        let ps := elemPieces 0 size lo (noFlags xs)
        let s := (List.range r.n).foldl (fun s m => if m = d.root then s else s.sendPieces r seq d m ps) s
        ((s, { u with passed := true }, none), true)
  | .dissem =>
    let from_ := (me + r.n - 2 ^ u.round % r.n) % r.n
    if log2up r.n ≤ u.round || !u.signalled u.round from_ then ((s, u, none), false)
    else
      let u := { u with round := u.round + 1 }
      let s := if u.round < log2up r.n then
          s.sendPieces r seq d ((me + 2 ^ u.round) % r.n) [⟨3, u.round, 0, 0, 0, []⟩]
        else s
      ((s, u, none), true)

/-- Elements of a result with their flags, from an element of DST on. -/
abbrev DstRun := Nat × List (BitVec 128 × Flags)

/-- Results of a segment at a member, or `none` while packets are missing (Table 14.3). -/
def State.collResult (s : State) (r : GroupRec) (d : CollD) (u : CollRun) : State × Option (List DstRun × Option Nat) :=
  let me := (s.member r).1
  let size := elemBytes d.fmt
  let e := s.collEng r u.item
  let (lo, n) := segOf r d u.seg
  let at_ (k : Nat) : State × Option (List (BitVec 128 × Flags) × Option Nat) → State × Option (List DstRun × Option Nat)
    | (s, x) => (s, x.map fun y => ([(k, y.1)], y.2))
  match collAlg r d, d.op with
  | .direct, 0 => if me = d.root then at_ lo (s.collBlock r e d u lo n) else (s, some ([], none))
  | .direct, 1 => at_ lo (s.collBlock r e d u lo n)
  | .direct, 2 =>
    let (b, k) := blockIn r d me (lo, n)
    at_ (b - (blockOf d.count r.n me).1) (s.collBlock r e d u b k)
  | .direct, 3 =>
    (s, ((List.range r.n).mapM fun m => (u.elems me m size lo n).map fun l => (m * d.count + lo, noFlags l)).map fun l => (l, none))
  | .direct, 4 =>
    (s, (u.elems me d.root size lo n).map fun l => (if me = d.root && d.dst = 0 then [] else [(lo, noFlags l)], none))
  | .direct, _ => (s, if (List.range r.n).all (fun m => m = me || u.signalled 0 m) then some ([], none) else none)
  | .rdouble, _ =>
    if u.round < log2up r.n then (s, none)
    else
      let xs := if collXa d.fmt then u.value.map Guarded.narrow else noFlags u.fpval
      if d.op = 0 && me != d.root then (s, some ([], none))
      else
        let (s, ys, c) := s.collFinish e d lo xs
        (s, some ([(lo, ys)], c))
  | .rsag, _ =>
    match u.block with
    | none => (s, none)
    | some ys =>
      if d.op = 0 && me != d.root then (s, some ([], none))
      else
        let sz := elemBytes d.epi.out
        let all : Option (List DstRun) := (List.range r.n).mapM fun m =>
          let (b, k) := blockIn r d m (lo, n)
          if m = me then some (b, ys)
          else
            ((from_ b k).mapM fun j => (u.piece 2 0 m j).map fun p =>
              (BitVec.ofNat 128 (fld p.data ((j - p.offset) * sz) sz), p.flags.setWidth 4)).map fun l => (b, l)
        (s, all.map fun l => (l, none))
  | .scatter, _ =>
    if me = d.root then (s, some (if d.dst = 0 then [] else [(lo, noFlags ((u.own.drop lo).take n))], none))
    else
      let all : Option (List DstRun) := (List.range r.n).mapM fun m =>
        let (b, k) := blockIn r d m (lo, n)
        (u.elems r.n (if m = me then d.root else m) size b k).map fun l => (b, noFlags l)
      (s, all.map fun l => (l, none))
  | .dissem, _ => (s, if log2up r.n ≤ u.round then some ([], none) else none)

/-- The flags of the elements that a member receives or finishes, up to and with this segment (R339). -/
def collFlags (r : GroupRec) (d : CollD) (u : CollRun) (xs : List DstRun) : Flags :=
  let run := if collAlg r d = .rdouble then u.vflags else 0
  xs.foldl (fun a x => x.2.foldl (fun a y => a ||| y.2) a) (u.flags ||| u.blockFlags ||| run)

/-- Write results to DST; answers whether a write failed. -/
def State.collWrite (e : Eng) (d : CollD) : List DstRun → State → State × Bool
  | [], s => (s, false)
  | (k, xs) :: l, s =>
    let sz := elemBytes d.dstFmt
    if xs.isEmpty then State.collWrite e d l s
    else
      match s.vWr e (d.dst + k * sz) (xs.flatMap fun x => leBytes sz x.1.toNat) with
      | (s, true) => (s, true)
      | (s, false) => State.collWrite e d l s

/-- The end of a segment that is not the last, once all it needs has arrived: its part of DST is written and the next one starts
(R340). -/
def State.collNext (s : State) (r : GroupRec) (d : CollD) (u : CollRun) (seq : Nat) : CollGo × Bool :=
  if segCount r d ≤ u.seg + 1 then ((s, u, none), false)
  else
    match s.collResult r d u with
    | (s, none) => ((s, u, none), false)
    | (s, some (_, some c)) => ((s, u, some c), false)
    | (s, some (xs, none)) =>
      match State.collWrite (s.collEng r u.item) d xs s with
      | (s, true) => ((s, u, some 2), false)
      | (s, false) =>
        let v := { u with
          seg := u.seg + 1, flags := collFlags r d u xs, round := 0, value := [], fpval := [], vflags := 0, block := none, passed := false }
        let (s, v) := s.collFirst r d v seq
        ((s, v, none), true)

/-- Move as far as the packets that have arrived allow. -/
def collPump (r : GroupRec) (d : CollD) (seq : Nat) : Nat → State → CollRun → CollGo
  | 0, s, u => (s, u, none)
  | f + 1, s, u =>
    match s.collMove r d u seq with
    | ((s, u, none), true) => collPump r d seq f s u
    | ((s, u, none), false) =>
      match s.collNext r d u seq with
      | ((s, u, none), true) => collPump r d seq f s u
      | (x, _) => x
    | (x, _) => x

/-- Moves that an operation can make: in each segment a round for each bit of a rank, a block, and the next segment. -/
def collFuel (r : GroupRec) (d : CollD) : Nat := 16 * segCount r d

/-- The running operation of a group completes once all that its last segment needs has arrived: DST and the status word are written. -/
def State.collTry (s : State) (r : GroupRec) (u : CollRun) : State :=
  let d := parseColl u.item.desc
  if u.seg + 1 < segCount r d then s
  else
    match s.collResult r d u with
    | (s, none) => s
    | (s, some (_, some c)) => s.collAbort r u c false none
    | (s, some (xs, none)) =>
      match State.collWrite (s.collEng r u.item) d xs s with
      | (s, true) => s.collAbort r u 2 false none
      | (s, false) => s.collEnd r u (collFlags r d u xs)

def execCollectiveComplete (g : Fin 4096) (s : State) : Res :=
  match s.groupRec g, (s.group g).running with
  | some r, some u => if s.goes (s.collSrc r) then .next (s.collTry r u) else .next s
  | _, _ => .next s

/-! ## Launching and starting (R331 to R337, R351) -/

/-- A failed check before the first packet: malformed, or the first interval that fails (R336). -/
def State.collCheck (s : State) (r : GroupRec) (i : CollItem) : State × Option (Nat × Byte) × List Range :=
  let d := parseColl i.desc
  let me := (s.member r).1
  let e := s.collEng r i
  if d.bad i.desc r.n me i.cmd.isSome then (s, some (3, 1), [])
  else
    (d.spans r.n me).foldl (fun (a : State × Option (Nat × Byte) × List Range) x =>
      let (s, bad, rs) := a
      if bad.isSome then a
      else
        match s.vecPlace e x.2.1 x.2.2 [x.1] with
        | .inl (pa, _, idx) => (s.touch e.agent e.ctx idx, none, rs ++ [⟨pa, pa + x.2.2, x.1 == .wr⟩])
        | .inr (_, g, pa) => (s.refuse { src := e.src, ctx := some e.ctx } g pa, some (2, 2), [])) (s, none, [])

/-- The pieces of an operation that arrived before its start. -/
def Group.take (g : Group) : List Piece := g.early.filter fun p => p.seq = g.nextSeq.toNat

/-- A piece disagrees with the member's descriptor (R337). -/
def CollD.differs (d : CollD) (p : Piece) : Bool :=
  p.kind != 4 && (p.op != d.op || p.fmt != d.fmt || p.count != d.count)

/-- An operation that has started runs as far as the packets that have arrived allow, or aborts. -/
def State.collRun (s : State) (r : GroupRec) (u : CollRun) (seq : Nat) : State :=
  let d := parseColl u.item.desc
  match collPump r d seq (collFuel r d) s u with
  | (s, u, some c) => s.collAbort r u c false none
  | (s, u, none) => s.onGroup r.group fun x => { x with running := some u }

/-- An abort packet for the next operation of the group waits for it (R344). -/
def Group.aborted (g : Group) : Bool := g.early.any fun p => p.seq = g.nextSeq.toNat && p.kind = 4

/-- The operation at the head of a group's queue starts: its checks, its sequence number, what has arrived for it, and its first sends
(R336 to R338, R344). -/
def State.collBegin (s : State) (r : GroupRec) (i : CollItem) (rest : List CollItem) : State :=
  let d := parseColl i.desc
  let timed := d.start != 0 && i.cmd.isNone
  let i := { i with late := timed && !i.due && decide (d.start < s.cellar.count) }
  let s := s.timedLaunch timed
  let (s, bad, _) := s.collCheck r i
  let grp := s.group r.group
  let seq := grp.nextSeq.toNat
  let u : CollRun := { item := i, began := s.now, start := s.cellar.count, own := [], pieces := grp.take }
  let s := s.setGroup r.group { grp with
    queue := rest, nextSeq := grp.nextSeq + 1, early := grp.early.filter (fun p => p.seq != seq), running := some u }
  match u.pieces.find? (fun p => p.kind = 4), bad with
  | some p, _ => s.collAbort r u p.flags.toNat true (bad.map (·.2))
  | none, some (c, st) => s.collAbort r u c false (some st)
  | none, none =>
    let me := (s.member r).1
    let size := elemBytes d.fmt
    let (s, b, bad) := if d.srcN me = 0 then (s, [], none) else s.collRead (s.collEng r i) d.src (d.srcN me * size)
    let u := { u with own := (List.range (d.srcN me)).map fun j => BitVec.ofNat 128 (fld b (j * size) size) }
    match bad with
    | some c => s.collAbort r u c false none
    | none =>
      if u.pieces.any d.differs then s.collAbort r u 4 false none
      else
        let (s, u) := s.collFirst r d u seq
        s.collRun r u seq

/-- The operation at the head of a group's queue starts, when it is of this kind and due; one that an abort packet waits for is due at
once (R344). A reserved OP starts with REDUCE (log entry 48). -/
def State.collStart (s : State) (g op : Nat) : State :=
  match s.groupRec g, (s.group g).running, (s.group g).queue with
  | some r, none, i :: rest =>
    let d := parseColl i.desc
    let due := d.start = 0 || i.cmd.isSome || i.due || decide (d.start ≤ s.cellar.count) || (s.group g).aborted
    if !s.running || !s.admits (s.collSrc r) || !due || (if 5 < d.op then op != 0 else op != d.op) then s
    else s.collBegin r i rest
  | _, _, _ => s

def execReduce (g : Fin 4096) (s : State) : Res := .next (s.collStart g 0)
def execAllReduce (g : Fin 4096) (s : State) : Res := .next (s.collStart g 1)
def execReduceScatter (g : Fin 4096) (s : State) : Res := .next (s.collStart g 2)
def execAllGather (g : Fin 4096) (s : State) : Res := .next (s.collStart g 3)
def execBroadcast (g : Fin 4096) (s : State) : Res := .next (s.collStart g 4)
def execBarrier (g : Fin 4096) (s : State) : Res := .next (s.collStart g 5)

/-- The group that a context may launch on (R331). -/
def State.launchGroup (s : State) (k g : Nat) : Option GroupRec :=
  match s.groupRec g with
  | some r => if s.partOfCtx k == some r.part then some r else none
  | none => none

/-- A COLLECTIVE command: its descriptor is read and checked, its ranges are compared before it starts (R51), and its operation is the next
of its group. One that fails its checks still takes its turn there, and aborts (R336). -/
def execCollective (n : Fin 8192) (s : State) : Res :=
  match s.startable n 4 with
  | none => .next s
  | some c =>
    let s := s.start n c
    let k := n.val / 8
    let va := c.body64 0
    if va % 64 != 0 || !zeroAt c.body 8 24 then .next (s.malform n c.serial)
    else
      match s.vRd (cmdEng n) va 64 with
      | (s, .ok r) =>
        if r.err then .next (s.accessFail n c.serial 7)
        else if r.bad.isSome then .next (s.accessFail n c.serial 0x15)
        else
          match s.launchGroup k (parseColl r.data).group with
          | none => .next (s.malform n c.serial)
          | some gr =>
            if !gr.command then .next (s.malform n c.serial)
            else
              let grp := s.group gr.group
              if grp.running.isSome || !grp.queue.isEmpty then .next (s.sev (s.collSrc gr) 2 0x0A (some k))
              else
                let i : CollItem := ⟨none, some (n, c.serial), k, 2, r.data, false, false⟩
                let put (s : State) : State := s.onGroup gr.group fun x => { x with queue := x.queue ++ [i] }
                match s.collCheck gr i with
                | (t, none, rs) =>
                  match t.declare n c.serial rs with
                  | (t, true) => .next (put t)
                  | (t, false) => .next t
                | (_, some _, _) => .next (put s)
      | (s, _) => .next (s.accessFail n c.serial 7)

/-- A CQ push enters its group's queue (R331, R333). -/
def State.cqPush (s : State) (c : Nat) (va : Word) (ring : BitVec 2) : State :=
  let x := s.core c
  let idx := x.cq.pushed
  let k := x.seq.context
  let src := 68 + c / 16
  let s := s.setCore c (x.onUnit .cq fun u => u.push va ring)
  if va.toNat % 64 != 0 then s.itemError c .cq idx src 6 va.toNat idx
  else
    match s.vRd { src := src, agent := 288 + c / 16, ctx := k, ring := ring } va.toNat 64 with
    | (s, .ok r) =>
      if r.err then s.itemError c .cq idx src 7 va.toNat idx
      else if r.bad.isSome then s.itemError c .cq idx src 0x15 va.toNat idx
      else
        match s.launchGroup k (parseColl r.data).group with
        | none => s.itemError c .cq idx src 6 va.toNat idx
        | some gr =>
          let grp := s.group gr.group
          let other (i : CollItem) : Bool := match i.core with
            | some (y, _) => y != c
            | none => false
          let src := s.collSrc gr
          if gr.command then s.itemError c .cq idx src 6 va.toNat idx
          else if grp.queue.any other || (grp.running.map fun u => other u.item) == some true then
            ((s.onCore c fun x => x.onUnit .cq fun u => u.fail idx).irq c 32).sev src 2 0x0A (some k) va.toNat
          else
            let i : CollItem := ⟨some (c, idx), none, k, ring, r.data, false, false⟩
            s.onGroup gr.group fun x => { x with queue := x.queue ++ [i] }
    | (s, .miss) => s.itemError c .cq idx src 8 va.toNat idx
    | (s, .perm) => s.itemError c .cq idx src 7 va.toNat idx

/-- The cellar count reaches START_AT of the descriptor at the head of a group queue. -/
def execStartAtReached (g : Fin 4096) (s : State) : Res :=
  let x := s.group g
  match x.running, x.queue with
  | none, i :: rest =>
    let t := (parseColl i.desc).start
    if i.cmd.isSome || t = 0 || i.due || t < s.cellar.count then .next s
    else .next ((s.toCount t).setGroup g { x with queue := { i with due := true } :: rest })
  | _, _ => .next s

def execCollectiveTimeout (g : Fin 4096) (s : State) : Res :=
  match s.groupRec g, (s.group g).running with
  | some r, some u => .next ((s.toNow (u.began + 1000 * r.timeout)).collAbort r u 1 false none)
  | _, _ => .next s

/-! ## Packets in (R342 to R344) -/

/-- The piece that a payload carries. -/
def parsePiece (b : Bytes) (count : Nat) : Piece where
  rank := bits (fld b 2 2) 12 0
  seq := fld b 4 4
  kind := fld b 12 1
  step := fld b 13 1
  op := fld b 14 1
  fmt := fld b 15 1
  count := fld b 16 4
  offset := fld b 20 4
  elems := fld b 24 2
  flags := BitVec.ofNat 8 (fld b 26 1)
  data := b.drop 32
  count0 := count

def State.tagDiscard (s : State) (q : Nat) : State := s.onColl q fun u => { u with discards := u.discards + 1 }

/-- A packet of the running operation: its piece is kept, and the operation goes on or aborts (R337, R343). -/
def State.collPiece (s : State) (r : GroupRec) (u : CollRun) (seq : Nat) (p : Piece) : State :=
  let u := { u with pieces := u.pieces ++ [p] }
  if p.kind = 4 then s.collAbort r u p.flags.toNat true none
  else if (parseColl u.item.desc).differs p then s.collAbort r u 4 false none
  else s.collRun r u seq

/-- A collective payload arrives in a quarter whose unit counts what names no group here. An abort of an operation that has ended sets
LATE_ABORT; one for the next operation, when it waits in the group's queue, starts it aborted (R342, R344). -/
def State.collPacket (s : State) (q : Nat) (b : Bytes) : State :=
  let p := parsePiece b s.cellar.count
  match s.groupRec (bits (fld b 0 2) 11 0) with
  | none => s.tagDiscard q
  | some r =>
    let g := r.group
    let grp := s.group g
    let (me, mq) := s.member r
    let cur := (grp.nextSeq.toNat + 2 ^ 32 - 1) % 2 ^ 32
    if fld b 8 4 != r.tag.toNat || r.n ≤ p.rank || p.rank = me then s.tagDiscard mq
    else if p.seq = grp.nextSeq.toNat then
      let s := s.onGroup g fun x => { x with early := x.early ++ [p] }
      match p.kind, grp.running, grp.queue with
      | 4, none, i :: rest => s.collBegin r i rest
      | _, _, _ => s
    else
      match grp.running, p.kind, grp.ended.find p.seq with
      | some u, k, e =>
        if p.seq = cur then s.collPiece r u cur p
        else
          match k, e with
          | 4, some k => (s.onGroup g fun x => { x with lateAbort := true }).sev (68 + mq) 1 0x14 (some k)
          | _, _ => s.tagDiscard mq
      | none, 4, some k => (s.onGroup g fun x => { x with lateAbort := true }).sev (68 + mq) 1 0x14 (some k)
      | none, _, _ => s.tagDiscard mq

/-! ## GROUP_SEL -/

/-- A write selects a group; LATE_ABORT of the group selected until then clears (log entry 52). -/
def execGroupSel (r : Requester) (q : Fin 4) (v : Word) (s : State) : Res :=
  if !writesBlock r then .next s
  else
    let old := (s.coll q).sel.toNat
    let here : Bool := match s.groupRec old with
      | some gr => (s.member gr).2 == q.val
      | none => false
    let s := if here then s.onGroup old fun g => { g with lateAbort := false } else s
    .next (s.onColl q fun u => { u with sel := v.setWidth 12 })

end Sys2Proof.Machine
end

