-- ==== Sys2Proof/Machine/Link.lean ====
section
/-!
DEFINITION. The rows of the Maruno link (R309 to R326): flits, packets sent and received, transport over Ethernet, discovery, sessions,
admission and departure.
-/

namespace Sys2Proof.Machine

/-! ## Discovery and admission (R319 to R321) -/

/-- A trellis image has been applied since the reset. -/
def State.imageActive (s : State) : Bool := s.trellis.gen != 0

/-- LVC0 and LVC1 credits of a receiver (R311). -/
def lvc0Credits : Nat := 64
def lvc1Credits : Nat := 1024

/-- IDENTIFY begins: a plain packet of discovery is queued, whose layout the spec does not give (log entry 43). -/
def State.identify (s : State) (l : LinkId) : State :=
  let (b, s) := freshBytes 8 s
  let k : OutPkt := ⟨false, 0, true, b, 32⟩
  match l with
  | .port p => s.onPort p fun x => { x with st := 4, since := s.now, outQ := x.outQ ++ [k] }
  | .route d => s.onRoute d fun x => { x with st := 4, since := s.now, cred0 := lvc0Credits, outQ := x.outQ ++ [k] }

def State.portUp (s : State) (p : Nat) : Bool := (s.port p).st = 6 && (s.port p).mode = 2

/-- The lowest UP port of a route. -/
def State.routePort (s : State) (f : RouteForm) : Option Nat :=
  (List.range 32).find? fun p => f.portMask.getLsbD p && s.portUp p

/-- Routes that wait for a port begin IDENTIFY (Table 13.11). -/
def State.wakeRoutes (s : State) : State :=
  s.active.routes.foldl (fun s f =>
    if (s.route f.dest.toNat).st = 0 && (s.routePort f).isSome then s.identify (.route ⟨f.dest.toNat, f.dest.isLt⟩) else s) s

/-- A trained port goes on once an image is active: native to IDENTIFY, Ethernet to UP (R319, R321). -/
def State.trainedOn (s : State) (p : Fin 32) : State :=
  let x := s.port p
  if x.st != 3 || !s.imageActive then s
  else if x.mode = 2 then (s.onPort p fun x => { x with st := 6, since := s.now }).wakeRoutes
  else s.identify (.port p)

def execDetectPoll (p : Fin 32) (lanes : BitVec 4) (s : State) : Res :=
  let x := s.port p
  if x.st != 1 then .next s
  else
    let s := s.toNow (x.since + 1000000)
    .next (s.onPort p fun x => { x with st := if lanes = 15 then 2 else 1, since := s.now })

def execTrainingComplete (p : Fin 32) (reversed : Bool) (s : State) : Res :=
  let x := s.port p
  if x.st != 2 then .next s
  else
    let lit (b : Byte) : Byte := b ||| 3
    let lanes := (List.range 4).foldl (fun m l => Map.set m l (lit (Map.look m l 0))) x.lanes
    let s := s.onPort p fun x =>
      { x.left 3 x.cause s.now with reversed := reversed, lanes := lanes, lost := [], cred0 := lvc0Credits }
    .next (s.trainedOn p)

def execTrainingTimeout (p : Fin 32) (s : State) : Res :=
  let x := s.port p
  if x.st != 2 then .next s
  else .next ((s.toNow (x.since + if x.mode = 2 then 500000000 else 200000000)).portDown p 5)

def State.linkSince (s : State) (l : LinkId) : Nat :=
  match l with
  | .port p => (s.port p).since
  | .route d => (s.route d).since

def execIdentifyTimeout (l : LinkId) (s : State) : Res :=
  if s.linkSt l != 4 then .next s else .next ((s.toNow (s.linkSince l + 50000000)).linkDown l 6)

/-- A port leaves DOWN, or is enabled: to DETECT, or to DISABLED under HOLD or MODE 0. -/
def State.portRestart (s : State) (p : Nat) : State :=
  s.onPort p fun x => { x with st := if x.hold || x.mode = 0 then 0 else 1, since := s.now }

/-- The compute domain is out of reset (R400). -/
def State.broughtUp (s : State) : Bool := s.boot.phase = 3 || s.boot.phase = 4

def execHoldoffExpiry (l : LinkId) (s : State) : Res :=
  if s.linkSt l != 8 || !s.broughtUp then .next s
  else
    let s := s.toNow (s.linkSince l + 10000000)
    match l with
    | .port p => .next (s.portRestart p)
    | .route d => .next (s.onRoute d fun x => { x with st := 0, since := s.now }).wakeRoutes

/-- The conditions of ADMIT on a native port (R320). -/
def portAdmits (own : BitVec 13) (f : PortForm) (w : PeerId) : Bool :=
  w.dev = f.partnerDev && w.port = f.partnerPort && (f.partnerKey = 0 || f.partnerKey = w.keyHash) && w.dev != own &&
    w.native && w.namesUs

/-- The conditions of ADMIT on a route (R321). -/
def routeAdmits (own : BitVec 13) (f : RouteForm) (w : PeerId) : Bool :=
  w.dev = f.dest && (f.destKey = 0 || f.destKey = w.keyHash) && w.dev != own && !w.native && w.namesUs

/-- ADMIT: UP with LVC1 credit, or QUARANTINED with DEV_IRQ_VEC (R320, R321). -/
def State.admitPeer (s : State) (l : LinkId) (w : PeerId) : State :=
  match l with
  | .port p =>
    let ok := match s.portForm p with
      | some f => portAdmits s.active.dev f w
      | none => false
    let s := s.onPort p fun x =>
      { x with st := if ok then 6 else 7, since := s.now, cred1 := if ok then lvc1Credits else 0, partDev := w.dev, partPort := w.port }
    if ok then s else s.devIrq
  | .route d =>
    let ok := match s.routeForm d with
      | some f => routeAdmits s.active.dev f w
      | none => false
    let s := s.onRoute d fun x => { x with st := if ok then 6 else 7, since := s.now, cred1 := if ok then lvc1Credits else 0 }
    if ok then s else s.devIrq

/-! ## Sessions (R313, R315) -/

/-- A key and IV that SPDM derives: free values, with PSN 0. -/
def State.freshKey (s : State) : DirKey × State :=
  let (k, s) := freshBytes 32 s
  let (v, s) := freshBytes 12 s
  (⟨BitVec.ofNat 256 (leNat k), BitVec.ofNat 96 (leNat v), 0⟩, s)

/-- KEY_EXCHANGE of a link's peer. One that does not verify takes the link down (cause IDENTITY). -/
def State.linkExchange (s : State) (l : LinkId) (w : PeerId) : State :=
  if s.linkSt l != 4 then s
  else if !w.ok then s.linkDown l 6
  else
    let (t, s) := s.freshKey
    let (r, s) := s.freshKey
    s.onSess l fun _ =>
      { exchanged := true, ready := false, requester := decide (s.active.dev.toNat < w.dev.toNat), who := some w, tx := t, rx := r }

/-- FINISH of a link's peer; the partner is then examined. -/
def State.linkFinish (s : State) (l : LinkId) (ok : Bool) : State :=
  let x := s.sessOf l
  match x.who with
  | some w =>
    if !x.exchanged || x.ready || s.linkSt l != 4 then s
    else if !ok then s.linkDown l 6
    else (s.onSess l fun x => { x with ready := true }).admitPeer l w
  | none => s

/-- A completed KEY_UPDATE: one direction has a new key and PSN 0. -/
def State.linkUpdate (s : State) (l : LinkId) (outbound : Bool) : State :=
  if !(s.sessOf l).ready then s
  else
    let (k, s) := s.freshKey
    s.onSess l fun x => if outbound then { x with tx := k, updating := false } else { x with rx := k }

/-- The session ends and the link goes down; the spec gives that departure no cause code of its own (log entry 44). -/
def State.linkEnd (s : State) (l : LinkId) : State :=
  if !(s.sessOf l).exchanged then s
  else
    let (c, s) := s.fresh
    s.linkDown l (c.toNat % 16)

/-! ## Sending (R311 to R315) -/

/-- Bytes of a packet on the wire. -/
def OutPkt.size (k : OutPkt) (plain : Bool) : Nat := 16 + k.payload.length + if plain then 0 else 16

/-- A queued packet may be sent: what its session and state allow, and credit for the whole packet. -/
def OutPkt.goes (k : OutPkt) (ready : Bool) (st c0 c1 : Nat) : Bool :=
  let n := credits (k.size (k.plain && !ready))
  if k.vc then ready && st = 6 && n ≤ c1 else (ready || k.plain) && 4 ≤ st && st ≤ 7 && n ≤ c0

/-- The packet to send next: the oldest of each VC, LVC0 first but once per 1 µs, else by turns (R311). -/
def choosePkt (q : List OutPkt) (ready : Bool) (st c0 c1 : Nat) (lastCtl : Option Nat) (lastVc : Bool) (now : Nat) : Option OutPkt :=
  let k0 := (q.find? fun k => !k.vc).filter fun k => k.goes ready st c0 c1
  let k1 := (q.find? fun k => k.vc).filter fun k => k.goes ready st c0 c1
  let first := match lastCtl with
    | none => true
    | some t => t + 1000 ≤ now
  if first || lastVc then k0 <|> k1 else k1 <|> k0

def Port.choose (x : Port) (now : Nat) : Option OutPkt :=
  choosePkt x.outQ x.sess.ready x.st x.cred0 x.cred1 x.lastCtl x.lastVc now

def Route.choose (x : Route) (now : Nat) : Option OutPkt :=
  choosePkt x.outQ x.sess.ready x.st x.cred0 x.cred1 x.lastCtl x.lastVc now

/-- The PSN limits of a direction (R315). -/
def psnUpdate : Nat := 2 ^ 40
def psnEnd : Nat := 2 ^ 41

/-- A packet built for a link, with the session after it. -/
def State.buildPkt (s : State) (l : LinkId) (typ : BitVec 2) (plain : Bool) (payload : Bytes) : Bytes × Session :=
  let x := s.sessOf l
  let hdr := packetHeader payload.length typ plain s.active.dev (s.linkDev l) (if plain then 0 else x.tx.psn)
  let p := sealPacket x.tx hdr payload plain
  (p, if plain then x
      else { x with tx := { x.tx with psn := x.tx.psn + 1 }, updating := x.updating || x.tx.psn + 1 ≥ psnUpdate })

/-- Bytes of a native port go into data flits. The last flit is padded when no packet can follow now (log entry 41). -/
def State.flitsSend (s : State) (p : Fin 32) (all : Bytes) : State :=
  let last := ((s.port p).choose s.now).isNone
  let (cut, rest) := flitCut last (all.length + 1) all
  let s := s.onPort p fun x => { x with txBytes := rest, txPad := if last then padRest all.length else 0 }
  let (s, fs) := dataFlits p cut s
  s.flitsOut p fs

/-- The next packet of a native port is sent; with none that may go, what is left of the last one. -/
def State.nativeSend (s : State) (p : Fin 32) : State :=
  let x := s.port p
  let before := List.replicate x.txPad 0 ++ x.txBytes
  match x.choose s.now with
  | none => if x.txBytes.isEmpty || 128 ≤ x.replay.length then s else s.flitsSend p before
  | some k =>
    let plain := k.plain && !x.sess.ready
    let n := k.size plain
    if 128 < x.replay.length + (before.length + n) / 248 + 1 then s
    else if !plain && psnEnd ≤ x.sess.tx.psn then s.portDown p 4
    else
      let (b, sess) := s.buildPkt (.port p) k.typ plain k.payload
      (s.setPort p { x with
        sess := sess, outQ := dropFirst (· == k) x.outQ, lastVc := k.vc, lastCtl := if k.vc then x.lastCtl else some s.now
        cred0 := if k.vc then x.cred0 else x.cred0 - credits n
        cred1 := if k.vc then x.cred1 - credits n else x.cred1 }).flitsSend p (before ++ b)

/-- A packet of a route in its frame, through a port. -/
def State.frameSend (s : State) (d p : Nat) (pkt : Bytes) : State × Bytes :=
  match s.portForm p, s.routeForm d with
  | some f, some r =>
    let (s, b) := s.frame f r pkt
    (s.onPort p fun x => { x with flitsTx := x.flitsTx + 1 }, b)
  | _, _ => (s, [])

/-- A protected packet of a route is kept until it is acknowledged (R317). -/
def State.routeOut (s : State) (d : Fin 8192) (p : Nat) (typ : BitVec 2) (plain : Bool) (payload : Bytes) : State :=
  let x := s.route d
  if !plain && psnEnd ≤ x.sess.tx.psn then s.routeDown d 4
  else
    let (b, sess) := s.buildPkt (.route d) typ plain payload
    let s := s.setRoute d { x with
      sess := sess, unacked := if plain then x.unacked else x.unacked ++ [(x.sess.tx.psn, p, b)]
      progAt := if x.unacked.isEmpty then s.now else x.progAt }
    let (s, f) := s.frameSend d p b
    s.onRoute d fun x => { x with frameOut := f }

def State.routeSend (s : State) (d : Fin 8192) : State :=
  let x := s.route d
  match x.choose s.now, s.routeForm d with
  | some k, some f =>
    match if k.vc then (if s.portUp k.port then some k.port else none) else s.routePort f with
    | none => s
    | some p =>
      let plain := k.plain && !x.sess.ready
      let n := credits (k.size plain)
      let s := s.setRoute d { x with
        outQ := dropFirst (· == k) x.outQ, lastVc := k.vc, lastCtl := if k.vc then x.lastCtl else some s.now
        cred0 := if k.vc then x.cred0 else x.cred0 - n, cred1 := if k.vc then x.cred1 - n else x.cred1 }
      s.routeOut d p k.typ plain k.payload
  | _, _ => s

def execMarunoPacketSend (l : LinkId) (s : State) : Res :=
  match l with
  | .port p => .next (s.nativeSend p)
  | .route d => .next (s.routeSend d)

/-! ## Flits -/

def execDataFlit (p : Fin 32) (f : Bytes) (s : State) : Res :=
  if f.length = 272 then .next (s.flitIn p f) else .fault .illFormed

def execIdleFlit (p : Fin 32) (f : Bytes) (s : State) : Res :=
  if f.length = 272 then .next (s.flitIn p f) else .fault .illFormed

def execReplayTimeout (p : Fin 32) (s : State) : Res :=
  let x := s.port p
  if !x.live || x.replay.isEmpty then .next s else .next ((s.toNow (x.progAt + 1000)).replayNow p)

/-! ## Acknowledgement over Ethernet (R317) -/

/-- The payload of an acknowledgement (log entry 45): the highest PSN in order, NAK, credits of LVC0 and LVC1. -/
def Route.ackBytes (x : Route) (nak : Bool) : Bytes :=
  leBytes 8 (x.sess.rx.psn + 2 ^ 64 - 1) ++ [BitVec.ofNat 8 (b2n nak), 0] ++ leBytes 2 x.owe0 ++ leBytes 2 x.owe1 ++ leBytes 2 0

/-- An acknowledgement is sent, with the credits owed. -/
def State.sendAck (s : State) (d : Fin 8192) (nak : Bool) : State :=
  let x := s.route d
  match if x.sess.ready then (s.routeForm d).bind s.routePort else none with
  | none => s
  | some p =>
    let s := s.setRoute d { x with owe0 := 0, owe1 := 0, ackDue := false, ackAt := s.now, nakAt := if nak then some s.now else x.nakAt }
    s.routeOut d p 2 false (x.ackBytes nak)

def execAckTimer (l : LinkId) (s : State) : Res :=
  match l with
  | .port _ => .next s
  | .route d =>
    let x := s.route d
    if !x.ackDue then .next s else .next ((s.toNow (x.ackAt + 2000)).sendAck d false)

/-- Every unacknowledged packet again, unchanged. -/
def resendAll (d : Nat) : List (Nat × Nat × Bytes) → State → State × Bytes
  | [], s => (s, [])
  | (_, p, b) :: l, s =>
    let (s, f) := s.frameSend d p b
    let (s, fs) := resendAll d l s
    (s, f ++ fs)

def State.retransmit (s : State) (d : Nat) : State :=
  match (s.route d).unacked with
  | [] => s
  | (q, p, b) :: l =>
    let s := s.onPort p fun x => { x with retries := x.retries + 1 }
    let (s, fs) := resendAll d ((q, p, b) :: l) s
    s.onRoute d fun x => { x with frameOut := fs }

def execRetransmitTimeout (l : LinkId) (s : State) : Res :=
  match l with
  | .port _ => .next s
  | .route d =>
    let x := s.route d
    if x.unacked.isEmpty then .next s
    else
      let s := s.toNow (x.progAt + 16000)
      if 7 ≤ x.timeouts then .next (s.routeDown d 2)
      else .next ((s.onRoute d fun x => { x with timeouts := x.timeouts + 1, progAt := s.now }).retransmit d)

/-- An acknowledgement's payload takes effect. -/
def State.ackIn (s : State) (d : Nat) (b : Bytes) : State :=
  let x := s.route d
  let a := fld b 0 8
  let left := x.unacked.filter fun u => !(u.1 ≤ a && a < 2 ^ 63)
  let s := s.setRoute d { x with
    unacked := left, timeouts := if left.length < x.unacked.length then 0 else x.timeouts
    progAt := if left.length < x.unacked.length then s.now else x.progAt
    cred0 := x.cred0 + fld b 10 2, cred1 := x.cred1 + fld b 12 2 }
  if bit (fld b 8 1) 0 then s.retransmit d else s

/-! ## Packets in (R312, R314, R317) -/

/-- A packet that its link delivers: the link, its quarter, and its payload. -/
abbrev Delivered := Option (LinkId × Nat × Bytes)

/-- Credits of a packet moved into the fabric are owed to the partner. -/
def State.owe (s : State) (l : LinkId) (typ n : Nat) : State :=
  let c := credits n
  match l with
  | .port p => s.onPort p fun x => if typ = 1 then { x with owe1 := x.owe1 + c } else { x with owe0 := x.owe0 + c }
  | .route d => s.onRoute d fun x =>
      if typ = 1 then { x with owe1 := x.owe1 + c } else if typ = 0 then { x with owe0 := x.owe0 + c } else x

/-- A packet fails its check: counted at its port, and its link goes down with cause AUTH. -/
def State.authBad (s : State) (l : LinkId) (p : Nat) : State :=
  (s.onPort p fun x => { x with authFail := x.authFail + 1 }).linkDown l 3

/-- A packet passes the session's check, or takes its link down. A plain packet counts only before the session is established, and as
control; a protected one only after (R313). A direction that has reached PSN 2^41 goes down with cause KEY (R315). -/
def State.check (s : State) (l : LinkId) (p : Nat) (pkt : Bytes) : State × Option Bytes :=
  let x := s.sessOf l
  if packetPlain pkt then
    if x.ready then (s.authBad l p, none)
    else (s, if packetType pkt = 0 then some ((pkt.drop 16).take (bits (fld pkt 0 2) 11 0)) else none)
  else if !x.ready then (s.authBad l p, none)
  else if psnEnd ≤ x.rx.psn then (s.linkDown l 4, none)
  else
    match openPacket x.rx pkt with
    | none => (s.authBad l p, none)
    | some b => (s.onSess l fun x => { x with rx := { x.rx with psn := x.rx.psn + 1 } }, some b)

/-- The first packet of a native port's stream, when it is of a wanted type and the fabric has room for it. -/
def State.nativeIn (s : State) (p : Fin 32) (want : Nat → Bool) : State × Delivered :=
  let x := s.port p
  match x.nextPacket with
  | none => (s, none)
  | some (pkt, rest) =>
    let vc := packetType pkt = 1
    if !x.live || !want (packetType pkt) || !s.linkRoom vc (p.val / 8) pkt.length then (s, none)
    else
      let s := (s.setPort p { x with rxBytes := rest }).owe (.port p) (packetType pkt) pkt.length
      let s := s.linkTraffic vc true (p.val / 8) pkt.length
      match s.check (.port p) p pkt with
      | (s, some b) => (s, some (.port p, p.val / 8, b))
      | (s, none) => (s, none)

/-- A frame's packet, when it is of a wanted type: in order it is delivered, after a gap it is discarded with a NAK, an old one is
dropped (R317). -/
def State.frameIn (s : State) (p : Fin 32) (ce : Bool) (pkt : Bytes) (want : Nat → Bool) : State × Delivered :=
  let src := bits (fld pkt 4 2) 12 0
  let vc := packetType pkt = 1
  if !s.portUp p || !want (packetType pkt) || !s.linkRoom vc (p.val / 8) pkt.length || bits (fld pkt 6 2) 12 0 != s.active.dev.toNat || pkt.length != packetLen pkt then (s, none)
  else
    let s := if ce then s.onPort p fun x => { x with ecn := x.ecn + 1 } else s
    if hs : src < 8192 then
      let d : Fin 8192 := ⟨src, hs⟩
      let x := s.route d
      let psn := fld pkt 8 8
      if (s.routeForm d).isNone || x.st < 4 || x.st = 8 then (s, none)
      else if !packetPlain pkt && x.sess.ready && psn < x.sess.rx.psn then (s.onRoute d fun x => { x with ackDue := true }, none)
      else if !packetPlain pkt && x.sess.ready && x.sess.rx.psn < psn then
        let recent := match x.nakAt with
          | some t => decide (s.now < t + 2000)
          | none => false
        (if recent then s else s.sendAck d true, none)
      else
        match s.check (.route d) p pkt with
        | (s, some b) =>
          let s := s.onPort p fun x => { x with flitsRx := x.flitsRx + 1 }
          let s := s.onRoute d fun x => { x with ackDue := x.ackDue || !packetPlain pkt }
          let s := s.linkTraffic vc true (p.val / 8) pkt.length
          (s.owe (.route d) (packetType pkt) pkt.length, some (.route d, p.val / 8, b))
        | (s, none) => (s, none)
    else (s, none)

def State.packetIn (s : State) (rx : LinkRx) (want : Nat → Bool) : State × Delivered :=
  match rx with
  | .native p => s.nativeIn p want
  | .frame p ce pkt => s.frameIn p ce pkt want

/-- A control packet is handled: time messages take effect; discovery and SPDM messages have rows of their own. -/
def execControlPacket (rx : LinkRx) (s : State) : Res :=
  match s.packetIn rx fun t => t = 0 with
  | (s, some (l, _, b)) =>
    if (s.sessOf l).ready && b.length = 16 then .next (s.timeIn l b) else .next s
  | (s, none) => .next s

def execCollectivePacket (rx : LinkRx) (s : State) : Res :=
  match s.packetIn rx fun t => t = 1 with
  | (s, some (l, q, b)) => if s.linkSt l = 6 && 32 ≤ b.length then .next (s.collPacket q b) else .next s
  | (s, none) => .next s

/-- An acknowledgement takes effect on its route. A packet of the reserved type, or one on a native port, has no effect. -/
def execTransportAck (rx : LinkRx) (s : State) : Res :=
  match s.packetIn rx fun t => 2 ≤ t with
  | (s, some (.route d, _, b)) =>
    match rx with
    | .frame _ _ pkt => if packetType pkt = 2 then .next (s.ackIn d b) else .next s
    | .native _ => .next s
  | (s, _) => .next s

/-! ## Lanes and PORT_CTRL (R326, Table 13.10) -/

def execLaneSignalChange (p : Fin 32) (lane : Fin 4) (signal lock : Bool) (snr : BitVec 6) (s : State) : Res :=
  .next (s.onPort p fun x =>
    { x with
      lanes := x.lanes.set lane (BitVec.ofNat 8 (b2n signal + 2 * b2n lock + 4 * snr.toNat))
      lost := if signal && lock then x.lost.del lane else x.lost.set lane (x.lost.look lane s.now) })

def execSignalLossTimeout (p : Fin 32) (lane : Fin 4) (s : State) : Res :=
  let x := s.port p
  match x.lost.find lane with
  | some t => if x.live then .next ((s.toNow (t + 10000)).portDown p 1) else .next s
  | none => .next s

def execPortCtrl (r : Requester) (p : Fin 32) (v : Word) (s : State) : Res :=
  if !writesBlock r then .next s
  else
    let hold := v.getLsbD 0
    let s := s.onPort p fun x => { x with hold := hold }
    if hold then .next (s.portDown p 7)
    else if (s.port p).st = 0 then .next (s.portRestart p)
    else .next s

end Sys2Proof.Machine
end

