-- ==== Sys2Proof/Machine/Power.lean ====
section
/-!
DEFINITION. The power loops (R363 to R367, R414): samples, clock steps, caps, safety overrides and the AVSBus. Log entry 22 names what
the spec leaves open.
-/

namespace Sys2Proof.Machine

/-- The hub firmware runs (Table 17.5), so that loops, management and AVSBus act. -/
def State.hubUp (s : State) : Bool := 2 ≤ s.boot.phase.toNat

/-- Power over the last 10 µs, in 0.1 W: the mean of the samples held. -/
def Power.mean (p : Power) : Nat := p.samples.sum / max 1 p.samples.length

/-- A clock step down of 25 MHz; a frame that lowers the voltage follows it. -/
def Power.down (p : Power) : Power :=
  { p with mhz := p.mhz - 25, target := some (Config.voltageTable (p.mhz - 25), false), raise := none, tries := 0 }

/-- One sample of a running loop between its bounds: safety limits first, then the cap (R363, R364, R366). -/
def Power.sample (p : Power) (b : Nat × Nat) (power : Nat) (hot above : Bool) (now : Nat) : Power :=
  let p := { p with samples := (power :: p.samples).take 10 }
  let p := { p with now := BitVec.ofNat 16 p.mean }
  let cap := 10 * p.cap.toNat
  if hot || above then
    let p := { p with
      above := true, held := true, holdAt := now, raise := none, events := p.events + b2n (!p.above)
      safety := p.safety ||| BitVec.ofNat 2 (b2n hot + 2 * b2n above) }
    if 500 < p.mhz then p.down else p
  else
    let p := { p with above := false, holdAt := if p.above then now else p.holdAt }
    if cap < p.mean then
      if b.1 < p.mhz then p.down else { p with clamps := p.clamps + 1 }
    else if 20 * p.mean < 19 * cap && p.mhz < b.2 && !p.held && p.target.isNone && p.raise.isNone && 10000 ≤ p.sinceUp then
      { p with target := some (Config.voltageTable (p.mhz + 25), true), tries := 0 }
    else p

/-- A sample: power in 0.1 W, junction temperature in 0.125 °C, and whether the current limit is reached. -/
def execPowerLoopSample (q : Fin 4) (power junction : Nat) (overCurrent : Bool) (s : State) : Res :=
  let p := s.pwr q
  if !s.hubUp || p.halted then .next s
  else
    let hot := decide (824 ≤ junction)
    let s := s.setPwr q (p.sample (s.active.bounds 0 q) power hot overCurrent s.now)
    .next (if (hot || overCurrent) && !p.above then s.sev (120 + q) 0 0x11 none else s)

def execQpwrCap (r : Requester) (q : Fin 4) (v : Word) (s : State) : Res :=
  if !writesBlock r then .next s
  else
    let w := bits v.toNat 15 0
    let c := clampTo (s.active.bounds 1 q) w
    .next (s.onPwr q fun p => { p with cap := BitVec.ofNat 16 c, clamps := p.clamps + BitVec.ofNat 32 (b2n (c != w)) })

def execSafetyHoldExpiry (q : Fin 4) (s : State) : Res :=
  let p := s.pwr q
  if !p.held || p.above then .next s
  else .next ((s.toNow (p.holdAt + 1000000)).onPwr q fun p => { p with held := false })

/-- A valid response: the regulator's voltage, and the end of the frame in flight. -/
def execAvsResponse (q : Fin 4) (mv : Nat) (s : State) : Res :=
  if !s.hubUp then .next s
  else .next (s.onPwr q fun p =>
    { p with
      mv := mv, target := none, tries := 0
      raise := match p.target with
        | some (_, true) => some (s.now + 6000)
        | _ => p.raise })

/-- A frame draws no valid response: repeated three times, and SEV4 at the fourth failure. -/
def execAvsFrameFailure (q : Fin 4) (s : State) : Res :=
  if !s.hubUp then .next s
  else
    let n := (s.pwr q).tries + 1
    if n < 4 then .next (s.onPwr q fun p => { p with tries := n })
    else .next ((s.onPwr q fun p => { p with tries := 0, target := none }).sev (120 + q) 4 0x11 none)

def execClockRaiseDelay (q : Fin 4) (s : State) : Res :=
  let p := s.pwr q
  match p.raise with
  | none => .next s
  | some t =>
    let up := p.mhz + 25 ≤ (s.active.bounds 0 q).2 && !p.held && !p.halted
    .next ((s.toNow t).onPwr q fun p =>
      if up then { p with mhz := p.mhz + 25, raise := none, sinceUp := 0 } else { p with raise := none })

end Sys2Proof.Machine
end

