-- ==== Sys2Proof/Machine/Mgmt.lean ====
section
/-!
DEFINITION. The management plane (R353 to R362, R369): transports, PLDM, SPDM sessions and keys, the signing engine's requests, the test
access port, sensors, and the unit state word. Log entries 53 to 56 name what the spec leaves open.
-/

namespace Sys2Proof.Machine

def State.onMgmt (s : State) (f : Mgmt → Mgmt) : State := { s with mgmt := f s.mgmt }

/-- A request on a binding is answered: the controller runs, the binding is up, and in recovery only PLDM Type 5 and SPDM over I3C
(R355, R358). -/
def State.mayAnswer (s : State) (b : Binding) (recovery : Bool) : Bool :=
  s.hubUp &&
    (match b with
    | .i3c => s.mgmt.i3cAddr.isSome && !s.mgmt.i3cDown
    | .vdm => s.boot.linkUp && s.boot.phase != 5) &&
    (s.boot.phase != 5 || recovery)

/-- The answer to a request, on the binding it arrived on. -/
def State.answer (s : State) (b : Binding) (a : Answer) : State := s.onMgmt fun m => { m with answer := a, ansI3c := b == .i3c }

/-- Answer a request that may be answered. -/
def State.reply (s : State) (b : Binding) (recovery : Bool) (a : Answer) : State :=
  if s.mayAnswer b recovery then s.answer b a else s

/-! ## Transports (R354, R355) -/

def execEntdaa (addr : BitVec 7) (s : State) : Res :=
  if s.hubUp && s.mgmt.i3cAddr.isNone then .next (s.onMgmt fun m => { m with i3cAddr := some addr }) else .next s

def execSetdasa (static addr : BitVec 7) (s : State) : Res :=
  if s.hubUp && s.mgmt.i3cAddr.isNone && static = 0x3A then .next (s.onMgmt fun m => { m with i3cAddr := some addr })
  else .next s

def execSetEndpointId (b : Binding) (eid : Byte) (s : State) : Res :=
  if s.mayAnswer b false then .next (s.onMgmt fun m => { m with eid := eid }) else .next s

def execI3cBusFault (s : State) : Res :=
  if s.hubUp then .next (s.onMgmt fun m => { m with i3cDown := true, i3cFault := m.i3cFault + 1 }) else .next s

def execI3cRecovery (s : State) : Res := .next (s.onMgmt fun m => { m with i3cDown := m.i3cDown && m.i3cAddr.isNone })

/-! ## PLDM (R354, R362, R399) -/

def execPldmBaseRequest (b : Binding) (code : Byte) (s : State) : Res := .next (s.reply b false (.base code))

/-- The sensors of Table 15.4. -/
def sensorExists (id : Nat) : Bool :=
  (1 ≤ id && id ≤ 5) || (16 ≤ id && id ≤ 27) || (32 ≤ id && id ≤ 36) || (40 ≤ id && id ≤ 48)

def State.sensorVal (s : State) (id : Nat) : Int := if id = 48 then s.cellar.offset else s.mgmt.sensors.look id 0

def execPldmSensorReading (b : Binding) (id : Nat) (s : State) : Res :=
  .next (s.reply b false (if sensorExists id then .sensor id (s.sensorVal id) else .refused))

def execSetSensorThresholds (b : Binding) (id : Nat) (warn crit : Int) (s : State) : Res :=
  if !s.mayAnswer b false then .next s
  else if !sensorExists id then .next (s.answer b .refused)
  else .next ((s.onMgmt fun m => { m with limits := m.limits.set id (some (warn, crit)) }).answer b .thresholds)

/-- A sensor is sampled; each level it crosses is an event and changes nothing else. -/
def execSensorUpdate (id : Nat) (value : Int) (s : State) : Res :=
  if !s.hubUp || !sensorExists id then .next s
  else
    let old := s.sensorVal id
    let cross (crit : Bool) (l : Int) : List MgmtEvent :=
      if old < l && l ≤ value then [.crossing id crit true] else if l ≤ old && value < l then [.crossing id crit false] else []
    let evs := match s.mgmt.limits.look id none with
      | some (w, c) => cross false w ++ cross true c
      | none => []
    .next (s.onMgmt fun m => { m with sensors := m.sensors.set id value, events := m.events ++ evs })

/-- Start of the firmware slot that an update writes: the one that did not boot; slot A when none did (Table 18.7). -/
def State.otherSlot (s : State) : Nat := if s.boot.fwSlot = 1 then 0x800000 else 0

/-- Bytes of a firmware slot; flash that nothing has written reads as ones. -/
def State.slotBytes (s : State) (base : Nat) : Bytes := Map.run s.mgmt.flash 0xFF base 0x800000

/-- The signing engine takes a request: at once when idle, else behind those of its queue (R357). -/
def State.askSign (s : State) (r : SignReq) : State :=
  s.onMgmt fun m =>
    if m.signing.isNone then { m with signing := some r }
    else match r with
      | .provenance .. => { m with prov := m.prov ++ [r] }
      | _ => { m with others := m.others ++ [r] }

/-- The request is a firmware verification. -/
def SignReq.verifies : SignReq → Bool
  | .firmware _ => true
  | _ => false

def execPldmFirmwareUpdate (b : Binding) (off : Nat) (data : Bytes) (s : State) : Res :=
  if !s.mayAnswer b true then .next s
  else if 0x800000 < off + data.length then .next (s.answer b .refused)
  else
    let base := s.otherSlot
    let s := s.onMgmt fun m => { m with flash := m.flash.setRun (base + off) data, updated := true }
    .next (if (s.mgmt.signing.toList ++ s.mgmt.others).any SignReq.verifies then s else s.askSign (.firmware b))

/-! ## The unit state word (R368 to R370) -/

/-- Partitions that own resources of a unit. -/
def State.unitParts (s : State) (u : Nat) : List Nat :=
  let A := s.active
  let ps :=
    if u < 64 then (A.parts.filter fun r => r.coreMask.getLsbD u).map (·.part)
    else if u < 68 then (A.parts.filter fun r => (List.range 8).any fun l => r.laneMask.getLsbD (8 * (u - 64) + l)).map (·.part)
    else if u < 72 then
      ((A.groups.filter fun g => (s.member g).2 = u - 68).map (·.part))
    else if u < 76 then (A.parts.filter fun r => (List.range 64).any fun c => r.dmaMask.getLsbD (64 * (u - 72) + c)).map (·.part)
    else if u < 88 then (A.regions.filter fun r => !r.press && (r.spread || r.quarter = (u - 76) / 3)).map (·.part)
    else A.groups.map (·.part)
  (List.range 64).filter fun p => ps.contains p

/-- Stop-now: the engines stop, and every partition that owns resources of the unit takes SEV3. -/
def State.stopNow (s : State) (u : Nat) : State :=
  let s := if u < 64 then s.onSeq u fun q => if q.run = .running then { q with run := .stopped } else q else s
  (s.unitParts u).foldl (fun s p => s.raise { src := u, sev := 3, cause := 0x0C, ctx := none, part := some p }) s

def execUnitStateEffecter (u : Fin 120) (value : BitVec 2) (gen : BitVec 32) (s : State) : Res :=
  let w := s.unit u
  if !s.hubUp || s.boot.phase = 5 then .next s
  else if w.gen != gen || value = 3 then .next { s with unitRefused := s.unitRefused + 1 }
  else
    let s := if w.adm = value then s else s.setUnit u { w with adm := value, gen := w.gen + 1 }
    .next (if value = 2 then s.stopNow u else s)

/-- Ring 0 sets OPER through the alias: ready, draining or offline, under a matching GEN (R369). -/
def execOperAliasWrite (r : Requester) (u : Fin 120) (v : Word) (s : State) : Res :=
  match r with
  | .ring _ 0 =>
    let w := s.unit u
    let o := BitVec.ofNat 2 (bits v.toNat 9 8)
    if bits v.toNat 7 0 != 0 || bits v.toNat 31 10 != 0 then .next s
    else if w.gen != v.extractLsb' 32 32 || o = 2 then .next { s with unitRefused := s.unitRefused + 1 }
    else .next (s.setOper u o)
  | _ => .next s

/-! ## SPDM (R354, R356) -/

def execGetVersion (b : Binding) (s : State) : Res := .next (s.reply b true .version)
def execGetCapabilities (b : Binding) (s : State) : Res := .next (s.reply b true .capabilities)
def execNegotiateAlgorithms (b : Binding) (s : State) : Res := .next (s.reply b true .algorithms)
def execGetDigests (b : Binding) (s : State) : Res := .next (s.reply b true (.digests 1))
def execGetMeasurements (b : Binding) (s : State) : Res := .next (s.reply b true .measurements)

/-- Slot 0 holds the chain, with the DEBUG flag in its Alias certificate; the others are empty. -/
def execGetCertificate (b : Binding) (slot : BitVec 3) (s : State) : Res :=
  .next (s.reply b true (if slot = 0 then .certificate s.jtag.debug else .emptySlot))

/-- A challenge of slot 0 waits for the signing engine. -/
def execChallenge (b : Binding) (slot : BitVec 3) (_nonce : BitVec 256) (s : State) : Res :=
  if !s.mayAnswer b true then .next s
  else if slot = 0 then .next (s.askSign (.challenge b)) else .next (s.answer b .emptySlot)

/-! ## Sessions (R313, R315, R354) -/

def bindingNo : Binding → Nat
  | .i3c => 0
  | .vdm => 1

def State.mgmtSess (s : State) (b : Binding) : Session := s.mgmt.sess.look (bindingNo b) {}
def State.setMgmtSess (s : State) (b : Binding) (x : Session) : State :=
  s.onMgmt fun m => { m with sess := m.sess.set (bindingNo b) x }

/-- A KEY_EXCHANGE waits for its signature; the session's keys come with it. One that does not verify is refused, or takes its link
down (cause IDENTITY). -/
def execKeyExchange (peer : SpdmPeer) (w : PeerId) (s : State) : Res :=
  match peer with
  | .mgmt b =>
    if !s.mayAnswer b true then .next s
    else if !w.ok then .next (s.answer b .refused)
    else .next ((s.setMgmtSess b { who := some w }).askSign (.session peer))
  | .link l =>
    if s.linkSt l != 4 then .next s
    else if !w.ok then .next (s.linkDown l 6)
    else .next ((s.onSess l fun _ => { who := some w }).askSign (.session peer))

/-- The signed response of a KEY_EXCHANGE leaves: the session has its keys. -/
def State.sessionSigned (s : State) (peer : SpdmPeer) : State :=
  match peer with
  | .mgmt b =>
    match (s.mgmtSess b).who with
    | none => s
    | some w =>
      let (t, s) := s.freshKey
      let (r, s) := s.freshKey
      ((s.setMgmtSess b { exchanged := true, ready := false, requester := false, who := some w, tx := t, rx := r }).answer b .session)
  | .link l =>
    match (s.sessOf l).who with
    | none => s
    | some w => s.linkExchange l w

def execFinish (peer : SpdmPeer) (ok : Bool) (s : State) : Res :=
  match peer with
  | .mgmt b =>
    let x := s.mgmtSess b
    if !s.mayAnswer b true || !x.exchanged || x.ready then .next s
    else if ok then .next ((s.setMgmtSess b { x with ready := true }).answer b .finished)
    else .next ((s.setMgmtSess b {}).answer b .refused)
  | .link l => .next (s.linkFinish l ok)

def execKeyUpdate (peer : SpdmPeer) (outbound : Bool) (s : State) : Res :=
  match peer with
  | .mgmt b =>
    let x := s.mgmtSess b
    if !s.mayAnswer b true || !x.ready then .next s
    else
      let (k, s) := s.freshKey
      .next ((s.setMgmtSess b (if outbound then { x with tx := k } else { x with rx := k })).answer b .keyUpdated)
  | .link l => .next (s.linkUpdate l outbound)

def execSpdmHeartbeat (peer : SpdmPeer) (s : State) : Res :=
  match peer with
  | .mgmt b => if (s.mgmtSess b).ready then .next (s.reply b true .heartbeat) else .next s
  | .link _ => .next s

def execEndSession (peer : SpdmPeer) (s : State) : Res :=
  match peer with
  | .mgmt b =>
    if !s.mayAnswer b true || !(s.mgmtSess b).exchanged then .next s else .next ((s.setMgmtSess b {}).answer b .ended)
  | .link l => .next (s.linkEnd l)

/-! ## Keys (R282, R360, R361) -/

/-- A session whose requester chains to the owner's fused key hash. -/
def Session.ownerReady (x : Session) : Bool :=
  x.ready && match x.who with
    | some w => w.rootHash == Config.ownerKey
    | none => false

def execTrellisKeyLoad (load : KeyLoad) (hash : Option Digest) (s : State) : Res :=
  let b := load.binding
  let slot := load.slot
  if !(s.mayAnswer b true && (s.mgmtSess b).ownerReady) then .next s
  else
    let t := s.trellis
    let t := if (t.keys.look slot none).isNone && (t.keysNext.look slot none).isNone then { t with keys := t.keys.set slot hash }
      else { t with keysNext := t.keysNext.set slot (some hash) }
    .next ({ s with trellis := t }.answer b .loaded)

/-- Partitions with a context whose record or loaded extents name a key slot. -/
def State.slotParts (s : State) (k : Nat) : List Nat :=
  let cs := s.active.ctxs.filter fun c => c.key.toNat = k || (s.ctx c.ctx).ext.any fun e => e.key.toNat = k
  let ts := s.active.tables.filter fun t => t.key.toNat = k
  (List.range 64).filter fun p => (cs.any fun c => c.part = p) || ts.any fun t => t.part = p

/-- A key slot's change takes effect at once when nothing is bound to it, else at the rackings of the partitions that are. -/
def State.setKey (s : State) (k : Nat) (v : KeySlot) : State :=
  let ps := s.slotParts k
  s.onMgmt fun m =>
    if ps.isEmpty && !(m.keyPend.any fun p => p.slot = k) then { m with keys := m.keys.set k v }
    else { m with keyPend := m.keyPend ++ [⟨k, v, ps⟩] }

/-- The slot as the root of trust last took it. -/
def Mgmt.newest (m : Mgmt) (k : Nat) : KeySlot :=
  match (m.keyPend.filter fun p => p.slot = k).getLast? with
  | some p => p.value
  | none => m.keys.look k {}

def execHbmKeyLoad (slot : Fin 1024) (st : BitVec 2) (key : BitVec 512) (gen : BitVec 16) (s : State) : Res :=
  if !(s.mgmtSess .vdm).ready || !s.mayAnswer .vdm false then .next s
  else
    let cur := s.mgmt.newest slot
    if st = 3 || (st != 2 && key != 0) || (st != 0 && gen.toNat ≤ cur.gen.toNat) then .next (s.answer .vdm .refused)
    else .next ((s.setKey slot (if st = 0 then {} else ⟨st, gen, key⟩)).answer .vdm .loaded)

/-! ## The test access port (R359, R405) -/

def execIdcode (s : State) : Res := .next { s with jtag := { s.jtag with ir := 1 } }
def execBypass (s : State) : Res := .next { s with jtag := { s.jtag with ir := 2 } }

/-- A fresh nonce, whose value is the root of trust's own. -/
def execUnlockChallenge (s : State) : Res :=
  let (b, s) := freshBytes 32 s
  .next { s with jtag := { s.jtag with ir := 3, nonce := some (BitVec.ofNat 256 (leNat b)) } }

/-- A session whose keys have been zeroed. -/
def Session.keyless (x : Session) : Session := { x with tx := { x.tx with key := 0 }, rx := { x.rx with key := 0 } }

/-- Every HBM key slot, the working copy of the UDS and every derived key are zeroed, the session keys of Table 15.2 among them; a
management session without keys is over (R359, log entry 55). -/
def State.destroyKeys (s : State) : State :=
  { s with
    mgmt := { s.mgmt with keys := [], keyPend := [], secrets := false, sess := [] }
    ports := s.ports.map fun e => (e.1, { e.2 with sess := e.2.sess.keyless })
    routes := s.routes.map fun e => (e.1, { e.2 with sess := e.2.sess.keyless }) }

/-- An unlock response, at most one per second: a valid one destroys the keys and sets DEBUG. -/
def execUnlockResponse (sig : Bytes) (s : State) : Res :=
  match s.jtag.nonce with
  | none => .next s
  | some n =>
    if s.now < s.jtag.nextTry then .next s
    else
      let j := { s.jtag with nonce := none, nextTry := s.now + 1000000000 }
      if Config.unlockValid n sig then
        .next { s.destroyKeys with jtag := { j with debug := true } }
      else .next { s with jtag := j }

def execTestReset (s : State) : Res := .next { s with jtag := { s.jtag with ir := 0 } }

end Sys2Proof.Machine
end

