-- ==== Sys2Proof/Machine/Collect.lean ====
section
/-!
DEFINITION. The fault collector's storage and registers (R377 to R383, R390 to R394): slots, details, acknowledgement, heartbeat, ALIVE
and injection channels. The reactions to alarms are in Faults.lean.
-/

namespace Sys2Proof.Machine

def State.onFaults (s : State) (f : Collector → Collector) : State := { s with faults := f s.faults }

/-- Slot number of FIRST_FAULT. -/
def firstSlot : Nat := 139

def Collector.slot (c : Collector) (i : Nat) : FSlot := if i = firstSlot then c.first else c.slots.look i {}

/-- The 32 bytes of a slot (Table 16.3). -/
def FSlot.bytes (x : FSlot) : Bytes :=
  let st := x.sev + 8 * b2n x.esc + 16 * b2n x.inj + 32 * b2n x.detail + 64 * b2n x.valid + 128 * b2n x.fatal
  [BitVec.ofNat 8 st, x.src, x.cause, x.rep] ++
    leBytes 2 ((match x.ctx with
      | some k => k + 0x8000
      | none => 0)) ++
    [(match x.part with
      | some p => BitVec.ofNat 8 (p + 0x80)
      | none => 0), BitVec.ofNat 8 x.maxSev] ++
    leBytes 8 x.cellar.toNat ++ leBytes 8 x.addr.toNat ++ leBytes 4 x.seq.toNat ++ leBytes 4 x.info.toNat

/-- Word `w` of a slot as stored. -/
def FSlot.word (x : FSlot) (w : Nat) : Word := BitVec.ofNat 64 (fld x.bytes (8 * w) 8)

/-- A read of a word of the collector's storage with its SEC-DED check (R392): a correction is SEV0, and an uncorrectable word SEV4. -/
def State.slotRead (s : State) (i w : Nat) : State × Word :=
  let k := 4 * i + w
  let (inj, s) := s.inject 138 9 1
  let e := (s.faults.stErr.look k {}).xor (injErr inj)
  let (free, s) := s.freshIf (2 < e.count)
  let d := (s.faults.slot i).word w ^^^ e.data
  let fixed (s : State) : State := s.onFaults fun f => { f with stErr := f.stErr.del k }
  match secDed e free with
  | .clean => (s, d)
  | .data f => ((fixed s).sev 138 0 1 none 0 0 inj.isSome, d ^^^ f.data)
  | .check _ => ((fixed s).sev 138 0 2 none 0 0 inj.isSome, d)
  | .bad => (s.sev 138 4 0x18 none 0 0 inj.isSome, d)

def execCollectorStorageRead (slot : Fin 140) (w : Fin 4) (s : State) : Res :=
  let (s, d) := s.slotRead slot w
  .next (s.onFaults fun f => { f with readOut := d })

/-- A record with its detail. -/
def FSlot.full (x : FSlot) (addr : Nat) (info : BitVec 32) : FSlot :=
  { x with detail := true, wait := false, addr := BitVec.ofNat 64 addr, info := info }

/-- The detail of a source's record arrives and fills its slot, and FIRST_FAULT when it holds the same record (R375, R378). -/
def execFaultDetail (src : Fin 139) (s : State) : Res :=
  match s.faults.details.look src none with
  | none => .next s
  | some (addr, info) =>
    .next (s.onFaults fun f =>
      let x := f.slots.look src {}
      let f := { f with
        details := f.details.del src, slots := if x.valid && x.wait then f.slots.set src (x.full addr info) else f.slots }
      if f.firstWait = some src.val then { f with first := f.first.full addr info, firstWait := none } else f)

/-! ## Acknowledgement (R380 to R382) -/

/-- Source and SEQ of the record that a FAULT_ACK value acknowledges, unless the write is ignored. -/
def Collector.acked (f : Collector) (v : Word) : Option (Nat × Nat) :=
  let src := bits v.toNat 7 0
  let seq := v.extractLsb' 32 32
  let x := f.slots.look src {}
  if bits v.toNat 31 8 != 0 || !x.valid || x.seq != seq then none else some (src, seq.toNat)

/-- An acknowledged record releases the holds that it governs (R381). -/
def State.unhold (s : State) (src seq : Nat) : State :=
  let gone (h : Nat × Nat) : Bool := h.1 = src && h.2 = seq
  let free (e : Nat × Part) : Nat × Part := (e.1, { e.2 with hold := e.2.hold.filter fun h => !gone h })
  { s with parts := s.parts.map free }

/-- A record is acknowledged: its slot is free, and its holds are released. -/
def State.ackWrite (s : State) (v : Word) : State :=
  match s.faults.acked v with
  | none => s.onFaults fun f => { f with ackStale := f.ackStale + 1 }
  | some (src, seq) =>
    (s.onFaults fun f => { f with slots := f.slots.set src { f.slots.look src {} with valid := false } }).unhold src seq

def execFaultAck (r : Requester) (v : Word) (s : State) : Res := .next (if writesBlock r then s.ackWrite v else s)

def execFirstClr (r : Requester) (s : State) : Res :=
  if !writesBlock r then .next s
  else .next (s.onFaults fun f => { f with first := {}, concur := 0, concurN := 0, firstWait := none })

/-! ## Heartbeat and ALIVE (R390, R391) -/

def tenMs : Nat := 10000000

/-- Time between edges of ALIVE. -/
def halfPeriod : Nat := 500000

/-- Firmware has written HEARTBEAT within the last 10 ms. -/
def State.beating (s : State) : Bool :=
  match s.faults.hbAt with
  | some t => s.now ≤ t + tenMs
  | none => false

/-- The first heartbeat after reset or after a loss starts ALIVE with a rising edge. -/
def execHeartbeat (s : State) : Res :=
  if !s.hubUp then .next s
  else
    let f := s.faults
    let start := !f.fatal && !f.aliveOn
    .next { s with faults := { f with
      hbAt := some s.now, hbLost := false, alive := f.alive || start, aliveOn := f.aliveOn || start
      edge := if start then s.now else f.edge } }

/-- Device time of the first scheduled edge of ALIVE at or after `t` (R390). -/
def Collector.edgeAfter (f : Collector) (t : Nat) : Nat := f.edge + halfPeriod * max 1 (cdiv (t - f.edge) halfPeriod)

/-- A heartbeat is more than 10 ms old: ALIVE goes low at its next scheduled edge, and a SEV2 without context is raised (R391). -/
def execHeartbeatLoss (s : State) : Res :=
  match s.faults.hbAt with
  | none => .next s
  | some t =>
    if s.faults.hbLost then .next s
    else
      let late := t + tenMs + 1
      let s := s.toNow (if s.faults.aliveOn then s.faults.edgeAfter late else late)
      .next ((s.onFaults fun f => { f with hbLost := true, alive := false, aliveOn := false }).sev 137 2 0x17 none)

/-- ALIVE changes level 500 µs after its last edge, when the heartbeat is fresh then. -/
def execAliveToggle (s : State) : Res :=
  let t := s.toNow (s.faults.edge + halfPeriod)
  if s.faults.aliveOn && !s.faults.fatal && t.beating then .next (t.onFaults fun f => { f with alive := !f.alive, edge := t.now })
  else .next s

/-! ## Injection channels (R392, R393) -/

/-- Whether a checker code belongs to a source, with a kind that Table 16.7 lists for it. -/
def injAllowed (src code kind : Nat) : Bool :=
  match code with
  | 0 | 1 | 2 => src < 64 && kind < 2
  | 3 | 4 => src < 64 && kind = 0
  | 5 => src < 72 && kind = 2
  | 6 => 76 ≤ src && src < 88 && kind < 2
  | 7 => 88 ≤ src && src < 120 && kind < 2
  | 8 => 124 ≤ src && src < 134 && kind = 1
  | 9 => src = 138 && kind = 0
  | _ => false

def Inject.arm (x : Inject) : Inject :=
  let t := x.target.toNat
  let src := bits t 7 0
  let code := bits t 11 8
  let kind := bits t 13 12
  let n := bits t 31 16
  if n != 0 && injAllowed src code kind then
    { x with armed := true, refused := false, src := src, code := code, kind := kind, remain := n }
  else { x with refused := true }

/-- Channel 0 is ring 0's, channel 1 the controller's. -/
def injWriter (r : Requester) (n : Nat) : Bool :=
  match r with
  | .ring _ 0 => n = 0
  | .controller => n = 1
  | _ => false

def execInjArm (r : Requester) (n : Fin 2) (s : State) : Res :=
  if !injWriter r n then .next s
  else .next (s.onFaults fun f => if n.val = 0 then { f with inj0 := f.inj0.arm } else { f with inj1 := f.inj1.arm })

/-! ## Registers (Table 16.8) -/

/-- DEVICE_STATE. -/
def State.deviceState (s : State) : Word :=
  let ms := match s.faults.hbAt with
    | some t => min ((s.now - t) / 1000000) (2 ^ 32 - 1)
    | none => 2 ^ 32 - 1
  BitVec.ofNat 64 (b2n s.faults.fatal + 2 * b2n s.faults.alive + 4 * b2n s.beating + 2 ^ 32 * ms)

def Inject.status (x : Inject) : Word := BitVec.ofNat 64 (b2n x.armed + 2 * b2n x.refused + 65536 * x.remain)

/-- A register of the collector but for its storage, by offset. -/
def State.collectorReg (s : State) (o : Nat) : Word :=
  let f := s.faults
  let n (k : Nat) : Word := BitVec.ofNat 64 k
  if 0x50 ≤ o && o < 0x78 then n (f.sevN.look ((o - 0x50) / 8) 0)
  else if 0x80 ≤ o && o < 0xA0 then f.concur.extractLsb' (8 * (o - 0x80)) 64
  else if 0x3000 ≤ o && o < 0x3000 + 8 * 139 then n (f.sev0.look ((o - 0x3000) / 8) 0)
  else if 0x3800 ≤ o && o < 0x3800 + 8 * 139 then n (f.dropped.look ((o - 0x3800) / 8) 0)
  else
    match o with
    | 0x28 => f.irqVec.setWidth 64
    | 0x38 => n f.ackStale
    | 0x40 => n f.faultN
    | 0x48 => n f.concurN
    | 0x78 => n f.escN
    | 0xA0 => s.deviceState
    | 0x100 => f.inj0.target.setWidth 64
    | 0x110 => f.inj0.status
    | 0x140 => f.inj1.target.setWidth 64
    | 0x150 => f.inj1.status
    | _ => 0

/-- Offsets of the collector's RC counters. -/
def collectorRc (o : Nat) : Bool :=
  o = 0x38 || o = 0x48 || o = 0x78 || (0x3000 ≤ o && o < 0x3000 + 8 * 139)

def State.collectorClear (s : State) (o : Nat) : State :=
  s.onFaults fun f =>
    if 0x3000 ≤ o && o < 0x3000 + 8 * 139 then { f with sev0 := f.sev0.del ((o - 0x3000) / 8) }
    else
      match o with
      | 0x38 => { f with ackStale := 0 }
      | 0x48 => { f with concurN := 0 }
      | 0x78 => { f with escN := 0 }
      | _ => f

/-- Slot and word of a storage offset. -/
def storageAt (o : Nat) : Option (Nat × Nat) :=
  if o < 0x20 then some (firstSlot, o / 8)
  else if 0x1000 ≤ o && o < 0x1000 + 32 * 139 then some ((o - 0x1000) / 32, (o - 0x1000) % 32 / 8) else none

/-- INJn_TARGET keeps the fields that Table 16.8 lists (R7). -/
def injTarget (v : Word) : BitVec 32 := v.setWidth 32 &&& ~~~0xC000

/-- A write to a collector register that has no row of its own. -/
def State.collectorWrite (s : State) (r : Requester) (o : Nat) (v : Word) : State :=
  if 0x80 ≤ o && o < 0xA0 then
    s.onFaults fun f => { f with concur := f.concur &&& ~~~(v.setWidth 256 <<< (8 * (o - 0x80))) }
  else
    match o with
    | 0x28 => s.onFaults fun f => { f with irqVec := v.setWidth 11 }
    | 0x100 => if injWriter r 0 then s.onFaults fun f => { f with inj0 := { f.inj0 with target := injTarget v } } else s
    | 0x140 => if injWriter r 1 then s.onFaults fun f => { f with inj1 := { f.inj1 with target := injTarget v } } else s
    | _ => s

end Sys2Proof.Machine
end

