-- ==== Sys2Proof/Machine/Press.lean ====
section
/-!
DEFINITION. The table press (R235 to R261): batches and lanes, lookup and pooling, the row cache and its sketch, cuttings, requests
between presses, updates into the topping journal, blending and the overlay.
-/

namespace Sys2Proof.Machine

/-! ## Parts of a press -/

def Press.lane (p : Press) (l : Nat) : Lane := p.lanes.look l {}

def State.onLane (s : State) (q l : Nat) (f : Lane → Lane) : State :=
  s.onPress q fun p => { p with lanes := p.lanes.set l (f (p.lane l)) }

def State.onRun (s : State) (q l : Nat) (f : BatchRun → BatchRun) : State :=
  s.onLane q l fun x => { x with run := x.run.map f }

/-- Change the running batch of a number, if it still runs. -/
def State.onRunId (s : State) (q id : Nat) (f : BatchRun → BatchRun) : State :=
  s.onPress q fun p => { p with lanes := p.lanes.map fun e =>
    (e.1, { e.2 with run := e.2.run.map fun r => if r.id = id then f r else r }) }

def pressSrc (q : Nat) : Nat := 64 + q

/-- A lane as an engine of its batch's context. -/
def laneEng (q l : Nat) (it : BatchItem) : Eng := { src := pressSrc q, agent := 256 + 8 * q + l, ctx := it.ctx, ring := it.ring }

/-- A press's own access under a table's key, to the rows of the table's partition (R241, R267). -/
def tableWho (q : Nat) (r : TableRec) (ctx : Option Nat) : Who :=
  { src := pressSrc q, ctx := ctx, part := some r.part, press := some q, key := r.key }

def State.pressRec (s : State) (q : Nat) : Option PressQRec := s.active.pressQ q

/-! ## Lanes (R237) -/

/-- The serving lane of a quarter and its partition. -/
def State.serving (s : State) (q : Nat) : Option (Nat × Nat) :=
  match s.classRec q with
  | some r => if r.enable then some (r.lane, r.part) else none
  | none => none

/-- Lane that a batch of a partition runs on. -/
def State.laneFor (s : State) (p q num : Nat) (serve : Bool) : Option Nat :=
  let sv := s.serving q
  if serve then
    match sv with
    | some (l, o) => if o = p then some l else none
    | none => none
  else
    match s.partRec p with
    | none => none
    | some r =>
      let ls := (List.range 8).filter fun l => r.laneMask.getLsbD (8 * q + l) && (sv.map (·.1)) != some l
      if ls.isEmpty then none else ls[num % ls.length]?

/-! ## Batch descriptors (Table 10.1, R238, R239) -/

structure Batch where
  kind   : Nat
  pool   : Nat
  wgt    : Bool
  idx64  : Bool
  serve  : Bool
  out    : Nat
  rm     : BitVec 2
  sat    : Bool
  aux    : Nat
  table  : Nat
  count  : Nat
  idxA   : Nat
  offA   : Nat
  auxA   : Nat
  outA   : Nat
  stride : Nat
  statA  : Nat

def parseBatch (b : Bytes) : Batch where
  kind := fld b 0 1
  pool := bits (fld b 1 1) 1 0
  wgt := bit (fld b 1 1) 2
  idx64 := bit (fld b 1 1) 3
  serve := bit (fld b 1 1) 4
  out := bits (fld b 2 1) 3 0
  rm := BitVec.ofNat 2 (bits (fld b 2 1) 5 4)
  sat := bit (fld b 2 1) 6
  aux := bits (fld b 3 1) 3 0
  table := bits (fld b 4 2) 11 0
  count := fld b 8 4
  idxA := fld b 16 8
  offA := fld b 24 8
  auxA := fld b 32 8
  outA := fld b 40 8
  stride := fld b 48 4
  statA := fld b 56 8

def Batch.upd (b : Batch) : Bool := b.kind = 1
def Batch.offs (b : Batch) : Bool := b.kind = 0 && b.pool != 2
def Batch.idxSize (b : Batch) : Nat := if b.idx64 then 8 else 4
def Batch.auxSize (b : Batch) : Nat := if b.upd || b.wgt then elemBytes b.aux else 1
def Batch.outSize (b : Batch) : Nat := if b.upd then 1 else elemBytes b.out

/-- A feature bit as it governs a table: that of its partition. -/
def State.tableFeature (s : State) (t i : Nat) : Bool := s.feature ((s.table t).rc.map (·.part)) i

/-- Malformed cases of R238 that need no array. -/
def State.batchBad (s : State) (d : Bytes) (ctx : Nat) : Bool :=
  let b := parseBatch d
  let t := s.table b.table
  1 < b.kind || b.pool = 3 || 31 < fld d 1 1 || 127 < fld d 2 1 || 15 < fld d 3 1 || 4095 < fld d 4 2 || !zeroAt d 6 2 ||
    !zeroAt d 12 4 || !zeroAt d 52 4 || b.count = 0 || 65536 < b.count ||
    t.st != 1 || (t.rc.map (·.part)) != s.partOfCtx ctx || (s.partOfCtx ctx).isNone ||
    (b.upd && (b.serve || b.wgt || b.pool = 2 || !((t.rc.map (·.updatable)).getD false) || !s.feature (s.partOfCtx ctx) 13 || b.outA != 0)) ||
    !([0, 1, 2, 3, 4, 5, 8, 13].contains b.out) || 13 < b.aux || (b.wgt && 3 < b.aux) ||
    (b.upd && !([0, 1, 2, 3, 4, 5, 8, 13].contains b.aux)) || (!b.offs && b.offA != 0) || (!b.upd && !b.wgt && b.auxA != 0) ||
    b.idxA % b.idxSize != 0 || b.offA % 4 != 0 || b.auxA % b.auxSize != 0 || b.outA % b.outSize != 0 || b.statA % 8 != 0 ||
    b.stride % (if b.upd then b.auxSize else b.outSize) != 0

/-- The arrays of a batch (R239), numbered from 1 in INFO of an item error (log entry 83). -/
inductive BatchArray where
  | indices
  | offsets
  | aux
  | outputs
  | status
  deriving DecidableEq, Repr

def BatchArray.code : BatchArray → Nat
  | .indices => 1
  | .offsets => 2
  | .aux => 3
  | .outputs => 4
  | .status => 5

/-- One array of a batch: its address and bytes. -/
structure Span where
  arr : BatchArray
  va  : Nat
  n   : Nat
  deriving DecidableEq, Repr

def Span.wr (x : Span) : Bool := x.arr == .outputs || x.arr == .status

/-- Arrays that a batch reads and writes. -/
def Batch.spans (b : Batch) (elems nidx : Nat) : List Span :=
  let all : List Span :=
    [⟨.indices, b.idxA, b.idxSize * nidx⟩,
     ⟨.offsets, b.offA, if b.offs then 4 * (b.count + 1) else 0⟩,
     ⟨.aux, b.auxA, if b.upd then (b.count - 1) * b.stride + elems * b.auxSize else if b.wgt then b.auxSize * nidx else 0⟩,
     ⟨.outputs, b.outA, if b.upd then 0 else (b.count - 1) * b.stride + elems * b.outSize⟩,
     ⟨.status, b.statA, if b.statA = 0 then 0 else 8 + if b.upd then 0 else b.count⟩]
  all.filter fun x => x.n != 0

/-- A batch that passed its checks: offsets per bag, and the physical ranges it touches. -/
structure Plan where
  offs   : List Nat
  ranges : List Range

/-- Why a batch fails: whether it is malformed, the cause of its fault, the failing array (0 for the descriptor) and an address of it. -/
structure PlanFail where
  bad   : Bool
  cause : Byte
  arr   : Nat := 0
  addr  : Nat := 0
  deriving DecidableEq, Repr

/-- Check one array (R239): its range, or why it fails. -/
def State.spanCheck (s : State) (e : Eng) (x : Span) : Range ⊕ PlanFail :=
  match s.xl e.ctx e.ring (if x.wr then .wr else .rd) x.va x.n with
  | .miss => .inr ⟨false, 8, x.arr.code, x.va⟩
  | .perm => .inr ⟨false, 7, x.arr.code, x.va⟩
  | .ok pa _ _ =>
    let z := zone pa x.n
    if z = .mmio || z = .host || z = .none || (x.wr && z != .sram) then .inr ⟨false, 7, x.arr.code, x.va⟩ else .inl ⟨pa, pa + x.n, x.wr⟩

def spanChecks (s : State) (e : Eng) : List Span → List Range ⊕ PlanFail
  | [] => .inl []
  | x :: l =>
    match s.spanCheck e x with
    | .inr f => .inr f
    | .inl r =>
      match spanChecks s e l with
      | .inl rs => .inl (r :: rs)
      | .inr f => .inr f

/-- The first array written that meets one read (R239). -/
def spansMeet (l : List Span) : Option Span :=
  l.find? fun a => l.any fun b => a.wr && !b.wr && a.va < b.va + b.n && b.va < a.va + a.n

def rises : List Nat → Bool
  | a :: b :: l => a ≤ b && rises (b :: l)
  | _ => true

/-- Check a batch, reading its offsets (R238, R239). -/
def State.plan (s : State) (e : Eng) (d : Bytes) : State × (Plan ⊕ PlanFail) :=
  let b := parseBatch d
  let elems := ((s.table b.table).rc.map (·.rowElems)).getD 0
  let offSpan : Span := ⟨.offsets, b.offA, 4 * (b.count + 1)⟩
  let fail (bad : Bool) (cause : Byte) : PlanFail := ⟨bad, cause, offSpan.arr.code, b.offA⟩
  if s.batchBad d e.ctx then (s, .inr { bad := true, cause := 6 })
  else
    let (s, offs) :=
      if !b.offs then (s, Sum.inl (List.range (b.count + 1)))
      else
        match s.spanCheck e offSpan with
        | .inr f => (s, .inr f)
        | .inl _ =>
          match s.vRd e b.offA offSpan.n with
          | (s, .ok r) =>
            if r.err then (s, .inr (fail false 7))
            else if r.bad.isSome then (s, .inr (fail false 0x15))
            else
              let o := (List.range (b.count + 1)).map fun i => fld r.data (4 * i) 4
              if rises o && o.getLastD 0 ≤ 2 ^ 24 then (s, .inl o) else (s, .inr (fail true 6))
          | (s, _) => (s, .inr (fail false 7))
    match offs with
    | .inr f => (s, .inr f)
    | .inl o =>
      let spans := b.spans elems (o.getLastD 0)
      match spanChecks s e spans with
      | .inr f => (s, .inr f)
      | .inl rs =>
        match spansMeet spans with
        | some x => (s, .inr ⟨false, 7, x.arr.code, x.va⟩)
        | none => (s, .inl ⟨o, rs⟩)

/-! ## Batches that are gone -/

/-- The numbers of the batches that a press runs and that satisfy a test of their lane and item. -/
def Press.runIds (p : Press) (f : Nat → BatchItem → Bool) : List Nat :=
  p.lanes.filterMap fun e => match e.2.run with
    | some r => if f e.1 r.item then some r.id else none
    | none => none

/-- A press request that is no journal add of one of these batches. -/
def PressReq.keep (ids : List Nat) : PressReq → Bool
  | .jadd _ _ _ _ id => !ids.contains id
  | _ => true

/-- Batches of a press that satisfy a test are gone, queued or running, with their fetches and the journal adds on their way. -/
def State.dropBatches (s : State) (q : Nat) (f : Nat → BatchItem → Bool) : State :=
  let ids := (s.press q).runIds f
  let wants : PressAns → Bool
    | .added id _ => !ids.contains id
    | _ => true
  let lane (e : Nat × Lane) : Nat × Lane :=
    (e.1, { queue := e.2.queue.filter fun i => !f e.1 i, run := e.2.run.filter fun r => !ids.contains r.id })
  let s := s.onPress q fun p =>
    { p with
      lanes := p.lanes.map lane
      fetches := p.fetches.filter fun g => !ids.contains g.run
      answers := p.answers.map fun e => (e.1, e.2.filter wants) }
  let cut (m : Map (List PressReq)) : Map (List PressReq) :=
    m.map fun e => (e.1, if e.1 = q then e.2.filter (PressReq.keep ids) else e.2)
  (List.range 4).foldl (fun s h => s.onPress h fun p => { p with reqs := cut p.reqs, parked := cut p.parked }) s

/-! ## Batches reach a press (R236, R237) -/

/-- A batch fails (R107, R236, R239): an item error of PQ, whose record names the core, the position and the failing array, and which
discards the later batches of that core; or its command's status, with SEV1. -/
def State.batchFail (s : State) (q : Nat) (src : BatchSrc) (ctx : Nat) (va : Nat) (f : PlanFail) : State :=
  let addr := if f.arr = 0 then va else f.addr
  match src with
  | .pq c idx =>
    let later : BatchItem → Bool := fun i => match i.src with
      | .pq k j => k = c && idx ≤ j
      | .cmd _ _ => false
    (s.dropBatches q fun _ => later).itemError c .pq idx c f.cause addr (itemInfo idx f.arr).toNat
  | .cmd n serial =>
    let s := s.sev (pressSrc q) 1 f.cause (some ctx) addr (BitVec.ofNat 32 f.arr)
    let s := if f.bad then s.onQueue n fun x => { x with err := true } else s
    s.workDone n serial (if f.bad then 1 else 2)

/-- Read a batch's descriptor and queue the batch on its lane. -/
def State.sendBatch (s : State) (q num : Nat) (src : BatchSrc) (ctx : Nat) (ring : BitVec 2) (va : Nat) : State :=
  let e : Eng := { src := pressSrc q, agent := 256 + 8 * q, ctx := ctx, ring := ring }
  let fail (s : State) (bad : Bool) (cause : Byte) : State := s.batchFail q src ctx va { bad := bad, cause := cause }
  if va % 64 != 0 then fail s true 6
  else
    match s.xl ctx ring .rd va 64 with
    | .miss => fail s false 8
    | .perm => fail s false 7
    | .ok _ _ _ =>
      match s.vRd e va 64 with
      | (s, .ok r) =>
        if r.err then fail s false 7
        else if r.bad.isSome then fail s false 0x15
        else
          match (s.partOfCtx ctx).bind fun p => s.laneFor p q num (parseBatch r.data).serve with
          | none => fail s true 6
          | some l => s.onLane q l fun x => { x with queue := x.queue ++ [⟨src, va, ring, ctx, r.data⟩] }
      | (s, _) => fail s false 7

/-- A PQ push sends its batch to the press of the core's quarter. -/
def State.pqPush (s : State) (c : Nat) (va : Word) (ring : BitVec 2) : State :=
  let x := s.core c
  let idx := x.pq.pushed
  (s.setCore c (x.onUnit .pq fun u => u.push va ring)).sendBatch (c / 16) c (.pq c idx) x.seq.context ring va.toNat

/-- Ranges that the well-formed batches of a command declare. -/
def batchRanges (e : Eng) : Nat → Nat → State → State × List Range
  | 0, _, s => (s, [])
  | n + 1, va, s =>
    match s.vRd e va 64 with
    | (s, .ok r) =>
      let (s, rs) := match s.plan e r.data with
        | (s, .inl p) => (s, p.ranges)
        | (s, .inr _) => (s, [])
      let (s, l) := batchRanges e n (va + 64) s
      (s, rs ++ l)
    | (s, _) =>
      let (s, l) := batchRanges e n (va + 64) s
      (s, l)

def execPress (n : Fin 8192) (s : State) : Res :=
  match s.startable n 3 with
  | none => .next s
  | some c =>
    let k := n.val / 8
    let va := c.body64 0
    let count := fld c.body 8 2
    let q := fld c.body 10 1
    if !s.admits (pressSrc (q % 4)) then .next s
    else
      let s := s.start n c
      if va % 64 != 0 || count = 0 || 4096 < count || 3 < q || !zeroAt c.body 11 21 then .next (s.malform n c.serial)
      else
        let e : Eng := { src := pressSrc q, agent := 256 + 8 * q, ctx := k, ring := 2 }
        let (s, rs) := batchRanges e count va s
        match s.declare n c.serial rs with
        | (s, false) => .next s
        | (s, true) =>
          let s := s.onCmd n c.serial fun x => { x with left := count }
          .next ((List.range count).foldl (fun s i => s.sendBatch q n (.cmd n c.serial) k 2 (va + 64 * i)) s)

/-! ## Requests between presses (R252) -/

def State.send (s : State) (home sender : Nat) (r : PressReq) : State :=
  s.onPress home fun p => { p with reqs := p.reqs.set sender (p.reqs.look sender [] ++ [r]) }

def State.sendAll (s : State) (sender : Nat) (r : PressReq) : State :=
  (List.range 4).foldl (fun s q => s.send q sender r) s

/-- The front request of a sender. -/
def State.frontReq (s : State) (q sender : Nat) : Option PressReq := ((s.press q).reqs.look sender []).head?

/-- Take the front request of a sender and send its answer back. -/
def State.pressAnswer (s : State) (q sender : Nat) (a : PressAns) : State :=
  let s := s.onPress q fun p => { p with reqs := p.reqs.set sender ((p.reqs.look sender []).drop 1) }
  s.onPress sender fun p => { p with answers := p.answers.set q (p.answers.look q [] ++ [a]) }

/-! ## Hashes (Table 10.4, R248) -/

def pressMul : Nat → Nat
  | 0 => 0x9E3779B97F4A7C15
  | 1 => 0xC2B2AE3D27D4EB4F
  | 2 => 0x165667B19E3779F9
  | 3 => 0xD6E8FEB86659FD93
  | 4 => 0xFF51AFD7ED558CCD
  | _ => 0xC4CEB9FE1A85EC53

def pressHash (k t i : Nat) : Nat := ((i ^^^ (t <<< 40)) * pressMul k % 2 ^ 64) >>> 32

/-! ## Starting a batch (R239, R244, R245, R253) -/

/-- Elements of an array with the poison of their granules. -/
def elemsOf (r : Rd) (size n stride : Nat) : List Bytes := (List.range n).map fun i => (r.data.drop (i * stride)).take size

/-- Read `n` items of `size` bytes at a stride: their bytes and poison marks. -/
def State.readItems (e : Eng) (size stride : Nat) : Nat → Nat → State → State × List (Bytes × Bool) × Bool
  | 0, _, s => (s, [], false)
  | n + 1, va, s =>
    let (s, x, err) := match s.vRd e va size with
      | (s, .ok r) => (s, (r.data, r.bad.isSome), r.err)
      | (s, _) => (s, ([], false), true)
    let (s, l, f) := State.readItems e size stride n (va + stride) s
    (s, x :: l, err || f)

/-- The bags of a lookup: each with the fetches it needs. -/
def bagsOf (offs : List Nat) (none_ : Bool) (elems rows : Nat) (idx : List (Bytes × Bool)) (ws : List (Bytes × Bool)) :
    List (Bag × List FetchTodo) :=
  (List.range (offs.length - 1)).map fun b =>
    let lo := if none_ then b else offs.getD b 0
    let hi := if none_ then b + 1 else offs.getD (b + 1) 0
    let is := from_ lo (hi - lo)
    let row (i : Nat) : Nat := leNat (idx.getD i ([], false)).1
    let w (i : Nat) : Bytes × Bool := ws.getD i ([], false)
    let bad := is.any fun i => (idx.getD i ([], false)).2 || (w i).2
    let out := is.any fun i => rows ≤ row i
    ({ n := hi - lo, left := if out then 0 else hi - lo, sums := List.replicate elems {}, seen := List.replicate elems 0, flags := 0,
       poison := bad, error := out },
      if out then [] else is.map fun i => ⟨b, row i, BitVec.ofNat 64 (leNat (w i).1), (w i).2⟩)

/-- The front batch of an idle lane, when it is of this kind; a malformed KIND counts as a lookup. -/
def State.frontBatch (s : State) (q l : Nat) (upd : Bool) : Option BatchItem :=
  let x := (s.press q).lane l
  if !s.running || x.run.isSome || !s.admits (pressSrc q) then none
  else
    match x.queue with
    | it :: _ => if (parseBatch it.desc).upd = upd then some it else none
    | [] => none

def State.popBatch (s : State) (q l : Nat) : State := s.onLane q l fun x => { x with queue := x.queue.drop 1 }

/-- A lane runs a batch under a new number. -/
def State.runBatch (s : State) (q l : Nat) (r : BatchRun) : State :=
  let id := (s.press q).nextRun
  (s.onPress q fun p => { p with nextRun := id + 1 }).onLane q l fun x => { x with run := some { r with id := id } }

def execLookupBatch (q : Fin 4) (lane : Fin 8) (s : State) : Res :=
  match s.frontBatch q lane false with
  | none => .next s
  | some it =>
    let s := s.popBatch q lane
    let e := laneEng q lane it
    let b := parseBatch it.desc
    match s.plan e it.desc with
    | (s, .inr f) => .next (s.batchFail q it.src it.ctx it.va f)
    | (s, .inl p) =>
      match (s.table b.table).rc with
      | none => .next s
      | some t =>
        let n := p.offs.getLastD 0
        let (s, idx, e1) := State.readItems e b.idxSize b.idxSize n b.idxA s
        let (s, ws, e2) := if b.wgt then State.readItems e b.auxSize b.auxSize n b.auxA s else (s, [], false)
        if e1 || e2 then .next (s.batchFail q it.src it.ctx it.va ⟨false, 7, if e1 then 1 else 3, if e1 then b.idxA else b.auxA⟩)
        else
          let bags := bagsOf p.offs (b.pool = 2) t.rowElems t.rows idx ws
          let s := (bags.zip (List.range bags.length)).foldl (fun s (x, i) =>
            if x.1.error then s.sev (pressSrc q) 1 0x16 (some it.ctx) it.va (BitVec.ofNat 32 i) else s) s
          .next (s.runBatch q lane ⟨0, it, it.desc, bags.map (·.1), bags.flatMap (·.2), 0, false, 0, false⟩)

def execUpdateBatch (q : Fin 4) (lane : Fin 8) (s : State) : Res :=
  match s.frontBatch q lane true with
  | none => .next s
  | some it =>
    let s := s.popBatch q lane
    let e := laneEng q lane it
    let b := parseBatch it.desc
    match s.plan e it.desc with
    | (s, .inr f) => .next (s.batchFail q it.src it.ctx it.va f)
    | (s, .inl _) =>
      match (s.table b.table).rc with
      | none => .next s
      | some t =>
        let (s, idx, e1) := State.readItems e b.idxSize b.idxSize b.count b.idxA s
        let (s, ds, e2) := State.readItems e (t.rowElems * b.auxSize) b.stride b.count b.auxA s
        if e1 || e2 then .next (s.batchFail q it.src it.ctx it.va ⟨false, 7, if e1 then 1 else 3, if e1 then b.idxA else b.auxA⟩)
        else if idx.any (·.2) then .next (s.batchFail q it.src it.ctx it.va ⟨false, 0x15, 1, b.idxA⟩)
        else if idx.any fun i => t.rows ≤ leNat i.1 then
          let s := s.sev (pressSrc q) 1 0x16 (some it.ctx) it.va
          .next (s.runBatch q lane ⟨0, it, it.desc, [], [], 0, false, 0, true⟩)
        else
          let adds := (idx.zip ds).map fun (i, d) =>
            let xs := (unpack b.aux t.rowElems d.1).map fun x => toXa 0 (valOf b.aux x)
            (leNat i.1, xs, d.2)
          let fl := adds.foldl (fun f a => a.2.1.foldl (fun f x => f ||| x.2) f) (0 : Flags)
          let id := (s.press q).nextRun
          let s := adds.foldl (fun s a => s.send t.homeQ q (.jadd b.table a.1 (a.2.1.map (·.1)) a.2.2 id)) s
          .next (s.runBatch q lane ⟨id, it, it.desc, [], [], b.count, false, fl, false⟩)

/-! ## The row cache and its sketch (R248, R249) -/

/-- Sets S of a quarter's row cache, and the active ones A. -/
def State.sets (s : State) (q : Nat) : Nat := s.active.rcSets q

def State.activeSets (s : State) (q : Nat) : Nat :=
  let n := (s.press q).active.getD 8
  if n = 8 then s.sets q else n * (s.sets q / 8)

/-- Index of a valid row-cache entry. -/
def State.rcFind (s : State) (q t i : Nat) : Option Nat :=
  let S := s.sets q
  if S = 0 then none
  else
    let set := pressHash 1 t i % S
    if s.activeSets q ≤ set then none
    else
      ((List.range 8).map fun w => 8 * set + w).find? fun k =>
        let e := (s.press q).cache.look k {}
        e.valid && e.table = t && e.row = i

/-- Sketch counters of a row. -/
def sketchKeys (t i : Nat) : List Nat := (List.range 4).map fun k => 65536 * k + pressHash (k + 2) t i % 65536

def Press.freq (p : Press) (t i : Nat) : Nat := (sketchKeys t i).foldl (fun m k => min m (p.sketch.look k 0)) 15

def Press.sketchUp (p : Press) (t i : Nat) : Press :=
  let f := p.freq t i
  { p with sketch := (sketchKeys t i).foldl (fun m k =>
      if m.look k 0 = f then m.set k (min 15 (f + 1)) else m) p.sketch }

/-- Victim way of a full set, and the set with the ref bits that the choice clears. -/
def rcVictim (m : Map RowLine) (set : Nat) : Nat × Map RowLine :=
  let at_ (w : Nat) : RowLine := m.look (8 * set + w) {}
  let low := (List.range 8).foldl (fun a w => min a (at_ w).count) 15
  let cand := (List.range 8).filter fun w => (at_ w).count ≤ low + 1
  match cand.find? fun w => !(at_ w).ref with
  | some w => (w, m)
  | none => (cand.headD 0, cand.foldl (fun m w => m.set (8 * set + w) { at_ w with ref := false }) m)

/-- Offer a row that missed to the cache: it waits for the fetch slot of its fill (R248, R259). -/
def State.rcOffer (s : State) (q : Nat) (t : TableRec) (i : Nat) (data : Bytes) : State :=
  let pitch := ((s.pressRec q).map (·.cutPitch)).getD 0
  if s.sets q = 0 || pitch < t.pitch || (s.rcFind q t.table i).isSome then s
  else s.onPress q fun p => { p with fills := p.fills ++ [⟨t.table, i, data⟩] }

/-- Read or write bytes of a quarter's row-cache store. -/
def State.storeRd (s : State) (w : Who) (q o n : Nat) : State × Rd :=
  rdGrans w ((s.active.storePieces q o n).flatMap fun (a, k) => cutGran (k / 64 + 2) a k) s
def State.storeWr (s : State) (w : Who) (q o : Nat) (bs : Bytes) : State :=
  wrGrans w false ((s.active.storePieces q o bs.length).flatMap fun (a, k) => cutGran (k / 64 + 2) a k) bs s

/-- The oldest waiting fill is done: the row is admitted, or not (R248). -/
def State.rcFill (s : State) (q : Nat) : State :=
  match (s.press q).fills, s.pressRec q with
  | f :: rest, some r =>
    let s := s.onPress q fun p => { p with fills := rest }
    let S := s.sets q
    match (s.table f.table).rc with
    | none => s
    | some t =>
      let set := pressHash 1 f.table f.row % max 1 S
      if S = 0 || s.activeSets q ≤ set || (s.rcFind q f.table f.row).isSome then s
      else
        let p := s.press q
        let line : RowLine := { valid := true, table := f.table, row := f.row }
        let put (s : State) (w : Nat) (m : Map RowLine) : State :=
          let k := 8 * set + w
          (s.setPress q { p with cache := m.set k line }).storeWr (tableWho q t none) q (s.active.rcOff q r k) f.data
        match (List.range 8).find? fun w => !(p.cache.look (8 * set + w) {}).valid with
        | some w => put s w p.cache
        | none =>
          let (w, m) := rcVictim p.cache set
          if (p.cache.look (8 * set + w) {}).count < p.freq f.table f.row then put s w m else s.setPress q { p with cache := m }
  | _, _ => s.onPress q fun p => { p with fills := [] }

/-- Invalidate the row-cache entries that satisfy a test. -/
def Press.rcDrop (p : Press) (f : Nat → RowLine → Bool) : Press := { p with cache := p.cache.filter fun e => !f e.1 e.2 }

/-! ## Cuttings (R250) -/

/-- Directory entry of a row. -/
def Press.dirOf (p : Press) (t i : Nat) : Option (Nat × DirEnt) := p.dir.find? fun e => e.2.st != 0 && e.2.table = t && e.2.row = i

/-- The first free place of a row's probe sequence. -/
def Press.dirPlace (p : Press) (slots t i : Nat) : Nat :=
  let n := max 1 (2 * slots)
  let h := pressHash 0 t i % n
  (((List.range n).map fun k => (h + k) % n).find? fun k => (p.dir.look k {}).st = 0).getD h

/-- Set a directory entry's state; state 0 frees it. -/
def Press.dirSet (p : Press) (slots t i slot : Nat) (st : BitVec 2) : Press :=
  match p.dirOf t i with
  | some (k, e) => { p with dir := if st = 0 then p.dir.del k else p.dir.set k { e with st := st } }
  | none => if st = 0 then p else { p with dir := p.dir.set (p.dirPlace slots t i) ⟨st, t, i, slot, 0⟩ }

def State.cutSlots (s : State) (q : Nat) : Nat := ((s.pressRec q).map (·.cutSlots)).getD 0

/-- Address of a cutting slot in a quarter. -/
def State.slotAddr (s : State) (q slot : Nat) : Nat :=
  match s.pressRec q with
  | some r => r.areaBase + slot * r.cutPitch
  | none => 0

/-! ## Fetches (R247, R259) -/

/-- The copy that serves a fetch. -/
def State.copyOf (s : State) (q t i : Nat) : CopySrc :=
  match s.rcFind q t i with
  | some k => .cache k
  | none =>
    match if s.tableFeature t 12 then (s.press q).dirOf t i else none with
    | some (_, e) => if e.st = 2 then .cutting e.slot else .home
    | none => .home

/-- The table has closed epochs that are not yet blended. -/
def Table.closed (t : Table) : List Bank := (t.banks.map (·.2)).filter fun b => b.used && b.closed

/-- Epochs closed and not yet blended whole (Table 10.6). -/
def Table.unblended (t : Table) : Nat := (t.closed.filter fun b => b.entries.any fun j => !j.blended).length

/-- The oldest closed bank with an entry to blend, and that entry. -/
def Table.toBlend (t : Table) : Option (Bank × JEntry) :=
  ((sortBy (fun a b => a.epoch < b.epoch) t.closed).filterMap fun b =>
    (b.entries.find? fun j => !j.blended).map fun j => (b, j)).head?

/-- Fetch slots that a row takes. -/
def TableRec.slots (t : TableRec) : Nat := cdiv t.pitch 256

/-- A table homed in a quarter has an entry to blend and lacks the slots for it. -/
def Table.wantsSlot (t : Table) (q have_ : Nat) : Bool :=
  match t.rc with
  | some r => r.homeQ = q && t.toBlend.isSome && t.blendWait = 0 && have_ < r.slots
  | none => false

/-- A cutting that is made waits for the slots of its read of the home row (R251, step 2). -/
def CutMove.reads (m : CutMove) : Bool := m.step = 2 && m.wait = 0

/-- The lane that has a fetch to issue, by the order of R259; 8 for blending and cutting moves, 9 for a row-cache fill. -/
def State.grant (s : State) (q : Nat) : Option Nat :=
  let p := s.press q
  let wants (l : Nat) : Bool := match (p.lane l).run with
    | some r => !r.todo.isEmpty
    | none => false
  let sv := (s.serving q).map (·.1)
  let share := ((s.classRec q).map (·.share)).getD 0
  let work := p.moves.any CutMove.reads || s.tables.any fun e => e.2.wantsSlot q p.bgSlots
  let serveIn := p.serveUsed * 1024 < share * (s.pwr q).mhz
  let serves := match sv with
    | some l => wants l
    | none => false
  let rest := ((List.range 8).map fun k => (p.rr + k) % 8).find? fun l => some l != sv && wants l
  if serves && serveIn then sv
  else if work && 15 ≤ p.sinceBlend then some 8
  else rest <|> (if serves then sv else none) <|> (if work then some 8 else none) <|> (if p.fills.isEmpty then none else some 9)

/-- Issue the next fetch of a lane. -/
def State.issueFetch (s : State) (q l : Nat) : State :=
  match ((s.press q).lane l).run with
  | none => s
  | some run =>
    match run.todo with
    | [] => s
    | d :: rest =>
      let b := parseBatch run.desc
      match (s.table b.table).rc with
      | none => s
      | some t =>
        let s := s.onRun q l fun r => { r with todo := rest }
        let src := s.copyOf q t.table d.row
        let (s, r) := match src with
          | .cache k =>
            match s.pressRec q with
            | some r => s.storeRd (tableWho q t (some run.item.ctx)) q (s.active.rcOff q r k) t.pitch
            | none => (s, {})
          | .cutting slot => s.memRd (tableWho q t (some run.item.ctx)) (s.slotAddr q slot) t.pitch
          | .home => s.memRd (tableWho q t (some run.item.ctx)) (t.base + d.row * t.pitch) t.pitch
        let need := !(s.table b.table).closed.isEmpty
        let p := s.press q
        let id := p.nextFetch
        let f : Fetch := ⟨id, l, run.id, d.bag, t.table, d.row, d.w, d.bad, src, r.data, r.bad.isSome || r.err, need, none, false⟩
        let p := p.sketchUp t.table d.row
        let p := match src with
          | .cache k =>
            let e := p.cache.look k {}
            { p with cacheHits := p.cacheHits + 1, ageHits := p.ageHits + 1,
                     cache := p.cache.set k { e with ref := true, count := min 15 (e.count + 1) } }
          | .cutting _ =>
            match p.dirOf t.table d.row with
            | some (k, e) => { p with cutHits := p.cutHits + 1, dir := p.dir.set k { e with count := min 15 (e.count + 1) } }
            | none => p
          | .home => p
        let s := s.setPress q { p with
          fetches := p.fetches ++ [f], nextFetch := id + 1, nFetches := p.nFetches + 1, ageCount := p.ageCount + 1 }
        if need then s.send t.homeQ q (.jlookup t.table d.row id) else s

/-- Step 2 of a creation and the writes of step 3 (R251): the home row goes to the slot in every quarter. -/
def State.copyOut (s : State) (q : Nat) (m : CutMove) : State :=
  let on (s : State) (f : CutMove → CutMove) : State :=
    s.onPress q fun p => { p with moves := updFirst (fun x => x.slot = m.slot) f p.moves }
  match (s.table m.table).rc with
  | none => s.onPress q fun p => { p with moves := dropFirst (fun x => x.slot = m.slot) p.moves }
  | some t =>
    let (s, r) := s.memRd (tableWho q t none) (t.base + m.row * t.pitch) t.pitch
    (on s fun m => { m with step := 3, wait := 4 }).sendAll q (.cutWrite m.table m.row m.slot r.data (r.bad.isSome || r.err) .create)

/-- A slot goes to blending and cutting moves; a creation that waits for its read takes the slots it needs. -/
def State.bgSlot (s : State) (q : Nat) : State :=
  let s := s.onPress q fun p => { p with sinceBlend := 0, bgSlots := p.bgSlots + 1 }
  match (s.press q).moves.find? CutMove.reads with
  | none => s
  | some m =>
    let n := ((s.table m.table).rc.map (·.slots)).getD 1
    if (s.press q).bgSlots < n then s
    else (s.onPress q fun p => { p with bgSlots := p.bgSlots - n }).copyOut q m

/-- Fetch slots that a lane's next fetch takes. -/
def State.laneSlots (s : State) (q l : Nat) : Nat :=
  match ((s.press q).lane l).run with
  | some r => ((s.table (parseBatch r.desc).table).rc.map (·.slots)).getD 1
  | none => 1

def execRowFetchIssue (q : Fin 4) (s : State) : Res :=
  if !s.goes (pressSrc q) then .next s
  else
    match s.grant q with
    | none => .next s
    | some 8 => .next (s.bgSlot q)
    | some 9 => .next ((s.onPress q fun p => { p with sinceBlend := p.sinceBlend + 1 }).rcFill q)
    | some l =>
      let slots := s.laneSlots q l
      let sv := (s.serving q).map (·.1)
      let s := s.onPress q fun p =>
        { p with
          sinceBlend := p.sinceBlend + slots
          serveUsed := if sv = some l then p.serveUsed + slots else p.serveUsed
          rr := if sv = some l then p.rr else (l + 1) % 8 }
      .next (s.issueFetch q l)

/-! ## Blending an entry into a row (R258) -/

/-- One element blended: its new bits and flags. -/
def blendElem (t : TableRec) (old : BitVec 128) (g : Guarded) : BitVec 128 × Flags :=
  let (x, f) := g.narrow
  let (v, f') := (valOf t.fmt old).add t.rm (xaVal x)
  let (b, f'') := convert t.fmt t.rm t.sat v
  (b, f ||| f' ||| f'')

/-- Elements of a row's bytes. -/
def TableRec.elems (t : TableRec) (data : Bytes) : List (BitVec 128) := unpack t.fmt t.rowElems data

/-- The stamp of a row's bytes (R241). -/
def TableRec.stamp (t : TableRec) (data : Bytes) : Nat := fld data (t.pitch - 8) 8

/-- The overlay: the epoch view of a copy, whether an entry was applied, and whether one was poisoned. -/
def overlay (t : TableRec) (stamp : Nat) : List (Nat × JEntry) → List (BitVec 128) → List (BitVec 128) × Bool × Bool
  | [], v => (v, false, false)
  | (e, j) :: l, v =>
    if e ≤ stamp then overlay t stamp l v
    else
      let v := (v.zip j.elems).map fun (x, g) => (blendElem t x g).1
      let (v, _, p) := overlay t stamp l v
      (v, true, p || j.poison)

/-! ## Arrival (R244, R245, R248) -/

/-- The special class of an operand as a bit (0 +∞, 1 −∞, 2 NaN); a finite one has none. -/
def classBit (x : BitVec 128) : BitVec 3 :=
  match xaClass x with
  | .fin => 0
  | .pinf => 1
  | .ninf => 2
  | .nan => 4

/-- A sum whose operands hold both infinities and no NaN yields NaN from operands none of which is NaN (R76, Table 3.7): decided from the
set of classes, so that the order of arrival never shows (R54). -/
def seenFlags (l : List (BitVec 3)) : Flags := flagIf (l.any fun b => b = 3) fInvalid

/-- Add a row's terms to a bag. -/
def Bag.addRow (bag : Bag) (b : Batch) (t : TableRec) (w : Word) (v : List (BitVec 128)) : Bag × Nat :=
  let terms := v.map fun x =>
    let e := valOf t.fmt x
    if b.wgt then
      let (y, f) := (valOf b.aux (w.setWidth 128)).mul e
      let (x, f') := xaTerm y
      (x, f ||| f')
    else toXa 0 e
  ({ bag with
      sums := (bag.sums.zip terms).map fun (g, x) => (g.add x.1).1
      seen := (bag.seen.zip terms).map fun (c, x) => c ||| classBit x.1
      flags := terms.foldl (fun f x => f ||| x.2) bag.flags },
   (terms.filter fun x => xaClass x.1 = .fin).length)

def execRowArrival (q : Fin 4) (k : Nat) (s : State) : Res :=
  match (s.press q).fetches.find? fun f => f.id = k with
  | none => .next s
  | some f =>
    if f.need && f.journal.isNone then .next s
    else
      let s := s.onPress q fun p => { p with fetches := p.fetches.filter fun g => g.id != k }
      match (s.table f.table).rc, ((s.press q).lane f.lane).run with
      | some t, some run =>
        if run.id != f.run then .next s else
        let b := parseBatch run.desc
        let (v, applied, bad) := overlay t (t.stamp f.copy) (f.journal.getD []) (t.elems f.copy)
        let s := if applied then s.onPress q fun p => { p with overlays := p.overlays + 1 } else s
        let s := match f.src with
          | .cache _ => s
          | _ => if f.stale || f.bad then s else s.rcOffer q t f.row f.copy
        match run.bags[f.bag]? with
        | none => .next s
        | some bag =>
          let (new, checks) := bag.addRow b t f.w v
          let (inj, s) := s.inject (pressSrc q) 5 checks
          let new := { new with left := bag.left - 1, poison := bag.poison || f.bad || bad, error := bag.error || inj.isSome }
          let s := if inj.isSome then
              (s.onPress q fun p => { p with residue := p.residue + 1 }).sev (pressSrc q) 2 5 (some run.item.ctx) run.item.va
                (BitVec.ofNat 32 f.bag) true
            else s
          .next (s.onRunId q f.run fun r => { r with bags := setAt r.bags f.bag new })
      | _, _ => .next s

/-! ## Completion (R244 to R246) -/

/-- The bytes of a bag's output vector and its flags. -/
def Bag.output (bag : Bag) (b : Batch) : Bytes × Flags :=
  if bag.n = 0 then (List.replicate (bag.sums.length * b.outSize) 0, 0)
  else
    let xs := bag.sums.map fun g =>
      let (x, f) := g.narrow
      let (y, f') :=
        if b.pool = 1 && xaClass x = XClass.fin then
          let (v, st, _) := (xaVal x).div (.ofInt bag.n)
          convert b.out b.rm b.sat v st
        else convert b.out b.rm b.sat (xaVal x)
      (y, f ||| f')
    (xs.flatMap fun x => leBytes b.outSize x.1.toNat, xs.foldl (fun f x => f ||| x.2) 0)

/-- Status byte of a bag (Table 10.3). -/
def Bag.status (bag : Bag) (f : Flags) : Nat :=
  b2n (bag.n = 0) + 2 * f.toNat + 32 * b2n bag.poison + 64 * b2n bag.error

/-- Write a bag's output: the state, its status byte and its flags. -/
def State.writeBag (s : State) (q : Nat) (e : Eng) (run : BatchRun) (b : Batch) (i : Nat) (bag : Bag) : State × Nat × Flags :=
  if bag.error then (s, bag.status bag.flags, bag.flags)
  else
    let (bs, f) := bag.output b
    let f := f ||| bag.flags ||| seenFlags bag.seen
    let s := (s.vWr e (b.outA + i * b.stride) bs bag.poison).1
    let s := if bag.poison then s.sev (pressSrc q) 1 0x15 (some run.item.ctx) run.item.va (BitVec.ofNat 32 i) else s
    (s, bag.status f, f)

/-- Write every bag in turn. -/
def writeBags (q : Nat) (e : Eng) (run : BatchRun) (b : Batch) : Nat → List Bag → State → State × List Nat × Flags
  | _, [], s => (s, [], 0)
  | i, g :: l, s =>
    let (s, st, f) := s.writeBag q e run b i g
    let (s, sts, f') := writeBags q e run b (i + 1) l s
    (s, st :: sts, f ||| f')

/-- The batch's work is over. -/
def State.batchOver (s : State) (q : Nat) (run : BatchRun) : Bool :=
  run.todo.isEmpty && run.adds = 0 && (s.press q).fetches.all fun f => f.run != run.id

/-- SUMMARY (Table 10.3). -/
def summary (sts : List Nat) : Nat :=
  sts.foldl (· ||| ·) 0 + 256 * (sts.filter fun x => bit x 6).length + 2 ^ 32 * (sts.filter fun x => bit x 5).length

def execBatchComplete (q : Fin 4) (lane : Fin 8) (s : State) : Res :=
  match ((s.press q).lane lane).run with
  | none => .next s
  | some run =>
    if !s.goes (pressSrc q) || !s.batchOver q run then .next s
    else
      let b := parseBatch run.desc
      let e := laneEng q lane run.item
      let s := s.onLane q lane fun x => { x with run := none }
      let (s, sts, f) := writeBags q e run b 0 run.bags s
      let upd := 2 * run.flags.toNat + 64 * b2n run.error + 128 * b2n run.full
      let s := if run.full then s.sev (pressSrc q) 1 0x16 (some run.item.ctx) run.item.va else s
      let bytes := if b.upd then leBytes 8 upd else leBytes 8 (summary sts) ++ sts.map fun x => BitVec.ofNat 8 x
      let s := if b.statA = 0 then s else (s.vWr e b.statA bytes).1
      let s := s.gather run.item.ctx (f ||| run.flags)
      .next (match run.item.src with
        | .pq c idx => s.itemDone c .pq idx
        | .cmd n serial => s.workDone n serial 0)

/-! ## Ageing, the adaptive loops and windows (R248 to R250, R259) -/

/-- One step of a loop toward `want`, within bounds: the new value, and whether a bound stopped it. -/
def loopStep (b : Nat × Nat) (cur want : Nat) : Nat × Bool :=
  if want = cur then (cur, false)
  else if b.1 ≤ want && want ≤ b.2 then (want, false) else (cur, true)

/-- The row-cache size loop at a boundary. -/
def State.sizeLoop (s : State) (q : Nat) : State :=
  let p := s.press q
  let cur := p.active.getD 8
  let want := if p.ageHits * 100 < 5 * p.ageCount then cur - 1 else if 20 * p.ageCount < p.ageHits * 100 then min 8 (cur + 1) else cur
  let (new, stop) := loopStep (s.active.bounds 2 q) cur want
  let s := s.setPress q { p with active := some new, clampsSet := p.clampsSet + if stop then 1 else 0 }
  let A := s.activeSets q
  s.onPress q fun p => p.rcDrop fun k _ => A ≤ k / 8

/-- The cutting-threshold loop after a boundary. -/
def State.cutLoop (s : State) (q : Nat) : State :=
  let p := s.press q
  let slots := s.cutSlots q
  let pool := ((List.range slots).filter fun k => k % 4 = q).length
  let used := (p.dir.filter fun e => e.2.st != 0 && e.2.slot % 4 = q).length
  if pool = 0 then s
  else
    let want := if 90 * pool < used * 100 then p.tCut + 1 else if used * 100 < 50 * pool then p.tCut - 1 else p.tCut
    let (new, stop) := loopStep (s.active.bounds 3 q) p.tCut want
    s.setPress q { p with tCut := new, clampsCut := p.clampsCut + if stop then 1 else 0 }

/-- Mark hot entries, and send those hot twice as candidates to their home presses. -/
def State.markHot (s : State) (q : Nat) : State :=
  let p := s.press q
  let hot (e : RowLine) : Bool := e.valid && p.tCut ≤ e.count
  let cands := p.cache.filter fun e => hot e.2 && e.2.hot && s.tableFeature e.2.table 12
  let s := s.setPress q { p with cache := p.cache.map fun e => (e.1, { e.2 with hot := hot e.2 }) }
  cands.foldl (fun s e => match (s.table e.2.table).rc with
    | some t => s.send t.homeQ q (.candidate e.2.table e.2.row)
    | none => s) s

/-- The home press asks for the counts of its live cuttings. -/
def State.askCounts (s : State) (q : Nat) : State :=
  let live := (s.press q).dir.filter fun e => e.2.st = 2 && e.2.slot % 4 = q
  live.foldl (fun s e =>
    if (s.press q).moves.any fun m => m.slot = e.2.slot then s
    else
      let s := s.onPress q fun p => { p with moves := p.moves ++ [{ table := e.2.table, row := e.2.row, slot := e.2.slot, step := 5, wait := 4 }] }
      s.sendAll q (.cutCount e.2.table e.2.row e.2.slot)) s

def execAgeingBoundary (q : Fin 4) (s : State) : Res :=
  match s.pressRec q with
  | none => .next s
  | some r =>
    if (s.press q).ageCount < 2 ^ r.ageLog then .next s
    else
      let s := ((((s.markHot q).askCounts q).sizeLoop q).cutLoop q)
      .next (s.onPress q fun p => { p with
        sketch := p.sketch.map fun e => (e.1, e.2 / 2)
        cache := p.cache.map fun e => (e.1, { e.2 with count := e.2.count / 2 })
        dir := p.dir.map fun e => (e.1, { e.2 with count := e.2.count / 2 })
        ageHits := 0, ageCount := 0, movesDone := 0 })

def execServeWindow (q : Fin 4) (s : State) : Res :=
  let s := s.toCount (cdiv s.cellar.count 1000 * 1000)
  .next (s.onPress q fun p => { p with serveWin := (p.serveUsed :: p.serveWin).take 10, serveUsed := 0 })

/-! ## Journal requests (R252 to R256) -/

def Table.bankAt (t : Table) (e : Nat) : Bank := t.banks.look (e % 4) {}

/-- A press's access to the data slot of a row in the bank of an epoch (R255): its bytes are checked; true where they read poisoned. -/
def State.slotBad (s : State) (r : TableRec) (e : Nat) (j : JEntry) : State × Bool :=
  match s.active.slotOf r e j.slot with
  | none => (s, false)
  | some a =>
    let (s, d) := s.memRd (tableWho r.homeQ r none) a (jpitch r)
    (s, d.bad.isSome)

/-- Write the data slot of a row. -/
def State.slotWrite (s : State) (r : TableRec) (e : Nat) (j : JEntry) : State :=
  match s.active.slotOf r e j.slot with
  | none => s
  | some a => (s.memWr (tableWho r.homeQ r none) a (journalSlotBytes r j.elems)).1

/-- Entries of one row in closed banks, as their data slots read. -/
def readEntries (r : TableRec) (row : Nat) : List Bank → State → State × List (Nat × JEntry)
  | [], s => (s, [])
  | b :: l, s =>
    match b.entries.find? fun j => j.row = row with
    | none => readEntries r row l s
    | some j =>
      let (s, bad) := s.slotBad r b.epoch j
      let (s, es) := readEntries r row l s
      (s, (b.epoch, { j with poison := j.poison || bad }) :: es)

def execJournalLookup (q : Fin 4) (sender : Fin 4) (s : State) : Res :=
  match s.frontReq q sender with
  | some (.jlookup t row fetch) =>
    match (s.table t).rc with
    | none => .next (s.pressAnswer q sender (.entries fetch []))
    | some r =>
      let (s, es) := readEntries r row (sortBy (fun a b => a.epoch < b.epoch) (s.table t).closed) s
      .next (s.pressAnswer q sender (.entries fetch es))
  | _ => .next s

/-- Index position for a new row: the first free place of its probe sequence (R255). -/
def indexPos (b : Bank) (rows t row : Nat) : Nat :=
  let nb := max 1 (rows / 4)
  let h := pressHash 0 t row % nb
  let free (p : Nat) : Bool := b.entries.all fun j => j.pos != p
  (((List.range nb).flatMap fun k => (List.range 8).map fun i => 8 * ((h + k) % nb) + i).find? free).getD 0

/-- Where copies of a row must be written again beside the home row: the slot of its cutting, live, becoming live or being retired. -/
def Press.liveSlot (p : Press) (t row : Nat) : Option Nat :=
  match p.moves.find? fun m => m.table = t && m.row = row && m.step = 4 with
  | some m => some m.slot
  | none =>
    match p.dirOf t row with
    | some (_, e) => if 2 ≤ e.st.toNat then some e.slot else none
    | none => none

/-- Copies of a row in flight are no longer installed (R251): fetches of it in every press and fills, and a creation that has read the
home row reads it again. -/
def State.staleRow (s : State) (q t row : Nat) : State :=
  let s := (List.range 4).foldl (fun s k => s.onPress k fun p =>
    { p with
      fetches := p.fetches.map fun f => if f.table = t && f.row = row then { f with stale := true } else f
      fills := p.fills.filter fun f => !(f.table = t && f.row = row) }) s
  s.onPress q fun p =>
    { p with moves := p.moves.map fun m => if m.table = t && m.row = row && m.step = 3 then { m with step := 2 } else m }

/-- The other copies of a row follow a write of the home row: the home press asks every press to write the row's cutting, if it has one, and
to drop cached copies (R258 steps 4 and 5, Table 8.3). The number of answers to come. -/
def State.copiesFollow (s : State) (q t row : Nat) (data : Bytes) (bad : Bool) (why : CutWhy) : State × Nat :=
  let s := s.staleRow q t row
  match (s.press q).liveSlot t row with
  | some slot => ((s.sendAll q (.cutWrite t row slot data bad why)).sendAll q (.rcInval t row why), 8)
  | none => (s.sendAll q (.rcInval t row why), 4)

/-- Mark a row poisoned at home and, by requests, in every cutting, with SEV1 against its partition (Table 8.3). -/
def State.poisonRow (s : State) (t : TableRec) (row : Nat) (cause : Byte) (inj : Bool) : State :=
  let w := tableWho t.homeQ t none
  let a := t.base + row * t.pitch
  let (s, r) := s.memRd w a t.pitch
  let s := (s.memWr w a r.data true).1
  let s := (s.copiesFollow t.homeQ t.table row r.data true .poison).1
  s.raise { src := pressSrc t.homeQ, sev := 1, cause := cause, ctx := none, part := some t.part, inj := inj,
            addr := a, info := BitVec.ofNat 32 t.table }

/-- Guarded adds of a delta row into an entry (R253, R78). -/
def JEntry.addRow (j : JEntry) (xs : List (BitVec 128)) (poison : Bool) : JEntry :=
  { j with
    elems := (j.elems.zip xs).map fun (g, x) => (g.add x).1
    seen := (j.seen.zip xs).map fun (c, x) => c ||| classBit x
    poison := j.poison || poison }

/-- A journal add waits while its bank still holds an older epoch (R256). -/
def State.addWaits (s : State) (r : PressReq) : Bool :=
  match r with
  | .jadd t .. =>
    let x := s.table t
    let b := x.bankAt x.openEpoch
    x.rc.isSome && b.used && b.epoch != x.openEpoch
  | _ => false

/-- Perform a journal add (R253 to R255): whether the epoch is full. -/
def State.journalAdd (s : State) (t row : Nat) (xs : List (BitVec 128)) (poison : Bool) : State × Bool :=
  let x := s.table t
  match x.rc with
  | none => (s, true)
  | some r =>
    let b := x.bankAt x.openEpoch
    let old := if b.used then b.entries else []
    let known := old.find? fun j => j.row = row
    if x.overflowed || (known.isNone && r.journalRows ≤ old.length) then (s.setTable t { x with overflowed := true }, true)
    else
      let b := { b with epoch := x.openEpoch, used := true, entries := old }
      let j := known.getD ⟨row, indexPos b r.journalRows t row, old.length, List.replicate r.rowElems {}, List.replicate r.rowElems 0, false, false⟩
      let (s, bad) := if known.isSome then s.slotBad r x.openEpoch j else (s, false)
      let (inj, s) := s.inject (pressSrc r.homeQ) 5 (xs.filter fun x => xaClass x = .fin).length
      let j := j.addRow xs (poison || bad || inj.isSome)
      let es := insSort (fun a b => a.pos < b.pos) j (old.filter fun o => o.row != row)
      let s := (s.slotWrite r x.openEpoch j).setTable t { x with
        banks := x.banks.set (x.openEpoch % 4) { b with entries := es }, maxCount := max x.maxCount es.length }
      (if inj.isSome then (s.onPress r.homeQ fun p => { p with residue := p.residue + 1 }).poisonRow r row 5 true else s, false)

/-- A journal add is answered. -/
def State.addAnswer (s : State) (q sender : Nat) (r : PressReq) : State :=
  match r with
  | .jadd t row xs poison run =>
    let (s, full) := s.journalAdd t row xs poison
    s.onPress sender fun p => { p with answers := p.answers.set q (p.answers.look q [] ++ [.added run full]) }
  | _ => s

/-- The oldest add of a sender that was set aside and whose bank is free is performed; else the add at the front, or it is set aside when
it has to wait, so that the requests behind it go on: lookups never wait (R252, R256; log entry 89). -/
def execJournalAdd (q : Fin 4) (sender : Fin 4) (s : State) : Res :=
  let l := (s.press q).parked.look sender []
  match l.find? fun r => !s.addWaits r with
  | some r =>
    .next ((s.onPress q fun p => { p with parked := p.parked.set sender (dropFirst (fun x => !s.addWaits x) l) }).addAnswer q sender r)
  | none =>
    match s.frontReq q sender with
    | some (.jadd t row xs poison run) =>
      let r : PressReq := .jadd t row xs poison run
      let rest := s.onPress q fun p => { p with reqs := p.reqs.set sender ((p.reqs.look sender []).drop 1) }
      if s.addWaits r then .next (rest.onPress q fun p => { p with parked := p.parked.set sender (l ++ [r]) })
      else .next (rest.addAnswer q sender r)
    | _ => .next s

/-! ## Cutting requests (R250, R251) -/

/-- A press writes a row into its own slot while its directory gives the slot to that row; a copy of the old cutting that is in flight is
no longer installed. -/
def execCuttingWrite (q : Fin 4) (sender : Fin 4) (s : State) : Res :=
  match s.frontReq q sender with
  | some (.cutWrite t row slot data bad why) =>
    let here := match (s.press q).dirOf t row with
      | some (_, e) => e.slot == slot
      | none => false
    let s := match (s.table t).rc with
      | some r => if here then (s.memWr (tableWho q r none) (s.slotAddr q slot) data bad).1 else s
      | none => s
    let s := if why = .create then s
      else s.onPress q fun p =>
        { p with
          fetches := p.fetches.map fun (f : Fetch) =>
            if f.table = t && f.row = row && f.src = .cutting slot then { f with stale := true } else f
          fills := p.fills.filter fun (f : RowFill) => !(f.table = t && f.row = row) }
    .next (s.pressAnswer q sender (.cutWritten t slot why))
  | _ => .next s

def execDirectoryChange (q : Fin 4) (sender : Fin 4) (s : State) : Res :=
  match s.frontReq q sender with
  | some (.dirChange t row slot st) =>
    let n := s.cutSlots q
    .next ((s.onPress q fun p => p.dirSet n t row slot st).pressAnswer q sender (.dirChanged t slot st))
  | _ => .next s

def execRowCacheInvalidate (q : Fin 4) (sender : Fin 4) (s : State) : Res :=
  match s.frontReq q sender with
  | some (.rcInval t row why) =>
    .next ((s.onPress q fun p => p.rcDrop fun _ e => e.table = t && e.row = row).pressAnswer q sender (.invalidated t row why))
  | _ => .next s

/-- A free slot of the home quarter's pool. -/
def State.freeSlot (s : State) (q : Nat) : Option Nat :=
  let p := s.press q
  (List.range (s.cutSlots q)).find? fun k =>
    k % 4 = q && (p.dir.all fun e => e.2.st = 0 || e.2.slot != k) && p.moves.all fun m => m.slot != k

/-- The home press may promote a row (R250). -/
def State.mayPromote (s : State) (q t row : Nat) : Bool :=
  let p := s.press q
  let x := s.table t
  let made := p.dir.filter fun e => e.2.st != 0 && e.2.table = t
  let coming := p.moves.filter fun m => m.table = t && m.step = 1 && made.all fun e => e.2.slot != m.slot
  s.tableFeature t 12 && x.st = 1 && (p.dirOf t row).isNone && (p.moves.all fun m => !(m.table = t && m.row = row)) &&
    (match x.rc with
     | some r => made.length + coming.length < r.cutMax
     | none => false) && p.movesDone ≤ Config.cuttingMoves

def execCandidate (q : Fin 4) (sender : Fin 4) (s : State) : Res :=
  match s.frontReq q sender with
  | some (.candidate t row) =>
    let s := match s.freeSlot q with
      | some k =>
        if s.mayPromote q t row then
          let s := s.onPress q fun p =>
            { p with movesDone := p.movesDone + 1, moves := p.moves ++ [(⟨t, row, k, 1, 4, 0⟩ : CutMove)] }
          s.sendAll q (.dirChange t row k 1)
        else s
      | none => s
    .next (s.pressAnswer q sender .considered)
  | _ => .next s

def execCuttingCount (q : Fin 4) (sender : Fin 4) (s : State) : Res :=
  match s.frontReq q sender with
  | some (.cutCount t row slot) =>
    let n := match (s.press q).dirOf t row with
      | some (_, e) => e.count
      | none => 0
    .next (s.pressAnswer q sender (.count t row slot n))
  | _ => .next s

/-- Change a move of a home press. -/
def State.onMove (s : State) (q slot : Nat) (f : CutMove → CutMove) : State :=
  s.onPress q fun p => { p with moves := updFirst (fun m => m.slot = slot) f p.moves }

def State.dropMove (s : State) (q slot : Nat) : State :=
  s.onPress q fun p => { p with moves := dropFirst (fun m => m.slot = slot) p.moves }

/-- The last answer of a step has come: go on to the next (R250, R251). -/
def State.moveNext (s : State) (q : Nat) (m : CutMove) : State :=
  match m.step with
  | 1 => s.onMove q m.slot fun m => { m with step := 2 }
  | 2 => s
  | 3 => (s.onMove q m.slot fun m => { m with step := 4, wait := 4 }).sendAll q (.dirChange m.table m.row m.slot 2)
  | 4 => s.dropMove q m.slot
  | 5 =>
    if m.below = 4 then
      (s.onMove q m.slot fun m => { m with step := 6, wait := 4 }).sendAll q (.dirChange m.table m.row m.slot 3)
    else s.dropMove q m.slot
  | 6 => s.onMove q m.slot fun m => { m with step := 7 }
  | _ => s.dropMove q m.slot

/-- One answer that a move awaits has come. -/
def State.moveAnswer (s : State) (q t slot below : Nat) : State :=
  match (s.press q).moves.find? fun m => m.table = t && m.slot = slot && 0 < m.wait with
  | none => s
  | some m =>
    let m := { m with wait := m.wait - 1, below := m.below + below }
    let s := s.onMove q slot fun _ => m
    if m.wait = 0 then s.moveNext q m else s

/-- The next fetch number of each press: fetches below it may have read what a write issued by now has overtaken (R258). -/
def State.marks (s : State) : List Nat := (List.range 4).map fun k => (s.press k).nextFetch

/-- A write of a blend has been done: fetches issued until now may have read the copy it replaced, so the bank waits for them (R258). -/
def State.blendAnswer (s : State) (t : Nat) : State :=
  let m := s.marks
  s.onTable t fun x =>
    let b := (sortBy (fun a b => a.epoch < b.epoch) x.closed).head?
    { x with
      blendWait := x.blendWait - 1
      banks := match b with
        | some b => x.banks.set (b.epoch % 4) { b with marks := m }
        | none => x.banks }

def execPressAnswer (q : Fin 4) (sender : Fin 4) (s : State) : Res :=
  match (s.press q).answers.look sender [] with
  | [] => .next s
  | a :: rest =>
    let s := s.onPress q fun p => { p with answers := p.answers.set sender rest }
    match a with
    | .entries f es =>
      .next (s.onPress q fun p => { p with fetches := updFirst (fun g => g.id = f) (fun g => { g with journal := some es }) p.fetches })
    | .added id full => .next (s.onRunId q id fun r => { r with adds := r.adds - 1, full := r.full || full })
    | .cutWritten t slot why =>
      match why with
      | .create => .next (s.moveAnswer q t slot 0)
      | .blend => .next (s.blendAnswer t)
      | .poison => .next s
    | .dirChanged t slot _ => .next (s.moveAnswer q t slot 0)
    | .invalidated t _ why => .next (if why = .blend then s.blendAnswer t else s)
    | .considered => .next s
    | .count t _ slot n => .next (s.moveAnswer q t slot (b2n (4 * n < (s.press q).tCut)))

def execCuttingSlotFree (q : Fin 4) (slot : Nat) (s : State) : Res :=
  match (s.press q).moves.find? fun m => m.slot = slot && m.step = 7 with
  | none => .next s
  | some m =>
    let reading := (List.range 4).any fun k => (s.press k).fetches.any fun f => f.src == .cutting slot
    if reading then .next s
    else .next ((s.onMove q slot fun m => { m with step := 8, wait := 4 }).sendAll q (.dirChange m.table m.row slot 0))

/-! ## Blending (R258) -/

/-- The blended row of an entry: its bytes under the stamp of the epoch, and the flags raised. -/
def TableRec.blend (r : TableRec) (e : Nat) (data : Bytes) (j : JEntry) : Bytes × Flags :=
  let l := ((r.elems data).zip j.elems).map fun (old, g) => blendElem r old g
  let f := l.foldl (fun f y => f ||| y.2) (seenFlags j.seen)
  (patch (patch data 0 (pack r.fmt (l.map (·.1)))) (r.pitch - 8) (leBytes 8 e), f)

def execBlendEntry (t : Fin 4096) (s : State) : Res :=
  let x := s.table t
  match x.rc, x.toBlend with
  | some r, some (b, j) =>
    let q := r.homeQ
    if !s.goes (pressSrc q) || x.blendWait != 0 || (s.press q).bgSlots < r.slots then .next s
    else
      let s := s.onPress q fun p => { p with bgSlots := p.bgSlots - r.slots }
      let a := r.base + j.row * r.pitch
      let (s, rd) := s.memRd (tableWho q r none) a r.pitch
      let (s, worn) := s.slotBad r b.epoch j
      let (row, f) := r.blend b.epoch rd.data j
      let (inj, s) := s.inject (pressSrc q) 5 r.rowElems
      let mark := j.poison || worn || inj.isSome
      let bad := mark || rd.bad.isSome
      let s := (s.memWr (tableWho q r none) a row bad).1
      let al : Alarm :=
        { src := pressSrc q, sev := 1, cause := if inj.isSome then 5 else 0x15, ctx := none, part := some r.part,
          inj := inj.isSome, addr := a, info := BitVec.ofNat 32 t.val }
      let s := if mark then s.raise al else s
      let (s, n) := s.copiesFollow q t j.row row bad .blend
      let s := s.onPress q fun p => { p with blendFlg := p.blendFlg ||| f, residue := p.residue + b2n inj.isSome }
      let es := updFirst (fun o => o.row = j.row) (fun o => { o with blended := true }) b.entries
      .next (s.setTable t { x with
        banks := x.banks.set (b.epoch % 4) { b with entries := es, marks := s.marks }, blendWait := n })
  | _, _ => .next s

/-- The oldest closed bank, when it has been blended whole and no fetch needs its entries. -/
def State.freeBank (s : State) (t : Nat) : Option Bank :=
  let x := s.table t
  match sortBy (fun a b => a.epoch < b.epoch) x.closed with
  | [] => none
  | b :: _ =>
    let waits := (List.range 4).any fun k => (s.press k).fetches.any fun f => f.table = t && f.id < b.marks.getD k 0
    if b.entries.all (·.blended) && x.blendWait = 0 && !waits then some b else none

def execJournalBankFree (t : Fin 4096) (s : State) : Res :=
  match s.freeBank t with
  | none => .next s
  | some b =>
    let s := s.onTable t fun x => { x with banks := x.banks.del (b.epoch % 4) }
    .next (if (s.table t).st = 2 && (s.table t).closed.isEmpty then s.onTable t fun x => { x with st := 3 } else s)

/-! ## Racking step 6, and new tables (R242, R256, R257) -/

/-- Close the open epoch of a table, or discard its journal, and open the next. -/
def Table.closeEpoch (t : Table) (discard : Bool) : Table :=
  let b := t.bankAt t.openEpoch
  let mine := b.used && b.epoch = t.openEpoch
  let drop := discard || t.overflowed
  let banks := if !mine then t.banks
    else if drop || b.entries.isEmpty then t.banks.del (t.openEpoch % 4) else t.banks.set (t.openEpoch % 4) { b with closed := true }
  { t with banks := banks, openEpoch := t.openEpoch + 1, overflowed := false, discarded := drop }

/-- Step 6 for the online tables of a partition. -/
def State.closeEpochs (s : State) (p : Nat) (forced : Bool) : State :=
  { s with tables := s.tables.map fun e =>
      if e.2.st = 1 && (e.2.rc.map (·.part)) = some p then (e.1, e.2.closeEpoch forced) else e }

/-- Cuttings of tables that satisfy a test are gone from every directory, with the moves under way and their requests and answers. A write
of a blend on its way is still answered, and finds no slot. -/
def State.dropCuttings (s : State) (f : Nat → Bool) : State :=
  let keep : PressReq → Bool
    | .cutWrite t _ _ _ _ .create => !f t
    | .dirChange t .. => !f t
    | .cutCount t .. => !f t
    | .candidate t _ => !f t
    | _ => true
  let wants : PressAns → Bool
    | .cutWritten t _ .create => !f t
    | .dirChanged t _ _ => !f t
    | .count t .. => !f t
    | _ => true
  (List.range 4).foldl (fun s q => s.onPress q fun p =>
    { p with
      dir := p.dir.filter fun e => !f e.2.table
      moves := p.moves.filter fun m => !f m.table
      reqs := p.reqs.map fun e => (e.1, e.2.filter keep)
      answers := p.answers.map fun e => (e.1, e.2.filter wants) }) s

/-- Drop the cuttings and cached rows of a table (R242). -/
def State.dropCopies (s : State) (t : Nat) : State :=
  (List.range 4).foldl (fun s q => s.onPress q fun p =>
    { p.rcDrop (fun _ e => e.table = t) with fills := p.fills.filter fun f => f.table != t }) (s.dropCuttings (· = t))

/-- The data slots of the journals homed in a quarter are written where its store now has them (log entry 31). -/
def State.placeJournals (s : State) (q : Nat) : State :=
  s.tables.foldl (fun s e =>
    match e.2.rc with
    | some r => if r.homeQ = q then
        e.2.banks.foldl (fun s b => b.2.entries.foldl (fun s j => s.slotWrite r b.2.epoch j) s) s else s
    | none => s) s

/-- The tables of a partition follow the records that now apply to it: new ones go online, omitted ones drain. -/
def State.applyTables (s : State) (p : Nat) (recs : List TableRec) : State :=
  let mine := recs.filter fun r => r.part = p
  let s := mine.foldl (fun s r =>
    let t := s.table r.table
    if t.st = 1 then s.setTable r.table { t with rc := some r }
    else s.setTable r.table { st := 1, rc := some r, openEpoch := r.epoch }) s
  let gone := s.tables.filter fun e => e.2.st = 1 && (e.2.rc.map (·.part)) = some p && mine.all fun r => r.table != e.1
  gone.foldl (fun s e => (s.setTable e.1 { e.2 with st := if e.2.closed.isEmpty then 3 else 2 }).dropCopies e.1) s

end Sys2Proof.Machine
end

