-- ==== Sys2Proof/Machine/Cache.lean ====
section
/-!
DEFINITION. The scalar caches of a core (R114 to R118): lookup, victim choice, fills, write-back and parity. A cache is a map from
8 × set + way to lines.
-/

namespace Sys2Proof.Machine

/-- Way of a set that holds a line. -/
def findWay (m : Map CLine) (set line : Nat) : Option Nat :=
  (List.range 8).find? fun w => let l := m.look (8 * set + w) {}; l.valid && l.line = line

/-- Every age of a set increments, up to 3 (R115). -/
def ageSet (m : Map CLine) (set : Nat) : Map CLine :=
  (List.range 8).foldl (fun m w =>
    let l := m.look (8 * set + w) {}
    if l.age = 3 then m else m.set (8 * set + w) { l with age := l.age + 1 }) m

/-- Victim among the powered ways (R115): the lowest invalid, else the lowest of age 3, ageing the set until there is one. -/
def victim (on : BitVec 8) (set : Nat) : Nat → Map CLine → Map CLine × Nat
  | 0, m => (m, 0)
  | f + 1, m =>
    let ways := (List.range 8).filter fun w => on.getLsbD w
    match ways.find? fun w => !(m.look (8 * set + w) {}).valid with
    | some w => (m, w)
    | none =>
      match ways.find? fun w => (m.look (8 * set + w) {}).age == 3 with
      | some w => (m, w)
      | none => victim on set f (ageSet m set)

/-- Ways that victim choice uses: powered, and not on their way down (R222, R223). -/
def CachePwr.ways (p : CachePwr) (data : Bool) : BitVec 8 :=
  let on := if data then p.dcOn else p.icOn
  match p.trans with
  | some (d, w, false) => if d = data then on &&& ~~~(1#8 <<< w) else on
  | _ => on

/-- The memory access of a core's cache: the running context and ring, the core's partition, the line's key. -/
def State.lineWho (s : State) (c : Nat) (key : BitVec 10) : Who :=
  { src := c, ctx := some (s.core c).seq.context, part := some ((s.partOfCore c).getD 64), key := key,
    ring0 := (s.core c).seq.ring == 0 }

/-- Write a dirty line back. A parity error in it writes its granule poisoned and raises SEV2 (R118); true for such an error. -/
def State.writeBack (s : State) (c : Nat) (l : CLine) : State × Bool :=
  let (inj, s) := s.inject c 4 1
  let s := (s.memWr (s.lineWho c l.key) (64 * l.line) l.data inj.isSome).1
  (if inj.isSome then s.sev c 2 4 (some (s.core c).seq.context) (64 * l.line) 0 true else s, inj.isSome)

/-- Clean the line at an index: written back if dirty, kept valid; discarded where its parity fails (R118). -/
def State.cleanAt (s : State) (c i : Nat) : State :=
  let l := (s.core c).dcache.look i {}
  if l.valid && l.dirty then
    let (s, bad) := s.writeBack c l
    s.onCore c fun x => { x with dcache := if bad then x.dcache.del i else x.dcache.set i { l with dirty := false } }
  else s

/-- Clean every line of the data cache (R104). -/
def State.cleanAll (s : State) (c : Nat) : State := (List.range 512).foldl (fun s i => s.cleanAt c i) s

/-- Write back and invalidate the data cache (R117). -/
def State.emptyData (s : State) (c : Nat) : State := (s.cleanAll c).onCore c fun x => { x with dcache := [] }

/-- Invalidate the line at an index without writing it back. -/
def State.dropAt (s : State) (c i : Nat) : State := s.onCore c fun x => { x with dcache := x.dcache.del i }

/-- Write back and invalidate both caches (Table 1.13 step 3, R117). -/
def State.flushCaches (s : State) (c : Nat) : State :=
  (s.emptyData c).onCore c fun x => { x with icache := [] }

/-- Index of a line in the data cache, if it holds it. -/
def State.dFind (s : State) (c line : Nat) : Option Nat :=
  (findWay (s.core c).dcache (line % 64) line).map fun w => 8 * (line % 64) + w

/-- Outcome of bringing a line in: installed at an index, poisoned, or refused. -/
inductive Fill where
  | at_ (i : Nat)
  | poison
  | err
  deriving DecidableEq, Repr

/-- Bring a line into the data cache, evicting a victim (R115); a poisoned line is not installed. -/
def State.dFill (s : State) (c line : Nat) (key : BitVec 10) (stream : Bool) : State × Fill :=
  let (s, r) := s.memRd (s.lineWho c key) (64 * line) 64
  if r.err then (s, .err)
  else if r.bad.isSome then (s, .poison)
  else
    let x := s.core c
    let (m, w) := victim (x.pwr.ways true) (line % 64) 5 x.dcache
    let i := 8 * (line % 64) + w
    let s := (s.setCore c { x with dcache := m }).cleanAt c i
    let l : CLine := { valid := true, age := if stream then 3 else 0, line := line, key := key, data := r.data }
    (s.onCore c fun x => { x with dcache := x.dcache.set i l }, .at_ i)

/-- Install a line in the instruction cache (R115, R116). -/
def State.iFill (s : State) (c line : Nat) (key : BitVec 10) (data : Bytes) : State :=
  let x := s.core c
  let (m, w) := victim (x.pwr.ways false) (line % 128) 5 x.icache
  let l : CLine := { valid := true, line := line, key := key, data := data }
  s.setCore c { x with icache := m.set (8 * (line % 128) + w) l }

end Sys2Proof.Machine
end

