-- ==== Sys2Proof/Machine/Sram.lean ====
section
/-!
DEFINITION. The on-chip store (R210 to R224): port accesses, correction rewrites, the scrubber, and the power of cache ways.
-/

namespace Sys2Proof.Machine

/-- Who a port's requester is (R211, R219): a unit of the core itself in its running context and ring, a requester on the fabric, or the
zeroing of bring-up. -/
def State.sramWho (s : State) (c : Nat) (a : SramAgent) : Who :=
  match a with
  | .fabric r => s.agentWho r (s.agentCtx r) 0
  | .bring => { src := c, quiet := true, all := true }
  | .cache => s.lineWho c 0
  | _ => { s.lineWho c 0 with ring0 := false }

/-- The access lies in the core's SRAM and is one that its requester may make. -/
def State.sramMay (s : State) (c : Nat) (w : Who) (wr : Bool) (off n : Nat) : Bool :=
  0 < n && off + n ≤ 0x2000000 &&
    (s.sramOk w wr (sramBase + 0x2000000 * c + off) && s.sramOk w wr (sramBase + 0x2000000 * c + off + n - 1))

/-- A permission failure at a port (R219): an engine's access raises SEV1 against its context, as its item error does (R107, R177). A
scalar access traps at its trigger (R102), and BAR2, the hub and bring-up have no context (log entry 90). -/
def State.sramRefuse (s : State) (c : Nat) (a : SramAgent) (w : Who) (off : Nat) : State :=
  match w.ctx with
  | none => s
  | some k => if a = .cache then s else s.sev w.src 1 7 (some k) (sramBase + 0x2000000 * c + off)

def execSramReadRequest (c : Fin 64) (a : SramAgent) (off : BitVec 25) (len : Nat) (s : State) : Res :=
  let w := s.sramWho c a
  if !s.sramMay c w false off.toNat len then .next (s.sramRefuse c a w off.toNat)
  else
    let at_ := sramBase + 0x2000000 * c.val + off.toNat
    let (s, r) := rdGrans w (cutGran (len / 64 + 2) at_ len) s
    .next (s.onStore c fun x => { x with lastRead := r.data, lastBad := r.bad.isSome })

def execSramWriteRequest (c : Fin 64) (a : SramAgent) (off : BitVec 25) (data : Bytes) (s : State) : Res :=
  let w := s.sramWho c a
  if !s.sramMay c w true off.toNat data.length then .next (s.sramRefuse c a w off.toNat)
  else
    let at_ := sramBase + 0x2000000 * c.val + off.toNat
    .next (wrGrans w false (cutGran (data.length / 64 + 2) at_ data.length) data s)

/-- Rewrite a word as corrected (R215): its stored flips and the correction's flips go into the word. -/
def State.sramFixWord (s : State) (w : Nat) (f : WordErr) : State :=
  let e := s.sramErr.look w {}
  let a := sramBase + 8 * w
  let d := BitVec.ofNat 64 (leNat (s.bytes a 8)) ^^^ e.data ^^^ f.data
  { s.store a (if e = {} then s.bytes a 8 else leBytes 8 d.toNat) with
    sramErr := s.sramErr.del w
    sramFix := s.sramFix.filter fun q => q.1 != w }

def execSramCorrectionRewrite (c : Fin 64) (s : State) : Res :=
  match s.sramFix.find? fun q => q.1 / 0x400000 == c.val with
  | some (w, f) => .next (s.sramFixWord w f)
  | none => .next s

/-- The scrubber reads one word: corrected ones are rewritten, uncorrectable ones marked, poisoned granules left alone (R217). -/
def State.scrubWord (s : State) (w : Nat) : State :=
  if s.poisoned ((sramBase + 8 * w) / 64) then s
  else
    let s := (s.sramWord w none).1
    match s.sramFix.find? fun q => q.1 == w with
    | some (_, f) => s.sramFixWord w f
    | none => s

def execSramScrub (c : Fin 64) (s : State) : Res :=
  let x := (s.core c).store
  if !x.scrubEn || !x.scrubOn then .next s
  else
    let s := (from_ (0x400000 * c.val + 16 * x.scrubPos) 16).foldl State.scrubWord s
    .next (s.onStore c fun x => { x with scrubPos := (x.scrubPos + 1) % 262144 })

/-! ## Power of cache ways (R222 to R224, R365) -/

/-- The first way on its way to the targets: down, highest first, before up, lowest first; the data cache before the
instruction cache (log entry 29). -/
def CachePwr.next (p : CachePwr) : Option (Bool × Nat × Bool) :=
  let down (on tgt : BitVec 8) := (List.range 8).reverse.find? fun w => on.getLsbD w && !tgt.getLsbD w
  let up (on tgt : BitVec 8) := (List.range 8).find? fun w => !on.getLsbD w && tgt.getLsbD w
  ((down p.dcOn p.dcTgt).map fun w => (true, w, false)) <|> ((down p.icOn p.icTgt).map fun w => (false, w, false)) <|>
    ((up p.dcOn p.dcTgt).map fun w => (true, w, true)) <|> ((up p.icOn p.icTgt).map fun w => (false, w, true))

/-- Start the next transition when no way is changing state. -/
def CachePwr.go (p : CachePwr) : CachePwr := if p.trans.isSome then p else { p with trans := p.next }

/-- A requested set of ways within the bound on their number: missing ways are added lowest first, ways in excess dropped
highest first (R364). -/
def boundWays (b : Nat × Nat) (t : BitVec 8) : BitVec 8 :=
  let count (t : BitVec 8) := ((List.range 8).filter fun i => t.getLsbD i).length
  let t := (List.range 8).foldl (fun (t : BitVec 8) i => if count t < b.1 then t ||| (1#8 <<< i) else t) t
  (List.range 8).reverse.foldl (fun (t : BitVec 8) i => if b.2 < count t then t &&& ~~~(1#8 <<< i) else t) t

/-- Set both targets of a core, keeping ways 0 and 1 and the bounds of the quarter's loops. -/
def State.wayTargets (s : State) (c : Nat) (dc ic : BitVec 8) : State :=
  s.onCore c fun x =>
    let low := dc &&& 3 != 3 || ic &&& 3 != 3
    let q := c / 16
    { x with pwr := CachePwr.go { x.pwr with
        dcTgt := boundWays (s.active.bounds 4 q) (dc ||| 3)
        icTgt := boundWays (s.active.bounds 5 q) (ic ||| 3)
        clamped := x.pwr.clamped || low } }

def execCachePwr (r : Requester) (c : Fin 64) (v : Word) (s : State) : Res :=
  if !writesBlock r then .next s
  else
    let s := s.onCore c fun x => { x with pwr := { x.pwr with clamped := x.pwr.clamped && !v.getLsbD 0, idleCut := false } }
    .next (s.wayTargets c (v.extractLsb' 16 8) (v.extractLsb' 8 8))

/-- Invalidate one way of a cache. -/
def dropWay (m : Map CLine) (w : Nat) : Map CLine := m.filter fun e => e.1 % 8 != w

def execCacheWayPoweredOff (c : Fin 64) (s : State) : Res :=
  match (s.core c).pwr.trans with
  | some (data, w, false) =>
    let s := if data then (List.range 64).foldl (fun s set => s.cleanAt c (8 * set + w)) s else s
    .next (s.onCore c fun x =>
      let m := ~~~(1#8 <<< w)
      let p := { x.pwr with trans := none }
      if data then { x with dcache := dropWay x.dcache w, pwr := CachePwr.go { p with dcOn := p.dcOn &&& m } }
      else { x with icache := dropWay x.icache w, pwr := CachePwr.go { p with icOn := p.icOn &&& m } })
  | _ => .next s

def execCacheWayPoweredOn (c : Fin 64) (s : State) : Res :=
  match (s.core c).pwr.trans with
  | some (data, w, true) =>
    .next (s.onCore c fun x =>
      let p := { x.pwr with trans := none }
      let m := 1#8 <<< w
      { x with pwr := CachePwr.go (if data then { p with dcOn := p.dcOn ||| m } else { p with icOn := p.icOn ||| m }) })
  | _ => .next s

/-- The lowest `n` ways. -/
def lowWays (n : Nat) : BitVec 8 := BitVec.ofNat 8 (2 ^ n - 1)

/-- The controller powers ways down on a core that has issued no bundle for 1 ms, to the ways its loops are bound to keep. -/
def execIdleCoreWayPowerdown (c : Fin 64) (s : State) : Res :=
  let x := s.core c
  if x.pwr.idleCut then .next s
  else
    let s := s.toNow (x.seq.lastIssue + 1000000)
    let dc := (s.active.bounds 4 (c.val / 16)).1
    let ic := (s.active.bounds 5 (c.val / 16)).1
    let s := s.onCore c fun x => { x with pwr := { x.pwr with idleCut := true } }
    .next (s.wayTargets c (lowWays dc) (lowWays ic))

/-- The next DISPATCH to a core restores HIGH ways (R365). -/
def State.restoreWays (s : State) (c : Nat) : State :=
  if (s.core c).pwr.idleCut then
    let s := s.onCore c fun x => { x with pwr := { x.pwr with idleCut := false } }
    s.wayTargets c (lowWays (s.active.bounds 4 (c / 16)).2) (lowWays (s.active.bounds 5 (c / 16)).2)
  else s

end Sys2Proof.Machine
end

