-- ==== Sys2Proof/Machine/Regs.lean ====
section
/-!
DEFINITION. Register access (R8, R14, R42 to R44, R124, R426): which block an MMIO offset lies in, what each register reads as and what
a write to it does, who may reach it, and the 32-bit latches. Registers whose write has a row of its own call that row's meaning.
-/

namespace Sys2Proof.Machine

/-- The next state of a meaning that always has one. -/
def Res.get (r : Res) (s : State) : State :=
  match r with
  | .next t => t
  | _ => s

/-- The block of an MMIO offset, with the unit and the offset inside its block (R139, R221, R261, R282, R283, R304, R327, R352, R367 to
R369, R394). -/
inductive MReg where
  | ring (c off : Nat)
  | store (c off : Nat)
  | press (q off : Nat)
  | hbm (s off : Nat)
  | key (k : Nat)
  | xlat (off : Nat)
  | port (p off : Nat)
  | coll (q off : Nat)
  | cellar (off : Nat)
  | power (q off : Nat)
  | unit (u : Nat)
  | alias_ (u : Nat)
  | collector (off : Nat)
  | none
  deriving DecidableEq, Repr

def mreg (a : Nat) : MReg :=
  let off (base size : Nat) : Nat := (a - base) % size
  let idx (base size : Nat) : Nat := (a - base) / size
  if 0x10000 ≤ a && a < 0x14000 then .ring (idx 0x10000 256) (off 0x10000 256)
  else if 0x20000 ≤ a && a < 0x24000 then .store (idx 0x20000 256) (off 0x20000 256)
  else if 0x30000 ≤ a && a < 0x30400 then .press (idx 0x30000 256) (off 0x30000 256)
  else if 0x40000 ≤ a && a < 0x40C00 then .hbm (idx 0x40000 256) (off 0x40000 256)
  else if 0x50000 ≤ a && a < 0x52000 then .key (idx 0x50000 8)
  else if 0x60000 ≤ a && a < 0x68000 then .xlat (a - 0x60000)
  else if 0x70000 ≤ a && a < 0x72000 then .port (idx 0x70000 256) (off 0x70000 256)
  else if 0x80000 ≤ a && a < 0x80400 then .coll (idx 0x80000 256) (off 0x80000 256)
  else if 0x90000 ≤ a && a < 0x90040 then .cellar (a - 0x90000)
  else if 0xA0000 ≤ a && a < 0xA0100 then .power (idx 0xA0000 64) (off 0xA0000 64)
  else if 0xB0000 ≤ a && a < 0xB03C0 then .unit (idx 0xB0000 8)
  else if 0xB1000 ≤ a && a < 0xB13C0 then .alias_ (idx 0xB1000 8)
  else if 0x1000000 ≤ a && a < 0x2000000 then .collector (a - 0x1000000)
  else .none

/-! ## What registers read as -/

def w64 (n : Nat) : Word := BitVec.ofNat 64 n

def RingBlock.reg (b : RingBlock) (o : Nat) : Word :=
  match o with
  | 0x00 => b.trapBase
  | 0x08 => b.tstackPtr
  | 0x10 => b.tstackLim
  | 0x18 => b.gateBase
  | 0x20 => b.gateCount.setWidth 64
  | _ => 0

/-- CACHE_PWR (Table 9.4). -/
def CachePwr.reg (p : CachePwr) : Word :=
  w64 (p.dcOn.toNat * 2 ^ 32 + p.icOn.toNat * 2 ^ 24 + p.dcTgt.toNat * 2 ^ 16 + p.icTgt.toNat * 2 ^ 8 + 2 * b2n p.trans.isSome + b2n p.clamped)

def State.storeReg (s : State) (c o : Nat) : Word :=
  let x := (s.core c).store
  match o with
  | 0x00 =>
    let r := s.split c
    w64 (r.scratch + r.resident * 2 ^ 16 + r.rowcache * 2 ^ 32)
  | 0x08 => (s.core c).pwr.reg
  | 0x10 => w64 x.eccCorr
  | 0x18 => w64 x.eccCheck
  | 0x20 => w64 x.eccUncorr
  | 0x28 => x.eccLast
  | 0x30 => w64 (b2n x.scrubEn + 256 * x.pace.toNat)
  | 0x38 => w64 x.scrubPos
  | _ => 0

/-- Slots of the serving lane over the last 10 µs in 1/1,024 of its share (Table 10.6). -/
def State.serveLoad (s : State) (q : Nat) : Nat :=
  let share := ((s.classRec q).map (·.share)).getD 0
  let slots := share * (s.pwr q).mhz * 10 / 1024
  if slots = 0 then 0 else min 1023 ((s.press q).serveWin.sum * 1024 / slots)

def State.pressReg (s : State) (q o : Nat) : Word :=
  let p := s.press q
  let t := s.table p.tableSel.toNat
  match o with
  | 0x00 => w64 p.nFetches
  | 0x08 => w64 p.cacheHits
  | 0x10 => w64 p.cutHits
  | 0x18 => w64 p.overlays
  | 0x20 => w64 ((p.dir.filter fun e => e.2.st = 2 && e.2.slot % 4 = q).length + p.tCut * 2 ^ 32)
  | 0x28 => w64 (s.activeSets q)
  | 0x30 => w64 (p.clampsCut.toNat + p.clampsSet.toNat * 2 ^ 32)
  | 0x38 => w64 (s.serveLoad q)
  | 0x40 => w64 p.residue
  | 0x48 => p.blendFlg.setWidth 64
  | 0x50 => p.tableSel.setWidth 64
  | 0x58 => w64 (t.st.toNat + 4 * t.unblended + 64 * b2n t.overflowed + 128 * b2n t.discarded)
  | 0x60 => w64 t.openEpoch
  | 0x68 =>
    let b := t.bankAt t.openEpoch
    w64 ((if b.epoch = t.openEpoch then b.entries.length else 0) + t.maxCount * 2 ^ 32)
  | _ => 0

def State.hbmReg (s : State) (k o : Nat) : Word :=
  let h := s.ctl k
  match o with
  | 0x00 =>
    let w := h.wNext.getD h.w
    w64 (w.urg + w.normal * 2 ^ 8 + w.bulk * 2 ^ 16 + w.back * 2 ^ 24)
  | 0x08 => h.urgUse.setWidth 64
  | 0x10 => w64 h.eccCorr
  | 0x18 => w64 h.eccCheck
  | 0x20 => w64 h.eccUncorr
  | 0x28 => h.eccLast
  | 0x30 => w64 h.parRetry
  | 0x38 => w64 (b2n h.scrubEn + 256 * h.hours.toNat)
  | 0x40 => w64 (h.scrubPos / 4)
  | 0x48 => w64 (b2n h.doubled + 256 * h.temp.toNat)
  | 0x50 => h.wClamps.setWidth 64
  | 0x58 => w64 ((s.tag (k / 3)).used.length + 2 ^ 16 * (s.tag (k / 3)).high)
  | _ => 0

def State.keyReg (s : State) (k : Nat) : Word :=
  let x := s.mgmt.keys.look k {}
  w64 (x.st.toNat + 65536 * x.gen.toNat)

/-- CHAN_STATUS: the transfer of a level that is furthest on. -/
def State.chanStatus (s : State) (ch level : Nat) : Word :=
  let c := s.chan ch
  let code (x : Xfer) : Nat := match x.st with
    | .waiting => 1
    | .running => 2
    | .preempted => 3
    | .parked => 4
  let of : List (Nat × Nat) := (c.xfers.filter fun x => x.level.toNat = level).map fun x => (code x, x.ctx)
  let (st, k) := of.foldl (fun (a : Nat × Nat) x => if a.1 < x.1 then x else a) (0, 0)
  w64 (st + 8 * c.hostResp.toNat + 2 ^ 16 * k + 2 ^ 32 * (c.lastSeq.look level 0).toNat)

def State.xlatReg (s : State) (o : Nat) : Word :=
  let x := s.xlat
  if 0x100 ≤ o && o < 0x300 then
    let r := s.rescue ((o - 0x100) / 0x80)
    let f := (o - 0x100) % 0x80
    if f < 0x40 then r.desc.look (f / 8) 0 else if f = 0x48 then w64 (r.st.toNat + 2 ^ 16 * r.addr.toNat) else 0
  else if 0x1000 ≤ o && o < 0x3000 then s.chanStatus ((o - 0x1000) / 32) ((o - 0x1000) % 32 / 8)
  else if 0x4000 ≤ o then
    let k := s.ctx ((o - 0x4000) / 16)
    if o % 16 = 0 then k.fqHead.setWidth 64
    else w64 (k.fqTail.toNat + 2 ^ 16 * b2n k.fqOverflow + 2 ^ 32 * k.fqLost.toNat)
  else
    match o with
    | 0x00 => x.invCtx.setWidth 64
    | 0x08 => x.invFirst.setWidth 64
    | 0x10 => x.invCount.setWidth 64
    | 0x20 => w64 (b2n x.busy + 2 * b2n x.invErr + 2 ^ 16 * x.doneSeq.toNat)
    | 0x28 => w64 x.invIgnored
    | 0x48 => w64 x.stale
    | _ => 0

def State.portReg (s : State) (p o : Nat) : Word :=
  let x := s.port p
  match o with
  | 0x00 => w64 (x.st + 16 * x.cause + 2 ^ 8 * x.partDev.toNat + 2 ^ 24 * x.partPort.toNat + 2 ^ 29 * b2n x.reversed)
  | 0x08 => w64 (b2n x.hold)
  | 0x10 => w64 x.flitsTx
  | 0x18 => w64 x.flitsRx
  | 0x20 => w64 x.fecCorr
  | 0x28 => w64 x.fecBad
  | 0x30 => w64 x.retries
  | 0x38 => w64 x.authFail
  | 0x40 => w64 x.departs
  | 0x48 => w64 (leNat ((List.range 4).map fun l => x.lanes.look l 0))
  | 0x50 => w64 x.ecn
  | 0x58 =>
    let r := s.route x.routeSel.toNat
    w64 (x.routeSel.toNat + 2 ^ 16 * r.st + 2 ^ 20 * r.cause)
  | 0x60 => x.routeSel.setWidth 64
  | _ => 0

/-- A rank and its lag as LAST_LAG gives them. -/
def lagWord : Option (Nat × Int) → Word
  | some (r, l) => w64 (r + 2 ^ 32 * (BitVec.ofInt 32 l).toNat)
  | none => 0

def State.collReg (s : State) (q o : Nat) : Word :=
  let u := s.coll q
  let n := u.sel.toNat
  let g := s.group n
  let here : Bool := match s.groupRec n with
    | some r => (s.member r).2 == q
    | none => false
  let staged := (s.active.groups.filter fun r => (s.member r).2 = q).map (·.stage)
  match o with
  | 0x00 => u.sel.setWidth 64
  | 0x08 => w64 (b2n here + 2 * b2n g.running.isSome + 4 * b2n g.lateAbort + 256 * g.cause.toNat + 2 ^ 32 * g.nextSeq.toNat)
  | 0x10 => lagWord g.lastLag
  | 0x18 => lagWord g.maxLag
  | 0x20 => (match g.missing with
    | some r => w64 (r + 65536)
    | none => 0)
  | 0x28 => w64 g.aborts
  | 0x30 => w64 u.discards
  | 0x38 => w64 u.residue
  | 0x40 => w64 (staged.sum % 4096)
  | _ => 0

/-- Missed periods: under SOURCE pulse the whole SYNC_PERIODs since the last edge, else the exchanges without a reply (R350). -/
def Cellar.missedNow (c : Cellar) (now : Nat) : Nat :=
  if c.source = 1 then min 0xFFFF ((now - c.edgeAt) / max 1 c.period.toNat) else c.missed.toNat

def Cellar.reg (c : Cellar) (now o : Nat) : Word :=
  match o with
  | 0x00 => w64 c.count
  | 0x08 => c.ctrl.setWidth 64
  | 0x10 => c.period.setWidth 64
  | 0x18 => c.load
  | 0x28 => w64 (b2n c.locked + 2 * b2n c.holdover + 4 * b2n c.refLost + 8 * b2n c.armed + 16 * b2n c.refused + 65536 * c.missedNow now)
  | 0x30 => BitVec.ofInt 64 c.offset
  | 0x38 => w64 c.launches
  | _ => 0

def Power.reg (p : Power) (o : Nat) : Word :=
  match o with
  | 0x00 => p.cap.setWidth 64
  | 0x08 => p.now.setWidth 64
  | 0x10 => w64 (p.mhz + 65536 * p.mv)
  | 0x18 => p.clamps.setWidth 64
  | 0x20 => p.safety.setWidth 64
  | 0x28 => w64 p.events
  | _ => 0

def UnitWord.reg (w : UnitWord) : Word := w64 (w.gen.toNat * 2 ^ 32 + w.oper.toNat * 256 + w.adm.toNat)

/-- What an MMIO register reads as, its storage checks aside; 0 where no register lies (R426). -/
def State.mmioPeek (s : State) (a : Nat) : Word :=
  match mreg a with
  | .ring c o => (s.core c).rb.reg o
  | .store c o => s.storeReg c o
  | .press q o => s.pressReg q o
  | .hbm k o => s.hbmReg k o
  | .key k => s.keyReg k
  | .xlat o => s.xlatReg o
  | .port p o => s.portReg p o
  | .coll q o => s.collReg q o
  | .cellar o => s.cellar.reg s.now o
  | .power q o => (s.pwr q).reg o
  | .unit u => (s.unit u).reg
  | .alias_ u => (s.unit u).reg
  | .collector o => s.collectorReg o
  | .none => 0

/-- Whether a read clears an MMIO register (RC). -/
def mmioRc (a : Nat) : Bool :=
  match mreg a with
  | .store _ o => o = 0x10 || o = 0x18 || o = 0x20
  | .press _ o => o = 0x30 || o = 0x40 || o = 0x48
  | .hbm _ o => o = 0x10 || o = 0x18 || o = 0x20 || o = 0x30 || o = 0x50
  | .xlat o => o = 0x28 || o = 0x48
  | .port _ o => o = 0x20 || o = 0x28 || o = 0x30 || o = 0x38 || o = 0x40 || o = 0x50
  | .coll _ o => o = 0x28 || o = 0x30 || o = 0x38
  | .cellar o => o = 0x38
  | .power _ o => o = 0x18 || o = 0x28
  | .collector o => collectorRc o
  | _ => false

/-- Clear an RC register of MMIO. -/
def State.mmioClear (s : State) (a : Nat) : State :=
  if !mmioRc a then s
  else
    match mreg a with
    | .store c o => s.onStore c fun x =>
        match o with
        | 0x10 => { x with eccCorr := 0 }
        | 0x18 => { x with eccCheck := 0 }
        | _ => { x with eccUncorr := 0 }
    | .press q o => s.onPress q fun p =>
        match o with
        | 0x30 => { p with clampsCut := 0, clampsSet := 0 }
        | 0x40 => { p with residue := 0 }
        | _ => { p with blendFlg := 0 }
    | .hbm k o => s.onCtl k fun h =>
        match o with
        | 0x10 => { h with eccCorr := 0 }
        | 0x18 => { h with eccCheck := 0 }
        | 0x20 => { h with eccUncorr := 0 }
        | 0x30 => { h with parRetry := 0 }
        | _ => { h with wClamps := 0 }
    | .xlat o =>
      if o = 0x28 then { s with xlat := { s.xlat with invIgnored := 0 } } else { s with xlat := { s.xlat with stale := 0 } }
    | .port p o => s.onPort p fun x =>
        match o with
        | 0x20 => { x with fecCorr := 0 }
        | 0x28 => { x with fecBad := 0 }
        | 0x30 => { x with retries := 0 }
        | 0x38 => { x with authFail := 0 }
        | 0x40 => { x with departs := 0 }
        | _ => { x with ecn := 0 }
    | .coll q o =>
      match o with
      | 0x28 => s.onGroup (s.coll q).sel.toNat fun g => { g with aborts := 0 }
      | 0x30 => s.onColl q fun u => { u with discards := 0 }
      | _ => s.onColl q fun u => { u with residue := 0 }
    | .cellar _ => s.onCellar fun c => { c with launches := 0 }
    | .power q o => s.onPwr q fun p => if o = 0x18 then { p with clamps := 0 } else { p with events := 0 }
    | .collector o => s.collectorClear o
    | _ => s

/-- Read 64 bits of an MMIO register: storage of the collector is checked, and an RC register clears. -/
def State.mmioRd (s : State) (a : Nat) : State × Word :=
  match mreg a with
  | .collector o =>
    match storageAt o with
    | some (i, w) => s.slotRead i w
    | none => (s.mmioClear a, s.mmioPeek a)
  | _ => (s.mmioClear a, s.mmioPeek a)

/-! ## What ring 1 may reach (R124, R139, R221, R283, R304, R352, R367) -/

/-- Offsets of the translation block that Table 12.7 does not list: they read 0 and ignore writes for ring 1 too (R426). -/
def xlatFree (o : Nat) : Bool :=
  !([0x28, 0x40, 0x48].contains o || (0x100 ≤ o && o < 0x300 && (o - 0x100) % 0x80 < 0x50))

def State.ring1May (s : State) (core a : Nat) (write : Bool) (v : Word) : Bool :=
  let own (p : Option Nat) : Bool := p.isSome && p == s.partOfCore core
  match mreg a with
  | .ring c _ => write && own (s.partOfCore c)
  | .store c _ => !write && own (s.partOfCore c)
  | .hbm k _ => !write && s.active.parts.any fun r => own (some r.part) && r.quarters.contains (k / 3)
  | .xlat o =>
    if o < 0x08 then write && own (s.partOfCtx (bits v.toNat 9 0))
    else if o < 0x20 then write && own (s.partOfCtx s.xlat.invCtx.toNat)
    else if o < 0x28 then !write
    else if 0x1000 ≤ o && o < 0x3000 then !write && own (s.partOfChan ((o - 0x1000) / 32))
    else if 0x4000 ≤ o then own (s.partOfCtx ((o - 0x4000) / 16))
    else xlatFree o
  | .coll q _ => !write && s.active.groups.any fun r => (s.member r).2 = q && own (some r.part)
  | .power _ _ => !write
  | _ => false

/-- Whether a requester reaches an MMIO register. -/
def State.mmioMay (s : State) (r : Requester) (a : Nat) (write : Bool) (v : Word) : Bool :=
  match r with
  | .host _ => true
  | .controller => true
  | .ring c n => n = 0 || (n = 1 && s.ring1May c a write v)

/-! ## Writes -/

/-- IRQ_RAISE: bits 47:40 set pending bits at once; a write with another bit set is ignored (R139). -/
def State.irqRaise (s : State) (c : Nat) (v : Word) : State :=
  if v.toNat % 2 ^ 40 != 0 || 2 ^ 48 ≤ v.toNat then s
  else s.onSeq c fun q => { q with ctl := q.ctl.set 0x411 (q.ctl.look 0x411 0 ||| v) }

def execIrqRaise (r : Requester) (c : Fin 64) (v : Word) (s : State) : Res :=
  .next (if s.mmioMay r (0x10028 + 256 * c.val) true v then s.irqRaise c v else s)

def RingBlock.write (b : RingBlock) (o : Nat) (v : Word) : RingBlock :=
  match o with
  | 0x00 => { b with trapBase := v }
  | 0x08 => { b with tstackPtr := v }
  | 0x10 => { b with tstackLim := v }
  | 0x18 => { b with gateBase := v }
  | 0x20 => { b with gateCount := v.setWidth 13 }
  | _ => b

/-- A number below a bound as an element of a finite type; the last one otherwise. -/
def fin (n k : Nat) (h : 0 < n := by decide) : Fin n := ⟨k % n, Nat.mod_lt k h⟩

def State.xlatWrite (s : State) (r : Requester) (o : Nat) (v : Word) : State :=
  if 0x100 ≤ o && o < 0x300 then
    let q := (o - 0x100) / 0x80
    let f := (o - 0x100) % 0x80
    if f < 0x40 then (if r = .controller then s else s.onRescue q fun x => { x with desc := x.desc.set (f / 8) v })
    else if f = 0x40 then Res.get (execRescueCmd r (fin 4 q) s) s else s
  else if 0x4000 ≤ o then
    let k := (o - 0x4000) / 16
    if o % 16 = 0 then s.fqConsume k (v.setWidth 12)
    else s.onCtx k fun k => { k with fqOverflow := k.fqOverflow && !v.getLsbD 16 }
  else if s.xlat.busy && o < 0x18 then { s with xlat := { s.xlat with invIgnored := s.xlat.invIgnored + 1 } }
  else
    match o with
    | 0x00 => { s with xlat := { s.xlat with invCtx := v.setWidth 10 } }
    | 0x08 => { s with xlat := { s.xlat with invFirst := v.setWidth 12 } }
    | 0x10 => { s with xlat := { s.xlat with invCount := v.setWidth 13 } }
    | 0x18 => Res.get (execInvalCmd r s) s
    | 0x40 =>
      let ch := fin 256 (bits v.toNat 7 0)
      let l := v.extractLsb' 8 2
      let q := v.extractLsb' 32 32
      if bits v.toNat 31 11 != 0 then s.staleResume
      else if v.getLsbD 10 then Res.get (execDmaResumeAbort r ch l q s) s else Res.get (execDmaResumeRetry r ch l q s) s
    | _ => s

/-- A write of 64 bits to an MMIO register that the requester reaches. Table 14.11 gives SYNC_PERIOD a range and no effect of a write
outside it: the model ignores such a write (DESIGN CHOICE, log entry 75). -/
def State.mmioWr (s : State) (r : Requester) (a : Nat) (v : Word) : State :=
  match mreg a with
  | .ring c o => if o = 0x28 then s.irqRaise c v else s.onCore c fun x => { x with rb := x.rb.write o v }
  | .store c o =>
    match o with
    | 0x08 => Res.get (execCachePwr r (fin 64 c) v s) s
    | 0x30 =>
      let p := max 16 (bits v.toNat 15 8)
      s.onStore c fun x => { x with scrubEn := v.getLsbD 0, pace := BitVec.ofNat 8 p }
    | _ => s
  | .press q o => if o = 0x50 then s.onPress q fun p => { p with tableSel := v.setWidth 12 } else s
  | .hbm k o =>
    match o with
    | 0x00 => Res.get (execHbmWeights r (fin 12 k) v s) s
    | 0x38 => s.onCtl k fun h => { h with scrubEn := v.getLsbD 0, hours := BitVec.ofNat 8 (max 1 (bits v.toNat 15 8)) }
    | _ => s
  | .xlat o => s.xlatWrite r o v
  | .port p o =>
    match o with
    | 0x08 => Res.get (execPortCtrl r (fin 32 p) v s) s
    | 0x60 => s.onPort p fun x => { x with routeSel := v.setWidth 13 }
    | _ => s
  | .coll q o => if o = 0 then Res.get (execGroupSel r (fin 4 q) v s) s else s
  | .cellar o =>
    match o with
    | 0x08 => Res.get (execCellarCtrl r v s) s
    | 0x10 =>
      let p := bits v.toNat 31 0
      if 1000 ≤ p && p ≤ 1000000000 then s.onCellar fun c => { c with period := BitVec.ofNat 32 p } else s
    | 0x18 => s.onCellar fun c => { c with load := v }
    | 0x20 => Res.get (execLoadCmd r v s) s
    | _ => s
  | .power q o =>
    match o with
    | 0x00 => Res.get (execQpwrCap r (fin 4 q) v s) s
    | 0x20 => s.onPwr q fun p => { p with safety := p.safety &&& ~~~(v.setWidth 2) }
    | _ => s
  | .alias_ u => Res.get (execOperAliasWrite r (fin 120 u) v s) s
  | .collector o =>
    match o with
    | 0x20 => Res.get (execFirstClr r s) s
    | 0x30 => Res.get (execFaultAck r v s) s
    | 0xA8 => if r = .controller then Res.get (execHeartbeat s) s else s
    | 0x108 => Res.get (execInjArm r 0 s) s
    | 0x148 => Res.get (execInjArm r 1 s) s
    | _ => s.collectorWrite r o v
  | _ => s

/-! ## BAR0 (Tables 1.2, 1.3, 17.4) -/

/-- Where a BAR0 offset leads: a register of BAR0 itself, or an MMIO offset through the window or the collector. -/
def State.bar0 (s : State) (a : Nat) : RegSpace × Nat :=
  if 0x8000000 ≤ a then (.mmio, s.host.mmioWin.toNat * 2 ^ 27 + (a - 0x8000000))
  else if 0x1000000 ≤ a && a < 0x2000000 then (.mmio, a)
  else (.bar0, a)

def State.locate (s : State) (sp : RegSpace) (a : Nat) : RegSpace × Nat :=
  match sp with
  | .bar0 => s.bar0 a
  | .mmio => (.mmio, a)

/-- QUEUE_CTRL (Table 1.5). -/
def State.queueCtrl (s : State) (n : Nat) : Word :=
  let q := s.queue n
  let st := if !q.enable then 0 else if q.err then 2 else if s.partSt n = 2 then 3 else 1
  w64 ((q.msix.getD (BitVec.ofNat 11 (2 * (n / 8)))).toNat * 2 ^ 37 + q.prio.toNat * 2 ^ 32 + q.cqSize * 2 ^ 16 + q.qSize * 2 ^ 8 +
    4 * st + 2 * b2n q.irqEn + b2n q.enable)

def State.trellisStatus (s : State) : Word :=
  w64 (s.trellis.pend.length * 2 ^ 40 + s.trellis.reject.toNat * 2 ^ 32 + s.trellis.st.toNat)

/-- DEV_BOOT (Table 17.5). -/
def Boot.reg (b : Boot) : Word :=
  w64 (b.fallback.toNat * 2 ^ 32 + b.failed.toNat * 2 ^ 20 + b.fwSlot.toNat * 2 ^ 8 + b.last.toNat * 16 + b.phase.toNat)

def State.devReg (s : State) (a : Nat) : Word :=
  if 0x100 ≤ a && a < 0x120 then (offered >>> (8 * (a - 0x100))).setWidth 64
  else if 0x120 ≤ a && a < 0x140 then (s.active.features >>> (8 * (a - 0x120))).setWidth 64
  else if 0x600 ≤ a && a < 0xA00 then
    let p := s.part ((a - 0x600) / 16)
    if a % 16 = 0 then w64 (p.st.toNat + 4 * b2n p.invalidLast + 2 ^ 32 * p.lastInvalid.toNat) else w64 p.vintage
  else
    match a with
    | 0x000 => w64 (0xB2A0 + Config.stepping.toNat * 2 ^ 16 + s.active.dev.toNat * 2 ^ 24)
    | 0x200 => s.trellis.addr.setWidth 64
    | 0x208 => s.trellis.len.setWidth 64
    | 0x218 => s.trellisStatus
    | 0x220 => w64 s.trellis.gen
    | 0x300 => s.host.devIrqVec.setWidth 64
    | 0x308 => w64 (s.host.bar2Base.toNat * 2 ^ 30 + s.host.bar2Key.toNat * 2 ^ 48)
    | 0x310 => w64 (s.host.mmioWin.toNat * 2 ^ 27)
    | 0xB00 => (if s.faults.fatal then { s.boot with phase := 6 } else s.boot).reg
    | _ => 0

/-- What a register of BAR0 itself reads as (R14). -/
def State.barPeek (s : State) (a : Nat) : Word :=
  if a < 0x10000 then s.devReg a
  else if a < 0x18000 then s.msixWord ((a - 0x10000) / 8)
  else if a < 0x18100 then
    w64 ((List.range 64).foldl (fun x i => x + b2n (s.host.msixPba.look (8 * (a - 0x18000) + i) false) <<< i) 0)
  else if 0x20000 ≤ a && a < 0xA0000 then
    let n := (a - 0x20000) / 64
    let q := s.queue n
    match (a - 0x20000) % 64 with
    | 0x00 => q.base.setWidth 64
    | 0x08 => q.cqBase.setWidth 64
    | 0x10 => s.queueCtrl n
    | 0x18 => w64 q.head
    | 0x20 => w64 q.cqTail
    | _ => 0
  else if 0x200000 ≤ a && a < 0x400000 then s.event ((a - 0x200000) / 0x800) ((a - 0x200000) % 0x800 / 8)
  else if 0x400000 ≤ a && a < 0x800000 && (a - 0x400000) % 0x1000 = 0x80 then
    (s.ctx ((a - 0x400000) / 0x1000)).dbErrors.setWidth 64
  else 0

/-- DB_ERRORS is the one RC register of BAR0 itself. -/
def barRc (a : Nat) : Bool := 0x400000 ≤ a && a < 0x800000 && (a - 0x400000) % 0x1000 = 0x80

def State.barClear (s : State) (a : Nat) : State :=
  if barRc a then s.onCtx ((a - 0x400000) / 0x1000) fun k => { k with dbErrors := 0 } else s

/-- A word of the MSI-X table is written; a pending vector whose mask clears is sent (R14). -/
def State.msixWrite (s : State) (i : Nat) (v : Word) : State :=
  let h := { s.host with msixTable := s.host.msixTable.set i v }
  let vec := i / 2
  if i % 2 = 1 && !v.getLsbD 32 && h.msixPba.look vec false then
    { s with host := { h with msixPba := h.msixPba.del vec, msixSent := h.msixSent.set vec (h.msixSent.look vec 0 + 1) } }
  else { s with host := h }

/-- A write to a queue's configuration block (R16). -/
def State.queueWrite (s : State) (n o : Nat) (v : Word) : State :=
  let q := s.queue n
  match o with
  | 0x00 => if q.enable then s else s.setQueue n { q with base := v.setWidth 56 }
  | 0x08 => if q.enable then s else s.setQueue n { q with cqBase := v.setWidth 56 }
  | 0x10 =>
    if q.enable && !v.getLsbD 0 then Res.get (execQueueDisable (fin 8192 n) v s) s
    else if !q.enable && v.getLsbD 0 then Res.get (execQueueEnable (fin 8192 n) v s) s
    else
      let q := q.ctrlNow v
      s.setQueue n (if q.enable then q else q.ctrlSizes v)
  | _ => s

/-- A write to a register of BAR0 itself, commands with rows of their own aside. -/
def State.barWr (s : State) (a : Nat) (v : Word) : State :=
  if 0x10000 ≤ a && a < 0x18000 then s.msixWrite ((a - 0x10000) / 8) v
  else if 0x20000 ≤ a && a < 0xA0000 then s.queueWrite ((a - 0x20000) / 64) ((a - 0x20000) % 64) v
  else
    match a with
    | 0x200 => { s with trellis := { s.trellis with addr := v.setWidth 48 } }
    | 0x208 => { s with trellis := { s.trellis with len := v.setWidth 25 } }
    | 0x300 => { s with host := { s.host with devIrqVec := v.setWidth 11 } }
    | 0x308 => { s with host := { s.host with bar2Base := v.extractLsb' 30 18, bar2Key := v.extractLsb' 48 10 } }
    | 0x310 => { s with host := { s.host with mmioWin := v.extractLsb' 27 5 } }
    | _ => s

/-! ## Both spaces -/

/-- Whether a requester reaches a register: BAR0 is the host's alone. -/
def State.regMay (s : State) (r : Requester) (sp : RegSpace) (a : Nat) (write : Bool) (v : Word) : Bool :=
  match sp with
  | .mmio => s.mmioMay r a write v
  | .bar0 => match r with
    | .host _ => true
    | _ => false

def State.regPeek (s : State) (sp : RegSpace) (a : Nat) : Word :=
  match sp with
  | .bar0 => s.barPeek a
  | .mmio => s.mmioPeek a

def State.regRd (s : State) (sp : RegSpace) (a : Nat) : State × Word :=
  match sp with
  | .bar0 => (s.barClear a, s.barPeek a)
  | .mmio => s.mmioRd a

def State.regWr (s : State) (r : Requester) (sp : RegSpace) (a : Nat) (v : Word) : State :=
  match sp with
  | .bar0 => s.barWr a v
  | .mmio => s.mmioWr r a v

def regRc (sp : RegSpace) (a : Nat) : Bool :=
  match sp with
  | .bar0 => barRc a
  | .mmio => mmioRc a

/-- Registers in which a half write leaves the other half: RW ones. In the others it counts as 0. -/
def keepsHalf (sp : RegSpace) (a : Nat) : Bool :=
  match sp with
  | .bar0 => a < 0xA0000
  | .mmio =>
    match mreg a with
    | .ring _ o => o != 0x28
    | .xlat o => o < 0x18 || (0x100 ≤ o && o < 0x300) || (0x4000 ≤ o && o % 16 = 0)
    | .collector o => o = 0x28 || o = 0x100 || o = 0x140
    | .cellar o => o != 0x20
    | .power _ o => o = 0
    | .alias_ _ => false
    | _ => true

/-- The 64 bits that a 32-bit write stands for. -/
def State.widen (s : State) (sp : RegSpace) (a : Nat) (v : Word) : Word :=
  let cur := if keepsHalf sp (a / 8 * 8) then s.regPeek sp (a / 8 * 8) else 0
  if a % 8 = 4 then (cur.extractLsb' 0 32).setWidth 64 ||| ((v.setWidth 32).setWidth 64 <<< 32)
  else ((cur >>> 32) <<< 32) ||| (v.setWidth 32).setWidth 64

/-! ## Latches (R43) -/

/-- One latch requester: a PCIe requester ID, a core, or the controller. -/
def sameReq : Requester → Requester → Bool
  | .host a, .host b => a = b
  | .ring c _, .ring d _ => c = d
  | .controller, .controller => true
  | _, _ => false

/-- A requester's low read latches the high half; the oldest of 64 latches makes room. -/
def State.latch (s : State) (r : Requester) (sp : RegSpace) (a : Nat) (hi : BitVec 32) : State :=
  let l := s.host.latches.filter fun x => !sameReq x.req r
  { s with host := { s.host with latches := (if l.length < 64 then l else l.drop 1) ++ [⟨r, sp, a, hi⟩] } }

/-- A 32-bit read: the low half latches the high one, and the high half takes a latch that is pending. -/
def State.read32 (s : State) (r : Requester) (sp : RegSpace) (a : Nat) : State × BitVec 32 :=
  let b := a / 8 * 8
  if a % 8 = 0 then
    let (s, v) := s.regRd sp b
    (s.latch r sp b (v.extractLsb' 32 32), v.setWidth 32)
  else
    match s.host.latches.find? fun x => sameReq x.req r && x.sp = sp && x.addr = b with
    | some x => ({ s with host := { s.host with latches := s.host.latches.filter fun y => y != x } }, x.hi)
    | none =>
      let (s, v) := s.regRd sp b
      (s, v.extractLsb' 32 32)

/-- A read answered to a host. -/
def State.hostData (s : State) (r : Requester) (v : Word) : State :=
  match r with
  | .host _ => { s with host := { s.host with rdata := v, rstatus := .ok } }
  | _ => s

/-! ## Rows -/

def execRegisterWrite (r : Requester) (sp : RegSpace) (addr : Nat) (w32 : Bool) (v : Word) (s : State) : Res :=
  let (sp, a) := s.locate sp addr
  let w := if w32 then s.widen sp a v else v
  .next (if s.regMay r sp (a / 8 * 8) true w then s.regWr r sp (a / 8 * 8) w else s)

def execReadClear (r : Requester) (sp : RegSpace) (addr : Nat) (w32 : Bool) (s : State) : Res :=
  let (sp, a) := s.locate sp addr
  if !regRc sp (a / 8 * 8) || !s.regMay r sp (a / 8 * 8) false 0 then .next s
  else if w32 then
    let (s, v) := s.read32 r sp a
    .next (s.hostData r (v.setWidth 64))
  else
    let (s, v) := s.regRd sp a
    .next (s.hostData r v)

/-- A 32-bit read (R43): of a low half, which latches the high one, or of a high half, which takes a latch that is pending. -/
def execLowHalfRead (r : Requester) (sp : RegSpace) (addr : Nat) (s : State) : Res :=
  let (sp, a) := s.locate sp addr
  if !s.regMay r sp (a / 8 * 8) false 0 then .next s
  else
    let (s, v) := s.read32 r sp (a / 4 * 4)
    .next (s.hostData r (v.setWidth 64))

/-- A configuration request completes; a Resizable BAR write sets the size of BAR2, a power of two from 1 GiB to 1 TiB (R11, R403). -/
def execPcieConfigRequest (req : CfgReq) (s : State) : Res :=
  match req with
  | .read off => .next { s with host := { s.host with rdata := (s.host.cfg.look (off / 4) 0).setWidth 64, rstatus := .ok } }
  | .write off v => .next { s with host := { s.host with cfg := s.host.cfg.set (off / 4) v, rstatus := .ok } }
  | .resizeBar2 n =>
    .next { s with host := { s.host with bar2Log2 := if 30 ≤ n && n ≤ 40 then n else s.host.bar2Log2, rstatus := .ok } }

/-- A BAR2 access maps to device physical memory (R12). A poisoned read completes as poisoned (R277); one that fails, or lies beyond
HBM, as Unsupported Request. R12 says that BASE is aligned to the BAR size and gives no effect otherwise: the model rounds it down
(DESIGN CHOICE, log entry 75). -/
def execBar2Access (off : Nat) (op : Bar2Op) (s : State) : Res :=
  let h := s.host
  let base := if h.bar2Log2 = 40 then 0 else h.bar2Base.toNat * 2 ^ 30 / 2 ^ h.bar2Log2 * 2 ^ h.bar2Log2
  let a := base + off
  let w : Who := { src := 135, key := h.bar2Key, quiet := true }
  let unsup (s : State) : State := { s with host := { s.host with rstatus := .unsupported } }
  let n := match op with
    | .read n => n
    | .write d => d.length
  if 2 ^ h.bar2Log2 < off + n || hbmTop < a + n then .next (unsup s)
  else
    match op with
    | .read n =>
      let (s, r) := s.memRd w a n
      if r.err then .next (unsup s)
      else
        let st : BusStatus := if r.bad.isSome then .poisoned else .ok
        .next { s with host := { s.host with bar2Data := r.data, rstatus := st } }
    | .write d =>
      let (s, err) := s.memWr w a d
      if err then .next (unsup s) else .next { s with host := { s.host with rstatus := .ok } }

end Sys2Proof.Machine
end

