-- ==== Sys2Proof/Machine/Lsu.lean ====
section
/-!
DEFINITION. The load/store unit (R101 to R104, R114 to R118): checks of an access, data cache lines, loads, stores, adds and cache
maintenance, and the core's own accesses to its tables and trap stacks.
-/

namespace Sys2Proof.Machine

/-- The running context as LSU and instruction fetch use it, in a ring. -/
def State.lsuEng (s : State) (c : Nat) (ring : BitVec 2) : Eng := { src := c, agent := 64 + c, ctx := s.runCtx c, ring := ring }

/-- A fault that the sequencer of a core raises against its context; R385 tells it apart. -/
def State.ownSev (s : State) (c sev : Nat) (cause : Byte) (ctx : Option Nat) (addr : Nat) (inj : Bool) : State :=
  s.raise { src := c, sev := sev, cause := cause, ctx := ctx, part := none, inj := inj, own := true, addr := addr }

/-! ## Data cache lines -/

/-- What an access finds: a line that was there, a line filled, poison, a refused fill, or a parity error in a dirty line. -/
inductive DLine where
  | hit (i : Nat)
  | miss (i : Nat)
  | poison
  | err
  | parity
  deriving DecidableEq, Repr

def State.dMiss (s : State) (c line : Nat) (key : BitVec 10) (stream : Bool) : State × DLine :=
  match s.dFill c line key stream with
  | (s, .at_ i) => (s, .miss i)
  | (s, .poison) => (s, .poison)
  | (s, .err) => (s, .err)

/-- The line of an access. Its parity is checked (R118): a clean line is fetched again; a dirty one is discarded and its granule
written poisoned. -/
def State.dLine (s : State) (c line : Nat) (key : BitVec 10) (stream : Bool) : State × DLine :=
  match s.dFind c line with
  | none => s.dMiss c line key stream
  | some i =>
    let (inj, s) := s.inject c 4 1
    let l := (s.core c).dcache.look i {}
    if inj.isNone then (s.onCore c fun x => { x with dcache := x.dcache.set i { l with age := 0 } }, .hit i)
    else if l.dirty then
      let s := (s.dropAt c i).memWr (s.lineWho c l.key) (64 * line) l.data true |>.1
      (s.ownSev c 2 4 (some (s.runCtx c)) (64 * line) true, .parity)
    else ((s.dropAt c i).sev c 0 4 none (64 * line) 0 true).dMiss c line key stream

/-- Put bytes into a line that the cache holds; a way that powers down writes them through and leaves its line clean (R223). -/
def State.linePut (s : State) (c i off : Nat) (bs : Bytes) : State :=
  let down := (s.core c).pwr.trans == some (true, i % 8, false)
  let s := s.onCore c fun x =>
    let l := x.dcache.look i {}
    { x with dcache := x.dcache.set i { l with data := patch l.data off bs, dirty := true } }
  if down then s.cleanAt c i else s

/-! ## The core's own accesses: tables, descriptors, frames -/

/-- Read physical bytes as the core sees them: from lines of its data cache, filled where they miss (R115). Poison and a parity error
in a dirty line deliver nothing. -/
def coreRds (c : Nat) (key : BitVec 10) : List (Nat × Nat) → State → State × Rd
  | [], s => (s, {})
  | (a, n) :: l, s =>
    let (s, d) := s.dLine c (a / 64) key false
    let line (i : Nat) : Rd := { data := ((((s.core c).dcache.look i {}).data).drop (a % 64)).take n }
    let r := match d with
      | .hit i => line i
      | .miss i => line i
      | .err => { err := true }
      | _ => { bad := some a }
    let (s, r') := coreRds c key l s
    (s, ⟨r.data ++ r'.data, r.bad <|> r'.bad, r.err || r'.err⟩)

/-- A pinned address in SRAM or HBM that a ring may access: where it lies. -/
def State.corePlace (s : State) (c k : Nat) (ring : BitVec 2) (a : Acc) (va n : Nat) : Option (Nat × BitVec 10) :=
  match s.vOk { src := c, agent := 64 + c, ctx := k, ring := ring } a va n with
  | some (pa, key) => if s.gate (s.lineWho c key) pa n (a == .wr) = .ok then some (pa, key) else none
  | none => none

/-- Bytes of a context's memory read by the core itself; none where the read fails or meets poison. -/
def State.coreRd (s : State) (c k : Nat) (ring : BitVec 2) (va n : Nat) : State × Option Bytes :=
  match s.corePlace c k ring .rd va n with
  | none => (s, none)
  | some (pa, key) =>
    let (s, r) := coreRds c key (cutGran (n / 64 + 2) pa n) s
    (s, if r.err || r.bad.isSome then none else some r.data)

/-- Bytes written by the core itself: into a line of its data cache, filled where it misses; to memory where no line can be installed. -/
def coreWrs (c : Nat) (key : BitVec 10) : List (Nat × Nat) → Bytes → State → State
  | [], _, s => s
  | (a, n) :: l, bs, s =>
    let (s, d) := s.dLine c (a / 64) key false
    let s := match d with
      | .hit i => s.linePut c i (a % 64) (bs.take n)
      | .miss i => s.linePut c i (a % 64) (bs.take n)
      | _ => (s.memWr (s.lineWho c key) a (bs.take n)).1
    coreWrs c key l (bs.drop n) s

def State.coreWr (s : State) (c : Nat) (ring : BitVec 2) (va : Nat) (bs : Bytes) : State :=
  match s.corePlace c (s.runCtx c) ring .wr va bs.length with
  | none => s
  | some (pa, key) => coreWrs c key (cutGran (bs.length / 64 + 2) pa bs.length) bs s

/-! ## Checks of an LSU access (R101, R102, R124) -/

/-- An access that passed: memory at an address under a key slot, a register of MMIO, or neither; or the vector it traps with. -/
inductive LsuChk where
  | mem (pa : Nat) (key : BitVec 10) (idx : Nat)
  | io (off : Nat)
  | nothing
  | trap (v : Nat)
  deriving DecidableEq, Repr

/-- The lower of two trap vectors. -/
def lower : Option Nat → Option Nat → Option Nat
  | some a, some b => some (min a b)
  | a, none => a
  | none, b => b

def trapIf (b : Bool) (v : Nat) : Option Nat := if b then some v else none

/-- An LSU trigger by its offset: 4 to 7 LOAD, 8 STORE, 9 ADD, 10 CLEAN, 11 INVAL, 12 CLEANALL. CLEAN and INVAL need a pinned extent and no
permission, and an ADD to an MMIO address traps LSU_PERM: R102 names neither (DESIGN CHOICE, log entry 60). -/
def State.lsuCheck (s : State) (c : Nat) (off : Nat) (mode va data : Word) : LsuChk :=
  let q := (s.core c).seq
  let n := if 10 ≤ off then 1 else 2 ^ bits mode.toNat 1 0
  let load := off < 8
  if off = 12 then .nothing
  else
    let odd := (off = 9 && n < 4) || va.toNat % n != 0
    match s.extAt (s.runCtx c) va.toNat n with
    | none => .trap (if odd then 4 else 6)
    | some e =>
      let pa := e.pstart + (va.toNat - e.vstart)
      let z := zone pa n
      let io := z = .mmio
      let may := 10 ≤ off || ((load || e.grants q.ring .wr) && (off = 8 || e.grants q.ring .rd))
      let reach := s.mmioMay (.ring (fin 64 c) q.ring) (pa - mmioBase) (!load) data
      let who := s.lineWho c e.key
      let v := lower (trapIf (io && (2 ≤ q.ring.toNat || (off < 10 && !reach))) 2)
        (lower (trapIf (odd || (io && off < 10 && n < 4)) 4)
          (lower (trapIf (z = .host || !may || (io && off = 9) || (!io && off < 10 && s.gate who pa n (!load) = .perm)) 5)
            (trapIf e.pageable 6)))
      match v with
      | some v => .trap v
      | none => if io then (if 10 ≤ off then .nothing else .io (pa - mmioBase)) else .mem pa e.key e.idx

/-! ## Effects -/

/-- A load's value: the low bytes, sign-extended with MODE.SIGNED. -/
def loadVal (mode : Word) (x : Nat) : Word :=
  let w := 8 * 2 ^ bits mode.toNat 1 0
  if mode.getLsbD 2 then BitVec.ofInt 64 (BitVec.ofNat w x).toInt else BitVec.ofNat 64 (x % 2 ^ w)

def State.lsuPost (s : State) (c port : Nat) (v : Word) (deliver miss : Bool) : State :=
  s.onSeq c fun q => { q with lsuPend := q.lsuPend ++ [⟨port, false, v, deliver, miss⟩] }

/-- A second miss has to wait for the first (R116). -/
def State.lsuBusy (s : State) (c : Nat) (off : Nat) (k : LsuChk) : Bool :=
  match k with
  | .mem pa _ _ => off < 9 && (s.core c).seq.lsuPend.any (·.miss) && (s.dFind c (pa / 64)).isNone
  | _ => false

/-- The oldest add request of a core is performed at its memory, modulo 2^32 or 2^64 (R101). One that reads poison writes nothing and
raises SEV1 (R215). -/
def State.addOldest (s : State) (c : Nat) : State :=
  match (s.core c).adds with
  | [] => s
  | q :: l =>
    let s := s.onCore c fun x => { x with adds := l }
    let w : Who := { src := c, ctx := some q.ctx, part := some ((s.partOfCtx q.ctx).getD 64), key := q.key }
    let (s, r) := s.memRd w q.pa q.size
    if r.err then s
    else if r.bad.isSome then s.sev c 1 0x15 (some q.ctx) q.pa
    else (s.memWr w q.pa (leBytes q.size (leNat r.data + q.data.toNat))).1

/-- Accesses of one core take effect in issue order (R103): every add it issued is performed before its next other access. -/
def State.addAll (s : State) (c : Nat) : State := (s.core c).adds.foldl (fun s _ => s.addOldest c) s

/-- An access that passed its checks, done; true for a parity error in a dirty line, which traps (R118, vector 13). -/
def State.lsuDo (s : State) (c : Nat) (off : Nat) (mode data : Word) (k : LsuChk) : State × Bool :=
  let n := 2 ^ bits mode.toNat 1 0
  let bs := (leBytes 8 data.toNat).take n
  let stream := mode.getLsbD 3
  let r : Requester := .ring (fin 64 c) (s.core c).seq.ring
  match k with
  | .trap _ => (s, false)
  | .nothing =>
    let s := if off = 12 then s.cleanAll c else s
    (s.onSeq c fun q => { q with maint := true }, false)
  | .io a =>
    if off < 8 then
      let (s, x) := if n = 4 then (let (s, x) := s.read32 r .mmio a; (s, x.toNat)) else (let (s, x) := s.mmioRd a; (s, x.toNat))
      (s.lsuPost c (off - 4) (loadVal mode x) true false, false)
    else (s.mmioWr r (a / 8 * 8) (if n = 4 then s.widen .mmio a data else data), false)
  | .mem pa key idx =>
    let s := (if off = 9 then s else s.addAll c).touch (64 + c) (s.runCtx c) idx
    let line := pa / 64
    if off < 9 then
      let (s, l) := s.dLine c line key stream
      let at_ (i : Nat) (miss : Bool) : State :=
        if off < 8 then
          s.lsuPost c (off - 4) (loadVal mode (fld ((s.core c).dcache.look i {}).data (pa % 64) n)) true miss
        else s.linePut c i (pa % 64) bs
      match l with
      | .hit i => (at_ i false, false)
      | .miss i => (at_ i true, false)
      | .parity => (s, true)
      | .err => (if off < 8 then s.lsuPost c (off - 4) 0 false true else s, false)
      | .poison =>
        if off < 8 then ((s.ownSev c 2 0x15 (some (s.runCtx c)) (64 * line) false).lsuPost c (off - 4) 0 false true, false)
        else ((s.memWr (s.lineWho c key) pa bs).1, false)
    else
      let s := match s.dFind c line with
        | none => s
        | some i =>
          if off = 10 then s.cleanAt c i
          else if off = 11 then s.dropAt c i
          else (s.cleanAt c i).dropAt c i
      if off = 9 then
        let a : MemAdd := ⟨pa, n, data, key, s.runCtx c⟩
        (s.onCore c fun x => { x with adds := x.adds ++ [a] }, false)
      else (s.onSeq c fun q => { q with maint := true }, false)

/-! ## Rows -/

/-- Restores that wait behind a completed operation of their port take effect (R95). -/
def restores (port : Nat) : Nat → List PortPend → Map Word → List PortPend × Map Word
  | 0, l, m => (l, m)
  | k + 1, l, m =>
    match l.find? fun x => x.port = port with
    | some x => if x.restore then restores port k (dropFirst (fun x => x.port = port) l) (m.set port x.value) else (l, m)
    | none => (l, m)

/-- The oldest operation of a result port completes. -/
def complete (port : Nat) (l : List PortPend) (m : Map Word) : List PortPend × Map Word :=
  match l.find? fun x => x.port = port with
  | none => (l, m)
  | some x =>
    restores port l.length (dropFirst (fun x => x.port = port) l) (if x.deliver then m.set port x.value else m)

def execMulComplete (c : Fin 64) (m : Fin 4) (s : State) : Res :=
  .next (s.onSeq c fun q => let r := complete m q.mulPend q.mulRes; { q with mulPend := r.1, mulRes := r.2 })

def execLsuLoadComplete (c : Fin 64) (m : Fin 4) (s : State) : Res :=
  .next (s.onSeq c fun q => let r := complete m q.lsuPend q.lsuRes; { q with lsuPend := r.1, lsuRes := r.2 })

def execLsuMaintenanceComplete (c : Fin 64) (s : State) : Res := .next (s.onSeq c fun q => { q with maint := false })

/-- Quotient or remainder by operation code: 1 DIVS, 2 DIVU, 3 REMS, 4 REMU (R100). -/
def divide (op : Nat) (a b : Word) : Word :=
  if b = 0 then (if op ≤ 2 then 0xFFFFFFFFFFFFFFFF else a)
  else
    match op with
    | 1 => BitVec.ofInt 64 (a.toInt.tdiv b.toInt)
    | 2 => BitVec.ofNat 64 (a.toNat / b.toNat)
    | 3 => BitVec.ofInt 64 (a.toInt.tmod b.toInt)
    | _ => BitVec.ofNat 64 (a.toNat % b.toNat)

def execDivComplete (c : Fin 64) (s : State) : Res :=
  .next (s.onSeq c fun q =>
    if q.divBusy then
      { q with divBusy := false, divRes := q.divAfter.getD (divide q.divOp q.divA q.divB), divAfter := none, divZero := q.divB == 0 }
    else q)

def execMemoryAtomicAdd (c : Fin 64) (s : State) : Res := .next (s.addOldest c)

end Sys2Proof.Machine
end

