-- ==== Sys2Proof/Machine/Seq.lean ====
section
/-!
DEFINITION. The transport-triggered sequencer (R87 to R113, R116), rings, gates, traps and interrupts (R119 to R138), and the start
and end of kernels (R106). A bundle is checked whole before any of its moves takes effect.
-/

namespace Sys2Proof.Machine

/-! ## Control registers (Tables 4.7, 5.5) -/

/-- The highest ring that reads and that writes a control register, whether a write is ignored, and whether it needs SYNC. -/
structure CtlReg where
  rd   : Nat
  wr   : Nat
  ro   : Bool := false
  sync : Bool := false
  deriving DecidableEq, Repr

def ctlReg (p : Nat) : Option CtlReg :=
  if p = 0x400 then some { rd := 3, wr := 1 }
  else if 0x404 ≤ p && p < 0x410 then some { rd := p % 4, wr := p % 4, sync := true }
  else if p = 0x410 then some { rd := 1, wr := 1, sync := true }
  else if p = 0x411 then some { rd := 1, wr := 1 }
  else if 0x414 ≤ p && p ≤ 0x420 then some { rd := 3, wr := 3, sync := true }
  else if p = 0x425 then some { rd := 2, wr := 2, sync := true }
  else if p = 0x428 || p = 0x429 then some { rd := 3, wr := 3, ro := true }
  else if 0x42C ≤ p && p ≤ 0x42E then some { rd := 1, wr := 1, ro := true }
  else if p = 0x430 || p = 0x431 then some { rd := 1, wr := 1, sync := true }
  else if 0x434 ≤ p && p < 0x43C then some { rd := p % 4, wr := p % 4, ro := true }
  else if p = 0x43C then some { rd := 0, wr := 0, sync := true }
  else if p = 0x43D then some { rd := 0, wr := 0 }
  else none

/-- The value of a register that governs the hardware (R112). -/
def Seq.gov (q : Seq) (p : Nat) : Word := q.eff.look p 0
def Seq.setGov (q : Seq) (p : Nat) (v : Word) : Seq := { q with eff := q.eff.put p v 0 }
def Seq.setCtl (q : Seq) (p : Nat) (v : Word) : Seq := { q with ctl := q.ctl.set p v }

/-- The STATUS word (Table 4.8) with a given IE. -/
def Seq.status (q : Seq) (ie lpend : Bool) : Word :=
  w64 ((q.preds ||| 1).toNat * 2 ^ 16 + 128 * b2n lpend + 4 * b2n ie + q.ring.toNat)

def State.ctlRead (s : State) (c p : Nat) : Word :=
  let q := (s.core c).seq
  let w := s.pwr (c / 16)
  match p with
  | 0x400 => q.status (match q.ctl.find 0x400 with | some v => v.getLsbD 2 | none => q.ie) false
  | 0x425 => 0
  | 0x428 => w64 (c + 64 * (c / 16) + 2 ^ 16 * (((s.partOfCore c).map s.devOf).getD s.active.dev).toNat)
  | 0x429 => w64 q.context
  | 0x42C => w64 (w.cycles - q.cycleBase)
  | 0x42D => w64 s.cellar.count
  | 0x42E => w64 q.stalls
  | _ => q.ctl.look p (q.gov p)

/-- Bits that a register keeps of a write. -/
def ctlMask (p : Nat) : Word :=
  if 0x408 ≤ p && p < 0x410 then ~~~15
  else if p = 0x420 then 7
  else if p = 0x431 then 0x1FFF
  else 0xFFFFFFFFFFFFFFFF

def Seq.ctlWrite (q : Seq) (p : Nat) (v : Word) : Seq :=
  match p with
  | 0x400 => { q with preds := (v.extractLsb' 16 8) ||| 1 }.setCtl 0x400 (v &&& 4)
  | 0x411 => q.setCtl 0x411 (q.ctl.look 0x411 0 &&& ~~~v)
  | 0x43D => q.setCtl 0x43D (q.ctl.look 0x43D 0 &&& ~~~(v &&& 1))
  | 0x425 => { q with icinv := true }
  | _ =>
    match ctlReg p with
    | some r =>
      if r.ro then q
      else
        let q := q.setCtl p (v &&& ctlMask p)
        if 0x404 ≤ p && p < 0x408 then { q with tbDirty := q.tbDirty ||| (1 <<< (p - 0x404)) } else q
    | none => q

/-! ## Handler shadows (R113, R125) -/

/-- The first bundle at an address that a ring may execute. -/
def State.codeRd (s : State) (c k : Nat) (ring : BitVec 2) (va : Nat) : State × Option (BitVec 128) :=
  match s.corePlace c k ring .ex va 16 with
  | none => (s, none)
  | some (pa, key) =>
    let (s, r) := s.memRd (s.lineWho c key) pa 16
    (s, if r.err || r.bad.isSome then none else some (BitVec.ofNat 128 (leNat r.data)))

def shadowEntry (c k n : Nat) (tab : Bytes) (s : State) (v : Nat) : State :=
  let h := fld tab (8 * v) 8
  let h := if h % 16 = 0 then h else 0
  let (s, b) := if h = 0 then (s, none) else s.codeRd c k (BitVec.ofNat 2 n) h
  s.onSeq c fun q =>
    { q with
      shadow := q.shadow.put (64 * n + v) (w64 h) 0
      shadowB := match b with | some b => q.shadowB.set (64 * n + v) b | none => q.shadowB.del (64 * n + v) }

/-- Copy a ring's table and the first bundle of each handler, through the extents of a context, with that ring's own read and execute
rights: the spec does not say whose rights these reads take (DESIGN CHOICE, log entry 61). A table that cannot be read has no handler. -/
def State.reloadShadow (s : State) (c k n : Nat) : State :=
  let base := ((s.core c).seq.gov (0x404 + n)).toNat
  let (s, tab) := if base = 0 || base % 512 != 0 then (s, none) else s.coreRd c k (BitVec.ofNat 2 n) base 512
  (List.range 64).foldl (shadowEntry c k n (tab.getD [])) s

/-- SYNC applies pending control writes, ICINV, and reloads the shadows of the TRAP_BASE registers written (R112, R113). A LOOP or
TSTACK_PTR register that the hardware updated while a write of it waited takes the written value, which reads have returned since the
write: the spec does not say how the two meet (DESIGN CHOICE, log entry 85). -/
def State.sync (s : State) (c : Nat) : State :=
  let q := (s.core c).seq
  let dirty := q.tbDirty
  let q := q.ctl.foldl (fun (q : Seq) e =>
    match ctlReg e.1 with
    | some r => if r.sync then { q with ctl := q.ctl.del e.1 }.setGov e.1 e.2 else q
    | none => q) q
  let q := match q.ctl.find 0x400 with
    | some v => { q with ie := v.getLsbD 2, ctl := q.ctl.del 0x400 }
    | none => q
  let inv := q.icinv
  let s := s.onCore c fun x =>
    { x with seq := { q with tbDirty := 0, icinv := false }, icache := if inv then [] else x.icache }
  ((List.range 4).filter fun n => dirty.getLsbD n).foldl (fun s n => s.reloadShadow c q.context n) s

/-! ## Entry (R119 to R122, R126 to R129) -/

/-- The least privileged ring that takes a vector (Table 5.2). -/
def floorOf (v : Nat) : Nat := if v = 12 then 0 else if v < 12 then 3 else if v = 32 then 2 else 1

/-- Routing (R126). -/
def Seq.route (q : Seq) (v : Nat) : Nat → Nat
  | 0 => 0
  | t + 1 => if q.gov (0x405 + t) = 0 || q.shadow.look (64 * (t + 1) + v) 0 = 0 then q.route v t else t + 1

/-- The core stops fetching and raises SEV4 with itself as source. -/
def State.coreHalt (s : State) (c : Nat) : State :=
  (s.onSeq c fun q => { q with run := .stopped }).ownSev c 4 0x10 none 0 false

/-- Whether a frame fits a ring's stack at a pointer (R129). -/
def State.frameFits (s : State) (c t : Nat) (ptr : Word) : Bool :=
  ((s.core c).seq.gov (0x40C + t)).toNat + 16 ≤ ptr.toNat &&
    (s.corePlace c (s.runCtx c) (BitVec.ofNat 2 t) .wr (ptr.toNat - 16) 16).isSome

/-- The first handler bundle is next (Table 4.9). -/
def Seq.vectorTo (q : Seq) (t v info : Nat) (addr : Word) : Seq :=
  { (q.setCtl (0x434 + t) (w64 info)).setCtl (0x438 + t) addr with
    ring := BitVec.ofNat 2 t, ie := false, pc := q.shadow.look (64 * t + v) 0, first := some (64 * t + v),
    mute := 0, loopPend := false }

/-- An overflow of ring `t`'s stack: vector 12 in ring 0 with a record in OVF_AREA, or a halt (R129). -/
def State.overflow (s : State) (c t : Nat) (frame : Bytes) (info : Word) : State :=
  let q := (s.core c).seq
  let area := (q.gov 0x43C).toNat
  if t = 0 || (q.ctl.look 0x43D 0).getLsbD 0 || q.shadow.look 12 0 = 0 || (s.corePlace c (s.runCtx c) 0 .wr area 32).isNone then
    s.coreHalt c
  else
    let s := s.coreWr c 0 area (frame ++ leBytes 8 info.toNat ++ leBytes 8 (q.gov (0x408 + t)).toNat)
    s.onSeq c fun q => (q.setCtl 0x43D 1).vectorTo 0 12 (12 + 64 * q.ring.toNat) 0

def frameBytes (ret status : Word) : Bytes := leBytes 8 ret.toNat ++ leBytes 8 status.toNat

/-- A divide under way is abandoned (Table 4.9 cycle 2, R122). -/
def State.dropDiv (s : State) (c : Nat) : State :=
  s.onSeq c fun q => if q.divBusy then { q with divBusy := false, divAband := true } else q

/-- A trap for a translation miss, of an access or of the fetch at the program counter, makes the vintage unclean (Table 2.2). -/
def State.missTrap (s : State) (c v : Nat) : State :=
  let k := s.runCtx c
  let unmapped := match s.extAt k (s.core c).seq.pc.toNat 16 with
    | some e => e.pageable
    | none => true
  if v = 6 || (v = 7 && unmapped) then
    match s.partOfCtx k with
    | some p => s.onPart p fun x => { x with dirty := true }
    | none => s
  else s

/-- Delivery of an event: DIV is abandoned, the frame pushed, the handler entered. -/
def State.enter (s : State) (c v : Nat) (ret : Word) (lpend : Bool) (addr : Word) (arg : Nat) : State :=
  let s := (s.missTrap c v).dropDiv c
  let q := (s.core c).seq
  let t := q.route v (min q.ring.toNat (floorOf v))
  if q.shadow.look (64 * t + v) 0 = 0 then s.coreHalt c
  else
    let info := v + 64 * q.ring.toNat + 256 * arg
    let ptr := q.gov (0x408 + t)
    let frame := frameBytes ret (q.status q.ie lpend)
    if s.frameFits c t ptr then
      (s.coreWr c (BitVec.ofNat 2 t) (ptr.toNat - 16) frame).onSeq c fun q =>
        (q.setGov (0x408 + t) (ptr - 16)).vectorTo t v info addr
    else s.overflow c t frame (w64 info)

/-! ## Bundles and ports (R87 to R96) -/

/-- A move slot (Table 4.2). -/
structure Move where
  inv  : Bool
  pred : Nat
  dst  : Nat
  src  : Nat
  deriving DecidableEq, Repr

def moveOf (b k : Nat) : Move :=
  let w := bits b (37 + 30 * k) (8 + 30 * k)
  ⟨bit w 29, bits w 28 26, bits w 25 14, bits w 13 0⟩

/-- The slots that move: with LIMM only slots 0 and 1 (R90). -/
def movesOf (b : Nat) : List Move := (List.range (if bit b 0 then 2 else 4)).map (moveOf b)

def limmOf (b : Nat) : Word := BitVec.ofInt 64 (BitVec.ofNat 60 (bits b 127 68)).toInt

/-- A destination port: a general register, predicate, PREDS, an operand, a restore, a trigger or a control register. -/
inductive Dst where
  | g (n : Nat)
  | p (n : Nat)
  | preds
  | op (u off : Nat)
  | restore (u k : Nat)
  | trig (u off : Nat)
  | ctl (p : Nat)
  | bad
  deriving DecidableEq, Repr

/-- Trigger offsets of a unit (Table 4.5). -/
def trigOf (u off : Nat) : Bool :=
  let r (lo hi : Nat) : Bool := lo ≤ off && off ≤ hi
  match u with
  | 0 => r 1 0x14
  | 1 => r 1 0x14
  | 2 => r 4 15
  | 3 => r 1 4
  | 4 => r 4 12
  | 5 => r 1 5
  | 6 => r 1 2
  | 7 => r 2 3
  | 12 => r 1 1
  | 13 => r 1 1
  | 14 => r 1 1
  | _ => 8 ≤ u && u ≤ 11 && r 1 2

def dstOf (p : Nat) : Dst :=
  if p < 0x40 then .g p
  else if p < 0x48 then .p (p - 0x40)
  else if p = 0x48 then .preds
  else if 0x80 ≤ p && p < 0x260 then
    let u := (p - 0x80) / 32
    let off := p % 32
    if trigOf u off then .trig u off
    else if (off = 0 && (u ≤ 4 || u = 6 || u = 7)) || (off = 1 && (u = 4 || u = 7)) then .op u off
    else if off = 0x18 && u ≤ 4 || 0x18 ≤ off && off ≤ 0x1B && (u = 2 || u = 4) then .restore u (off - 0x18)
    else .bad
  else if (ctlReg p).isSome then .ctl p
  else .bad

/-- A source: an immediate, a general register, predicate, PREDS, the long immediate, a port of a unit or a control register. -/
inductive Src where
  | imm (v : Word)
  | g (n : Nat)
  | p (n : Nat)
  | preds
  | limm
  | unit (u off : Nat)
  | ctl (p : Nat)
  | bad
  deriving DecidableEq, Repr

/-- Source offsets of a unit (Table 4.5). -/
def srcOff (u off : Nat) : Bool :=
  match u with
  | 0 => off = 0
  | 1 => off = 0
  | 2 => off < 4
  | 3 => off = 0 || (4 ≤ off && off ≤ 7)
  | 4 => off ≤ 4
  | 6 => off ≤ 1
  | 7 => off = 0 || (4 ≤ off && off ≤ 6)
  | _ => 8 ≤ u && u ≤ 11 && 4 ≤ off && off ≤ 6

def srcOf (limm : Bool) (x : Nat) : Src :=
  if bit x 13 then .imm (BitVec.ofInt 64 (BitVec.ofNat 13 x).toInt)
  else if bit x 12 then .bad
  else if x < 0x40 then .g x
  else if x < 0x48 then .p (x - 0x40)
  else if x = 0x48 then .preds
  else if x = 0x49 then (if limm then .limm else .bad)
  else if 0x80 ≤ x && x < 0x260 then
    (if srcOff ((x - 0x80) / 32) (x % 32) then .unit ((x - 0x80) / 32) (x % 32) else .bad)
  else if (ctlReg x).isSome then .ctl x
  else .bad

/-- An illegal bundle (R91). -/
def illegal (b : Nat) : Bool :=
  bits b 7 1 != 0 || (movesOf b).any fun m => dstOf m.dst = .bad || srcOf (bit b 0) m.src = .bad

/-- p0 reads 1 (R88). -/
def Seq.pred (q : Seq) (n : Nat) : Bool := n = 0 || q.preds.getLsbD n
def Move.goes (m : Move) (q : Seq) : Bool := q.pred m.pred != m.inv

/-- Open loop levels. -/
def Seq.depth (q : Seq) : Nat := min (q.gov 0x420).toNat 4

/-- An op word that delivers a scalar waits in VQ; the body of a tensor loop delivers none (R145, R163). -/
def scalarDue : Nat → List VqItem → Bool
  | _, [] => false
  | k + 1, _ :: l => scalarDue k l
  | 0, i :: l =>
    let o := parseOp i 0
    if o.opc = 0x71 then scalarDue o.sa.toNat l else ((vecOp o.opc).any fun p => p.scalar) || scalarDue 0 l

/-- A result port's operation has still to complete (R96). -/
def CoreSt.due (x : CoreSt) : Src → Bool
  | .unit 2 off => x.seq.mulPend.any fun r => r.port = off
  | .unit 3 0 => x.seq.divBusy
  | .unit 4 off => x.seq.lsuPend.any fun r => r.port = off
  | .unit 7 0 => scalarDue 0 x.vec.items
  | _ => false

/-- Items that a unit holds: VQ counts op words until DONE does. -/
def CoreSt.held (x : CoreSt) (u : Nat) : Nat :=
  match u with
  | 7 => x.vec.items.length + (x.vec.run.map (·.1)).foldl (· + ·) 0
  | 8 => x.mq.items.length
  | 9 => x.dq.items.length
  | 10 => x.pq.items.length
  | _ => x.cq.items.length

def CoreSt.unitErr (x : CoreSt) (u : Nat) : Bool :=
  match u with
  | 7 => x.vec.err
  | 8 => x.mq.err
  | 9 => x.dq.err
  | 10 => x.pq.err
  | _ => x.cq.err

def CoreSt.unitDone (x : CoreSt) (u : Nat) : Nat :=
  match u with
  | 7 => x.vec.done
  | 8 => x.mq.done
  | 9 => x.dq.done
  | 10 => x.pq.done
  | _ => x.cq.done

def CoreSt.unitPushed (x : CoreSt) (u : Nat) : Nat :=
  match u with
  | 7 => x.vec.pushed
  | 8 => x.mq.pushed
  | 9 => x.dq.pushed
  | 10 => x.pq.pushed
  | _ => x.cq.pushed

/-- Depth of a unit's queue (Table 4.5). -/
def unitCap (u : Nat) : Nat := if u = 7 then 32 else if u = 11 then 8 else 16

/-- The value of a source. LOOP.COUNT reads 0 with no level open: the spec names no value there (DESIGN CHOICE, log entry 86). -/
def State.srcVal (s : State) (c : Nat) (limm : Word) (x : Src) : Word :=
  let k := s.core c
  let q := k.seq
  let one (b : Bool) : Word := if b then 1 else 0
  match x with
  | .imm v => v
  | .g n => q.g.look n 0
  | .p n => one (q.pred n)
  | .preds => (q.preds ||| 1).setWidth 64
  | .limm => limm
  | .ctl p => s.ctlRead c p
  | .unit 0 _ => q.alu0Res
  | .unit 1 _ => q.alu1Res
  | .unit 2 off => q.mulRes.look off 0
  | .unit 3 0 => q.divRes
  | .unit 3 4 => one q.divBusy + 2 * one q.divAband + 4 * one q.divZero
  | .unit 3 5 => q.divA
  | .unit 3 6 => q.divB
  | .unit 3 _ => w64 q.divOp
  | .unit 4 4 => q.lsuMode
  | .unit 4 off => q.lsuRes.look off 0
  | .unit 6 0 => w64 q.depth
  | .unit 6 _ => if q.depth = 0 then 0 else q.gov (0x41B + q.depth)
  | .unit 7 0 => k.vec.vres
  | .unit u 4 => w64 (min (k.held u) 63 + 256 * b2n (k.unitErr u))
  | .unit u 5 => w64 (k.unitDone u)
  | .unit u _ => w64 (k.unitPushed u)
  | .bad => 0

/-! ## Scalar units (R98, R99) -/

def sra (a : Word) (n : Nat) : Word := a.sshiftRight n
def sext (t : Word) (n : Nat) : Word := BitVec.ofInt 64 (BitVec.ofNat (n + 1) t.toNat).toInt
def popc (t : Word) : Nat := ((List.range 64).filter fun i => t.getLsbD i).length
def clz (t : Word) : Nat := ((List.range 64).find? fun i => t.getLsbD (63 - i)).getD 64

/-- Table 4.6. -/
def alu (off : Nat) (a t : Word) : Word :=
  let one (b : Bool) : Word := if b then 1 else 0
  let n := bits t.toNat 5 0
  match off with
  | 0x01 => a + t
  | 0x02 => a - t
  | 0x03 => a &&& t
  | 0x04 => a ||| t
  | 0x05 => a ^^^ t
  | 0x06 => a &&& ~~~t
  | 0x07 => a <<< n
  | 0x08 => a >>> n
  | 0x09 => sra a n
  | 0x0A => one (a == t)
  | 0x0B => one (a != t)
  | 0x0C => one (a.slt t)
  | 0x0D => one (a.ult t)
  | 0x0E => if a.slt t then a else t
  | 0x0F => if a.ult t then a else t
  | 0x10 => if a.slt t then t else a
  | 0x11 => if a.ult t then t else a
  | 0x12 => w64 (clz t)
  | 0x13 => w64 (popc t)
  | _ => sext t (bits a.toNat 5 0)

/-- MULLO, MULHS or MULHU by trigger offset. -/
def mulOp (off : Nat) (a t : Word) : Word :=
  if off < 8 then a * t
  else if off < 12 then BitVec.ofInt 64 (a.toInt * t.toInt / 2 ^ 64)
  else BitVec.ofNat 64 (a.toNat * t.toNat / 2 ^ 64)

/-! ## Gates and RET (R130 to R137) -/

/-- A gate call that passed: target, stack pointer to push on, ring, KEEP_IE. -/
structure GateGo where
  target : Word
  ptr    : Word
  ring   : Nat
  keepIe : Bool
  deriving DecidableEq, Repr

/-- A gate descriptor is bad (R131 step 2). -/
def gateBad (d : Bytes) (ring : Nat) : Bool :=
  let arg (i : Nat) : Nat := fld d (16 + i) 1
  !bit (fld d 26 1) 0 || !bit (fld d 25 1) ring || ring ≤ fld d 24 1 % 4 ||
    4 ≤ fld d 24 1 || 16 ≤ fld d 25 1 || 4 ≤ fld d 26 1 || !zeroAt d 27 5 ||
    fld d 0 8 % 16 != 0 || fld d 8 8 % 16 != 0 ||
    (List.range 8).any (fun i => if bit (arg i) 7 then arg i % 4 = 3 else arg i != 0) ||
    (bit (arg 7) 7 && (arg 7 % 4 = 1 || arg 7 % 4 = 2))

/-- A pointer argument passes (R133). -/
def State.argOk (s : State) (c : Nat) (d : Bytes) (i : Nat) : Bool :=
  let q := (s.core c).seq
  let a := fld d (16 + i) 1
  let g := (q.g.look i 0).toNat
  let unit := 2 ^ bits a 4 2
  let n := (q.g.look (i + 1) 0).toNat
  let len := if a % 4 = 0 then unit else if a % 4 = 1 then n else n * unit
  !bit a 7 || (g % unit = 0 && len < 2 ^ 64 && g + len ≤ 2 ^ 56 && (len = 0 ||
    match s.extAt (s.runCtx c) g len with
    | some e => !e.pageable && (!bit a 6 || e.grants q.ring .wr) && (!bit a 5 || e.grants q.ring .rd)
    | none => false))

/-- Outcome of the checks of a gate call: it passes, traps, or its frame overflows. -/
inductive GateChk where
  | go (g : GateGo)
  | trap (v : Nat) (addr : Word) (arg : Nat)
  | overflow (t : Nat)
  deriving DecidableEq, Repr

def State.gateCheck (s : State) (c : Nat) (idx : Word) : State × GateChk :=
  let q := (s.core c).seq
  let at_ := q.gov 0x430 + 32 * idx
  if q.gov 0x431 ≤ idx then (s, .trap 10 idx 0)
  else
    match s.coreRd c q.context 0 at_.toNat 32 with
    | (s, none) => (s, .trap 10 idx 0)
    | (s, some d) =>
      if gateBad d q.ring.toNat then (s, .trap 10 at_ 0)
      else
        match (List.range 8).find? fun i => !s.argOk c d i with
        | some i => (s, .trap 11 (q.g.look i 0) i)
        | none =>
          let t := fld d 24 1
          let ptr := if fld d 8 8 = 0 then q.gov (0x408 + t) else w64 (fld d 8 8)
          (s, if s.frameFits c t ptr then .go ⟨w64 (fld d 0 8), ptr, t, bit (fld d 26 1) 1⟩ else .overflow t)

/-- The frame a RET takes: return address and status word, or the trap (R136). -/
def State.retCheck (s : State) (c : Nat) : State × ((Word × Word) ⊕ (Nat × Word)) :=
  let q := (s.core c).seq
  let ptr := q.gov (0x408 + q.ring.toNat)
  match s.coreRd c q.context q.ring ptr.toNat 16 with
  | (s, none) => (s, .inr (5, ptr))
  | (s, some f) =>
    let ret := fld f 0 8
    let saved := fld f 8 8
    (s, if saved % 4 < q.ring.toNat then .inr (2, 0) else if ret % 16 != 0 then .inr (3, w64 ret) else .inl (w64 ret, w64 saved))

/-! ## The loop unit (R108 to R110) -/

/-- The loop decision at an end address: where to fetch, if not the next bundle. -/
def Seq.decide : Nat → Word → Seq → Seq × Option Word
  | 0, _, q => (q, none)
  | f + 1, e, q =>
    let d := q.depth
    if d = 0 || q.gov (0x417 + d) != e then (q, none)
    else if 1 < (q.gov (0x41B + d)).toNat then (q.setGov (0x41B + d) (q.gov (0x41B + d) - 1), some (q.gov (0x413 + d)))
    else Seq.decide f e (q.setGov 0x420 (w64 (d - 1)))

/-- A pending decision of the end bundle just issued is made. -/
def Seq.settle (q : Seq) : Seq :=
  if q.loopPend then
    let (q, t) := Seq.decide 4 (q.pc - 16) q
    { q with loopPend := false, pc := t.getD q.pc }
  else q

/-- A REPEAT is refused (R108): four levels open, a length outside 1 to 4,096, or a body outside the innermost one. -/
def Seq.repeatBad (q : Seq) (len : Word) : Bool :=
  let d := q.depth
  d = 4 || len = 0 || 4096 < len.toNat ||
    (0 < d && ((q.pc + 16).toNat < (q.gov (0x413 + d)).toNat || (q.gov (0x417 + d)).toNat < (q.pc + 16 * len).toNat))

/-! ## Checking a bundle (R92, R93, R102) -/

/-- A bundle that issues: the value of each move by destination port, and what its RET or gate call found. -/
structure Go where
  vals : List (Nat × Word)
  ret  : Option (Word × Word) := none
  gate : Option GateGo := none
  lsu  : LsuChk := .nothing
  deriving DecidableEq, Repr

/-- What CHK finds: the bundle stalls, traps, overflows a trap stack, or issues. -/
inductive Chk where
  | stall
  | trap (v : Nat) (addr : Word) (arg : Nat)
  | overflow (t : Nat)
  | go (g : Go)
  deriving DecidableEq, Repr

/-- The trigger of a unit in a bundle and its value. -/
def trigIn (vals : List (Nat × Word)) (u : Nat) : Option (Nat × Word) :=
  vals.findSome? fun e => match dstOf e.1 with
    | .trig v off => if v = u then some (off, e.2) else none
    | _ => none

/-- The value of an operand port that a trigger uses: the newly written one, if the bundle writes it. -/
def opIn (vals : List (Nat × Word)) (port : Nat) (held : Word) : Word :=
  ((vals.find? fun e => e.1 = port).map (·.2)).getD held

/-- Branch target of a BR trigger (R105). -/
def brTarget (pc : Word) (off : Nat) (t : Word) : Word := if off = 1 || off = 3 then t else pc + 16 * t

/-- Two moves to one port, or two triggers of one unit. -/
def conflict (ps : List Nat) : Bool :=
  let us := ps.filterMap fun p => match dstOf p with | .trig u _ => some u | _ => none
  ps.eraseDups.length != ps.length || us.eraseDups.length != us.length

/-- A control register beyond the ring's reach (R111). -/
def beyond (ring : Nat) (limm : Bool) (m : Move) : Bool :=
  (match dstOf m.dst with | .ctl p => (ctlReg p).any fun r => r.wr < ring | _ => false) ||
    match srcOf limm m.src with | .ctl p => (ctlReg p).any fun r => r.rd < ring | _ => false

abbrev Trap := Option (Nat × Word × Nat)

/-- The trap with the lower vector (log entry 13). -/
def Trap.lower (a b : Trap) : Trap :=
  match a, b with
  | some x, some y => if y.1 < x.1 then some y else some x
  | none, y => y
  | x, none => x

/-- Traps that depend on the values moved, other than those of GATE and RET. -/
def State.valueTraps (s : State) (c : Nat) (vals : List (Nat × Word)) (lsu : LsuChk) : Trap :=
  let x := s.core c
  let q := x.seq
  let t1 : Trap := match lsu, trigIn vals 4 with
    | .trap v, some (_, va) => some (v, va, 0)
    | _, _ => none
  let t2 : Trap := match trigIn vals 5 with
    | some (off, t) => let a := brTarget q.pc off t; if off != 5 && a.toNat % 16 != 0 then some (3, a, 0) else none
    | none => none
  let t3 : Trap := match trigIn vals 6 with
    | some (1, _) => if q.repeatBad (opIn vals 0x140 q.loopLen) then some (8, 0, 0) else none
    | _ => none
  let t4 : Trap := if (from_ 7 5).any fun u => (trigIn vals u).isSome && x.unitErr u then some (9, 0, 0) else none
  (t1.lower t2).lower (t3.lower t4)

/-- Stalls that depend on the values moved (Table 4.3, R104, R113, R116). -/
def State.valueStalls (s : State) (c : Nat) (vals : List (Nat × Word)) (lsu : LsuChk) : Bool :=
  let x := s.core c
  let q := x.seq
  ((trigIn vals 3).isSome && q.divBusy) ||
    ((trigIn vals 14).isSome && (q.divBusy || !q.mulPend.isEmpty || !q.lsuPend.isEmpty || !x.adds.isEmpty)) ||
    (match trigIn vals 4 with | some (off, _) => s.lsuBusy c off lsu | none => false) ||
    (from_ 7 5).any fun u =>
      match trigIn vals u with
      | some (off, v) => if off = (if u = 7 then 3 else 2) then x.unitDone u < v.toNat else unitCap u ≤ x.held u
      | none => false

/-- CHK of a bundle that has been fetched. -/
def State.chk (s : State) (c : Nat) (b : Nat) : State × Chk :=
  let x := s.core c
  let q := x.seq
  let limm := bit b 0
  let ms := (movesOf b).filter fun m => m.goes q
  if illegal b then (s, .trap 0 0 0)
  else if conflict (ms.map (·.dst)) then (s, .trap 1 0 0)
  else if ms.any (beyond q.ring.toNat limm) then (s, .trap 2 0 0)
  else if q.maint || ms.any (fun m => x.due (srcOf limm m.src)) then (s, .stall)
  else
    let vals := ms.map fun m => (m.dst, s.srcVal c (limmOf b) (srcOf limm m.src))
    let lsu := match trigIn vals 4 with
      | some (off, va) => s.lsuCheck c off (opIn vals 0x101 q.lsuMode) va (opIn vals 0x100 q.lsuData)
      | none => .nothing
    let (s, gate) := match trigIn vals 12 with
      | some (_, i) => let (s, g) := s.gateCheck c i; (s, some g)
      | none => (s, none)
    let (s, ret) := match trigIn vals 13 with
      | some _ => let (s, r) := s.retCheck c; (s, some r)
      | none => (s, none)
    let tg : Trap := match gate with
      | some (.trap v a i) => some (v, a, i)
      | _ => none
    let tr : Trap := match ret with
      | some (.inr (v, a)) => some (v, a, 0)
      | _ => none
    match (s.valueTraps c vals lsu).lower (tr.lower tg) with
    | some (v, a, i) => (s, .trap v a i)
    | none =>
      if s.valueStalls c vals lsu then (s, .stall)
      else
        let ret := match ret with | some (.inl r) => some r | _ => none
        match gate with
        | some (.overflow t) => (s, .overflow t)
        | some (.go g) => (s, .go ⟨vals, ret, some g, lsu⟩)
        | _ => (s, .go ⟨vals, ret, none, lsu⟩)

/-! ## Fetch (R87, R116, R118) -/

/-- What fetch finds: a bundle, a trap with its address, or a miss. -/
inductive FetchRes where
  | ok (b : Nat)
  | trap (v : Nat)
  | wait
  deriving DecidableEq, Repr

/-- Where a bundle lies, if the ring may execute there. -/
def State.codeAt (s : State) (c : Nat) : Option (Nat × BitVec 10 × Nat) :=
  let q := (s.core c).seq
  match s.xl q.context q.ring .ex q.pc.toNat 16 with
  | .ok pa key idx =>
    if (zone pa 16 = .sram || zone pa 16 = .hbm) && s.gate (s.lineWho c key) (pa / 64 * 64) 64 = .ok then some (pa, key, idx) else none
  | _ => none

def State.fetch (s : State) (c : Nat) : State × FetchRes :=
  let q := (s.core c).seq
  match q.first.bind q.shadowB.find with
  | some b => (s, .ok b.toNat)
  | none =>
    if q.pc.toNat % 16 != 0 then (s, .trap 3)
    else
      match s.codeAt c with
      | none => (s, .trap 7)
      | some (pa, key, idx) =>
        let s := s.touch c q.context idx
        let line := pa / 64
        let miss (s : State) : State × FetchRes :=
          (s.onSeq c fun q => { q with fetchMiss := q.fetchMiss <|> some (line, key) }, .wait)
        match findWay (s.core c).icache (line % 128) line with
        | none => miss s
        | some w =>
          let i := 8 * (line % 128) + w
          let (inj, s) := s.inject c 3 1
          let l := (s.core c).icache.look i {}
          if inj.isSome then
            miss ((s.onCore c fun x => { x with icache := x.icache.del i }).sev c 0 4 none (64 * line) 0 true)
          else
            (s.onCore c fun x => { x with icache := x.icache.set i { l with age := 0 } }, .ok (fld l.data (pa % 64) 16))

/-! ## Moves taking effect (R92, R95) -/

/-- A move to a port that starts nothing. -/
def CoreSt.move (x : CoreSt) (p : Nat) (v : Word) : CoreSt :=
  let q := x.seq
  match dstOf p with
  | .g n => { x with seq := { q with g := q.g.put n v 0 } }
  | .p n =>
    let m : BitVec 8 := if n = 0 then 0 else 1#8 <<< n
    { x with seq := { q with preds := if v.getLsbD 0 then q.preds ||| m else q.preds &&& ~~~m } }
  | .preds => { x with seq := { q with preds := v.setWidth 8 ||| 1 } }
  | .op 0 _ => { x with seq := { q with alu0A := v } }
  | .op 1 _ => { x with seq := { q with alu1A := v } }
  | .op 2 _ => { x with seq := { q with mulA := v } }
  | .op 3 _ => { x with seq := { q with divIn := v } }
  | .op 4 0 => { x with seq := { q with lsuData := v } }
  | .op 4 _ => { x with seq := { q with lsuMode := v &&& 15 } }
  | .op 6 _ => { x with seq := { q with loopLen := v } }
  | .op 7 0 => { x with vec := { x.vec with sa := v } }
  | .op _ _ => { x with vec := { x.vec with sb := v } }
  | .restore 0 _ => { x with seq := { q with alu0Res := v } }
  | .restore 1 _ => { x with seq := { q with alu1Res := v } }
  | .restore 2 k =>
    if q.mulPend.any fun r => r.port = k then { x with seq := { q with mulPend := q.mulPend ++ [⟨k, true, v, true, false⟩] } }
    else { x with seq := { q with mulRes := q.mulRes.set k v } }
  | .restore 3 _ => { x with seq := if q.divBusy then { q with divAfter := some v } else { q with divRes := v } }
  | .restore _ k =>
    if q.lsuPend.any fun r => r.port = k then { x with seq := { q with lsuPend := q.lsuPend ++ [⟨k, true, v, true, false⟩] } }
    else { x with seq := { q with lsuRes := q.lsuRes.set k v } }
  | .ctl p => { x with seq := q.ctlWrite p v }
  | _ => x

/-- A trigger of ALU0, ALU1, MUL or DIV. -/
def Seq.scalar (q : Seq) (u off : Nat) (t : Word) : Seq :=
  match u with
  | 0 => { q with alu0Res := alu off q.alu0A t }
  | 1 => { q with alu1Res := alu off q.alu1A t }
  | 2 => { q with mulPend := q.mulPend ++ [⟨off % 4, false, mulOp off q.mulA t, true, false⟩] }
  | _ => { q with divA := q.divIn, divB := t, divOp := off, divBusy := true, divAband := false, divZero := false, divAfter := none }

def State.scalars (s : State) (c : Nat) (vals : List (Nat × Word)) : State :=
  (List.range 4).foldl (fun s u => match trigIn vals u with
    | some (off, t) => s.onSeq c fun q => q.scalar u off t
    | none => s) s

/-- Pushes to the queue units (R107, R145). -/
def State.pushes (s : State) (c : Nat) (ring : BitVec 2) (vals : List (Nat × Word)) : State :=
  let s := match trigIn vals 7 with
    | some (2, w) => s.onVec c fun v => { v with pushed := v.pushed + 1, items := v.items ++ [⟨w, v.sa, v.sb, ring⟩] }
    | _ => s
  let s := match trigIn vals 8 with
    | some (1, va) => s.onCore c fun x => x.onUnit .mq fun u => u.push va ring
    | _ => s
  let s := match trigIn vals 9 with
    | some (1, va) => s.dqPush c va ring
    | _ => s
  let s := match trigIn vals 10 with
    | some (1, va) => s.pqPush c va ring
    | _ => s
  match trigIn vals 11 with
  | some (1, va) => s.cqPush c va ring
  | _ => s

/-- RET takes effect (R121, R122, R136, R137). -/
def Seq.doRet (q : Seq) (ret saved : Word) : Seq :=
  let from_ := q.ring.toNat
  let ring := saved.setWidth 2
  let ie := saved.getLsbD 2
  let q := q.setGov (0x408 + from_) (q.gov (0x408 + from_) + 16)
  let q := { q with
    preds := saved.extractLsb' 16 8 ||| 1
    ring := ring
    ieGrant := if from_ < 2 && 2 ≤ ring.toNat then ie else q.ieGrant
    ie := if from_ < 2 then ie else ie && q.ieGrant
    mute := 2 }
  let q := if q.divAband then { q with divBusy := true, divAband := false, divZero := false } else q
  if saved.getLsbD 7 && 0 < q.depth then
    let (q, t) := Seq.decide 4 (q.gov (0x417 + q.depth)) q
    { q with pc := t.getD ret }
  else { q with pc := ret }

/-- A gate call takes effect (R135). -/
def State.doGate (s : State) (c : Nat) (g : GateGo) : State :=
  let q := (s.core c).seq
  let frame := frameBytes (q.pc + 16) (q.status q.ie false)
  (s.coreWr c (BitVec.ofNat 2 g.ring) (g.ptr.toNat - 16) frame).onSeq c fun q =>
    { q.setGov (0x408 + g.ring) (g.ptr - 16) with ring := BitVec.ofNat 2 g.ring, ie := g.keepIe && q.ie, pc := g.target, mute := 2 }

/-- A LOOP trigger: REPEAT opens a level or, with a count of 0, branches past the body; BREAK closes the innermost level, and does
nothing with none open (R108, R110; log entry 86). -/
def Seq.loopTrig (q : Seq) : Option (Nat × Word) → Seq × Option Word
  | some (1, n) =>
    let d := q.depth
    let e := q.pc + 16 * q.loopLen
    if n = 0 then (q, some (e + 16))
    else ((((q.setGov (0x414 + d) (q.pc + 16)).setGov (0x418 + d) e).setGov (0x41C + d) n).setGov 0x420 (w64 (d + 1)), none)
  | some _ => (q.setGov 0x420 (w64 (q.depth - 1)), none)
  | none => (q, none)

/-- The address of the next bundle in g63 after a CALL or CALLR; it wins over a move to g63 in the same bundle (DESIGN CHOICE, log
entry 62). -/
def Seq.link (q : Seq) : Option (Nat × Word) → Seq
  | some (off, _) => if off = 3 || off = 4 then { q with g := q.g.put 63 (q.pc + 16) 0 } else q
  | none => q

/-- HALT stops fetch and writes back and invalidates the data cache (R106, R117). -/
def State.halt (s : State) (c : Nat) : State := (s.onSeq c fun q => { q with run := .halting }).emptyData c

/-- The address of the next bundle, and what a RET, a gate call or the end of a loop body does on the way (R105, R109, R110, R135, R136). Of
several triggers that each name a next bundle, RET goes before GATE, BR and a REPEAT of 0, in this order (DESIGN CHOICE, log entry 62). -/
def State.onward (s : State) (c : Nat) (g : Go) (jump : Option Word) : State :=
  match g.ret, g.gate, trigIn g.vals 5, jump with
  | some (ret, saved), _, _, _ => s.onSeq c fun q => q.doRet ret saved
  | none, some x, _, _ => s.doGate c x
  | none, none, some (off, t), _ => s.onSeq c fun q => { q with pc := if off = 5 then q.pc + 16 else brTarget q.pc off t }
  | none, none, none, some a => s.onSeq c fun q => { q with pc := a }
  | none, none, none, none =>
    s.onSeq c fun q => { q with pc := q.pc + 16, loopPend := 0 < q.depth && q.gov (0x417 + q.depth) = q.pc }

/-- SYNC, loops, links, HALT and the next bundle: every trigger of a bundle takes effect (R92). -/
def State.flow (s : State) (c : Nat) (g : Go) : State :=
  let s := if (trigIn g.vals 14).isSome then (s.sync c).onSeq c fun q => { q with mute := 1 } else s
  let (q, jump) := (s.core c).seq.loopTrig (trigIn g.vals 6)
  let s := (s.onSeq c fun _ => q.link (trigIn g.vals 5)).onward c g jump
  match trigIn g.vals 5 with
  | some (5, _) => s.halt c
  | _ => s

/-- A move to a restore port. -/
def isRestore (p : Nat) : Bool :=
  match dstOf p with
  | .restore _ _ => true
  | _ => false

/-- A bundle issues. A parity error that its load or store finds in a dirty line traps instead (R118). A restore beside a trigger of the
same result port takes effect after that operation, as one that meets an operation in flight does (R95; DEDUCED, log entry 87). -/
def State.issue (s : State) (c : Nat) (g : Go) : State :=
  let q := (s.core c).seq
  let mode := opIn g.vals 0x101 q.lsuMode
  let data := opIn g.vals 0x100 q.lsuData
  let (s, par) := match trigIn g.vals 4 with
    | some (off, _) => s.lsuDo c off mode data g.lsu
    | none => (s, false)
  if par then s.enter c 13 q.pc false (((trigIn g.vals 4).map (·.2)).getD 0) 0
  else
    let (late, now) := g.vals.partition fun e => isRestore e.1
    let s := s.onCore c fun x => now.foldl (fun x e => x.move e.1 e.2) x
    let s := s.onSeq c fun r => { r with mute := 0, first := none, lastIssue := s.now }
    let s := (s.scalars c g.vals).onCore c fun x => late.foldl (fun x e => x.move e.1 e.2) x
    (s.pushes c q.ring g.vals).flow c g

/-! ## Rows -/

/-- What the bundle at the program counter does next: fetch and CHK. -/
def State.look (s : State) (c : Nat) : State × Chk :=
  match s.fetch c with
  | (s, .wait) => (s, .stall)
  | (s, .trap v) => (s, .trap v (s.core c).seq.pc 0)
  | (s, .ok b) => s.chk c b

def State.fetching (s : State) (c : Nat) : Bool := (s.core c).seq.run = .running && s.goes c

/-- The frame of a gate call overflows: an entry to vector 12 as any other (Table 4.9, R129). A gate call has no TRAP_INFO of its own: the
record's is a free value. -/
def State.gateOverflow (s : State) (c t : Nat) : State :=
  let (w, s) := (s.dropDiv c).fresh
  let q := (s.core c).seq
  s.overflow c t (frameBytes q.pc (q.status q.ie false)) w

/-- BUNDLE_ISSUE: the bundle issues, traps at the boundary before it, or stalls for a cycle. -/
def execBundleIssue (c : Fin 64) (s : State) : Res :=
  if !s.fetching c then .next s
  else
    let s := s.onSeq c Seq.settle
    let q := (s.core c).seq
    match s.look c with
    | (s, .trap v a i) => .next (s.enter c v q.pc false a i)
    | (s, .overflow t) => .next (s.gateOverflow c t)
    | (s, .stall) => .next (s.onSeq c fun q => { q with stalls := q.stalls + 1, mute := if q.mute = 1 then 0 else q.mute })
    | (s, .go g) => .next (s.issue c g)

/-- Vectors that interrupt (Table 5.2). -/
def irqVectors : List Nat := [32, 33, 34, 40, 41, 42, 43, 44, 45, 46, 47]

/-- INTERRUPT_ENTRY: the lowest pending enabled vector is taken; a trap at the same boundary goes first (R119). -/
def execInterruptEntry (c : Fin 64) (s : State) : Res :=
  let q := (s.core c).seq
  if !s.fetching c || !q.ie || q.mute != 0 then .next s
  else
    match irqVectors.find? fun v => (q.ctl.look 0x411 0).getLsbD v && (q.gov 0x410).getLsbD v with
    | none => .next s
    | some v =>
      let t := s.onSeq c Seq.settle
      match t.look c with
      | (t, .trap w a i) => .next (t.enter c w (t.core c).seq.pc false a i)
      | (t, .overflow r) => .next (t.gateOverflow c r)
      | _ => .next (s.enter c v q.pc q.loopPend 0 0)

/-- A fill of the instruction cache arrives: with a parity error it is fetched again, and a line that cannot be read traps the fetch that
waits for it (R116, R118, R215). -/
def execInstructionCacheFill (c : Fin 64) (s : State) : Res :=
  match (s.core c).seq.fetchMiss with
  | none => .next s
  | some (line, key) =>
    let (inj, s) := s.inject c 3 1
    if inj.isSome then .next (s.sev c 0 4 none (64 * line) 0 true)
    else
      let (s, r) := s.memRd (s.lineWho c key) (64 * line) 64
      let s := s.onSeq c fun q => { q with fetchMiss := none }
      if !r.err && r.bad.isNone then .next (s.iFill c line key r.data)
      else
        let s := if r.err then s else s.ownSev c 2 0x15 (some (s.runCtx c)) (64 * line) false
        match s.codeAt c with
        | some (pa, _, _) =>
          if s.fetching c && pa / 64 = line then
            let s := s.onSeq c Seq.settle
            .next (s.enter c 7 (s.core c).seq.pc false (s.core c).seq.pc 0)
          else .next s
        | none => .next s

/-! ## Kernels (R106, R137, R139, R142, R192) -/

/-- The state a kernel starts with. -/
def Seq.startKernel (q : Seq) (k : Kernel) (rest : List Kernel) : Seq :=
  let cleared := [0x406, 0x407, 0x40A, 0x40B, 0x40E, 0x40F, 0x420]
  { q with
    run := .running, pc := k.entry, kernels := rest
    g := (List.range 8).zipWith (fun i v => (i, v)) k.block
    preds := 1, ring := k.ring, ie := false, ieGrant := false
    ctl := q.ctl.filter fun e => e.1 != 0x400 && !cleared.contains e.1
    eff := q.eff.filter fun e => !cleared.contains e.1
    first := none, mute := 0, loopPend := false, fetchMiss := none, haltDue := none
    context := k.ctx, level := k.level, queue := k.queue, cmd := k.cmd
    alu0Res := 0, alu1Res := 0, mulRes := [], mulPend := [], divRes := 0, divBusy := false, divAfter := none
    lsuMode := 3, lsuRes := [], lsuPend := [], maint := false }

def execKernelStart (c : Fin 64) (s : State) : Res :=
  let q := (s.core c).seq
  match q.kernels with
  | [] => .next s
  | k :: rest =>
    if q.run != .idle || !s.goes c || !s.admits c then .next s
    else
      let s := s.onCore c fun x =>
        { x with
          seq := x.seq.startKernel k rest
          vec := { x.vec with regs := [], masks := [], sa := 0, sb := 0, flags := 0, slots := [], vres := 0 }
          mat := { x.mat with set0 := {}, set1 := {}, cur := false, rbValid := false } }
      .next (((s.reloadShadow c k.ctx 2).reloadShadow c k.ctx 3).restoreWays c)

/-- Every item pushed has completed, and every add has been performed. -/
def CoreSt.quiet (x : CoreSt) : Bool :=
  x.vec.items.isEmpty && x.vec.run.isEmpty && x.mq.items.isEmpty && x.dq.items.isEmpty && x.pq.items.isEmpty && x.cq.items.isEmpty &&
    x.adds.isEmpty && x.cells.isEmpty

def execCoreIdle (c : Fin 64) (s : State) : Res :=
  let x := s.core c
  if x.seq.run != .halting || !x.quiet then .next s
  else .next ((s.onSeq c fun q => { q with run := .idle, haltDue := none }).workDone x.seq.queue x.seq.cmd 0)

end Sys2Proof.Machine
end

