-- ==== Sys2Proof/Machine/Apply.lean ====
section
/-!
DEFINITION. Applying a trellis image partition by partition (R32, R220, R242, R268, R272, R325, R330, R365): the configuration that a mixture of
applied and pending partitions makes, and what each change of it does.
-/

namespace Sys2Proof.Machine

/-! ## The configuration in force while partitions are pending -/

/-- A partition's resources without those that partitions still pending own. -/
def PartRec.trim (r : PartRec) (held : List PartRec) : PartRec :=
  held.foldl (fun r h =>
    { r with coreMask := r.coreMask &&& ~~~h.coreMask, laneMask := r.laneMask &&& ~~~h.laneMask, dmaMask := r.dmaMask &&& ~~~h.dmaMask }) r

/-- Records of pending partitions from the configuration in force, and of all others from the image. Records of a quarter wait for every
pending partition with resources in it; port forms, routes, press-owned regions, and the device's ID and features for the last
partition (each partition has its own from its racking on, `State.featuresOf`; log entry 65). -/
def Active.merge (old img : Active) (pend : List Nat) : Active :=
  let held := old.parts.filter fun r => pend.contains r.part
  let core (c : Nat) : Bool := held.any fun r => r.coreMask.getLsbD c
  let mine (c : Nat) : Bool := img.parts.any fun r => r.coreMask.getLsbD c && pend.contains r.part
  let quarter (q : Nat) : Bool := held.any fun r => r.quarters.contains q
  let ctxs := old.ctxs.filter fun r => pend.contains r.part
  let regions := old.regions.filter fun r => if r.press then !pend.isEmpty else pend.contains r.part
  let pick {α : Type} (keep : α → Bool) (a b : List α) : List α := a.filter keep ++ b.filter fun x => !keep x
  let whole {α : Type} (a b : α) : α := if pend.isEmpty then b else a
  { dev := whole old.dev img.dev
    devCount := whole old.devCount img.devCount
    features := whole old.features img.features
    parts := held ++ (img.parts.filter fun r => !pend.contains r.part).map fun r => r.trim held
    ctxs := ctxs ++ img.ctxs.filter fun r => !pend.contains r.part && ctxs.all fun x => x.ctx != r.ctx
    splits := (old.splits.filter fun r => core r.core) ++ img.splits.filter fun r => !core r.core && !mine r.core
    regions := regions ++ img.regions.filter fun r =>
      (if r.press then pend.isEmpty else !pend.contains r.part) && regions.all fun x => !regionsMeet x r
    pressQs := whole old.pressQs img.pressQs
    tables := pick (fun r => pend.contains r.part) old.tables img.tables
    ports := whole old.ports img.ports
    routes := whole old.routes img.routes
    groups := pick (fun r => pend.contains r.part) old.groups img.groups
    classes := pick (fun r => quarter r.quarter) old.classes img.classes
    loops := pick (fun r => quarter r.quarter) old.loops img.loops }

/-- A partition of one configuration owns a resource that another partition owns in a second one. -/
def Active.meets (A B : Active) (p q : Nat) : Bool :=
  (A.parts.any fun r => r.part = p && B.parts.any fun x => x.part = q && partsMeet r x) ||
    A.regions.any fun r => !r.press && r.part = p && B.regions.any fun x => !x.press && x.part = q && regionsMeet r x

/-- Pending partitions with which a partition exchanges a resource. -/
def jointOf (old img : Active) (p : Nat) (pend : List Nat) : List Nat :=
  pend.filter fun q => q != p && (old.meets img q p || old.meets img p q)

/-! ## Changes that follow (Table 1.13 steps 5 and 7) -/

/-- A region's storage is cleared, and the region admits no access until clearing ends (R268). -/
def State.clearRegion (s : State) (r : RegionRec) : State :=
  let lo := r.base
  let hi := r.base + r.len
  { s with
    mem := Map.cut s.mem lo hi
    poison := s.poison.cut (lo / 64) (hi / 64)
    written := s.written.cut (lo / 64) (hi / 64)
    hbmErr := s.hbmErr.cut (lo / 64) (hi / 64)
    clearing := s.clearing.filter (· != lo) ++ [lo] }

/-- Partition that owns a core in a configuration. -/
def Active.ownerOf (A : Active) (c : Nat) : Option Nat := (A.parts.find? fun p => p.coreMask.getLsbD c).map (·.part)

/-- Kind and owner of a 64 KiB unit: scratch or resident of a partition, or row cache. -/
def Active.unitKind (A : Active) (c i : Nat) : Nat × Option Nat :=
  let r := A.splitOf c
  let owner := A.ownerOf c
  if i < r.scratch then (0, owner) else if i < r.scratch + r.resident then (1, owner) else (2, none)

def State.zeroUnit (s : State) (c i : Nat) : State :=
  let lo := sramBase + c * 0x2000000 + i * 0x10000
  s.zero lo (lo + 0x10000)

/-- Zero the units of a core that change kind or owner (R220). -/
def State.zeroMoved (s : State) (old new : Active) (c : Nat) : State :=
  if old.ownerOf c = new.ownerOf c && old.splitOf c = new.splitOf c then s
  else ((List.range 512).filter fun i => old.unitKind c i != new.unitKind c i).foldl (fun s i => s.zeroUnit c i) s

/-- Zero the scratch part of a core (R35). -/
def State.zeroScratch (s : State) (c : Nat) : State :=
  let lo := sramBase + c * 0x2000000
  s.zero lo (lo + (s.split c).scratch * 0x10000)

/-- Zeroing that an image brings as it applies: units that change kind or owner, of whatever core (R220), and, once, the scratch part of
the cores that the image leaves unowned (R30). -/
def State.zeroCores (s : State) (old new img : Active) (once : Bool) : State :=
  (List.range 64).foldl (fun s c =>
    let s := s.zeroMoved old new c
    if once && (img.ownerOf c).isNone && (new.ownerOf c).isNone then s.zeroScratch c else s) s

/-- A core takes its ring block, forgets its interrupts, and reloads its shadows through a context (R139). -/
def State.loadRing (s : State) (c k : Nat) : State :=
  let s := s.onCore c fun x =>
    let b := x.rb
    let q := x.seq
    let q := { q with
      ctl := q.ctl.filter fun e => !([0x405, 0x409, 0x40D, 0x410, 0x411, 0x430, 0x431].contains e.1)
      eff := q.eff.del 0x410 }
    let q := (q.setGov 0x405 b.trapBase).setGov 0x409 (b.tstackPtr &&& ctlMask 0x409)
    let q := (q.setGov 0x40D (b.tstackLim &&& ctlMask 0x40D)).setGov 0x430 b.gateBase
    { x with seq := q.setGov 0x431 (b.gateCount.setWidth 64) }
  (List.range 4).foldl (fun s n => s.reloadShadow c k n) s

/-- The engines and the sequencer of a core are emptied; the core is idle (Table 1.13 step 4). -/
def State.emptyCore (s : State) (c : Nat) : State :=
  s.onCore c fun x =>
    { x with
      seq := { x.seq with
        run := .idle, kernels := [], haltDue := none, mulPend := [], lsuPend := [], divBusy := false, divAfter := none, maint := false,
        fetchMiss := none, first := none, mute := 0, loopPend := false }
      vec := {}, mat := {}, mq := {}, dq := {}, pq := {}, cq := {}, adds := [], cells := [] }

/-- Lowest context of a partition, through which its cores' tables are read. -/
def State.firstCtx (s : State) (p : Nat) : Nat := ((s.ctxsOf p).head?).getD 1024

/-- Cores that a partition gains at this change take their ring blocks. -/
def State.gainCores (s : State) (old : Active) : State :=
  (List.range 64).foldl (fun s c =>
    let was := old.ownerOf c
    match s.partOfCore c with
    | some p => if was = some p then s else (s.emptyCore c).loadRing c (s.firstCtx p)
    | none => s) s

/-- Contexts that no longer exist lose their state and queues (R32). -/
def State.dropCtxs (s : State) (old : Active) : State :=
  old.ctxs.foldl (fun s r =>
    if (s.ctxRec r.ctx).any fun x => x.part = r.part then s
    else { s with
      ctxs := s.ctxs.del r.ctx
      queues := (from_ (8 * r.ctx) 8).foldl (fun m n => m.del n) s.queues }) s

/-- Groups whose body has a new configuration tag start their sequence at 0 (R330). -/
def State.applyGroups (s : State) : State :=
  let s := s.active.groups.foldl (fun s r =>
    if (s.group r.group).tag = some r.tag then s else s.setGroup r.group { tag := some r.tag }) s
  { s with groups := s.groups.filter fun e => s.active.groups.any fun r => r.group = e.1 }

/-- Class records and loop bounds of a quarter that now apply: weights reload, and values outside new bounds move (R272, R365). -/
def State.applyQuarter (s : State) (q : Nat) : State :=
  let w := ((s.classRec q).map (·.w)).getD {}
  let s := (List.range 3).foldl (fun s i => s.onCtl (3 * q + i) fun h => { h with w := w, wNext := none }) s
  let b (l : Nat) : Nat × Nat := s.active.bounds l q
  let s := s.onPwr q fun p => { p with mhz := clampTo (b 0) p.mhz, cap := BitVec.ofNat 16 (clampTo (b 1) p.cap.toNat) }
  let s := s.onPress q fun p => { p with active := some (clampTo (b 2) (p.active.getD 8)), tCut := clampTo (b 3) p.tCut }
  let A := s.activeSets q
  let s := s.onPress q fun p => p.rcDrop fun k _ => A ≤ k / 8
  (from_ (16 * q) 16).foldl (fun s c => s.wayTargets c (s.core c).pwr.dcTgt (s.core c).pwr.icTgt) s

/-- The layout of a quarter's press store (R241): its record, the tables homed there and the row-cache parts of its cores. -/
def Active.pressLayout (A : Active) (q : Nat) : Option PressQRec × List TableRec × List SplitRec :=
  (A.pressQ q, A.homes q, (from_ (16 * q) 16).map A.splitOf)

/-- A quarter whose press store changes its layout drops its cached rows and places its journals anew. -/
def State.applyPress (s : State) (old : Active) (q : Nat) : State :=
  if old.pressLayout q = s.active.pressLayout q then s
  else (s.onPress q fun p => { p with cache := [], fills := [] }).placeJournals q

/-- A port whose form changes goes down with cause RECONFIG and restarts discovery; one still before IDENTIFY whose mode stays the same
goes on (R325). -/
def State.applyPort (s : State) (old : Active) (first : Bool) (p : Fin 32) : State :=
  let f (A : Active) := A.ports.find? fun r => r.port = p.val
  if f old = f s.active && !first then s
  else
    let mode := ((f s.active).map (·.mode)).getD 0
    let x := s.port p
    let set (s : State) : State := s.onPort p fun x => { x with mode := mode }
    if f old = f s.active && mode = x.mode then s.trainedOn p
    else if x.st = 0 then (set s).portRestart p
    else if x.st < 4 && mode = x.mode then s.trainedOn p
    else
      let s := set (s.portDown p 8)
      if mode = 0 then s.portRestart p else s

/-- Routes that are gone end; a quarantined route whose form changes is examined again (R320, R325). -/
def State.applyRoutes (s : State) (old : Active) : State :=
  let form (A : Active) (d : Nat) := A.routes.find? fun r => r.dest.toNat = d
  let s := old.routes.foldl (fun s r =>
    if (form s.active r.dest.toNat).isSome then s
    else let t := s.routeDown r.dest.toNat 8
         { t with routes := t.routes.del r.dest.toNat }) s
  let s := s.active.routes.foldl (fun s r =>
    let x := s.route r.dest.toNat
    match x.sess.who with
    | some w =>
      if x.st = 7 && form old r.dest.toNat != some r then s.admitPeer (.route ⟨r.dest.toNat, r.dest.isLt⟩) w else s
    | none => s) s
  s.wakeRoutes

/-- The image applies to every partition but those pending. -/
def State.applyImage (s : State) (img : Image) (pend : List Nat) : State :=
  let old := s.active
  let new := old.merge img.config pend
  let first := old.parts.isEmpty
  let was := s.trellis.pend
  let waits (l : List Nat) (q : Nat) : Bool := old.parts.any fun r => l.contains r.part && r.quarters.contains q
  let fresh := new.regions.filter fun r => !old.regions.contains r
  let t := s.trellis
  let s := { s with
    active := new
    trellis := { t with
      st := if pend.isEmpty then 0 else 3
      pend := pend
      gen := img.gen
      staged := if pend.isEmpty then none else some img } }
  let s := fresh.foldl State.clearRegion s
  let s := s.zeroCores old new img.config (t.st != 3)
  let s := s.dropCtxs old
  let s := (List.range 64).foldl (fun s p => if pend.contains p then s else s.applyTables p s.active.tables) s
  let s := s.applyGroups
  let s := if old.pressQs = new.pressQs then s else s.dropCuttings fun _ => true
  let s := (List.range 4).foldl (fun s q =>
    let s := s.applyPress old q
    if !waits pend q && (waits was q || t.st != 3) then s.applyQuarter q else s) s
  let s := s.gainCores old
  if !pend.isEmpty then s
  else ((List.finRange 32).foldl (fun s p => s.applyPort old first p) s).applyRoutes old

end Sys2Proof.Machine
end

