-- ==== Sys2Proof/Machine/Provenance.lean ====
section
/-!
DEFINITION. Provenance records (R56 to R62), the reading of measurement logs (R303), and the signing engine (R60, R357).
-/

namespace Sys2Proof.Machine

/-! ## Class digests (R57, R303) -/

/-- The entries of a context's log as read; a poisoned or failed read raises SEV1 against the context, and a failed one gives free bytes. -/
def State.readLog (k base : Nat) : List Nat → State → State × List Bytes × Bool
  | [], s => (s, [], false)
  | i :: l, s =>
    let (s, r) := s.memRd hubWho (base + 64 * i) 64
    let bad := r.err || r.bad.isSome
    let s := if bad then s.sev 138 1 (if r.err then 7 else 0x15) (some k) (base + 64 * i) else s
    let (e, s) := if r.data.length = 64 then (r.data, s) else freshBytes 64 s
    let (s, es, b) := State.readLog k base l s
    (s, e :: es, bad || b)

def State.readLogs : List Nat → State → State × List Bytes × Bool
  | [], s => (s, [], false)
  | k :: ks, s =>
    let (s, es, b) := State.readLog k (((s.ctxRec k).map (·.mlogBase)).getD 0) (List.range (s.ctx k).mlogUsed) s
    let (s, fs, c) := State.readLogs ks s
    (s, es ++ fs, b || c)

/-- The four-part key of a log entry: source kind, number, index, descriptor index. -/
def entryKey (e : Bytes) : List Nat := [bits (fld e 48 1) 2 2, fld e 50 2, fld e 52 4, fld e 56 4]

def keyLt : List Nat → List Nat → Bool
  | a :: as, b :: bs => a < b || (a = b && keyLt as bs)
  | _, _ => false

/-- The digest of a class over entries in the order of their keys. -/
def classDigest (es : List Bytes) (cls : Nat) : Bytes :=
  sha384 ((es.filter fun e => bits (fld e 48 1) 1 0 = cls).flatMap fun e => e.take 48)

/-! ## The record (Table 2.4) -/

/-- Bytes 0 to 415, with the device ID, device count and features of the image that the partition applied last. -/
def State.recordHead (s : State) (p : Nat) (flags : Nat) (es : List Bytes) : Bytes :=
  let x := s.part p
  List.flatten [leBytes 4 0x4E565250, leBytes 2 1, leBytes 2 512, leBytes 2 x.dev.toNat, leBytes 1 p, leBytes 1 flags,
    leBytes 4 0, leBytes 8 x.vintage, leBytes 8 0, leBytes 32 x.features.toNat, leBytes 2 x.devCount, leBytes 6 0,
    leBytes 8 x.launches, leBytes 8 x.openCount, leBytes 8 s.cellar.count, leBytes 32 0,
    if x.shape.isEmpty then leBytes 48 0 else x.shape,
    classDigest es 0, classDigest es 1, classDigest es 2, classDigest es 3, leBytes 48 x.prevDigest.toNat]

/-- The comparable digest of a record (R59). -/
def comparable (h : Bytes) : Digest :=
  let flags := fld h 11 1
  let h := patch h 11 (leBytes 1 (flags - 4 * b2n (bit flags 2)))
  sha384d (patch (patch h 16 (leBytes 8 0)) 80 (leBytes 16 0))

/-- Form a partition's record: the span it judges ends with it. `forced` is the record of a forced racking (R61). -/
def State.formRecord (s : State) (p : Nat) (forced signed : Bool) : State × Bytes :=
  let (s, es, bad) := State.readLogs (s.ctxsOf p) s
  let es := sortBy (fun a b => keyLt (entryKey a) (entryKey b)) es
  let x := s.part p
  let inv := forced || bad || x.outInvalid
  let flags := b2n (!x.dirty && !inv) + 2 * b2n inv + 4 * b2n signed + 8 * b2n x.inexactSeen + 16 * b2n x.overflowSeen +
    32 * b2n x.measureLimit
  let h := s.recordHead p flags es
  (s.onPart p fun x => { x with dirty := false, recorded := true, prevDigest := comparable h }, h)

def recWho (n p : Nat) (key : BitVec 10) : Who := { src := 138, ctx := some (n / 8), part := some p, key := key }

/-- The whole record of 512 bytes: its bytes 0 to 415 and its signature, zeros without one (Table 2.4). -/
def sealRecord (h sig : Bytes) : Bytes := h ++ sig

/-! ## The command (R56) -/

/-- A queue has reached its VINTAGE_END; a queue in error counts (R385). -/
def Queue.atEnd (q : Queue) : Bool := q.err || q.cmds.any fun c => c.isEnd && !c.early && c.reached

/-- Every command of a queue's vintage but its VINTAGE_END has completed. -/
def Queue.drained (q : Queue) : Bool := q.cmds.all fun c => c.early || c.over || c.isEnd

/-- The conditions of R56 for the queue's oldest unstarted command. -/
def State.provReady (s : State) (n p : Nat) : Bool :=
  ((s.queuesOf p).all fun m => m = n || ((!(s.queue m).enable || (s.queue m).atEnd) && (s.queue m).drained)) &&
    match oldest [] (s.queue n).cmds with
    | some (before, _) => before.all Cmd.over && before.length + 1 < (s.queue n).cmds.length
    | none => false

def Cmd.signs (c : Cmd) : Bool := bit (fld c.body 8 1) 0

/-- A PROVENANCE command is malformed (R56), apart from a second one in the vintage. That is judged as soon as it may start but for the
conditions of R56 on other commands (log entry 63). -/
def State.provBad (s : State) (n : Nat) (c : Cmd) : Bool :=
  let behind := (s.queue n).cmds.dropWhile fun x => x.early || x.serial != c.serial
  ((behind[1]?).any fun x => !x.isEnd) || c.body64 0 % 512 != 0 || 2 ≤ fld c.body 8 1 || !zeroAt c.body 9 23 || (c.signs && !s.feature (s.partOfCtx (n / 8)) 16)

/-- Where a record goes, if the context may write there. -/
def State.recPlace (s : State) (n p : Nat) (c : Cmd) : Option (Nat × BitVec 10) :=
  match s.vOk (cmdEng n) .wr (c.body64 0) 512 with
  | some (pa, key) => if s.gate (recWho n p key) pa 512 = .ok then some (pa, key) else none
  | none => none

def execProvenance (n : Fin 8192) (s : State) : Res :=
  match s.startable n 6, s.partOfCtx (n / 8) with
  | some c, some p =>
    if (s.part p).provFirst != some (n.val, c.serial) || s.provBad n c then .next ((s.start n c).malform n c.serial)
    else if !s.provReady n p then .next s
    else
      let s := s.start n c
      match s.recPlace n p c with
      | none => .next (s.accessFail n c.serial 7)
      | some (pa, key) =>
        if c.signs then
          .next ((s.onCmd n c.serial fun c => { c with signing := true }).askSign (.provenance n c.serial p pa key none))
        else
          let (s, h) := s.formRecord p false false
          .next ((s.memWr (recWho n p key) pa (sealRecord h (leBytes 96 0))).1.endCmd n c.serial 0)
  | _, _ => .next s

/-! ## The signing engine (R357) -/

/-- The command that waits for the signature of its record. -/
def Cmd.awaits (serial : Nat) (c : Cmd) : Bool := c.serial == serial && c.signing

/-- That command completes: OK, or as a forced racking has ended it already (R60, R61). -/
def Cmd.signed (c : Cmd) : Cmd := { (if c.over then c else c.finish 0) with signing := false }

/-- The command that a record was signed for completes; a later vintage's command that has its serial number again is left alone. -/
def State.signedDone (s : State) (n serial : Nat) : State :=
  let hurt := (s.queue n).cmds.any fun c => c.awaits serial && !c.over && c.ctxFail
  let s := s.onQueue n fun q => { q with cmds := updFirst (Cmd.awaits serial) Cmd.signed q.cmds }
  match s.partOfCtx (n / 8) with
  | some p => if hurt then s.onPart p fun x => { x with dirty := true } else s
  | none => s

/-- A signature ends. -/
def State.served (s : State) (r : SignReq) : State :=
  match r with
  | .provenance n serial p pa key record =>
    let (s, h) := match record with
      | some h => (s, h)
      | none => s.formRecord p false true
    let (sig, s) := freshBytes 96 s
    (s.memWr (recWho n p key) pa (sealRecord h sig)).1.signedDone n serial
  | .challenge b =>
    let (sig, s) := freshBytes 96 s
    s.answer b (.challenge sig)
  | .session peer => s.sessionSigned peer
  | .firmware b => s.answer b (.firmware (Config.firmwareValid (s.slotBytes s.otherSlot)))

/-- The engine takes the oldest waiting record, else the oldest other request. -/
def Mgmt.nextSign (m : Mgmt) : Mgmt :=
  match m.prov, m.others with
  | r :: l, _ => { m with signing := some r, prov := l }
  | [], r :: l => { m with signing := some r, others := l }
  | [], [] => { m with signing := none }

def execSignatureComplete (s : State) : Res :=
  match s.mgmt.signing with
  | none => .next s
  | some r => .next ((s.served r).onMgmt Mgmt.nextSign)

end Sys2Proof.Machine
end

