-- ==== Sys2Proof/Machine/Racking.lean ====
section
/-!
DEFINITION. Vintages and rackings (R35 to R40, Table 1.13): normal and forced ends, the steps of a racking, holds, and the opening of the
next vintage. Steps 1 to 7 run at once; RACKING_COMPLETE is step 8 (log entry 4).
-/

namespace Sys2Proof.Machine

/-! ## Step 2: stopping (R37, R61) -/

/-- The record of a PROVENANCE command that a forced racking ends: written unsigned, with the command ABORTED, or left to the signing
engine, with its command's completion (R61). -/
def State.abortRecord (s : State) (n p : Nat) (c : Cmd) : State :=
  if (s.part p).provFirst != some (n, c.serial) || s.provBad n c then s
  else
    match s.recPlace n p c with
    | none => s
    | some (pa, key) =>
      let (s, h) := s.formRecord p true c.signs
      let plain := if c.signs then patch h 11 (leBytes 1 (fld h 11 1 - 4)) else h
      let s := (s.memWr (recWho n p key) pa plain).1
      if !c.signs then s
      else
        let mine (r : SignReq) : Bool := match r with
          | .provenance m i _ _ _ _ => m = n && i = c.serial
          | _ => false
        let put (r : SignReq) : SignReq := if mine r then .provenance n c.serial p pa key (some h) else r
        let s := s.onCmd n c.serial fun c => { c with signing := true }
        if c.signing then s.onMgmt fun m => { m with signing := m.signing.map put, prov := m.prov.map put }
        else s.askSign (.provenance n c.serial p pa key (some h))

/-- Every command of a queue's vintage that is incomplete completes ABORTED, and every record still to be written carries OUTPUT_INVALID. -/
def State.abortQueue (s : State) (p n : Nat) : State :=
  let s := ((s.queue n).cmds.filter fun c => c.opcode = 6 && !c.early && !c.over).foldl (fun s c => s.abortRecord n p c) s
  s.onQueue n fun q =>
    { q with cmds := q.cmds.map fun c =>
        if c.early then c else if c.over then { c with outInv := true } else { c with st := .ended, status := 3, outInv := true } }

/-- Chunks that a channel has issued for a partition's transfers complete; then the transfers end (R300). -/
def State.stopChan (s : State) (p ch : Nat) : State :=
  let mine (k : Nat) : Bool := s.partOfCtx k == some p
  let s := ((s.chan ch).xfers.filter fun x => mine x.ctx).foldl (fun s x =>
    let w : Who := { src := dmaSrc ch, ctx := some x.ctx, part := some p }
    x.flight.foldl (fun s k => (s.moveChunk w x k).1) s) s
  let x := s.xlat
  let pasids := (s.active.ctxs.filter fun r => r.part = p).map (·.pasid)
  let reqs := x.pageReqs.map fun r => if r.group = ch && pasids.contains r.pasid then { r with dead := true } else r
  { s with xlat := { x with pageReqs := reqs } }.dropXfers ch fun _ k => mine k

/-- The lanes of a partition stop; their fetches and the journal adds on their way are gone. -/
def State.stopLanes (s : State) (p q : Nat) : State :=
  let mine (l : Nat) : Bool := s.partOfLane (8 * q + l) == some p
  (s.dropBatches q fun l _ => mine l).onPress q fun x => { x with lanes := x.lanes.filter fun e => !mine e.1 }

/-- Memory-side adds already issued complete. -/
def State.drainAdds (s : State) (c : Nat) : State :=
  let x := s.core c
  let s := s.addAll c
  x.cells.foldl (fun s _ => Res.get (execGuardedCellAdd (fin 64 c) s) s) s

/-- The partition's groups forget what they run and queue. -/
def State.stopGroups (s : State) (p : Nat) : State :=
  (s.active.groups.filter fun r => r.part = p).foldl (fun s r => s.onGroup r.group fun g => { g with running := none, queue := [] }) s

/-- Step 2 of a forced racking. -/
def State.stopAll (s : State) (p : Nat) : State :=
  let s := (s.queuesOf p).foldl (fun s n => s.abortQueue p n) s
  let s := (s.coresOf p).foldl State.drainAdds s
  let s := (s.chans.map (·.1)).foldl (fun s ch => s.stopChan p ch) s
  let s := (List.range 4).foldl (fun s q => s.stopLanes p q) s
  let s := s.stopGroups p
  (s.queuesOf p).foldl (fun s n => s.recordAll (s.queue n).cmds.length n) s

/-! ## Steps 3 to 6 -/

/-- Translation buffers forget a partition; its events are zeroed and its logs restart (Table 1.13 step 4, R303). -/
def State.emptyCtxs (s : State) (p : Nat) : State :=
  let ks := s.ctxsOf p
  let pasids := (s.active.ctxs.filter fun r => r.part = p).map (·.pasid)
  let x := s.xlat
  let s := { s with xlat := { x with
    tlb := x.tlb.map fun e => (e.1, e.2.filter fun t => !ks.contains t.1)
    ats := x.ats.map fun e => (e.1, e.2.filter fun t => !pasids.contains t.pasid) } }
  ks.foldl (fun s k => s.onCtx k fun c => { c with events := [], mlogUsed := 0, mlogReserve := 0 }) s

/-- The configuration a partition will have: the staged image's while one waits for it. -/
def State.target (s : State) (p : Nat) : Active :=
  match s.trellis.staged with
  | some img => if s.trellis.pend.contains p then img.config else s.active
  | none => s.active

/-- Steps 3 to 6: caches, engines, scratch, table epochs. The units that an image moves are zeroed as it applies (`State.zeroCores`). -/
def State.empty (s : State) (p : Nat) (forced : Bool) : State :=
  let s := (s.coresOf p).foldl State.flushCaches s
  let s := (s.coresOf p).foldl State.emptyCore s
  let s := s.emptyCtxs p
  let s := (s.coresOf p).foldl State.zeroScratch s
  s.closeEpochs p forced

/-! ## Step 7 -/

/-- Changes of key slots that waited for a partition; those that wait for no other take effect in order (R282). -/
def State.applyKeys (s : State) (p : Nat) : State :=
  s.onMgmt fun m =>
    let l := m.keyPend.map fun k => { k with parts := k.parts.filter (· != p) }
    let go := l.foldl (fun (a : Map KeySlot × List KeyPend) k =>
      if k.parts.isEmpty && !(a.2.any fun j => j.slot = k.slot) then (a.1.set k.slot k.value, a.2) else (a.1, a.2 ++ [k])) (m.keys, [])
    { m with keys := go.1, keyPend := go.2 }

/-- A context whose extent table is refused fails: SEV2, its queues in error, no extents (R288, R39). -/
def State.xtFail (s : State) (k : Nat) : State :=
  let s := s.sev 138 2 0x13 (some k)
  let s := s.onCtx k fun c => { c with ext := [], xtCount := 0 }
  (from_ (8 * k) 8).foldl (fun s n => s.onQueue n fun q => if q.enable then { q with err := true, failed := true } else q) s

/-- Extents of other partitions in a quarter. -/
def State.extOthers (s : State) (p q : Nat) : Nat :=
  ((s.active.ctxs.filter fun r => r.part != p && s.active.parts.any fun x => x.part = r.part && x.quarters.contains q).map
    fun r => (s.ctx r.ctx).ext.length).sum

/-- Contexts that stay when the entries of a quarter may number at most 4,096: the highest one goes first. -/
def fitExts (others : Nat → Nat) (quarters : List Nat) : Nat → List (CtxRec × List Ext × Nat) → List (CtxRec × List Ext × Nat)
  | 0, l => l
  | f + 1, l =>
    let sum := (l.map fun x => x.2.1.length).sum
    if quarters.any fun q => 4096 < others q + sum then
      match (l.filter fun x => !x.2.1.isEmpty).getLast? with
      | some x => fitExts others quarters f (l.filter fun y => y.1.ctx != x.1.ctx)
      | none => l
    else l

/-- The extent tables of a partition's contexts are read (R288). -/
def State.loadExts (s : State) (p : Nat) : State :=
  let A := match s.trellis.staged with
    | some img => img.config
    | none => s.active
  let recs := sortBy (fun a b => a.ctx < b.ctx) (s.active.ctxs.filter fun r => r.part = p)
  let (s, l) := s.readTables A recs
  let others := (s.active.ctxs.filter fun r => r.part != p).flatMap fun r => (s.ctx r.ctx).ext.map fun e => (e.pstart, e.len)
  let spans := (l.flatMap fun x => tableSpans x.2) ++ others
  let ok := l.filterMap fun x =>
    match A.checkTable spans x.1 x.2 with
    | .inl es => some (x.1, es, (x.2.map List.length).getD 0)
    | .inr _ => none
  let quarters := ((s.partRec p).map PartRec.quarters).getD []
  let stay := fitExts (s.extOthers p) quarters ok.length ok
  recs.foldl (fun s r =>
    match stay.find? fun x => x.1.ctx = r.ctx with
    | some (_, es, n) => s.onCtx r.ctx fun c => { c with ext := es, xtCount := n }
    | none => s.xtFail r.ctx) s

/-- Ports of a partition's usable set for a destination: candidates that are UP, or whose route is UP (R323, R324). -/
def State.candidates (s : State) (A : Active) (d : Nat) : BitVec 32 :=
  (List.range 32).foldl (fun m p =>
    let up := (s.port p).st = 6
    let native := A.ports.any fun f => f.port = p && f.mode = 1 && f.partnerDev.toNat = d
    let eth := A.ports.any (fun f => f.port = p && f.mode = 2) && (A.routes.any fun r => r.dest.toNat = d && r.portMask.getLsbD p) &&
      (s.route d).st = 6
    if up && (native || eth) then m ||| (1#32 <<< p) else m) 0

def State.fixUsable (s : State) (A : Active) (p : Nat) : State :=
  let ds := ((A.ports.filter fun f => f.mode = 1).map (·.partnerDev.toNat) ++ A.routes.map (·.dest.toNat)).eraseDups
  s.onPart p fun x => { x with usable := ds.map fun d => (d, s.candidates A d) }

/-- The unit state words: a disagreement found at two checks running is SEV2 against each context (R371). -/
def State.checkUnits (s : State) (p : Nat) : State :=
  let bad := (List.range 120).filter fun u =>
    (s.unitParts u).contains p && ((s.unit u).adm != 0) != ((s.unit u).oper != 0)
  let again := bad.filter fun u => (s.part p).disagree.contains u
  let s := again.foldl (fun s u => (s.ctxsOf p).foldl (fun s k => s.sev u 2 0x0B (some k)) s) s
  s.onPart p fun x => { x with disagree := bad }

/-- What a partition takes from an image that applies to it. -/
def State.takeImage (s : State) (p : Nat) (img : Image) (joint : List Nat) : State :=
  s.onPart p fun x =>
    { x with joint := x.joint ++ joint, features := img.features, shape := img.shape, dev := img.dev, devCount := img.devCount }

/-- Step 7: the staged image, the extent tables, the ring blocks and shadows, the usable sets, the unit state words. -/
def State.settle (s : State) (p : Nat) : State :=
  let A := s.target p
  let free (e : Nat × Part) : Nat × Part := (e.1, { e.2 with joint := e.2.joint.filter (· != p) })
  let s := { s with parts := s.parts.map free }
  let s := match s.trellis.staged with
    | some img =>
      if !s.trellis.pend.contains p then s
      else
        let pend := s.trellis.pend.filter (· != p)
        (s.applyImage img pend).takeImage p img (jointOf s.active img.config p pend)
    | none => s
  let s := s.applyKeys p
  let s := s.loadExts p
  let s := if s.xlat.busy && s.partOfCtx s.xlat.busyCtx = some p then s.invalEnd else s
  let s := (s.coresOf p).foldl (fun s c => s.loadRing c (s.firstCtx p)) s
  (s.fixUsable A p).checkUnits p

/-! ## The racking -/

/-- Steps 1 to 7. A partition that the image no longer defines ends unused (R32). -/
def State.rack (s : State) (p : Nat) (forced : Bool) : State :=
  let s := s.onPart p fun x => { x with st := 1, forced := forced, stepsDone := false }
  let s := if forced then s.stopAll p else s
  let s := (s.empty p forced).settle p
  if (s.partRec p).isSome then s.onPart p fun x => { x with stepsDone := true } else s.setPart p {}

/-- A command fetched for the next vintage becomes its command; one of a failed context completes CONTEXT_FAILED (R39). -/
def Cmd.opens (failed : Bool) (c : Cmd) : Cmd :=
  if !c.early then c
  else if failed && !c.over then { c with early := false, st := .ended, status := 5 }
  else { c with early := false }

/-- A queue's part of step 8: its next vintage's commands, and a doorbell written during the racking (R18, R39). -/
def Queue.opens (q : Queue) : Queue :=
  { q with
    cmds := q.cmds.map (Cmd.opens q.failed), count := (q.cmds.filter (·.early)).length
    tail := q.dbWait.getD q.tail, dbWait := none }

def State.openQueue (s : State) (n : Nat) : State := s.onQueue n Queue.opens

/-- A command of the next vintage that does not complete OK when that vintage opens: of a failed context, or malformed when it was
fetched (R39, R46). -/
def Queue.hurts (q : Queue) : Bool := q.cmds.any fun c => c.early && (if c.over then c.status != 0 else q.failed)

/-- Step 8: the next vintage opens. Faults that came after a record of the vintage, or since the partition was created, count against
it (R46). -/
def State.openVintage (s : State) (p : Nat) : State :=
  let hurt := (s.queuesOf p).any fun n => (s.queue n).hurts
  let s := (s.queuesOf p).foldl State.openQueue s
  let s := (s.ctxsOf p).foldl (fun s k => s.onCtx k fun c => { c with ranCmd := (from_ (8 * k) 8).any fun n => !(s.queue n).cmds.isEmpty }) s
  let s := (s.coresOf p).foldl (fun s c => s.onSeq c fun q => { q with cycleBase := (s.pwr (c / 16)).cycles, stalls := 0 }) s
  let budget := ((s.partRec p).map (·.budget)).getD 0
  let first := ((s.queuesOf p).findSome? fun n => ((s.queue n).cmds.find? fun c => c.opcode = 6).map fun c => (n, c.serial))
  let s := s.onPart p fun x =>
    { x with
      st := 0, invalidLast := x.forced, lastInvalid := if x.forced then BitVec.ofNat 32 x.vintage else x.lastInvalid
      vintage := x.vintage + 1, openCount := s.cellar.count, budget := budget, forced := false, stepsDone := false
      dirty := (x.recorded && x.dirty) || hurt, recorded := false, outInvalid := false, inexactSeen := false, overflowSeen := false
      measureLimit := false, launches := 0, provFirst := first, mlogTotal := 0 }
  s.devIrq

/-! ## Rows -/

/-- The conditions of R36 on a partition's queues. -/
def State.allEnded (s : State) (p : Nat) : Bool :=
  let qs := s.queuesOf p
  qs.any (fun n => (s.queue n).enable) && qs.all (fun n => !(s.queue n).enable || (s.queue n).atEnd) &&
    qs.all fun n => (s.queue n).drained

def State.inBudget (s : State) (p : Nat) : Bool := (s.part p).budget = 0 || s.cellar.count ≤ (s.part p).openCount + (s.part p).budget

def State.endsNormally (s : State) (p : Nat) : Bool := (s.part p).st = 0 && s.running && s.allEnded p && s.inBudget p

/-- A VINTAGE_END of this vintage that has not ended completes OK. -/
def Cmd.endVintage (c : Cmd) : Cmd := if c.isEnd && !c.early && !c.over then c.finish 0 else c

/-- Every VINTAGE_END of some queues completes OK. -/
def State.endQueues (ns : List Nat) (s : State) : State :=
  ns.foldl (fun s n => s.onQueue n fun q => { q with cmds := q.cmds.map Cmd.endVintage }) s

/-- Some queues write the records of their ended commands. -/
def State.recordQueues (ns : List Nat) (s : State) : State := ns.foldl (fun s n => s.recordAll (s.queue n).cmds.length n) s

/-- Every VINTAGE_END of the partition completes OK, the records are written, and the racking starts (R36). -/
def execVintageNormalEnd (p : Fin 64) (s : State) : Res :=
  if !s.endsNormally p then .next s
  else
    let ns := s.queuesOf p
    .next ((State.recordQueues ns (State.endQueues ns s)).rack p false)

/-- A vintage that has not ended by tick O + B is forced at the next (R37). -/
def execBudgetExpiry (p : Fin 64) (s : State) : Res :=
  let x := s.part p
  if x.st != 0 || x.budget = 0 || !s.running || s.endsNormally p then .next s
  else
    let s := s.toCount (x.openCount + x.budget + 1)
    let s := s.onPart p fun x => { x with outInvalid := true }
    let s := ((s.ctxsOf p).filter fun k => (s.ctx k).ranCmd).foldl (fun s k => s.sev 138 2 9 (some k)) s
    .next (s.rack p true)

/-- Step 8, once no joint racking and no SEV3 record holds the partition; until then it is held (R32, R386). -/
def execRackingComplete (p : Fin 64) (s : State) : Res :=
  let x := s.part p
  if !x.stepsDone || !s.running then .next s
  else if x.joint.isEmpty && x.hold.isEmpty then .next (s.openVintage p)
  else .next (s.onPart p fun x => { x with st := 2 })

/-- A write of 1 to PART_RACK (R38). -/
def execPartRack (r : Requester) (p : Fin 64) (s : State) : Res :=
  match r with
  | .host _ => .next (if (s.part p).st = 0 && s.running then s.rack p true else s)
  | _ => .next s

end Sys2Proof.Machine
end

