-- ==== Sys2Proof/Machine/Faults.lean ====
section
/-!
DEFINITION. Alarms at the collector (R375 to R379) and the reactions to them (R384 to R388): recording, escalation, failed contexts,
forced rackings with their holds, and the stop of the device.
-/

namespace Sys2Proof.Machine

/-! ## Failed contexts (R385) -/

/-- The queue of a failed context is in error. Its commands that have not started complete CONTEXT_FAILED at once; those that run do so when
their work ends (log entry 68); those of the next vintage wait for it (R39). -/
def Queue.failAll (q : Queue) : Queue :=
  { q with
    err := q.err || q.enable
    failed := q.failed || q.enable
    cmds := q.cmds.map fun c =>
      if c.early || c.over then c else if c.st = .fetched then { c with ctxFail := true }.finish 5 else { c with ctxFail := true } }

/-- Pieces of a command's work that an engine holds: transfers, batches, kernels, a collective operation, a signature. -/
def State.pieces (s : State) (n serial : Nat) : Nat :=
  let dma (x : XferSrc) : Bool := match x with
    | .cmd m i _ => m = n && i = serial
    | .dq _ _ => false
  let count {A : Type} (p : A → Bool) (l : List A) : Nat := (l.filter p).length
  let total {A : Type} (f : A → Nat) (l : List A) : Nat := l.foldl (fun k x => k + f x) 0
  total (fun e => count (fun x => dma x.src) e.2.xfers + count (fun x => dma x.src) e.2.arrive) s.chans +
    total (fun e => total (fun l => count (fun i => i.src == .cmd n serial) (l.2.queue ++ (l.2.run.map (·.item)).toList)) e.2.lanes) s.presses +
    total (fun e => count (fun k => k.queue = n && k.cmd = serial) e.2.seq.kernels +
      b2n (e.2.seq.run != .idle && e.2.seq.queue = n && e.2.seq.cmd = serial)) s.cores +
    total (fun e => count (fun i => i.cmd == some (n, serial)) (e.2.queue ++ (e.2.running.map (·.item)).toList)) s.groups

/-- A running command of a failed context goes on with the pieces that had started, and ends without any. -/
def State.trimCmd (s : State) (n : Nat) (c : Cmd) : State :=
  if c.early || c.over || c.isEnd || c.signing then s
  else
    let k := s.pieces n c.serial
    if k = 0 then s.endCmd n c.serial 5 else s.onCmd n c.serial fun c => { c with left := k }

/-- Items of a core's queue units that no engine has started are discarded. -/
def State.dropItems (s : State) (c : Nat) : State :=
  let begun (o : XferSrc) : Bool := s.chans.any fun e => e.2.xfers.any fun x => x.src == o && x.st != .waiting
  let lane (i : Nat) : Bool := s.presses.any fun e => e.2.lanes.any fun l => l.2.run.any fun r => r.item.src == .pq c i
  let group (i : Nat) : Bool := s.groups.any fun e => e.2.running.any fun r => r.item.core == some (c, i)
  s.onCore c fun x =>
    let pass (i : Nat) : Bool := x.mat.passes.any fun p => p.idx == i
    let cut (keep : Nat → Bool) (u : QUnit) : QUnit := { u with items := u.items.filter fun i => keep i.idx }
    { x with vec := { x.vec with items := [] }
             mq := cut pass x.mq, dq := cut (fun i => begun (.dq c i)) x.dq, pq := cut lane x.pq, cq := cut group x.cq }

/-- A channel forgets what a context has not started there, and aborts its parked and pre-empted transfers (R300). -/
def State.failChan (s : State) (k ch : Nat) : State :=
  let held := (s.chan ch).xfers.filter fun x => x.ctx = k && (x.st = .parked || x.st = .preempted)
  let s := held.foldl (fun s x => if (s.chan ch).xfers.any fun y => y.src = x.src then s.xferFail ch x.src k false 7 x.descVa else s) s
  let s := ((s.chan ch).xfers.filter fun x => x.ctx = k && x.st = .waiting).foldl (fun s x => s.unreserve x.ctx x.measured) s
  let s := ((s.chan ch).arrive.filter fun a => a.ctx = k).foldl (fun s a => s.unreserve a.ctx a.meas) s
  s.onChan ch fun c =>
    { c with xfers := c.xfers.filter (fun x => !(x.ctx = k && x.st = .waiting)), arrive := c.arrive.filter fun a => a.ctx != k }

/-- Work of a context that no engine has started is discarded. -/
def State.dropWork (s : State) (k : Nat) : State :=
  let s := (s.chans.map (·.1)).foldl (fun s ch => s.failChan k ch) s
  let lane (e : Nat × Lane) : Nat × Lane := (e.1, { e.2 with queue := e.2.queue.filter fun i => i.ctx != k })
  let s := (List.range 4).foldl (fun s q => s.onPress q fun p => { p with lanes := p.lanes.map lane }) s
  let group (e : Nat × Group) : Nat × Group := (e.1, { e.2 with queue := e.2.queue.filter fun i => i.ctx != k })
  let s := { s with groups := s.groups.map group }
  (s.cores.map (·.1)).foldl (fun s c =>
    let s := s.onSeq c fun q => { q with kernels := q.kernels.filter fun x => x.ctx != k }
    let q := (s.core c).seq
    if q.run != .idle && q.context = k then s.dropItems c else s) s

/-- Time that a core has to halt. -/
def haltTime : Nat := 100000

/-- The cores that run a kernel of a context take CONTEXT_FAULT, but for one whose own sequencer raised the fault. -/
def State.warnCores (s : State) (k : Nat) (own : Option Nat) : State :=
  (List.range 64).foldl (fun s c =>
    let q := (s.core c).seq
    if q.run != .running || q.context != k then s
    else
      let s := s.onSeq c fun q => { q with haltDue := some (q.haltDue.getD (s.now + haltTime)) }
      if own = some c then s else s.irq c 34) s

/-- A failed context (R385). -/
def State.failCtx (s : State) (k : Nat) (own : Option Nat) : State :=
  if (s.ctxRec k).isNone then s
  else
    let hurt := (from_ (8 * k) 8).any fun n => (s.queue n).enable && (s.queue n).cmds.any fun c => !c.early && !c.over
    let s := (from_ (8 * k) 8).foldl (fun s n => s.onQueue n Queue.failAll) s
    let s := match s.partOfCtx k with
      | some p => if hurt then s.onPart p fun x => { x with dirty := true } else s
      | none => s
    let s := s.dropWork k
    let s := (from_ (8 * k) 8).foldl (fun s n => (s.queue n).cmds.foldl (fun s c => s.trimCmd n c) s) s
    s.warnCores k own

/-- A core that has not halted in time stops fetching and performs HALT. -/
def execContextHaltTimeout (c : Fin 64) (s : State) : Res :=
  match (s.core c).seq.haltDue with
  | none => .next s
  | some t =>
    let s := s.toNow t
    let s := s.onSeq c fun q => { q with haltDue := none }
    if (s.core c).seq.run = .running && s.running then
      .next ((s.onSeq c fun q => { q with run := .halting }).emptyData c)
    else .next s

/-! ## SEV3 and SEV4 (R386, R388) -/

/-- A partition stops, racks and is held for the record named. -/
def State.stopPart (s : State) (p : Nat) (h : Nat × Nat) : State :=
  if (s.part p).st = 3 || !s.running then s
  else
    let s := if (s.part p).st = 0 then s.rack p true else s
    let s := (s.ctxsOf p).foldl (fun s k => s.failCtx k none) s
    if (s.part p).st = 3 then s
    else s.onPart p fun x => { x with hold := if x.hold.contains h then x.hold else x.hold ++ [h] }

/-- The device stops. -/
def State.fatal (s : State) : State :=
  if s.faults.fatal then s
  else
    let s := s.onFaults fun f => { f with fatal := true, alive := false, aliveOn := false }
    let s := { s with host := { s.host with aer := true } }
    let s := (List.range 32).foldl (fun s p => (s.onPort p fun x => { x with hold := true }).portDown p 7) s
    s.msix s.faults.irqVec.toNat

/-! ## Recording (R377 to R379, R383) -/

/-- The target of a fault: a context, else a partition, else the device (R379). -/
def faultTarget (ctx part : Option Nat) : Nat × Nat :=
  match ctx, part with
  | some k, _ => (1, k)
  | none, some p => (2, p)
  | none, none => (0, 0)

/-- The target that word 0 of a slot holds. -/
def slotTarget (w : Word) : Nat × Nat :=
  if w.getLsbD 47 then (1, bits w.toNat 41 32) else if w.getLsbD 55 then (2, bits w.toNat 53 48) else (0, 0)

/-- An alarm after judgement: with its partition and its severity after escalation, whether it escalated, and its record's SEQ. -/
structure Judged where
  a   : Alarm
  esc : Bool
  own : Bool
  seq : BitVec 32
  deriving DecidableEq, Repr

/-- The record that an alarm makes. -/
def Judged.record (j : Judged) (count : Nat) : FSlot :=
  { valid := true, sev := j.a.sev, esc := j.esc, inj := j.a.inj, wait := !j.a.dry, fatal := j.a.sev = 4, src := BitVec.ofNat 8 j.a.src, cause := j.a.cause,
    ctx := j.a.ctx, part := j.a.part, maxSev := j.a.sev, cellar := BitVec.ofNat 64 count, seq := j.seq }

/-- The severity of an alarm that repeats an unacknowledged record: one more than its own; a SEV2 against the device is SEV4 at its second
repetition (R379, R387). -/
def escalate (sev : Nat) (device again : Bool) : Nat := if device && again && sev = 2 then 4 else min 4 (sev + 1)

/-- One alarm of SEV1 or above is judged against its source's slot and recorded there. A detail that FIRST_FAULT still awaits from the same
source arrives before a new record of it. When the slot's record is acknowledged in the same cycle (`acked`), the alarm is judged against it,
fills the slot, and loses its own detail (R380). -/
def State.record1 (s : State) (a : Alarm) (acked : Bool) : State × Judged :=
  let (s, w) := s.slotRead a.src 0
  let a := { a with part := a.part <|> a.ctx.bind s.partOfCtx }
  let held := w.getLsbD 6
  let esc := held && w.extractLsb' 16 8 == a.cause && slotTarget w == faultTarget a.ctx a.part
  let a := { a with sev := if esc then escalate a.sev (faultTarget a.ctx a.part == (0, 0)) (w.getLsbD 3) else a.sev }
  let f := s.faults
  let a := { a with dry := a.dry || (held && acked) }
  let j : Judged := ⟨a, esc, !held && !a.dry, f.seq⟩
  let f := { f with
    seq := f.seq + 1, faultN := f.faultN + 1, escN := f.escN + b2n esc, sevN := f.sevN.set a.sev (f.sevN.look a.sev 0 + 1) }
  let k := 4 * a.src
  if held && !acked then
    let x := f.slots.look a.src {}
    let x := { x with
      valid := true, esc := x.esc || esc, rep := if x.rep = 255 then 255 else x.rep + 1, maxSev := max x.maxSev a.sev
      fatal := x.fatal || a.sev = 4 }
    let f := { f with
      slots := f.slots.set a.src x, dropped := f.dropped.set a.src (f.dropped.look a.src 0 + 1), stErr := f.stErr.del k }
    let s := { s with faults := f }
    (if 2 ≤ a.sev && a.src < 120 && faultTarget a.ctx a.part == (0, 0) then s.setOper a.src 2 else s, j)
  else
    let f := match f.firstWait, f.details.look a.src none with
      | some w, some (addr, info) => if w = a.src then { f with first := f.first.full addr info, firstWait := none } else f
      | _, _ => f
    let f := { f with
      slots := f.slots.set a.src (j.record s.cellar.count)
      details := if a.dry then f.details else f.details.set a.src (some (a.addr, a.info))
      dropped := if a.dry then f.dropped.set a.src (f.dropped.look a.src 0 + 1) else f.dropped
      stErr := f.stErr.cut k (k + 4) }
    ({ s with faults := f }.msix f.irqVec.toNat, j)

/-- A SEV0 alarm is counted, and that acknowledges it. -/
def State.count0 (s : State) (a : Alarm) : State :=
  s.onFaults fun f =>
    { f with sev0 := f.sev0.set a.src (f.sev0.look a.src 0 + 1), sevN := f.sevN.set 0 (f.sevN.look 0 0 + 1) }

/-- Alarms that arrive together, in source order, with the source whose record is acknowledged in the same cycle. -/
def recordAlarms (acked : Option Nat) : List Alarm → State → State × List Judged
  | [], s => (s, [])
  | a :: l, s =>
    if a.sev = 0 then recordAlarms acked l (s.count0 a)
    else
      let (s, j) := s.record1 a (acked = some a.src)
      let (s, js) := recordAlarms acked l s
      (s, j :: js)

/-- The contest for FIRST_FAULT (R378): highest severity, then lowest source. -/
def firstOf : List Judged → Option Judged
  | [] => none
  | j :: l =>
    match firstOf l with
    | some k => if j.a.sev < k.a.sev then some k else some j
    | none => some j

def State.contest (s : State) (js : List Judged) : State :=
  if s.faults.first.valid then s
  else
    match firstOf js with
    | none => s
    | some w =>
      let lost := js.filter fun j => j.a.src != w.a.src
      s.onFaults fun f =>
        { f with
          first := w.record s.cellar.count
          firstWait := if w.own then some w.a.src else none
          concur := lost.foldl (fun m j => m ||| (1 <<< j.a.src)) f.concur
          concurN := f.concurN + lost.length
          stErr := f.stErr.cut (4 * firstSlot) (4 * firstSlot + 4) }

/-- The reaction to an alarm (Table 16.5), and the event that management sends (R383). -/
def State.react (s : State) (j : Judged) : State :=
  let a := j.a
  let s := if 3 ≤ a.sev then s.onMgmt fun m => { m with events := m.events ++ [.fault a.src a.cause a.sev] } else s
  match a.sev with
  | 2 =>
    match a.ctx with
    | some k => s.failCtx k (if a.own then some a.src else none)
    | none => s
  | 3 =>
    match a.part with
    | some p => s.stopPart p (a.src, (s.faults.slots.look a.src {}).seq.toNat)
    | none => s
  | 4 => s.fatal
  | _ => s

/-- The alarms among the first that may share a cycle: one of each source (R374, R376). -/
def oncePerSource (l : List Alarm) : List Alarm × List Alarm :=
  l.foldl (fun r a => if r.1.any fun b => b.src = a.src then (r.1, r.2 ++ [a]) else (r.1 ++ [a], r.2)) ([], [])

/-- The first `n` alarms on their way arrive in one cycle of the collector, with a write of FAULT_ACK. -/
def State.alarms (s : State) (n : Nat) (ack : Option Word) : State :=
  let (now, later) := oncePerSource (s.faults.flight.take n)
  let rest := later ++ s.faults.flight.drop n
  let s := s.onFaults fun f => { f with flight := rest }
  let now := sortBy (fun a b => a.src < b.src) now
  let freed := ack.bind s.faults.acked
  let met := freed.filter fun h => now.any fun a => a.src = h.1 && a.sev != 0
  let (s, js) := recordAlarms (met.map (·.1)) now s
  let s := match met, ack with
    | some h, _ => s.unhold h.1 h.2
    | none, some v => s.ackWrite v
    | none, none => s
  js.foldl State.react (s.contest js)

/-- ALARM: the next alarm on its way and `more` after it, with at most one of each source, are simultaneous, with each other and with a
write of FAULT_ACK where one is named. -/
def execAlarm (n : AlarmTurn) (s : State) : Res :=
  .next (s.alarms (n.more + 1) ((n.ack.filter fun w => writesBlock w.1).map (·.2)))

end Sys2Proof.Machine
end

