-- ==== Sys2Proof/Machine/Reset.lean ====
section
/-!
DEFINITION. Resets, boot and bring-up (R395 to R405, R422, R423; Tables 17.1 to 17.5). A reset is one step; the phases of DEV_BOOT say what is
still held in reset (log entry 66).
-/

namespace Sys2Proof.Machine

/-- The two reset reaches that keep the hub, numbered as LAST_RESET numbers them (Table 17.5). -/
inductive Reach where
  | conventional
  | device
  deriving DecidableEq, Repr

/-- SRAM as the bring-up of the cores will find it: zeros, without poison or flipped bits. -/
def State.clearSram (s : State) : State := { s.zero sramBase (sramBase + 0x80000000) with sramErr := [], sramFix := [] }

/-- Every port is DOWN, with its hold-off running; discovery follows (Table 17.3). -/
def downPorts (now : Nat) : Map Port := (List.range 32).map fun p => (p, { since := now })

/-- Quarter power blocks after a reset: registers at their reset values, the regulator's voltage as it stands, and the clock still stopped
while THERMTRIP_N is asserted (R422). -/
def freshPower (m : Map Power) (halted : Bool) : Map Power :=
  (List.range 4).map fun q => (q, { mv := (m.look q {}).mv, halted := halted })

/-- Unit state words after a conventional or device reset: OPER 0, GEN one more where OPER changes (R368). -/
def readyUnits (m : Map UnitWord) : Map UnitWord :=
  m.map fun e => (e.1, if e.2.oper = 0 then e.2 else { e.2 with oper := 0, gen := e.2.gen + 1 })

/-- Requests to the signing engine that outlive the compute domain. -/
def SignReq.stays : SignReq → Bool
  | .provenance .. => false
  | .session (.link _) => false
  | _ => true

/-- The signing engine without the requests of the compute domain. -/
def Mgmt.dropSigns (m : Mgmt) : Mgmt :=
  let m := { m with prov := [], others := m.others.filter SignReq.stays }
  match m.signing with
  | some r => if r.stays then m else m.nextSign
  | none => m

/-- The hub's side of the host link after a reset. -/
def HostIf.afterReset (h : HostIf) (k : Reach) : HostIf :=
  let keep (e : Nat × BitVec 32) : Nat × BitVec 32 := (e.1, e.2 &&& Config.flrKeeps e.1)
  match k with
  | .conventional => { msixSent := h.msixSent, bar2Log2 := 30 }
  | .device => { msixSent := h.msixSent, bar2Log2 := h.bar2Log2, cfg := h.cfg.map keep }

/-- Everything of the compute domain returns to its reset value; of the rest, what Table 17.3 says (R398). -/
def State.resetDomain (s : State) (k : Reach) : State :=
  let s := s.clearSram
  { pending := s.pending, free := s.free, now := s.now
    mem := s.mem, poison := s.poison, written := s.written, hbmErr := s.hbmErr, hostBad := s.hostBad
    host := s.host.afterReset k
    trellis := { keys := s.trellis.keys, keysNext := s.trellis.keysNext }
    ports := downPorts s.now
    cellar := { edgeAt := s.now }
    mgmt := { s.mgmt.dropSigns with
      keys := [], keyPend := []
      sess := if k = Reach.conventional then s.mgmt.sess.del 1 else s.mgmt.sess }
    jtag := s.jtag
    power := freshPower s.power s.boot.tripped
    units := readyUnits s.units
    unitRefused := s.unitRefused
    faults := { s.faults with
      fatal := false, alive := false, aliveOn := false, flight := [], details := [], firstWait := none }
    boot := { s.boot with d2d := false, cores := 0, hbmDone := 0, linkUp := s.boot.linkUp && k = Reach.device } }

/-- Bring-up starts when nothing holds the compute and PCIe domains in reset (R400, R405, R423). -/
def State.bringUp (s : State) : State :=
  if s.boot.phase = 2 && !s.boot.perstLow && s.boot.refclk then { s with boot := { s.boot with phase := 3 } } else s

/-- A conventional or device reset of a device whose compute domain is up: alarms on their way arrive first. Any other reset is running or
holds, and absorbs it (R399). -/
def State.warmReset (s : State) (k : Reach) : State :=
  if !s.broughtUp then s
  else
    let s := (s.alarms s.faults.flight.length none).resetDomain k
    { s with boot := { s.boot with phase := 2, last := if k = Reach.conventional then 1 else 2 } }.bringUp

/-- A cold reset: all domains (Table 17.3). Trellis key slots take their waiting changes (R360), and THERMTRIP_N stays asserted but for a
brown-out (R422). -/
def State.coldReset (s : State) (brownOut : Bool) : State :=
  let s := s.clearSram
  let slot (i : Nat) : Nat × Option Digest := (i, (s.trellis.keysNext.look i none).getD (s.trellis.keys.look i none))
  let tripped := s.boot.tripped && !brownOut
  { pending := s.pending, free := s.free, now := s.now
    mem := s.mem, poison := s.poison, written := s.written, hbmErr := s.hbmErr, hostBad := s.hostBad
    host := { msixSent := s.host.msixSent }
    trellis := { keys := (List.range 4).map slot }
    ports := downPorts s.now
    cellar := { edgeAt := s.now }
    mgmt := { flash := s.mgmt.flash, sensors := s.mgmt.sensors }
    power := if tripped then (List.range 4).map fun q => (q, { halted := true }) else []
    boot := { perstLow := s.boot.perstLow, resetLow := s.boot.resetLow, rails := s.boot.rails, refclk := s.boot.refclk, tripped := tripped } }

/-- The cold reset ends when RESET_N is high and every rail is in tolerance: the boot ROM starts (R396, R400). -/
def State.romStart (s : State) : State :=
  if s.boot.phase = 0 && !s.boot.resetLow && s.boot.rails then
    { s with cellar := { edgeAt := s.now }, boot := { s.boot with phase := 1 } }
  else s

def State.onBoot (s : State) (f : Boot → Boot) : State := { s with boot := f s.boot }

/-! ## Reset inputs (R397, R405) -/

def execResetN (s : State) : Res := .next ((s.coldReset false).onBoot fun b => { b with resetLow := true })

def execResetNRelease (s : State) : Res := .next (s.onBoot fun b => { b with resetLow := false }).romStart

/-- PERST_N low: the compute and PCIe domains are held in reset. -/
def execPerstN (s : State) : Res := .next (((s.onBoot fun b => { b with perstLow := true }).warmReset .conventional))

def execPerstNRelease (s : State) : Res := .next (s.onBoot fun b => { b with perstLow := false }).bringUp

def execHotReset (s : State) : Res := .next (s.warmReset .conventional)

def execLinkDisable (s : State) : Res := .next (s.warmReset .conventional)

def execFunctionLevelReset (s : State) : Res := .next (s.warmReset .device)

/-- DEV_RESET takes only 0xB2A0 from the host (Table 17.4). -/
def execDevReset (r : Requester) (v : Word) (s : State) : Res :=
  match r with
  | .host _ => .next (if v = 0xB2A0 then s.warmReset .device else s)
  | _ => .next s

/-- The device-reset effecter works once the hub firmware runs (R354). -/
def execDeviceResetEffecter (s : State) : Res := .next (s.warmReset .device)

/-! ## Rails, clock, temperature (R396, R422, R423) -/

def execRailsGood (s : State) : Res := .next (s.onBoot fun b => { b with rails := true }).romStart

/-- Source of a rail's fault (R396). -/
def railSource : Rail → Nat
  | .qvdd q => 120 + q.val
  | _ => 138

def execRailFault (rail : Rail) (s : State) : Res :=
  let s := s.onBoot fun b => { b with rails := false }
  if rail = .hubVdd || rail = .vio18 then .next (s.coldReset true)
  else if s.boot.phase = 0 then .next s
  else .next (s.sev (railSource rail) 4 0x11 none)

/-- A diode of a quarter (0 to 3) or of the hub (4). In a cold reset the collector is in reset, and only the hardware acts. -/
def execThermtrip (d : Fin 5) (s : State) : Res :=
  let s := s.onBoot fun b => { b with tripped := true }
  let s := (List.range 4).foldl (fun s q => s.onPwr q fun p => { p with halted := true }) s
  if s.boot.phase = 0 then .next s
  else .next (s.sev (if d.val < 4 then 120 + d.val else 138) 4 0x11 none)

/-- The compute and PCIe domains go into reset and stay there; PHASE is 2. -/
def execSysRefclkLoss (s : State) : Res :=
  let last := s.boot.last
  .next (((s.onBoot fun b => { b with refclk := false }).warmReset .conventional).onBoot fun b => { b with last := last })

def execSysRefclkReturn (s : State) : Res := .next (s.onBoot fun b => { b with refclk := true }).bringUp

/-! ## Boot (R358, R400 to R403) -/

/-- The boot ROM: slot A, else slot B, else recovery. -/
def execFirmwareVerify (s : State) : Res :=
  if s.boot.phase != 1 then .next s
  else if Config.firmwareValid (s.slotBytes 0) then .next (s.onBoot fun b => { b with phase := 2, fwSlot := 1 }).bringUp
  else if Config.firmwareValid (s.slotBytes 0x800000) then .next (s.onBoot fun b => { b with phase := 2, fwSlot := 2 }).bringUp
  else .next (s.onBoot fun b => { b with phase := 5 })

def execD2dTrainingDone (s : State) : Res := .next (if s.broughtUp then s.onBoot fun b => { b with d2d := true } else s)

/-- A core has its ring 0 firmware and zeros in its SRAM; its scrubber starts at line 0 (R217, R400). -/
def execCoreBringupDone (c : Fin 64) (s : State) : Res :=
  if !s.broughtUp || s.boot.cores.getLsbD c then .next s
  else
    let lo := sramBase + c * 0x2000000
    let s := (s.zero lo (lo + 0x2000000)).onStore c fun x => { x with scrubPos := 0, scrubOn := true }
    .next (s.onBoot fun b => { b with cores := b.cores ||| (1 <<< c.val) })

/-- A stack finishes training, or reuses what it stored; its scrubber starts, and READY follows the last stack (R280, R400, R401). -/
def execHbmTrainingDone (st : Fin 12) (res : Training) (s : State) : Res :=
  let b := s.boot
  if b.phase != 3 || b.hbmDone.getLsbD st then .next s
  else
    let bit : BitVec 12 := 1 <<< st.val
    let b := if b.trained.getLsbD st then b
      else
        { b with
          trained := b.trained ||| bit
          fallback := if res = .full then b.fallback else b.fallback ||| bit
          failed := if res = .failed then b.failed ||| bit else b.failed }
    let b := { b with hbmDone := b.hbmDone ||| bit }
    let b := if b.hbmDone = 0xFFF then { b with phase := 4 } else b
    .next ({ s with boot := b }.onCtl st fun h => { h with scrubPos := 0, scrubOn := !b.failed.getLsbD st })

def execPcieLinkUp (s : State) : Res := .next (if s.broughtUp then s.onBoot fun b => { b with linkUp := true } else s)

/-! ## Host memory as completions bring it (R291) -/

/-- Granules of the host window that a completion covers are marked as it came. -/
def markGrans (poisoned ok : Bool) : Nat → Nat → State → State
  | 0, _, s => s
  | n + 1, g, s =>
    markGrans poisoned ok n (g + 1) { s with
      poison := s.poison.put g (if poisoned then 7 else 0) 0
      hostBad := s.hostBad.put g (!ok) false }

/-- A completion brings bytes of host memory: what the read that waits for them receives (log entry 67). -/
def execPcieCompletion (addr : BitVec 48) (data : Bytes) (poisoned ok : Bool) (s : State) : Res :=
  let a := hostBase + addr.toNat
  if data.isEmpty || zone a data.length != .host then .next s
  else
    let s := if ok then s.store a data else s
    .next (markGrans poisoned ok ((a + data.length - 1) / 64 + 1 - a / 64) (a / 64) s)

end Sys2Proof.Machine
end

