-- ==== Sys2Proof/Machine/Trellis.lean ====
section
/-!
DEFINITION. Staging a trellis image (R31 to R33, R403, R428): the commands, the end of verification, and the partitions that an image
creates, which start at once (R32, R404).
-/

namespace Sys2Proof.Machine

/-- DEV_BOOT.PHASE is READY (R403). -/
def State.bootReady (s : State) : Bool := s.boot.phase = 4 && s.running

def State.onTrellis (s : State) (f : Trellis → Trellis) : State := { s with trellis := f s.trellis }

def byHost : Requester → Bool
  | .host _ => true
  | _ => false

/-- A write of 1 to TRELLIS_CMD (R33, R403). -/
def execTrellisStage (r : Requester) (s : State) : Res :=
  if !byHost r then .next s
  else if !s.bootReady || s.trellis.st = 1 || s.trellis.st = 3 then .next (s.onTrellis fun t => { t with reject := 9 })
  else .next (s.onTrellis fun t => { t with st := 1, reject := 0, staged := none, pend := [], stageKeys := t.keys })

/-- A write of 2 to TRELLIS_CMD (R33). -/
def execTrellisCancel (r : Requester) (s : State) : Res :=
  if !byHost r || s.trellis.st != 2 then .next s
  else .next (s.onTrellis fun t => { t with st := 0, staged := none, pend := [] })

/-! ## Verification (R31, R428) -/

/-- The bytes of an image as the hub reads them, granule by granule; none when a read fails or finds poison. -/
def readImage : List (Nat × Nat) → State → State × Option Bytes
  | [], s => (s, some [])
  | (a, n) :: l, s =>
    let (s, r) := s.memRd hubWho a n
    if r.err || r.bad.isSome then (s, none)
    else
      let (s, bs) := readImage l s
      (s, bs.map (r.data ++ ·))

/-- Step 1 of R428: an aligned image wholly in HBM or in the host window. R31 does not say when TRELLIS_ADDR and TRELLIS_LEN are taken:
the model takes what they hold when verification ends (DESIGN CHOICE, log entry 65). -/
def State.fetchImage (s : State) : State × Option Bytes :=
  let a := s.trellis.addr.toNat
  let n := s.trellis.len.toNat
  let place := zone a n
  if a % 4096 != 0 || n = 0 || 0x1000000 < n || !(place = .hbm || place = .host) then (s, none)
  else readImage (cutGran (n / 64 + 2) a n) s

/-- Verification fails with a code: no image is staged. -/
def State.reject (s : State) (code : Nat) : State :=
  (s.onTrellis fun t => { t with st := 4, reject := BitVec.ofNat 8 code, staged := none, pend := [] }).devIrq

/-! ## Created partitions (R32, R404) -/

/-- Steps 5 and 7 of Table 1.13 for a partition that an image creates; step 8 follows unless it waits for a resource. Its first judged
span begins here, so that a fault of these steps counts (R46). -/
def State.createPart (s : State) (img : Image) (p : Nat) (joint : List Nat) : State :=
  let s := s.setPart p { st := 1, recorded := true }
  let s := s.takeImage p img joint
  let s := (s.coresOf p).foldl State.zeroScratch s
  let s := s.loadExts p
  let s := (s.coresOf p).foldl (fun s c => s.loadRing c (s.firstCtx p)) s
  let s := (s.fixUsable s.active p).checkUnits p
  let s := s.onPart p fun x => { x with stepsDone := true }
  if joint.isEmpty then s.openVintage p else s.onPart p fun x => { x with st := 2 }

/-- A verified image is staged for the partitions there are, and applied at once to those that it creates: STATE then moves on to 3, or
to 0 when no partition is pending (R32). An image that finds no partition, such as the first one, is applied as a whole (R404). -/
def State.stageImage (s : State) (img : Image) : State :=
  let old := s.active
  let new := img.config
  let pend := old.parts.map (·.part)
  let created := (new.parts.filter fun r => !pend.contains r.part).map (·.part)
  let s := s.onTrellis fun t => { t with st := 2, staged := some img, pend := pend }
  if created.isEmpty && !pend.isEmpty then s
  else
    let s := s.applyImage img pend
    created.foldl (fun s p => s.createPart img p (jointOf old new p pend)) s

/-- Verification ends (R428): the first check that fails decides the code. -/
def execTrellisVerifyDone (s : State) : Res :=
  if s.trellis.st != 1 then .next s
  else
    match s.fetchImage with
    | (s, none) => .next (s.reject 4)
    | (s, some b) =>
      match checkImage b s.trellis.len.toNat s.trellis.gen s.trellis.stageKeys s.jtag.debug s.boot.failed s.tables with
      | .inr code => .next (s.reject code)
      | .inl img =>
        match s.checkTables img.config with
        | (s, some code) => .next (s.reject code)
        | (s, none) => .next (s.stageImage img).devIrq

end Sys2Proof.Machine
end

