-- ==== Sys2Proof/Machine/Dispatch.lean ====
section
/-!
DEFINITION. The effect of a command on everything but the queue: one arm for each row of spec/opcode_table.json.
-/

namespace Sys2Proof.Machine

def exec (i : Instr) (s : State) : Host.Outcome State Fault Refusal :=
  match i with
  | .registerWrite r sp addr w32 v => Sys2Proof.Machine.execRegisterWrite r sp addr w32 v s
  | .readClear r sp addr w32 => Sys2Proof.Machine.execReadClear r sp addr w32 s
  | .lowHalfRead r sp addr => Sys2Proof.Machine.execLowHalfRead r sp addr s
  | .pcieConfigRequest req => Sys2Proof.Machine.execPcieConfigRequest req s
  | .bar2Access off op => Sys2Proof.Machine.execBar2Access off op s
  | .trellisStage r => Sys2Proof.Machine.execTrellisStage r s
  | .trellisCancel r => Sys2Proof.Machine.execTrellisCancel r s
  | .trellisVerifyDone => Sys2Proof.Machine.execTrellisVerifyDone s
  | .partRack r p => Sys2Proof.Machine.execPartRack r p s
  | .queueEnable n v => Sys2Proof.Machine.execQueueEnable n v s
  | .queueDisable n v => Sys2Proof.Machine.execQueueDisable n v s
  | .qtailDb k j v => Sys2Proof.Machine.execQtailDb k j v s
  | .cqheadDb k j v => Sys2Proof.Machine.execCqheadDb k j v s
  | .commandFetch n => Sys2Proof.Machine.execCommandFetch n s
  | .launchCountReached n => Sys2Proof.Machine.execLaunchCountReached n s
  | .nop n => Sys2Proof.Machine.execNop n s
  | .dispatch n => Sys2Proof.Machine.execDispatch n s
  | .dma n => Sys2Proof.Machine.execDma n s
  | .press n => Sys2Proof.Machine.execPress n s
  | .collective n => Sys2Proof.Machine.execCollective n s
  | .vintageEnd n => Sys2Proof.Machine.execVintageEnd n s
  | .provenance n => Sys2Proof.Machine.execProvenance n s
  | .writeValue n => Sys2Proof.Machine.execWriteValue n s
  | .completionWrite n => Sys2Proof.Machine.execCompletionWrite n s
  | .vintageNormalEnd p => Sys2Proof.Machine.execVintageNormalEnd p s
  | .budgetExpiry p => Sys2Proof.Machine.execBudgetExpiry p s
  | .rackingComplete p => Sys2Proof.Machine.execRackingComplete p s
  | .bundleIssue c => Sys2Proof.Machine.execBundleIssue c s
  | .interruptEntry c => Sys2Proof.Machine.execInterruptEntry c s
  | .mulComplete c m => Sys2Proof.Machine.execMulComplete c m s
  | .divComplete c => Sys2Proof.Machine.execDivComplete c s
  | .lsuLoadComplete c m => Sys2Proof.Machine.execLsuLoadComplete c m s
  | .lsuMaintenanceComplete c => Sys2Proof.Machine.execLsuMaintenanceComplete c s
  | .memoryAtomicAdd c => Sys2Proof.Machine.execMemoryAtomicAdd c s
  | .kernelStart c => Sys2Proof.Machine.execKernelStart c s
  | .coreIdle c => Sys2Proof.Machine.execCoreIdle c s
  | .irqRaise r c v => Sys2Proof.Machine.execIrqRaise r c v s
  | .cachePwr r c v => Sys2Proof.Machine.execCachePwr r c v s
  | .cacheWayPoweredOff c => Sys2Proof.Machine.execCacheWayPoweredOff c s
  | .cacheWayPoweredOn c => Sys2Proof.Machine.execCacheWayPoweredOn c s
  | .idleCoreWayPowerdown c => Sys2Proof.Machine.execIdleCoreWayPowerdown c s
  | .fadd c => Sys2Proof.Machine.execFadd c s
  | .fsub c => Sys2Proof.Machine.execFsub c s
  | .fmul c => Sys2Proof.Machine.execFmul c s
  | .fma c => Sys2Proof.Machine.execFma c s
  | .fnma c => Sys2Proof.Machine.execFnma c s
  | .fmin c => Sys2Proof.Machine.execFmin c s
  | .fmax c => Sys2Proof.Machine.execFmax c s
  | .fneg c => Sys2Proof.Machine.execFneg c s
  | .fabs c => Sys2Proof.Machine.execFabs c s
  | .fcmp c => Sys2Proof.Machine.execFcmp c s
  | .cvt c => Sys2Proof.Machine.execCvt c s
  | .fdiv c => Sys2Proof.Machine.execFdiv c s
  | .fsqrt c => Sys2Proof.Machine.execFsqrt c s
  | .rcp c => Sys2Proof.Machine.execRcp c s
  | .rsqrt c => Sys2Proof.Machine.execRsqrt c s
  | .exp2 c => Sys2Proof.Machine.execExp2 c s
  | .log2 c => Sys2Proof.Machine.execLog2 c s
  | .wmul c => Sys2Proof.Machine.execWmul c s
  | .wfma c => Sys2Proof.Machine.execWfma c s
  | .xdot c => Sys2Proof.Machine.execXdot c s
  | .mxscale c => Sys2Proof.Machine.execMxscale c s
  | .mxquant c => Sys2Proof.Machine.execMxquant c s
  | .iadd c => Sys2Proof.Machine.execIadd c s
  | .isub c => Sys2Proof.Machine.execIsub c s
  | .imul c => Sys2Proof.Machine.execImul c s
  | .imin c => Sys2Proof.Machine.execImin c s
  | .imax c => Sys2Proof.Machine.execImax c s
  | .iminu c => Sys2Proof.Machine.execIminu c s
  | .imaxu c => Sys2Proof.Machine.execImaxu c s
  | .and c => Sys2Proof.Machine.execAnd c s
  | .or c => Sys2Proof.Machine.execOr c s
  | .xor c => Sys2Proof.Machine.execXor c s
  | .shl c => Sys2Proof.Machine.execShl c s
  | .shr c => Sys2Proof.Machine.execShr c s
  | .sra c => Sys2Proof.Machine.execSra c s
  | .icmp c => Sys2Proof.Machine.execIcmp c s
  | .popc c => Sys2Proof.Machine.execPopc c s
  | .idot4 c => Sys2Proof.Machine.execIdot4 c s
  | .xadd c => Sys2Proof.Machine.execXadd c s
  | .vset c => Sys2Proof.Machine.execVset c s
  | .iota c => Sys2Proof.Machine.execIota c s
  | .vmov c => Sys2Proof.Machine.execVmov c s
  | .iwmul c => Sys2Proof.Machine.execIwmul c s
  | .compress c => Sys2Proof.Machine.execCompress c s
  | .expand c => Sys2Proof.Machine.execExpand c s
  | .vperm c => Sys2Proof.Machine.execVperm c s
  | .slideup c => Sys2Proof.Machine.execSlideup c s
  | .slidedn c => Sys2Proof.Machine.execSlidedn c s
  | .transpose c => Sys2Proof.Machine.execTranspose c s
  | .extract c => Sys2Proof.Machine.execExtract c s
  | .insert c => Sys2Proof.Machine.execInsert c s
  | .fredsum c => Sys2Proof.Machine.execFredsum c s
  | .fredmin c => Sys2Proof.Machine.execFredmin c s
  | .fredmax c => Sys2Proof.Machine.execFredmax c s
  | .iredsum c => Sys2Proof.Machine.execIredsum c s
  | .xredsum c => Sys2Proof.Machine.execXredsum c s
  | .mand c => Sys2Proof.Machine.execMand c s
  | .mor c => Sys2Proof.Machine.execMor c s
  | .mxor c => Sys2Proof.Machine.execMxor c s
  | .mandn c => Sys2Proof.Machine.execMandn c s
  | .mnot c => Sys2Proof.Machine.execMnot c s
  | .mset c => Sys2Proof.Machine.execMset c s
  | .mpopc c => Sys2Proof.Machine.execMpopc c s
  | .mfirst c => Sys2Proof.Machine.execMfirst c s
  | .vld c => Sys2Proof.Machine.execVld c s
  | .vst c => Sys2Proof.Machine.execVst c s
  | .vgather c => Sys2Proof.Machine.execVgather c s
  | .vscatter c => Sys2Proof.Machine.execVscatter c s
  | .vscatadd c => Sys2Proof.Machine.execVscatadd c s
  | .vldseg c => Sys2Proof.Machine.execVldseg c s
  | .vstseg c => Sys2Proof.Machine.execVstseg c s
  | .tld c => Sys2Proof.Machine.execTld c s
  | .tst c => Sys2Proof.Machine.execTst c s
  | .vatadd c => Sys2Proof.Machine.execVatadd c s
  | .gld c => Sys2Proof.Machine.execGld c s
  | .tbind c => Sys2Proof.Machine.execTbind c s
  | .tloop c => Sys2Proof.Machine.execTloop c s
  | .rdflags c => Sys2Proof.Machine.execRdflags c s
  | .vectorOpDone c => Sys2Proof.Machine.execVectorOpDone c s
  | .guardedCellAdd c => Sys2Proof.Machine.execGuardedCellAdd c s
  | .passAccept c => Sys2Proof.Machine.execPassAccept c s
  | .mac c => Sys2Proof.Machine.execMac c s
  | .minPlus c => Sys2Proof.Machine.execMinPlus c s
  | .maxPlus c => Sys2Proof.Machine.execMaxPlus c s
  | .l1 c => Sys2Proof.Machine.execL1 c s
  | .l2sq c => Sys2Proof.Machine.execL2sq c s
  | .hamming c => Sys2Proof.Machine.execHamming c s
  | .tileCommit c => Sys2Proof.Machine.execTileCommit c s
  | .passComplete c => Sys2Proof.Machine.execPassComplete c s
  | .lookupBatch q lane => Sys2Proof.Machine.execLookupBatch q lane s
  | .updateBatch q lane => Sys2Proof.Machine.execUpdateBatch q lane s
  | .rowFetchIssue q => Sys2Proof.Machine.execRowFetchIssue q s
  | .rowArrival q k => Sys2Proof.Machine.execRowArrival q k s
  | .batchComplete q lane => Sys2Proof.Machine.execBatchComplete q lane s
  | .ageingBoundary q => Sys2Proof.Machine.execAgeingBoundary q s
  | .serveWindow q => Sys2Proof.Machine.execServeWindow q s
  | .journalLookup q sender => Sys2Proof.Machine.execJournalLookup q sender s
  | .journalAdd q sender => Sys2Proof.Machine.execJournalAdd q sender s
  | .cuttingWrite q sender => Sys2Proof.Machine.execCuttingWrite q sender s
  | .directoryChange q sender => Sys2Proof.Machine.execDirectoryChange q sender s
  | .rowCacheInvalidate q sender => Sys2Proof.Machine.execRowCacheInvalidate q sender s
  | .candidate q sender => Sys2Proof.Machine.execCandidate q sender s
  | .cuttingCount q sender => Sys2Proof.Machine.execCuttingCount q sender s
  | .pressAnswer q sender => Sys2Proof.Machine.execPressAnswer q sender s
  | .cuttingSlotFree q slot => Sys2Proof.Machine.execCuttingSlotFree q slot s
  | .blendEntry t => Sys2Proof.Machine.execBlendEntry t s
  | .journalBankFree t => Sys2Proof.Machine.execJournalBankFree t s
  | .hbmReadRequest req => Sys2Proof.Machine.execHbmReadRequest req s
  | .hbmWriteRequest req => Sys2Proof.Machine.execHbmWriteRequest req s
  | .hbmAccess pc => Sys2Proof.Machine.execHbmAccess pc s
  | .hbmResponse pc k => Sys2Proof.Machine.execHbmResponse pc k s
  | .hbmWindowBoundary st => Sys2Proof.Machine.execHbmWindowBoundary st s
  | .hbmRewrite pc => Sys2Proof.Machine.execHbmRewrite pc s
  | .refresh pc bank => Sys2Proof.Machine.execRefresh pc bank s
  | .stackTempRead st temp => Sys2Proof.Machine.execStackTempRead st temp s
  | .hbmScrubStep st => Sys2Proof.Machine.execHbmScrubStep st s
  | .regionClearDone base => Sys2Proof.Machine.execRegionClearDone base s
  | .hbmWeights r st v => Sys2Proof.Machine.execHbmWeights r st v s
  | .sramReadRequest c a off len => Sys2Proof.Machine.execSramReadRequest c a off len s
  | .sramWriteRequest c a off data => Sys2Proof.Machine.execSramWriteRequest c a off data s
  | .sramCorrectionRewrite c => Sys2Proof.Machine.execSramCorrectionRewrite c s
  | .sramScrub c => Sys2Proof.Machine.execSramScrub c s
  | .fabricPacketSend sel => Sys2Proof.Machine.execFabricPacketSend sel s
  | .fabricPacketArrival id => Sys2Proof.Machine.execFabricPacketArrival id s
  | .d2dLinkFailure d => Sys2Proof.Machine.execD2dLinkFailure d s
  | .copy ch => Sys2Proof.Machine.execCopy ch s
  | .fill ch => Sys2Proof.Machine.execFill ch s
  | .dmaTransferStart ch => Sys2Proof.Machine.execDmaTransferStart ch s
  | .chunkTranslate ch => Sys2Proof.Machine.execChunkTranslate ch s
  | .atsCompletion q pasid page answer => Sys2Proof.Machine.execAtsCompletion q pasid page answer s
  | .chunkComplete ch => Sys2Proof.Machine.execChunkComplete ch s
  | .prgResponse ch code => Sys2Proof.Machine.execPrgResponse ch code s
  | .atsInvalidate pasid page pages => Sys2Proof.Machine.execAtsInvalidate pasid page pages s
  | .atsInvalidationComplete => Sys2Proof.Machine.execAtsInvalidationComplete s
  | .dmaResumeRetry r ch level seq => Sys2Proof.Machine.execDmaResumeRetry r ch level seq s
  | .dmaResumeAbort r ch level seq => Sys2Proof.Machine.execDmaResumeAbort r ch level seq s
  | .invalCmd r => Sys2Proof.Machine.execInvalCmd r s
  | .invalDone => Sys2Proof.Machine.execInvalDone s
  | .rescueCmd r q => Sys2Proof.Machine.execRescueCmd r q s
  | .rescueComplete q => Sys2Proof.Machine.execRescueComplete q s
  | .dataFlit p flit => Sys2Proof.Machine.execDataFlit p flit s
  | .idleFlit p flit => Sys2Proof.Machine.execIdleFlit p flit s
  | .replayTimeout p => Sys2Proof.Machine.execReplayTimeout p s
  | .marunoPacketSend l => Sys2Proof.Machine.execMarunoPacketSend l s
  | .controlPacket rx => Sys2Proof.Machine.execControlPacket rx s
  | .collectivePacket rx => Sys2Proof.Machine.execCollectivePacket rx s
  | .transportAck rx => Sys2Proof.Machine.execTransportAck rx s
  | .ackTimer l => Sys2Proof.Machine.execAckTimer l s
  | .retransmitTimeout l => Sys2Proof.Machine.execRetransmitTimeout l s
  | .detectPoll p lanes => Sys2Proof.Machine.execDetectPoll p lanes s
  | .trainingComplete p reversed => Sys2Proof.Machine.execTrainingComplete p reversed s
  | .trainingTimeout p => Sys2Proof.Machine.execTrainingTimeout p s
  | .identifyTimeout l => Sys2Proof.Machine.execIdentifyTimeout l s
  | .holdoffExpiry l => Sys2Proof.Machine.execHoldoffExpiry l s
  | .laneSignalChange p lane signal lock snr => Sys2Proof.Machine.execLaneSignalChange p lane signal lock snr s
  | .signalLossTimeout p lane => Sys2Proof.Machine.execSignalLossTimeout p lane s
  | .portCtrl r p v => Sys2Proof.Machine.execPortCtrl r p v s
  | .reduce g => Sys2Proof.Machine.execReduce g s
  | .allReduce g => Sys2Proof.Machine.execAllReduce g s
  | .reduceScatter g => Sys2Proof.Machine.execReduceScatter g s
  | .allGather g => Sys2Proof.Machine.execAllGather g s
  | .broadcast g => Sys2Proof.Machine.execBroadcast g s
  | .barrier g => Sys2Proof.Machine.execBarrier g s
  | .startAtReached g => Sys2Proof.Machine.execStartAtReached g s
  | .collectiveComplete g => Sys2Proof.Machine.execCollectiveComplete g s
  | .collectiveTimeout g => Sys2Proof.Machine.execCollectiveTimeout g s
  | .groupSel r q v => Sys2Proof.Machine.execGroupSel r q v s
  | .cellarSlew => Sys2Proof.Machine.execCellarSlew s
  | .cellarSyncEdge frac => Sys2Proof.Machine.execCellarSyncEdge frac s
  | .loadCmd r v => Sys2Proof.Machine.execLoadCmd r v s
  | .cellarCtrl r v => Sys2Proof.Machine.execCellarCtrl r v s
  | .timeExchange => Sys2Proof.Machine.execTimeExchange s
  | .syncLossTimeout => Sys2Proof.Machine.execSyncLossTimeout s
  | .cellarRefLoss => Sys2Proof.Machine.execCellarRefLoss s
  | .cellarRefReturn => Sys2Proof.Machine.execCellarRefReturn s
  | .entdaa addr => Sys2Proof.Machine.execEntdaa addr s
  | .setdasa static addr => Sys2Proof.Machine.execSetdasa static addr s
  | .setEndpointId b eid => Sys2Proof.Machine.execSetEndpointId b eid s
  | .i3cBusFault => Sys2Proof.Machine.execI3cBusFault s
  | .i3cRecovery => Sys2Proof.Machine.execI3cRecovery s
  | .pldmBaseRequest b code => Sys2Proof.Machine.execPldmBaseRequest b code s
  | .pldmSensorReading b id => Sys2Proof.Machine.execPldmSensorReading b id s
  | .setSensorThresholds b id warn crit => Sys2Proof.Machine.execSetSensorThresholds b id warn crit s
  | .pldmFirmwareUpdate b off data => Sys2Proof.Machine.execPldmFirmwareUpdate b off data s
  | .unitStateEffecter u value gen => Sys2Proof.Machine.execUnitStateEffecter u value gen s
  | .deviceResetEffecter => Sys2Proof.Machine.execDeviceResetEffecter s
  | .getVersion b => Sys2Proof.Machine.execGetVersion b s
  | .getCapabilities b => Sys2Proof.Machine.execGetCapabilities b s
  | .negotiateAlgorithms b => Sys2Proof.Machine.execNegotiateAlgorithms b s
  | .getDigests b => Sys2Proof.Machine.execGetDigests b s
  | .getCertificate b slot => Sys2Proof.Machine.execGetCertificate b slot s
  | .challenge b slot nonce => Sys2Proof.Machine.execChallenge b slot nonce s
  | .getMeasurements b => Sys2Proof.Machine.execGetMeasurements b s
  | .keyExchange peer who => Sys2Proof.Machine.execKeyExchange peer who s
  | .finish peer ok => Sys2Proof.Machine.execFinish peer ok s
  | .keyUpdate peer outbound => Sys2Proof.Machine.execKeyUpdate peer outbound s
  | .spdmHeartbeat peer => Sys2Proof.Machine.execSpdmHeartbeat peer s
  | .endSession peer => Sys2Proof.Machine.execEndSession peer s
  | .trellisKeyLoad slot hash => Sys2Proof.Machine.execTrellisKeyLoad slot hash s
  | .hbmKeyLoad slot st key gen => Sys2Proof.Machine.execHbmKeyLoad slot st key gen s
  | .signatureComplete => Sys2Proof.Machine.execSignatureComplete s
  | .idcode => Sys2Proof.Machine.execIdcode s
  | .bypass => Sys2Proof.Machine.execBypass s
  | .unlockChallenge => Sys2Proof.Machine.execUnlockChallenge s
  | .unlockResponse sig => Sys2Proof.Machine.execUnlockResponse sig s
  | .testReset => Sys2Proof.Machine.execTestReset s
  | .sensorUpdate id value => Sys2Proof.Machine.execSensorUpdate id value s
  | .powerLoopSample q power junction overCurrent => Sys2Proof.Machine.execPowerLoopSample q power junction overCurrent s
  | .qpwrCap r q v => Sys2Proof.Machine.execQpwrCap r q v s
  | .safetyHoldExpiry q => Sys2Proof.Machine.execSafetyHoldExpiry q s
  | .avsResponse q mv => Sys2Proof.Machine.execAvsResponse q mv s
  | .avsFrameFailure q => Sys2Proof.Machine.execAvsFrameFailure q s
  | .clockRaiseDelay q => Sys2Proof.Machine.execClockRaiseDelay q s
  | .operAliasWrite r u v => Sys2Proof.Machine.execOperAliasWrite r u v s
  | .alarm n => Sys2Proof.Machine.execAlarm n s
  | .faultDetail src => Sys2Proof.Machine.execFaultDetail src s
  | .contextHaltTimeout c => Sys2Proof.Machine.execContextHaltTimeout c s
  | .faultAck r v => Sys2Proof.Machine.execFaultAck r v s
  | .firstClr r => Sys2Proof.Machine.execFirstClr r s
  | .heartbeat => Sys2Proof.Machine.execHeartbeat s
  | .heartbeatLoss => Sys2Proof.Machine.execHeartbeatLoss s
  | .aliveToggle => Sys2Proof.Machine.execAliveToggle s
  | .injArm r n => Sys2Proof.Machine.execInjArm r n s
  | .resetN => Sys2Proof.Machine.execResetN s
  | .perstN => Sys2Proof.Machine.execPerstN s
  | .hotReset => Sys2Proof.Machine.execHotReset s
  | .linkDisable => Sys2Proof.Machine.execLinkDisable s
  | .functionLevelReset => Sys2Proof.Machine.execFunctionLevelReset s
  | .devReset r v => Sys2Proof.Machine.execDevReset r v s
  | .railsGood => Sys2Proof.Machine.execRailsGood s
  | .railFault rail => Sys2Proof.Machine.execRailFault rail s
  | .firmwareVerify => Sys2Proof.Machine.execFirmwareVerify s
  | .d2dTrainingDone => Sys2Proof.Machine.execD2dTrainingDone s
  | .coreBringupDone c => Sys2Proof.Machine.execCoreBringupDone c s
  | .hbmTrainingDone st res => Sys2Proof.Machine.execHbmTrainingDone st res s
  | .pcieLinkUp => Sys2Proof.Machine.execPcieLinkUp s
  | .thermtrip d => Sys2Proof.Machine.execThermtrip d s
  | .resetNRelease => Sys2Proof.Machine.execResetNRelease s
  | .perstNRelease => Sys2Proof.Machine.execPerstNRelease s
  | .sysRefclkLoss => Sys2Proof.Machine.execSysRefclkLoss s
  | .sysRefclkReturn => Sys2Proof.Machine.execSysRefclkReturn s
  | .instructionCacheFill c => Sys2Proof.Machine.execInstructionCacheFill c s
  | .pcieCompletion addr data poisoned ok => Sys2Proof.Machine.execPcieCompletion addr data poisoned ok s
  | .collectorStorageRead slot w => Sys2Proof.Machine.execCollectorStorageRead slot w s

end Sys2Proof.Machine
end

