-- ==== Sys2Proof/WellFormed.lean ====
section
/-!
DEFINITION. Which command terms spell a command of the block: the sizes and ranges that operand types do not hold already.
-/

namespace Sys2Proof

/-- A register offset lies in its space (Table 0.6, Table 1.2). -/
def RegSpace.holds (sp : RegSpace) (addr : Nat) : Bool :=
  match sp with
  | .bar0 => addr < 0x10000000
  | .mmio => addr < 0x100000000

/-- A request of one transaction: 1 to 256 bytes of one 256 B line, a write carrying exactly its bytes (R274). -/
def HbmReq.fits (r : HbmReq) (write : Bool) : Bool :=
  1 ≤ r.len && r.addr.toNat % 256 + r.len ≤ 256 && (if write then r.data.length == r.len else r.data.isEmpty)

/-- A received Ethernet frame carries at least a packet header (R312, R316). -/
def LinkRx.fits : LinkRx → Bool
  | .native _ => true
  | .frame _ _ p => 16 ≤ p.length

/-- Well-formed commands. -/
def Instr.wf : Instr → Bool
  | .registerWrite _ sp a w32 _ => sp.holds a && a % (if w32 then 4 else 8) == 0
  | .readClear _ sp a w32 => sp.holds a && a % (if w32 then 4 else 8) == 0
  | .lowHalfRead _ sp a => sp.holds a && a % 4 == 0
  | .hbmReadRequest r => r.fits false
  | .hbmWriteRequest r => r.fits true
  | .dataFlit _ f => f.length == 272
  | .idleFlit _ f => f.length == 272
  | .controlPacket rx => rx.fits
  | .collectivePacket rx => rx.fits
  | .transportAck rx => rx.fits
  | .pcieCompletion _ d _ _ => !d.isEmpty
  | .unlockResponse sig => sig.length == 96
  | _ => true

end Sys2Proof
end

