-- ==== Sys2Proof/Safety.lean ====
section
/-!
DEFINITION. What counts as a sound state and a safe run: memory in canonical form, the invariant that every step keeps, and the
states that a list of commands reaches.
-/

namespace Sys2Proof.Machine

/-- Keys of a list strictly rise, from above `lo`. -/
def rising {α : Type} : Option Nat → List (Nat × α) → Bool
  | _, [] => true
  | lo, (k, _) :: l => (match lo with
    | none => true
    | some x => decide (x < k)) && rising (some k) l

/-- The canonical form of memory: addresses strictly rise, and no entry equals what an unlisted address reads as. -/
def Memory.wf (m : List Host.Cell) : Bool := rising none m && m.all fun c => c.2 != 0

/-! ## Terms that statements use -/

/-- Command `c` of queue `n` is the oldest that has not started, has this opcode and may start; no other command of the open vintage
in the queue carries its number. -/
def State.MayStart (s : State) (n op : Nat) (before : List Cmd) (c : Cmd) (after : List Cmd) : Prop :=
  (s.queue n).cmds = before ++ c :: after ∧ (∀ x ∈ before, x.st ≠ .fetched) ∧ c.st = .fetched ∧ c.opcode = BitVec.ofNat 8 op ∧
    s.ready n before c = true ∧ s.launchOk c = true ∧ c.ctxFail = false ∧
    ∀ x ∈ before ++ after, x.serial = c.serial → x.early = true

/-- Two states agree on every part but those that a list of queued commands, their partitions and the cellar's launch counter hold. -/
def SameBut (s t : State) : Prop :=
  t = { s with queues := t.queues, parts := t.parts, cellar := t.cellar }

/-! ### Op words of the vector engine -/

/-- The oldest op word that core `c`'s VQ holds has opcode `k` and the form of operation `p`, waits for no earlier memory-side add, and
runs with no error injection armed. -/
def State.VecRuns (s : State) (c k : Nat) (p : VOp) (o : OpW) : Prop :=
  ∃ i l, (s.core c).vec.items = i :: l ∧ o = parseOp i (s.core c).vec.front ∧ o.opc = k ∧ s.goes c = true ∧ s.waitsAdds c o = false ∧
    p.bad o (s.coreFeatures c) = false ∧ s.faults.inj0.armed = false ∧ s.faults.inj1.armed = false

/-- From `s` to `t` the op word leaves VQ and waits for DONE; of the rest, only registers, masks, FLAGS and VRES of the core and the
partitions' records of flags may differ. -/
def VecOnly (s t : State) (c : Nat) (o : OpW) : Prop :=
  let v := (s.core c).vec
  let w := (t.core c).vec
  t.core c = { s.core c with vec := w } ∧
  w = { v with items := v.items.drop 1, run := v.run ++ [(1, (s.core c).addsOf o.idx 1)],
               regs := w.regs, masks := w.masks, flags := w.flags, vres := w.vres } ∧
  (∀ d : Nat, d ≠ c → t.core d = s.core d) ∧ t = { s with cores := t.cores, parts := t.parts }

/-- Vector registers agree outside the first `n` elements of register `r` at the width of format `f`. -/
def RegsBut (v w : Vec) (r f n : Nat) : Prop :=
  ∀ a : Nat, a < 8192 * r ∨ 8192 * r + n * container f ≤ a → w.regs.look a 0 = v.regs.look a 0

/-- Register `r` after an elementwise operation: the value in an active element, 0 in an inactive one under MZERO, else as before. -/
def VecElems (v w : Vec) (o : OpW) (r f n : Nat) (val : Nat → BitVec 128) : Prop :=
  (∀ i : Nat, i < n → w.el r f i =
    if o.active v i then BitVec.ofNat 128 ((val i).toNat % 2 ^ fmtBits f) else if o.mzero then 0 else v.el r f i) ∧
  RegsBut v w r f n ∧ w.masks = v.masks

/-- FLAGS with the flags of the active elements below `n` raised. -/
def flagsOf (o : OpW) (v : Vec) (n : Nat) (fl : Nat → Flags) : Flags :=
  ((List.range n).filter (o.active v)).foldl (fun a i => a ||| fl i) v.flags

/-- The row runs to completion whenever its op word runs: element `i` below `n` of VD takes the value of `f` and raises its flags. -/
def State.VecGives (s : State) (c : Nat) (x : Instr) (k : Nat) (p : VOp) (n : OpW → Nat)
    (f : OpW → Nat → BitVec 128 × Flags) : Prop :=
  ∀ o : OpW, s.VecRuns c k p o → ∃ t, exec x s = .next t ∧ VecOnly s t c o ∧
    let v := (s.core c).vec
    let w := (t.core c).vec
    VecElems v w o o.vd o.fd (n o) (fun i => (f o i).1) ∧ w.flags = flagsOf o v (n o) (fun i => (f o i).2) ∧ w.vres = v.vres ∧
    ((∀ i : Nat, i < n o → (f o i).2 = 0) → t.parts = s.parts)

/-- The same for a mask destination. -/
def State.MaskGives (s : State) (c : Nat) (x : Instr) (k : Nat) (p : VOp) (f : OpW → Nat → Bool × Flags) : Prop :=
  ∀ o : OpW, s.VecRuns c k p o → ∃ t, exec x s = .next t ∧ VecOnly s t c o ∧
    let v := (s.core c).vec
    let w := (t.core c).vec
    (∀ i : Nat, i < o.vl → w.mbit o.vd i = if o.active v i then (f o i).1 else if o.mzero then false else v.mbit o.vd i) ∧
    (∀ a : Nat, a < 8192 * o.vd ∨ 8192 * o.vd + o.vl ≤ a → w.masks.look a false = v.masks.look a false) ∧
    w.regs = v.regs ∧ w.flags = flagsOf o v o.vl (fun i => (f o i).2) ∧ w.vres = v.vres

/-- The row delivers a scalar in VRES and changes no register, mask or flag. -/
def State.ScalarGives (s : State) (c : Nat) (x : Instr) (k : Nat) (p : VOp) (f : OpW → Nat) : Prop :=
  ∀ o : OpW, s.VecRuns c k p o → ∃ t, exec x s = .next t ∧ VecOnly s t c o ∧ t.parts = s.parts ∧
    (t.core c).vec = { (s.core c).vec with items := (t.core c).vec.items, run := (t.core c).vec.run, vres := BitVec.ofNat 64 (f o) }

/-- Neighbours combined; an absent entry passes its partner on. -/
def pairs {α : Type} (f : α → α → α) : List (Option α) → List (Option α)
  | x :: y :: l =>
    (match x, y with
     | some a, some b => some (f a b)
     | some a, none => some a
     | none, y => y) :: pairs f l
  | l => l

/-- A pair tree of `d` levels (R152). -/
def pairTree {α : Type} (f : α → α → α) : Nat → List (Option α) → Option α
  | 0, l => l.head?.getD none
  | d + 1, l => pairTree f d (pairs f l)

/-- Bytes keep their values when no access of the list touches their granule, or when they lie in an SRAM word without stored
errors and outside every access. -/
def KeepsOutside (s t : State) (l : List (Nat × Nat)) : Prop :=
  ∀ a : Nat,
    (∀ e ∈ l, a / 64 < e.1 / 64 ∨ (e.1 + e.2 - 1) / 64 < a / 64) ∨
    (zone a 1 = .sram ∧ s.sramErr.look (sramRel a / 8) {} = {} ∧ ∀ e ∈ l, a < e.1 ∨ e.1 + e.2 ≤ a) → t.byte a = s.byte a

/-! ### Passes of the matrix array -/

/-- The oldest uncomputed pass of core `c` is `q` of operation `op` and may start with no error injection armed; it reads the columns
`bs` of its set and the rows `as`, without a failed access, and `r` is the state after those reads. -/
def State.PassReads (s : State) (c op : Nat) (q : Pass) (p : PassD) (bs as : List Vecs) (r : PRun) : Prop :=
  s.passReady c op = some (q, p) ∧ s.faults.inj0.armed = false ∧ s.faults.inj1.armed = false ∧
  let e := matEng s c q.ring
  let x : PRun × Tile :=
    if p.load = 2 then PRun.tile ⟨s, q.badAddr, false⟩ e p else (⟨s, q.badAddr, false⟩, (s.core c).mat.tile q.set)
  let s0 := if p.load = 2 then x.1.s.onMat c fun m => m.setTile q.set x.2 else x.1.s
  ∃ s1, tileCols x.2 p (List.range (if p.stream then min 32 p.rows else p.cols)) s0 = (s1, bs) ∧
    PRun.aRows { x.1 with s := s1 } e p (s1.core c).mat = (r, as) ∧ r.err = false

/-- The state in which a pass starts to compute: a fill has copied its rows, and the first poisoned granule is noted. -/
def PRun.started (r : PRun) (c : Nat) (p : PassD) (bs as : List Vecs) : PRun :=
  ⟨if p.fill then r.s.onMat c fun m =>
      { m with rbData := as.map (·.1), rbScale := as.map (·.2.1), rbBad := as.map (·.2.2) } else r.s,
   r.bad <|> (as.findSome? (·.2.2)) <|> (if p.rows = 0 then none else bs.findSome? (·.2.2)), r.err⟩

/-- A run of a state is safe when a step of it neither faults nor is refused. -/
def State.safe (s : State) : Prop := ∃ t, step s = .next t

end Sys2Proof.Machine
end

