-- ==== Sys2Proof/Certificates/Slice0/Obligations.lean ====
section
/-!
DEFINITION. The statements of this model, each with the rule of spec/ that it follows. A statement about a command says where it
completes: under hypotheses on the state and the operands alone, what the next state holds, and what is left unchanged.
-/

open Sys2Proof Sys2Proof.Machine

/-- A step takes the command at the front of the queue and answers its outcome on the state with the rest of the queue (the model's form of a block: R10 gives the block no work of its own, so every change is a command's). -/
def Obligations.StepTakesFrontCommand : Prop :=
  ∀ (c : Instr) (rest : List Instr) (s : State),
    step { s with pending := c :: rest } = exec c { s with pending := rest }

/-- With no command waiting a step is one nanosecond of device time (log entry 1, the model's choice): the cellar count counts it (R347), and nothing else changes but the quarter clocks' counters. -/
def Obligations.EmptyQueueStepIsOneNanosecond : Prop :=
  ∀ s : State, s.pending = [] →
    ∃ t, step s = .next t ∧ t.now = s.now + 1 ∧ t.cellar = { s.cellar with count := s.cellar.count + 1 } ∧
      t = { s with now := t.now, cellar := t.cellar, power := t.power }

/-- QUEUE_ENABLE and QUEUE_DISABLE (R16, R24, Table 1.5). That commands not started are discarded at a disable is the model's reading (log entry 27). -/
def Obligations.QueueEnableStartsBothRings : Prop :=
  ∀ (n : Fin 8192) (v : Word) (s : State),
    ((s.queue n).enable = false → v.getLsbD 0 = true → (s.ctxRec (n.val / 8)).isSome = true →
      ∃ t, exec (.queueEnable n v) s = .next t ∧
        (t.queue n).enable = true ∧ (t.queue n).err = false ∧ (t.queue n).phase = true ∧
        (t.queue n).head = 0 ∧ (t.queue n).tail = 0 ∧ (t.queue n).cqHead = 0 ∧ (t.queue n).cqTail = 0 ∧
        (t.queue n).prio = v.extractLsb' 32 2 ∧ (t.queue n).irqEn = v.getLsbD 1 ∧
        (t.queue n).msix = some (v.extractLsb' 37 11) ∧
        (t.queue n).qSize = (if 6 ≤ (v.extractLsb' 8 5).toNat ∧ (v.extractLsb' 8 5).toNat ≤ 16
          then (v.extractLsb' 8 5).toNat else (s.queue n).qSize) ∧
        (t.queue n).cqSize = (if 6 ≤ (v.extractLsb' 16 5).toNat ∧ (v.extractLsb' 16 5).toNat ≤ 16
          then (v.extractLsb' 16 5).toNat else (s.queue n).cqSize) ∧
        (t.queue n).base = (s.queue n).base ∧ (t.queue n).cqBase = (s.queue n).cqBase ∧
        (∀ m : Nat, m ≠ n.val → t.queue m = s.queue m) ∧
        (t.queue n).failed = false ∧ t = { s with queues := t.queues }) ∧
    ((s.queue n).enable = true ∨ v.getLsbD 0 = false ∨ (s.ctxRec (n.val / 8)).isSome = false → exec (.queueEnable n v) s = .next s) ∧
    ((s.queue n).enable = false ∨ v.getLsbD 0 = true → exec (.queueDisable n v) s = .next s) ∧
    ((s.queue n).enable = true → v.getLsbD 0 = false →
      ∃ t, exec (.queueDisable n v) s = .next t ∧
        (t.queue n).enable = false ∧ (t.queue n).head = 0 ∧ (t.queue n).tail = 0 ∧
        (∀ c : Cmd, c ∈ (t.queue n).cmds ↔ c ∈ (s.queue n).cmds ∧ c.st ≠ .fetched) ∧
        (∀ m : Nat, m ≠ n.val → t.queue m = s.queue m) ∧ t = { s with queues := t.queues })

/-- QTAIL_DB and CQHEAD_DB (R18, Table 1.6): the index moves, waits for the end of a racking, or the write is counted in DB_ERRORS. -/
def Obligations.DoorbellSetsTailOrCountsAnError : Prop :=
  ∀ (k : Fin 1024) (j : Fin 8) (v : Word) (s : State),
    let n := 8 * k.val + j.val
    let ok := (s.queue n).enable = true ∧ (s.queue n).err = false
    let counted (t : State) := (t.ctx k).dbErrors.toNat = min ((s.ctx k).dbErrors.toNat + 1) (2 ^ 32 - 1) ∧
      (∀ i : Nat, i ≠ k.val → t.ctx i = s.ctx i) ∧ t.ctx k = { s.ctx k with dbErrors := (t.ctx k).dbErrors } ∧
      t = { s with ctxs := t.ctxs }
    let only (t : State) := (∀ m : Nat, m ≠ n → t.queue m = s.queue m) ∧ t = { s with queues := t.queues }
    (ok ∧ v.toNat < 2 ^ (s.queue n).qSize → s.partSt n ≠ 1 → s.partSt n ≠ 2 →
      ∃ t, exec (.qtailDb k j v) s = .next t ∧ t.queue n = { s.queue n with tail := v.toNat } ∧ only t) ∧
    (ok ∧ v.toNat < 2 ^ (s.queue n).qSize → s.partSt n = 1 ∨ s.partSt n = 2 →
      ∃ t, exec (.qtailDb k j v) s = .next t ∧ t.queue n = { s.queue n with dbWait := some v.toNat } ∧ only t) ∧
    (ok ∧ v.toNat < 2 ^ (s.queue n).cqSize →
      ∃ t, exec (.cqheadDb k j v) s = .next t ∧ t.queue n = { s.queue n with cqHead := v.toNat } ∧ only t) ∧
    (¬(ok ∧ v.toNat < 2 ^ (s.queue n).qSize) → ∃ t, exec (.qtailDb k j v) s = .next t ∧ counted t) ∧
    (¬(ok ∧ v.toNat < 2 ^ (s.queue n).cqSize) → ∃ t, exec (.cqheadDb k j v) s = .next t ∧ counted t)

/-- COMMAND_FETCH (R18 to R20, Table 1.7) and LAUNCH_COUNT_REACHED (R23; that the command brings the cellar count forward is log entry 3). -/
def Obligations.CommandFetchTakesOneEntry : Prop :=
  ∀ (n : Fin 8192) (s : State),
    (∀ (s1 : State) (r : Rd), s.mayFetch n = true →
      s.vRd (cmdEng n) ((s.queue n).base.toNat + 64 * (s.queue n).head) 64 = (s1, .ok r) → r.err = false → r.bad = none →
      ∃ t c, exec (.commandFetch n) s = .next t ∧
        (t.queue n).cmds = (s1.queue n).cmds ++ [c] ∧
        (t.queue n).head = ((s1.queue n).head + 1) % 2 ^ (s1.queue n).qSize ∧
        c.opcode = BitVec.ofNat 8 (fld r.data 0 1) ∧ c.flags = BitVec.ofNat 8 (fld r.data 1 1) ∧
        c.tag = BitVec.ofNat 16 (fld r.data 2 2) ∧ c.wait = BitVec.ofNat 64 (fld r.data 8 8) ∧
        c.signal = BitVec.ofNat 64 (fld r.data 16 8) ∧ c.launch = fld r.data 24 8 ∧ c.body = (r.data.drop 32).take 32 ∧
        ((8 ≤ fld r.data 0 1 % 256 ∨ 8 ≤ fld r.data 1 1 ∨ fld r.data 4 4 ≠ 0) →
          c.st = .ended ∧ c.status = 1 ∧ (t.queue n).err = true) ∧
        (fld r.data 0 1 % 256 < 8 → (parseCmd r.data).resvOk = true → c.st = .fetched ∧ (t.queue n).err = (s1.queue n).err)) ∧
    (∀ (before : List Cmd) (c : Cmd) (after : List Cmd),
      (s.queue n).cmds = before ++ c :: after → (∀ x ∈ before, x.st ≠ .fetched) → c.st = .fetched →
      c.flags.getLsbD 2 = true → c.launchMet = false → s.cellar.count ≤ c.launch → s.ready n before c = true →
      ∃ t, exec (.launchCountReached n) s = .next t ∧ t.cellar.count = c.launch ∧
        (t.queue n).cmds = before ++ { c with launchMet := true } :: after ∧
        (∀ m : Nat, m ≠ n.val → t.queue m = s.queue m) ∧
        t = { s with queues := t.queues, now := t.now, cellar := t.cellar, power := t.power })

/-- NOP, VINTAGE_END and WRITE_VALUE (R20 to R23, Table 1.8). -/
def Obligations.SimpleCommandsComplete : Prop :=
  ∀ (n : Fin 8192) (s : State) (before : List Cmd) (c : Cmd) (after : List Cmd),
    let late := c.flags.getLsbD 2 && !c.launchMet && decide (c.launch < s.cellar.count)
    let zero := zeroAt c.body 0 32 = true
    let others (t : State) := (∀ m : Nat, m ≠ n.val → t.queue m = s.queue m) ∧ SameBut s t
    (s.MayStart n 0 before c after → zero →
      ∃ t, exec (.nop n) s = .next t ∧ others t ∧
        (t.queue n).cmds = before ++ { c with st := .ended, status := 0, late := late } :: after) ∧
    (s.MayStart n 5 before c after → zero →
      ∃ t, exec (.vintageEnd n) s = .next t ∧ others t ∧
        (t.queue n).cmds = before ++ { c with st := .running, reached := true, late := late } :: after) ∧
    (s.MayStart n 0 before c after → ¬zero →
      ∃ t, exec (.nop n) s = .next t ∧ (t.queue n).err = true ∧
        (t.queue n).cmds = before ++ { c with st := .ended, status := 1, late := late } :: after) ∧
    (∀ (s1 : State), s.MayStart n 7 before c after → fld c.body 0 8 % 8 = 0 → zeroAt c.body 16 16 = true →
      ((s.start n c).vOk (cmdEng n) .wr (fld c.body 0 8) 8).isSome = true →
      (s.start n c).vWr (cmdEng n) (fld c.body 0 8) (leBytes 8 (fld c.body 8 8)) = (s1, false) →
      ∃ t, exec (.writeValue n) s = .next t ∧ t = s1.endCmd n c.serial 0 ∧ t.mem = s1.mem) ∧
    (s.MayStart n 7 before c after → fld c.body 0 8 % 8 ≠ 0 →
      ∃ t, exec (.writeValue n) s = .next t ∧ (t.queue n).err = true ∧ t.mem = s.mem ∧
        (t.queue n).cmds = before ++ { c with st := .ended, status := 1, late := late } :: after)

/-- DISPATCH (Table 1.8, R106), DMA (R294), PRESS (R236), COLLECTIVE (R331, R332) and PROVENANCE (R56). -/
def Obligations.EngineCommandsStartTheirWork : Prop :=
  ∀ (n : Fin 8192) (s : State) (before : List Cmd) (c : Cmd) (after : List Cmd),
    let k := n.val / 8
    let u := s.start n c
    (∀ (s1 : State) (r : Rd), s.MayStart n 1 before c after → u.dispatchBad n c = false →
      u.vRd (cmdEng n) (fld c.body 16 8) 64 = (s1, .ok r) → r.err = false → r.bad = none →
      maskCores (BitVec.ofNat 64 (fld c.body 0 8)) ≠ [] →
      ∃ t, exec (.dispatch n) s = .next t ∧
        (∀ x : Fin 64, (BitVec.ofNat 64 (fld c.body 0 8)).getLsbD x = true →
          (t.core x).seq.kernels = (s1.core x).seq.kernels ++ [⟨n, c.serial, k, s1.queueLevel n, BitVec.ofNat 2 (fld c.body 24 1),
            BitVec.ofNat 64 (fld c.body 8 8), (List.range 8).map fun i => BitVec.ofNat 64 (fld r.data (8 * i) 8)⟩]) ∧
        (∀ x : Fin 64, (BitVec.ofNat 64 (fld c.body 0 8)).getLsbD x = false → t.core x = s1.core x)) ∧
    (∀ (s1 s2 : State) (ch : Nat) (ds : List (Bytes × List Range)), s.MayStart n 2 before c after → fld c.body 0 8 % 64 = 0 →
      1 ≤ fld c.body 8 2 → fld c.body 8 2 ≤ 256 → fld c.body 10 1 ≤ 3 → zeroAt c.body 11 21 = true →
      s.admits (72 + fld c.body 10 1) = true → ((u.partOfCtx k).bind fun p => u.dmaChan p (fld c.body 10 1) n) = some ch →
      dmaList ch k (dmaEng ch k 2) (fld c.body 8 2) (fld c.body 0 8) u = (s1, .inl ds) →
      s1.declare n c.serial (ds.flatMap (·.2)) = (s2, true) →
      ∃ t arr, exec (.dma n) s = .next t ∧ (t.chan ch).arrive = (s2.chan ch).arrive ++ arr ∧
        (arr.map fun a => { a with meas := false }) = ((ds.zip (List.range (fld c.body 8 2))).map fun x =>
          ({ src := .cmd n c.serial x.2, ctx := k, ring := 2, level := s2.queueLevel n, va := fld c.body 0 8 + 64 * x.2,
             desc := some x.1.1 } : Arrive)) ∧
        (∀ a ∈ arr, a.meas = true → ∃ b, a.desc = some b ∧ (parseDma b).measured = true) ∧
        (∀ j : Nat, j ≠ ch → t.chan j = s2.chan j) ∧ t.mem = s2.mem) ∧
    (∀ (s1 s2 : State) (rs : List Range), s.MayStart n 3 before c after → fld c.body 0 8 % 64 = 0 →
      1 ≤ fld c.body 8 2 → fld c.body 8 2 ≤ 4096 → fld c.body 10 1 ≤ 3 → zeroAt c.body 11 21 = true →
      s.admits (64 + fld c.body 10 1) = true →
      batchRanges { src := pressSrc (fld c.body 10 1), agent := 256 + 8 * fld c.body 10 1, ctx := k, ring := 2 }
        (fld c.body 8 2) (fld c.body 0 8) u = (s1, rs) →
      s1.declare n c.serial rs = (s2, true) →
      exec (.press n) s = .next ((List.range (fld c.body 8 2)).foldl
        (fun s i => s.sendBatch (fld c.body 10 1) n (.cmd n c.serial) k 2 (fld c.body 0 8 + 64 * i))
        (s2.onCmd n c.serial fun x => { x with left := fld c.body 8 2 }))) ∧
    (∀ (s1 : State) (r : Rd) (g : GroupRec), s.MayStart n 4 before c after → fld c.body 0 8 % 64 = 0 → zeroAt c.body 8 24 = true →
      u.vRd (cmdEng n) (fld c.body 0 8) 64 = (s1, .ok r) → r.err = false → r.bad = none →
      s1.groupRec (parseColl r.data).group = some g → s1.partOfCtx k = some g.part → g.command = true →
      (s1.group g.group).running = none → (s1.group g.group).queue = [] →
      let i : CollItem := ⟨none, some (n.val, c.serial), k, 2, r.data, false, false⟩
      let put (t : State) : State := t.onGroup g.group fun x => { x with queue := x.queue ++ [i] }
      (∀ (s2 s3 : State) (rs : List Range), s1.collCheck g i = (s2, none, rs) → s2.declare n c.serial rs = (s3, true) →
        exec (.collective n) s = .next (put s3)) ∧
      (∀ (s2 : State) e (rs : List Range), s1.collCheck g i = (s2, some e, rs) → exec (.collective n) s = .next (put s1))) ∧
    (∀ (p pa : Nat) (key : BitVec 10), s.MayStart n 6 before c after → s.partOfCtx k = some p →
      (s.part p).provFirst = some (n.val, c.serial) → s.provBad n c = false → s.provReady n p = true → c.signs = false →
      u.recPlace n p c = some (pa, key) →
      exec (.provenance n) s = .next (((u.formRecord p false false).1.memWr (recWho n p key) pa
        (sealRecord (u.formRecord p false false).2 (leBytes 96 0))).1.endCmd n c.serial 0))

/-- COMPLETION_WRITE (R21, R22, R24, Tables 1.5 and 1.9). -/
def Obligations.CompletionRecordIsWritten : Prop :=
  ∀ (n : Fin 8192) (s : State) (c : Cmd) (rest : List Cmd) (s1 : State),
    let q := s.queue n
    let va := q.cqBase.toNat + 16 * q.cqTail
    let u := s.setQueue n { q with cmds := rest }
    let bytes := leBytes 2 c.tag.toNat ++ [c.status, BitVec.ofNat 8 (b2n c.outInv + 2 * b2n q.phase + 4 * b2n c.late)] ++
      [0, 0, 0, 0] ++ leBytes 8 c.vint
    q.cmds = c :: rest → c.st = .ended → c.signing = false → (c.isEnd = true → c.early = true ∨ c.status ≠ 0 ∨ s.partSt n ≠ 0) →
    (u.vOk (cmdEng n) .wr va 16).isSome = true → u.vWr (cmdEng n) va bytes = (s1, false) →
    ∃ t, exec (.completionWrite n) s = .next t ∧ t.mem = s1.mem ∧
      (t.queue n).cmds = rest ∧
      (t.queue n).cqTail = (if q.cqTail + 1 = q.cqEntries then 0 else q.cqTail + 1) ∧
      (t.queue n).phase = (if q.cqTail + 1 = q.cqEntries then !q.phase else q.phase) ∧
      (∀ m : Nat, m ≠ n.val → t.queue m = s.queue m) ∧
      (t.ctx (n.val / 8)).events = (if c.signal.getLsbD 63 then
          let e := c.signal.toNat % 256
          (s.ctx (n.val / 8)).events.set e ((s.ctx (n.val / 8)).events.look e 0 + BitVec.ofNat 64 (c.signal.toNat / 256 % 65536))
        else (s.ctx (n.val / 8)).events) ∧
      (c.flags.getLsbD 0 = true → q.irqEn = true → t.host = (s1.msix (q.msix.getD (BitVec.ofNat 11 (2 * (n.val / 8)))).toNat).host) ∧
      (c.flags.getLsbD 0 = false ∨ q.irqEn = false → t.host = s.host)

/-- VINTAGE_NORMAL_END (R36), PART_RACK (R38) and BUDGET_EXPIRY (R37); that the last brings time forward is log entry 3. -/
def Obligations.VintageEndsStartARacking : Prop :=
  ∀ (p : Fin 64) (s : State),
    (s.endsNormally p = true →
      exec (.vintageNormalEnd p) s = .next ((State.recordQueues (s.queuesOf p) (State.endQueues (s.queuesOf p) s)).rack p false) ∧
      ∀ n ∈ s.queuesOf p, ((State.endQueues (s.queuesOf p) s).queue n).cmds =
        (s.queue n).cmds.map fun c =>
          if c.opcode = 5 ∧ c.early = false ∧ c.st ≠ .ended ∧ c.ctxFail = false then { c with st := .ended, status := 0 }
          else Cmd.endVintage c) ∧
    (s.endsNormally p = false → exec (.vintageNormalEnd p) s = .next s) ∧
    (∀ r, byHost r = true → (s.part p).st = 0 → s.running = true → exec (.partRack r p) s = .next (s.rack p true)) ∧
    (∀ r, byHost r = false ∨ (s.part p).st ≠ 0 ∨ s.running = false → exec (.partRack r p) s = .next s) ∧
    ((s.part p).st ≠ 0 ∨ (s.part p).budget = 0 ∨ s.running = false ∨ s.endsNormally p = true → exec (.budgetExpiry p) s = .next s) ∧
    ((s.part p).st = 0 → (s.part p).budget ≠ 0 → s.running = true → s.endsNormally p = false →
      ∃ u : State, exec (.budgetExpiry p) s = .next (u.rack p true) ∧
        u.cellar.count = max s.cellar.count ((s.part p).openCount + (s.part p).budget + 1) ∧
        (u.part p).outInvalid = true ∧
        u.faults.flight.map (fun a => (a.src, a.sev, a.cause, a.ctx)) =
          s.faults.flight.map (fun a => (a.src, a.sev, a.cause, a.ctx)) ++
            ((s.ctxsOf p).filter fun k => (s.ctx k).ranCmd).map fun k => (138, 2, 9, some k))

/-- Steps 1 to 7 of a racking (R40, Table 1.13) as far as the partition's own state and its events go; that they run at once is log entry 4. -/
def Obligations.RackingStopsAndEmptiesThePartition : Prop :=
  ∀ (p : Fin 64) (forced : Bool) (s : State),
    let t := s.rack p forced
    ((t.partRec p).isSome = true → (t.part p).st = 1 ∧ (t.part p).stepsDone = true ∧ (t.part p).forced = forced) ∧
    ((t.partRec p).isSome = false → t.part p = {} ∧ (t.part p).st = 3) ∧
    (∀ k ∈ s.ctxsOf p, ∀ e : Nat, t.event k e = 0)

/-- RACKING_COMPLETE (R40 step 8, R35, Table 1.3, R386). -/
def Obligations.RackingCompleteOpensTheNextVintage : Prop :=
  ∀ (p : Fin 64) (s : State), (s.part p).stepsDone = true → s.running = true →
    ((s.part p).joint = [] → (s.part p).hold = [] →
      ∃ t, exec (.rackingComplete p) s = .next t ∧
        (t.part p).st = 0 ∧ (t.part p).vintage = (s.part p).vintage + 1 ∧ (t.part p).openCount = s.cellar.count ∧
        (t.part p).budget = ((s.partRec p).map (·.budget)).getD 0 ∧ (t.part p).invalidLast = (s.part p).forced ∧
        (t.part p).lastInvalid = (if (s.part p).forced = true then BitVec.ofNat 32 (s.part p).vintage else (s.part p).lastInvalid) ∧
        (t.part p).launches = 0 ∧ (t.part p).stepsDone = false ∧ (t.part p).forced = false ∧
        (∀ c ∈ s.coresOf p, (t.core c).seq.stalls = 0 ∧ (t.core c).seq.cycleBase = (s.pwr (c / 16)).cycles) ∧
        (∀ c : Nat, c ∉ s.coresOf p → t.core c = s.core c) ∧
        (∀ n ∈ s.queuesOf p, ∀ c ∈ (t.queue n).cmds, c.early = false) ∧
        (∀ n : Nat, n ∉ s.queuesOf p → t.queue n = s.queue n) ∧
        (∀ q : Nat, q ≠ p.val → t.part q = s.part q) ∧
        t = { s with parts := t.parts, queues := t.queues, ctxs := t.ctxs, cores := t.cores, host := t.host }) ∧
    (¬((s.part p).joint = [] ∧ (s.part p).hold = []) →
      ∃ t, exec (.rackingComplete p) s = .next t ∧ t.part p = { s.part p with st := 2 } ∧
        (∀ q : Nat, q ≠ p.val → t.part q = s.part q) ∧ t = { s with parts := t.parts })

/-- TRELLIS_STAGE, TRELLIS_CANCEL (R33) and TRELLIS_VERIFY_DONE (R428, Table 1.4). -/
def Obligations.TrellisCommandsStageAndDrop : Prop :=
  ∀ (id : BitVec 16) (s : State),
    (s.bootReady = true → s.trellis.st ≠ 1 → s.trellis.st ≠ 3 →
      ∃ t, exec (.trellisStage (.host id)) s = .next t ∧ t.trellis.st = 1 ∧ t.trellis.reject = 0 ∧ t.trellis.staged = none ∧
        t.trellis.pend = [] ∧ t.trellis.addr = s.trellis.addr ∧ t.trellis.len = s.trellis.len ∧ t.trellis.gen = s.trellis.gen ∧
        t.trellis.keys = s.trellis.keys ∧ t = { s with trellis := t.trellis }) ∧
    ((s.bootReady = false ∨ s.trellis.st = 1 ∨ s.trellis.st = 3) →
      ∃ t, exec (.trellisStage (.host id)) s = .next t ∧ t = { s with trellis := { s.trellis with reject := 9 } }) ∧
    (s.trellis.st = 2 → ∃ t, exec (.trellisCancel (.host id)) s = .next t ∧
      t = { s with trellis := { s.trellis with st := 0, staged := none, pend := [] } }) ∧
    (s.trellis.st ≠ 2 → exec (.trellisCancel (.host id)) s = .next s) ∧
    (s.trellis.st = 1 →
      (s.trellis.addr.toNat % 4096 ≠ 0 ∨ s.trellis.len.toNat = 0 ∨ 0x1000000 < s.trellis.len.toNat ∨
        (zone s.trellis.addr.toNat s.trellis.len.toNat ≠ .hbm ∧ zone s.trellis.addr.toNat s.trellis.len.toNat ≠ .host)) →
      ∃ t, exec .trellisVerifyDone s = .next t ∧
        t.trellis = { s.trellis with st := 4, reject := 4, staged := none, pend := [] } ∧
        t = { s with trellis := t.trellis, host := t.host } ∧ t.host = s.devIrq.host) ∧
    (∀ (u : State) (b : Bytes) (code : Nat), s.trellis.st = 1 → s.fetchImage = (u, some b) →
      checkImage b u.trellis.len.toNat u.trellis.gen u.trellis.stageKeys u.jtag.debug u.boot.failed u.tables = .inr code →
      ∃ t, exec .trellisVerifyDone s = .next t ∧ t.trellis.st = 4 ∧ t.trellis.reject = BitVec.ofNat 8 code ∧ t.trellis.staged = none ∧
        t.active = u.active ∧ t.mem = u.mem) ∧
    (∀ (u w : State) (b : Bytes) (img : Image), s.trellis.st = 1 → s.fetchImage = (u, some b) →
      checkImage b u.trellis.len.toNat u.trellis.gen u.trellis.stageKeys u.jtag.debug u.boot.failed u.tables = .inl img →
      u.checkTables img.config = (w, none) → w.active.parts ≠ [] → (∀ r ∈ img.config.parts, ∃ o ∈ w.active.parts, o.part = r.part) →
      ∃ t, exec .trellisVerifyDone s = .next t ∧ t.trellis.st = 2 ∧ t.trellis.staged = some img ∧
        t.trellis.pend = w.active.parts.map (·.part) ∧ t.active = w.active ∧ t.parts = w.parts ∧ t.mem = w.mem)

/-- REGISTER_WRITE, READ_CLEAR, LOW_HALF_READ, of a low or of a high half (R8, R14, R16, R43, R426) and PCIE_CONFIG_REQUEST (R11, R403). -/
def Obligations.RegisterAccesses : Prop :=
  ∀ (id : BitVec 16) (s : State) (v : Word),
    let h := Requester.host id
    let W (a : Nat) := exec (.registerWrite h .bar0 a false v) s
    (W 0x200 = .next { s with trellis := { s.trellis with addr := v.setWidth 48 } }) ∧
    (W 0x208 = .next { s with trellis := { s.trellis with len := v.setWidth 25 } }) ∧
    (W 0x300 = .next { s with host := { s.host with devIrqVec := v.setWidth 11 } }) ∧
    (W 0x308 = .next { s with host := { s.host with bar2Base := v.extractLsb' 30 18, bar2Key := v.extractLsb' 48 10 } }) ∧
    (W 0x310 = .next { s with host := { s.host with mmioWin := v.extractLsb' 27 5 } }) ∧
    (∀ n : Fin 8192, ∃ t, W (0x20000 + 64 * n.val) = .next t ∧
      t.queue n = (if (s.queue n).enable = true then s.queue n else { s.queue n with base := v.setWidth 56 }) ∧
      (∀ m : Nat, m ≠ n.val → t.queue m = s.queue m) ∧ t = { s with queues := t.queues }) ∧
    (∀ a : Nat, a < 0x200 → a % 8 = 0 → W a = .next s) ∧
    (∀ a : Nat, 0xA0000 ≤ a → a < 0x1000000 → a % 8 = 0 → W a = .next s) ∧
    (∀ c : Fin 64, ∃ t, exec (.registerWrite h .mmio (0x10000 + 256 * c.val) false v) s = .next t ∧
      t.core c = { s.core c with rb := { (s.core c).rb with trapBase := v } } ∧
      (∀ d : Nat, d ≠ c.val → t.core d = s.core d) ∧ t = { s with cores := t.cores }) ∧
    (∀ (c : Fin 64) (r : BitVec 2) (a : Nat) (b : Bool), 2 ≤ r.toNat → exec (.registerWrite (.ring c r) .mmio a b v) s = .next s) ∧
    (∀ c : Fin 64, ∃ t, exec (.readClear h .mmio (0x20010 + 256 * c.val) false) s = .next t ∧
      t.host.rdata = BitVec.ofNat 64 (s.core c).store.eccCorr ∧ t.host.rstatus = .ok ∧
      t.core c = { s.core c with store := { (s.core c).store with eccCorr := 0 } } ∧
      (∀ d : Nat, d ≠ c.val → t.core d = s.core d) ∧
      t = { s with cores := t.cores, host := { s.host with rdata := t.host.rdata, rstatus := .ok } }) ∧
    (∀ k : Fin 1024, ∃ t, exec (.readClear h .bar0 (0x400080 + 4096 * k.val) false) s = .next t ∧
      t.host.rdata = (s.ctx k).dbErrors.setWidth 64 ∧ t.ctx k = { s.ctx k with dbErrors := 0 } ∧
      (∀ j : Nat, j ≠ k.val → t.ctx j = s.ctx j) ∧ t = { s with ctxs := t.ctxs, host := t.host }) ∧
    (∀ p : Fin 64, ∃ t, exec (.lowHalfRead h .bar0 (0x600 + 16 * p.val)) s = .next t ∧
      t.host.rdata = ((s.devReg (0x600 + 16 * p.val)).setWidth 32).setWidth 64 ∧
      (⟨h, .bar0, 0x600 + 16 * p.val, (s.part p).lastInvalid⟩ : Latch) ∈ t.host.latches ∧
      t = { s with host := { s.host with rdata := t.host.rdata, rstatus := .ok, latches := t.host.latches } }) ∧
    (∀ p : Fin 64,
      let pending := s.host.latches.find? fun x => sameReq x.req h && x.sp = .bar0 && x.addr = 0x600 + 16 * p.val
      ∃ t, exec (.lowHalfRead h .bar0 (0x604 + 16 * p.val)) s = .next t ∧
        t.host.rdata = ((pending.map (·.hi)).getD ((s.devReg (0x600 + 16 * p.val)).extractLsb' 32 32)).setWidth 64 ∧
        (∀ x, pending = some x → x ∉ t.host.latches) ∧
        t = { s with host := { s.host with rdata := t.host.rdata, rstatus := .ok, latches := t.host.latches } }) ∧
    (∀ off : Nat, ∃ t, exec (.pcieConfigRequest (.read off)) s = .next t ∧
      t.host.rdata = (s.host.cfg.look (off / 4) 0).setWidth 64 ∧ t.host.rstatus = .ok ∧ t = { s with host := t.host }) ∧
    (∀ (off : Nat) (x : BitVec 32), ∃ t, exec (.pcieConfigRequest (.write off x)) s = .next t ∧
      t.host.cfg.look (off / 4) 0 = x ∧ (∀ j : Nat, j ≠ off / 4 → t.host.cfg.look j 0 = s.host.cfg.look j 0) ∧
      t = { s with host := { s.host with cfg := t.host.cfg, rstatus := .ok } }) ∧
    (∀ n : Nat, exec (.pcieConfigRequest (.resizeBar2 n)) s = .next { s with host := { s.host with
      bar2Log2 := (if 30 ≤ n ∧ n ≤ 40 then n else s.host.bar2Log2), rstatus := .ok } })

/-- BAR2_ACCESS (R12, R277). -/
def Obligations.Bar2AccessesReachMemoryOrAreUnsupported : Prop :=
  ∀ (off : Nat) (s : State),
    let h := s.host
    let base := if h.bar2Log2 = 40 then 0 else h.bar2Base.toNat * 2 ^ 30 / 2 ^ h.bar2Log2 * 2 ^ h.bar2Log2
    let w : Who := { src := 135, key := h.bar2Key, quiet := true }
    (∀ n : Nat, 2 ^ h.bar2Log2 < off + n ∨ 0xC000000000 < base + off + n →
      exec (.bar2Access off (.read n)) s = .next { s with host := { h with rstatus := .unsupported } }) ∧
    (∀ d : Bytes, 2 ^ h.bar2Log2 < off + d.length ∨ 0xC000000000 < base + off + d.length →
      exec (.bar2Access off (.write d)) s = .next { s with host := { h with rstatus := .unsupported } }) ∧
    (∀ n : Nat, off + n ≤ 2 ^ h.bar2Log2 → base + off + n ≤ 0xC000000000 →
      ∃ t, exec (.bar2Access off (.read n)) s = .next t ∧ t.mem = (s.memRd w (base + off) n).1.mem ∧
        ((s.memRd w (base + off) n).2.err = true → t.host.rstatus = .unsupported ∧ t.host.bar2Data = h.bar2Data) ∧
        ((s.memRd w (base + off) n).2.err = false → t.host.bar2Data = (s.memRd w (base + off) n).2.data ∧
          (t.host.rstatus = .poisoned ↔ (s.memRd w (base + off) n).2.bad.isSome = true) ∧
          (t.host.rstatus = .ok ↔ (s.memRd w (base + off) n).2.bad.isSome = false))) ∧
    (∀ d : Bytes, off + d.length ≤ 2 ^ h.bar2Log2 → base + off + d.length ≤ 0xC000000000 →
      ∃ t, exec (.bar2Access off (.write d)) s = .next t ∧ t.mem = (s.memWr w (base + off) d).1.mem ∧
        (t.host.rstatus = .unsupported ↔ (s.memWr w (base + off) d).2 = true) ∧
        ((s.memWr w (base + off) d).2 = true → t.mem = s.mem))

/-- MUL_COMPLETE, DIV_COMPLETE, LSU_LOAD_COMPLETE, LSU_MAINTENANCE_COMPLETE and MEMORY_ATOMIC_ADD (R99 to R104). -/
def Obligations.ScalarUnitsDeliverTheirResults : Prop :=
  ∀ (c : Fin 64) (s : State),
    let q := (s.core c).seq
    let only (t : State) := (∀ d : Nat, d ≠ c.val → t.core d = s.core d) ∧ t = { s with cores := t.cores } ∧
      t.core c = { s.core c with seq := (t.core c).seq }
    (∀ (m : Fin 4) (v : Word) (rest : List PortPend), q.mulPend = ⟨m, false, v, true, false⟩ :: rest → (∀ x ∈ rest, x.port ≠ m.val) →
      ∃ t, exec (.mulComplete c m) s = .next t ∧ only t ∧ (t.core c).seq = { q with mulPend := rest, mulRes := (t.core c).seq.mulRes } ∧
        (t.core c).seq.mulRes.look m 0 = v ∧ ∀ j : Nat, j ≠ m.val → (t.core c).seq.mulRes.look j 0 = q.mulRes.look j 0) ∧
    (∀ (m : Fin 4) (v : Word) (b : Bool) (rest : List PortPend), q.lsuPend = ⟨m, false, v, true, b⟩ :: rest → (∀ x ∈ rest, x.port ≠ m.val) →
      ∃ t, exec (.lsuLoadComplete c m) s = .next t ∧ only t ∧ (t.core c).seq = { q with lsuPend := rest, lsuRes := (t.core c).seq.lsuRes } ∧
        (t.core c).seq.lsuRes.look m 0 = v ∧ ∀ j : Nat, j ≠ m.val → (t.core c).seq.lsuRes.look j 0 = q.lsuRes.look j 0) ∧
    (q.divBusy = true → q.divAfter = none →
      ∃ t, exec (.divComplete c) s = .next t ∧ only t ∧
        (t.core c).seq = { q with divBusy := false, divRes := (t.core c).seq.divRes, divZero := (t.core c).seq.divZero } ∧
        ((t.core c).seq.divZero = true ↔ q.divB = 0) ∧
        (q.divB = 0 → q.divOp = 1 ∨ q.divOp = 2 → (t.core c).seq.divRes = BitVec.allOnes 64) ∧
        (q.divB = 0 → q.divOp = 3 ∨ q.divOp = 4 → (t.core c).seq.divRes = q.divA) ∧
        (q.divB ≠ 0 → q.divOp = 1 → (t.core c).seq.divRes = q.divA.sdiv q.divB) ∧
        (q.divB ≠ 0 → q.divOp = 2 → (t.core c).seq.divRes = q.divA / q.divB) ∧
        (q.divB ≠ 0 → q.divOp = 3 → (t.core c).seq.divRes = q.divA.srem q.divB) ∧
        (q.divB ≠ 0 → q.divOp = 4 → (t.core c).seq.divRes = q.divA % q.divB)) ∧
    (∃ t, exec (.lsuMaintenanceComplete c) s = .next t ∧ only t ∧ (t.core c).seq = { q with maint := false }) ∧
    (∀ (a : MemAdd) (rest : List MemAdd) (u : State) (r : Rd), (s.core c).adds = a :: rest → r.err = false →
      let w : Who := { src := c, ctx := some a.ctx, part := some ((s.partOfCtx a.ctx).getD 64), key := a.key }
      (s.onCore c fun x => { x with adds := rest }).memRd w a.pa a.size = (u, r) → a.size = 4 ∨ a.size = 8 →
      (r.bad = none → exec (.memoryAtomicAdd c) s =
        .next (u.memWr w a.pa (leBytes a.size ((leNat r.data + a.data.toNat) % 2 ^ (8 * a.size)))).1) ∧
      (r.bad.isSome = true → exec (.memoryAtomicAdd c) s = .next (u.sev c 1 0x15 (some a.ctx) a.pa)))

/-- BUNDLE_ISSUE (R87 to R96, R98, R136): moves, RET, stalls and traps. -/
def Obligations.BundleIssueMovesStallsOrTraps : Prop :=
  ∀ (c : Fin 64) (s u : State), s.fetching c = true →
    let s0 := s.onSeq c Seq.settle
    (∀ g : Go, s0.look c = (u, .go g) → g.ret = none → g.gate = none → (g.vals.map (·.1)).Nodup →
      (∀ e ∈ g.vals, e.1 < 63 ∨ e.1 = 0x80 ∨ ∃ k, 0x80 < e.1 ∧ e.1 ≤ 0x94 ∧ e.1 = 0x80 + k) →
      ∃ t, exec (.bundleIssue c) s = .next t ∧
        (t.core c).seq.pc = (u.core c).seq.pc + 16 ∧
        (∀ n : Nat, n < 63 → (t.core c).seq.g.look n 0 = ((g.vals.find? fun e => e.1 = n).map (·.2)).getD ((u.core c).seq.g.look n 0)) ∧
        (t.core c).seq.alu0A = ((g.vals.find? fun e => e.1 = 0x80).map (·.2)).getD (u.core c).seq.alu0A ∧
        (∀ (k : Nat) (v : Word), 0 < k → k ≤ 0x14 → (0x80 + k, v) ∈ g.vals → trigIn g.vals 0 = some (k, v) →
          (t.core c).seq.alu0Res = alu k (t.core c).seq.alu0A v) ∧
        (t.core c).seq.preds = (u.core c).seq.preds ∧ (t.core c).seq.ring = (u.core c).seq.ring ∧ t.mem = u.mem ∧
        (∀ d : Nat, d ≠ c.val → t.core d = u.core d)) ∧
    (∀ (g : Go) (ret saved : Word), s0.look c = (u, .go g) → g.ret = some (ret, saved) → (∃ v, g.vals = [(0x221, v)]) →
      saved.getLsbD 7 = false →
      ∃ t, exec (.bundleIssue c) s = .next t ∧ (t.core c).seq.pc = ret ∧ (t.core c).seq.ring = saved.setWidth 2 ∧
        (t.core c).seq.preds = (saved.extractLsb' 16 8 ||| 1) ∧
        (t.core c).seq.gov (0x408 + (u.core c).seq.ring.toNat) = (u.core c).seq.gov (0x408 + (u.core c).seq.ring.toNat) + 16 ∧
        t.mem = u.mem) ∧
    (s0.look c = (u, .stall) → ∃ t, exec (.bundleIssue c) s = .next t ∧
      (t.core c).seq = { (u.core c).seq with stalls := (u.core c).seq.stalls + 1, mute := (t.core c).seq.mute } ∧
      (∀ d : Nat, d ≠ c.val → t.core d = u.core d) ∧ t = { u with cores := t.cores }) ∧
    (∀ (v : Nat) (a : Word) (i : Nat), s0.look c = (u, .trap v a i) →
      exec (.bundleIssue c) s = .next (u.enter c v (s0.core c).seq.pc false a i)) ∧
    (∀ t : Nat, s0.look c = (u, .overflow t) → exec (.bundleIssue c) s = .next (u.gateOverflow c t))

/-- Taking an event (R119 to R122, R126, R129, Table 4.9) and INTERRUPT_ENTRY (R119, R127). -/
def Obligations.EventEntryPushesAFrame : Prop :=
  ∀ (c : Fin 64) (s : State),
    (∀ (v : Nat) (ret addr : Word) (lpend : Bool) (arg t : Nat),
      let q := (s.core c).seq
      let s1 := (s.missTrap c v).dropDiv c
      t = (s1.core c).seq.route v (min q.ring.toNat (floorOf v)) → q.shadow.look (64 * t + v) 0 ≠ 0 → t < 4 →
      s1.frameFits c t (q.gov (0x408 + t)) = true →
      let r := (s.enter c v ret lpend addr arg)
      (r.core c).seq.ring = BitVec.ofNat 2 t ∧ (r.core c).seq.ie = false ∧ (r.core c).seq.pc = q.shadow.look (64 * t + v) 0 ∧
        (r.core c).seq.gov (0x408 + t) = q.gov (0x408 + t) - 16 ∧
        (r.core c).seq.ctl.look (0x434 + t) 0 = BitVec.ofNat 64 (v + 64 * q.ring.toNat + 256 * arg) ∧
        (r.core c).seq.ctl.look (0x438 + t) 0 = addr ∧ (r.core c).seq.divBusy = false ∧ (r.core c).seq.g = q.g ∧
        (r.core c).seq.preds = q.preds) ∧
    (∀ v : Nat,
      let q := (s.core c).seq
      let up (w : Nat) : Prop := w ∈ irqVectors ∧ (q.ctl.look 0x411 0).getLsbD w = true ∧ (q.gov 0x410).getLsbD w = true
      s.fetching c = true → q.ie = true → q.mute = 0 → up v → (∀ w : Nat, up w → v ≤ w) →
      (∀ u w a i, (s.onSeq c Seq.settle).look c ≠ (u, .trap w a i)) → (∀ u w, (s.onSeq c Seq.settle).look c ≠ (u, .overflow w)) →
      exec (.interruptEntry c) s = .next (s.enter c v q.pc q.loopPend 0 0))

/-- KERNEL_START, CORE_IDLE (R106, R137, R142, R192), IRQ_RAISE (R139) and INSTRUCTION_CACHE_FILL (R116). -/
def Obligations.KernelsStartAndCoresGoIdle : Prop :=
  ∀ (c : Fin 64) (s : State),
    (∀ (k : Kernel) (rest : List Kernel), (s.core c).seq.kernels = k :: rest → (s.core c).seq.run = .idle → s.goes c = true →
      s.admits c = true → k.block.length = 8 →
      ∃ t, exec (.kernelStart c) s = .next t ∧
        let q := (t.core c).seq
        q.run = .running ∧ q.pc = k.entry ∧ q.ring = k.ring ∧ q.context = k.ctx ∧ q.kernels = rest ∧ q.preds = 1 ∧ q.ie = false ∧
        (∀ i : Nat, q.g.look i 0 = k.block.getD i 0) ∧ q.lsuMode = 3 ∧
        (t.core c).vec.regs = [] ∧ (t.core c).vec.masks = [] ∧ (t.core c).vec.sa = 0 ∧ (t.core c).vec.sb = 0 ∧ (t.core c).vec.vres = 0 ∧
        (t.core c).vec.flags = 0 ∧ (t.core c).vec.slots = [] ∧ (t.core c).mat.set0 = {} ∧ (t.core c).mat.set1 = {} ∧
        (t.core c).mat.rbValid = false) ∧
    ((s.core c).seq.run = .halting → (s.core c).quiet = true →
      ∃ t, exec (.coreIdle c) s = .next t ∧
        t = (s.onSeq c fun q => { q with run := .idle, haltDue := none }).workDone (s.core c).seq.queue (s.core c).seq.cmd 0 ∧
        (t.core c).seq.run = .idle ∧ (∀ d : Nat, d ≠ c.val → t.core d = s.core d) ∧ t.mem = s.mem) ∧
    (∀ (id : BitVec 16) (v : Word), v.toNat % 2 ^ 40 = 0 → v.toNat < 2 ^ 48 →
      ∃ t, exec (.irqRaise (.host id) c v) s = .next t ∧
        (t.core c).seq.ctl.look 0x411 0 = ((s.core c).seq.ctl.look 0x411 0 ||| v) ∧
        (∀ p : Nat, p ≠ 0x411 → (t.core c).seq.ctl.look p 0 = (s.core c).seq.ctl.look p 0) ∧
        (∀ d : Nat, d ≠ c.val → t.core d = s.core d) ∧ t = { s with cores := t.cores }) ∧
    (∀ (id : BitVec 16) (v : Word), v.toNat % 2 ^ 40 ≠ 0 ∨ 2 ^ 48 ≤ v.toNat → exec (.irqRaise (.host id) c v) s = .next s) ∧
    (∀ (line : Nat) (key : BitVec 10) (s1 u : State) (r : Rd), (s.core c).seq.fetchMiss = some (line, key) → s.inject c 3 1 = (none, s1) →
      s1.memRd (s1.lineWho c key) (64 * line) 64 = (u, r) → r.err = false → r.bad = none → (u.core c).icache = [] →
      ((u.core c).pwr.ways false).getLsbD 0 = true →
      ∃ t w, exec (.instructionCacheFill c) s = .next t ∧ (t.core c).seq.fetchMiss = none ∧ w < 8 ∧
        ((t.core c).icache.look (8 * (line % 128) + w) {}).valid = true ∧
        ((t.core c).icache.look (8 * (line % 128) + w) {}).line = line ∧
        ((t.core c).icache.look (8 * (line % 128) + w) {}).data = r.data ∧ t.mem = u.mem)

/-- CACHE_PWR (R222), CACHE_WAY_POWERED_OFF (R223), CACHE_WAY_POWERED_ON (R224), IDLE_CORE_WAY_POWERDOWN (R365). -/
def Obligations.CacheWaysPowerDownAndUp : Prop :=
  ∀ (c : Fin 64) (s : State),
    let p := (s.core c).pwr
    let others (t : State) := ∀ d : Nat, d ≠ c.val → t.core d = s.core d
    let bd := s.active.bounds 4 (c.val / 16)
    let bi := s.active.bounds 5 (c.val / 16)
    (∀ (r : Requester) (v : Word), writesBlock r = false → exec (.cachePwr r c v) s = .next s) ∧
    (∀ (r : Requester) (v : Word), writesBlock r = true →
      ∃ t, exec (.cachePwr r c v) s = .next t ∧
        let x := (t.core c).pwr
        x.dcTgt = boundWays bd (v.extractLsb' 16 8 ||| 3) ∧ x.icTgt = boundWays bi (v.extractLsb' 8 8 ||| 3) ∧
        (bd = (2, 8) → x.dcTgt = (v.extractLsb' 16 8 ||| 3)) ∧ (bi = (2, 8) → x.icTgt = (v.extractLsb' 8 8 ||| 3)) ∧ x.dcOn = p.dcOn ∧ x.icOn = p.icOn ∧
        (x.clamped = true ↔ (p.clamped = true ∧ v.getLsbD 0 = false) ∨ v.extractLsb' 16 2 ≠ 3 ∨ v.extractLsb' 8 2 ≠ 3) ∧
        (t.core c) = { s.core c with pwr := x } ∧ others t ∧ t = { s with cores := t.cores }) ∧
    (∀ w : Nat, w < 8 → p.trans = some (false, w, false) →
      ∃ t, exec (.cacheWayPoweredOff c) s = .next t ∧ (t.core c).pwr.icOn = (p.icOn &&& ~~~(1#8 <<< w)) ∧ (t.core c).pwr.dcOn = p.dcOn ∧
        (∀ e ∈ (t.core c).icache, e.1 % 8 ≠ w ∧ e ∈ (s.core c).icache) ∧ (t.core c).dcache = (s.core c).dcache ∧ others t ∧
        t = { s with cores := t.cores }) ∧
    (∀ w : Nat, w < 8 → p.trans = some (true, w, false) →
      ∃ t, exec (.cacheWayPoweredOff c) s = .next t ∧ (t.core c).pwr.dcOn = (p.dcOn &&& ~~~(1#8 <<< w)) ∧
        (∀ e ∈ (t.core c).dcache, e.1 % 8 ≠ w) ∧
        ((∀ e ∈ (s.core c).dcache, e.2.dirty = false) → t.mem = s.mem)) ∧
    (∀ (data : Bool) (w : Nat), w < 8 → p.trans = some (data, w, true) →
      ∃ t, exec (.cacheWayPoweredOn c) s = .next t ∧
        (t.core c).pwr.dcOn = (if data = true then p.dcOn ||| (1#8 <<< w) else p.dcOn) ∧
        (t.core c).pwr.icOn = (if data = true then p.icOn else p.icOn ||| (1#8 <<< w)) ∧
        (t.core c) = { s.core c with pwr := (t.core c).pwr } ∧ others t ∧ t = { s with cores := t.cores }) ∧
    (p.idleCut = false →
      ∃ t, exec (.idleCoreWayPowerdown c) s = .next t ∧ (t.core c).pwr.idleCut = true ∧ (s.core c).seq.lastIssue + 1000000 ≤ t.now ∧
        (t.core c).pwr.dcTgt = boundWays bd (lowWays bd.1 ||| 3) ∧ (t.core c).pwr.icTgt = boundWays bi (lowWays bi.1 ||| 3) ∧
        (t.core c).pwr.dcOn = p.dcOn ∧ (t.core c).pwr.icOn = p.icOn ∧ others t ∧ t.mem = s.mem) ∧
    (p.idleCut = true → exec (.idleCoreWayPowerdown c) s = .next s)

/-- SRAM_READ_REQUEST, SRAM_WRITE_REQUEST (R214 to R216), SRAM_CORRECTION_REWRITE (R215) and SRAM_SCRUB (R217). -/
def Obligations.SramPortsReadAndWriteTheirBytes : Prop :=
  ∀ (c : Fin 64) (s : State),
    (∀ (off : BitVec 25) (d : Bytes), off.toNat % 8 = 0 → d.length = 8 →
      let a := 0x10000000000 + 0x2000000 * c.val + off.toNat
      ∃ t, exec (.sramWriteRequest c .bring off d) s = .next t ∧
        (∀ i : Nat, i < 8 → (t.byte (a + i)) = d.getD i 0) ∧
        (∀ b : Nat, b < a ∨ a + 8 ≤ b → t.byte b = s.byte b) ∧
        t.sramErr.look ((a - 0x10000000000) / 8) {} = {} ∧ t.poison = s.poison) ∧
    (∀ off : BitVec 25, off.toNat % 8 = 0 →
      let a := 0x10000000000 + 0x2000000 * c.val + off.toNat
      s.faults.inj0.armed = false → s.faults.inj1.armed = false → s.sramErr.look ((a - 0x10000000000) / 8) {} = {} →
      s.poisoned (a / 64) = false → s.inRowCache a = false →
      ∃ t, exec (.sramReadRequest c .bring off 8) s = .next t ∧
        (t.core c).store.lastRead = (List.range 8).map (fun i => s.byte (a + i)) ∧ (t.core c).store.lastBad = false ∧
        t.mem = s.mem ∧ ∀ d : Nat, d ≠ c.val → t.core d = s.core d) ∧
    (∀ (w : Nat) (f : WordErr), s.sramFix.find? (fun q => q.1 / 0x400000 == c.val) = some (w, f) →
      ∃ t, exec (.sramCorrectionRewrite c) s = .next t ∧ t.sramErr.look w {} = {} ∧ (∀ q ∈ t.sramFix, q.1 ≠ w) ∧
        (∀ b : Nat, b < 0x10000000000 + 8 * w ∨ 0x10000000000 + 8 * w + 8 ≤ b → t.byte b = s.byte b) ∧
        t = { s with mem := t.mem, sramErr := t.sramErr, sramFix := t.sramFix }) ∧
    ((s.core c).store.scrubEn = true → (s.core c).store.scrubOn = true →
      ∃ t, exec (.sramScrub c) s = .next t ∧ (t.core c).store.scrubPos = ((s.core c).store.scrubPos + 1) % 262144) ∧
    ((s.core c).store.scrubEn = false ∨ (s.core c).store.scrubOn = false → exec (.sramScrub c) s = .next s) ∧
    (∀ (a : SramAgent) (off : BitVec 25) (n : Nat), s.sramMay c (s.sramWho c a) false off.toNat n = false →
      exec (.sramReadRequest c a off n) s = .next (s.sramRefuse c a (s.sramWho c a) off.toNat)) ∧
    (∀ (a : SramAgent) (off : BitVec 25) (d : Bytes), s.sramMay c (s.sramWho c a) true off.toNat d.length = false →
      exec (.sramWriteRequest c a off d) s = .next (s.sramRefuse c a (s.sramWho c a) off.toNat))

/-- FABRIC_PACKET_SEND, FABRIC_PACKET_ARRIVAL (R225 to R228) and D2D_LINK_FAILURE (R227, R388). -/
def Obligations.FabricPacketsFollowFixedRoutes : Prop :=
  ∀ (s : State),
    let f := s.fabric
    (∀ (cls : Fin 5) (src dst : Attach) (bytes resp : Nat), bytes ≠ 0 → classFits cls src dst = true →
      let h := attachHop src
      let out := h.quarter != (attachHop dst).quarter
      let entered (owed : List Owed) : State := { s with fabric := { f with
        packets := f.packets ++ [⟨f.next, cls, src, dst, bytes, h, attachInput src, true, out⟩], next := f.next + 1, owed := owed } }
      f.room h (attachInput src) cls bytes out = true →
      (cls ≠ 2 → cls ≠ 4 → exec (.fabricPacketSend (.new cls src dst bytes resp)) s = .next (entered f.owed)) ∧
      (cls = 4 → exec (.fabricPacketSend (.new cls src dst bytes resp)) s =
        .next (entered (f.owed ++ [{ req := f.next, src := src, dst := dst, bytes := resp }]))) ∧
      (∀ (before : List Owed) (o : Owed) (after : List Owed), cls = 2 → f.owed = before ++ o :: after → (f.owed.map (·.req)).Nodup →
        f.answers src dst bytes = some o →
        exec (.fabricPacketSend (.new cls src dst bytes resp)) s =
          .next (entered (before ++ { o with reply := some f.next } :: after)))) ∧
    (∀ (cls : Fin 5) (src dst : Attach) (bytes resp : Nat),
      bytes = 0 ∨ classFits cls src dst = false ∨
        f.room (attachHop src) (attachInput src) cls bytes ((attachHop src).quarter != (attachHop dst).quarter) = false →
      exec (.fabricPacketSend (.new cls src dst bytes resp)) s = .next s) ∧
    (∀ (id : Nat) (p : FPacket), f.packets.find? (fun p => p.id = id) = some p → p.wire = false → p.inp ≠ 10 →
      f.packets.find? (fun o => o.at_ = p.at_ && o.inp = p.inp && o.cls = p.cls && o.outward = p.outward && !o.wire) = some p →
      let n := nextHop p.at_ p.dst
      n.2 ≠ 10 → f.room n.1 n.2 p.cls p.bytes (yetToCross n.1 p.dst) = true →
      exec (.fabricPacketSend (.held id)) s = .next { s with fabric := { f with
        packets := (f.packets.filter fun o => o.id != id) ++
          [{ p with at_ := n.1, inp := n.2, wire := true, outward := yetToCross n.1 p.dst }] } }) ∧
    (∀ (id : Nat) (p : FPacket), f.packets.find? (fun p => p.id = id) = some p → p.wire = false → p.inp ≠ 10 →
      f.packets.find? (fun o => o.at_ = p.at_ && o.inp = p.inp && o.cls = p.cls && o.outward = p.outward && !o.wire) = some p →
      (nextHop p.at_ p.dst).2 = 10 → f.sinks p = true →
      ∃ t, exec (.fabricPacketSend (.held id)) s = .next t ∧ t = { s with fabric := { f with
          packets := t.fabric.packets, owed := t.fabric.owed } } ∧
        ({ p with at_ := (nextHop p.at_ p.dst).1, inp := 10, wire := true, outward := yetToCross (nextHop p.at_ p.dst).1 p.dst } : FPacket) ∈
          t.fabric.packets ∧ ∀ o ∈ f.owed, o.req ≠ id → o ∈ t.fabric.owed) ∧
    (∀ (h : Hop) (dst : Attach), h.quarter = (attachHop dst).quarter → h ≠ attachHop dst →
      (h.x < (attachHop dst).x → nextHop h dst = ({ h with x := h.x + 1 }, 1)) ∧
      (h.x = (attachHop dst).x → h.y < (attachHop dst).y → nextHop h dst = ({ h with y := h.y + 1 }, 3))) ∧
    (∀ (id : Nat) (p : FPacket), f.packets.find? (fun p => p.id = id && p.wire) = some p →
      f.packets.find? (fun o => o.at_ = p.at_ && o.inp = p.inp && o.cls = p.cls && o.outward = p.outward && o.wire) = some p →
      ∃ t, exec (.fabricPacketArrival id) s = .next t ∧ t = { s with fabric := t.fabric } ∧
        (p.inp = 10 → t.fabric.delivered.look p.cls 0 = f.delivered.look p.cls 0 + 1 ∧ (∀ o ∈ t.fabric.packets, o.id ≠ id) ∧
          ∀ o : Owed, o ∈ t.fabric.owed ↔ o ∈ f.owed ∧ o.reply ≠ some id) ∧
        (p.inp ≠ 10 → ({ p with wire := false } : FPacket) ∈ t.fabric.packets ∧ t.fabric.delivered = f.delivered)) ∧
    (∀ d : Fin 10, ∃ t, exec (.d2dLinkFailure d) s = .next t ∧
      (∃ dry, t.faults.flight =
        s.faults.flight ++ [{ src := 124 + d.val, sev := 4, cause := 0x0E, ctx := none, part := none, dry := dry }]) ∧
      t = { s with faults := t.faults })

/-- HBM_READ_REQUEST, HBM_WRITE_REQUEST (R273, R274), HBM_ACCESS (R270) and HBM_RESPONSE (R276, R277). -/
def Obligations.HbmRequestsQueueAndAreServed : Prop :=
  ∀ (s : State),
    (∀ (r : HbmReq) (write : Bool), r.agent = .bar2 → 0 < r.len → r.addr.toNat % 64 + r.len ≤ 64 →
      let a := r.addr.toNat
      let pl := s.place a
      let x := s.pchan pl.2.1
      let q := pl.1 / 3
      zone a r.len = .hbm → s.gate (s.agentWho .bar2 none r.slot) a r.len write = .ok → s.isClearing a = false →
      (s.tag q).wait = [] → tagFree (s.tag q) q .bar2 1 = true → x.writes.length < 64 →
      ∃ t e, exec (if write = true then .hbmWriteRequest r else .hbmReadRequest r) s = .next t ∧
        e.req.addr = r.addr ∧ e.req.len = r.len ∧ e.write = write ∧ e.req.data = r.data.take r.len ∧ e.cls = 1 ∧ e.ctx = none ∧
        (t.pchan pl.2.1).writes = (if write = true then x.writes ++ [e] else x.writes) ∧
        (t.pchan pl.2.1).reads = (if write = true then x.reads else x.reads ++ [e]) ∧
        (t.tag q).used = (s.tag q).used ++ [(.bar2, 1)] ∧ (t.tag q).wait = [] ∧
        (∀ j : Nat, j ≠ pl.2.1 → t.pchan j = s.pchan j) ∧ t = { s with pchans := t.pchans, tags := t.tags }) ∧
    (∀ (r : HbmReq) (write : Bool), zone r.addr.toNat r.len = .hbm →
      s.gate (s.agentWho r.agent (s.agentCtx r.agent) r.slot) r.addr.toNat r.len write = .ok →
      let q := (s.place r.addr.toNat).1 / 3
      (s.tag q).wait = [] → tagFree (s.tag q) q r.agent (s.agentClass q r.agent) = false ∨ s.isClearing r.addr.toNat = true →
      ∃ t, exec (if write = true then .hbmWriteRequest r else .hbmReadRequest r) s = .next t ∧ (t.tag q).wait = [(r, write)] ∧
        (t.tag q).used = (s.tag q).used ∧ t = { s with tags := t.tags }) ∧
    (∀ (pc : Fin 768) (r : HReq) (x : PChan), s.hbmNext pc = (some r, x) →
      let sent : PChan := { x with refBank := none, retry := none, parErr := false }
      let u := s.setPchan pc ({ sent with writes := x.writes.filter fun o => o.seq != r.seq }).drained
      let v := u.wrGran (s.agentWho r.req.agent r.ctx r.req.slot) r.req.addr.toNat r.req.data false
      (r.write = false → ∃ t, exec (.hbmAccess ⟨pc, false⟩) s = .next t ∧
        t.pchan pc = ({ sent with reads := x.reads.filter (fun o => o.seq != r.seq), served := x.served ++ [r] }).drained ∧
        (∀ j : Nat, j ≠ pc.val → t.pchan j = s.pchan j) ∧ t = { s with pchans := t.pchans }) ∧
      (r.write = true → (s.tag (pc.val / 192)).wait = [] → ∃ t, exec (.hbmAccess ⟨pc, false⟩) s = .next t ∧ t.mem = v.mem ∧
        t.pchans = v.pchans ∧
        (((v.pchan pc).reads ++ (v.pchan pc).writes ++ (v.pchan pc).served).any (fun o => o.id == r.id) = true →
          ∀ q : Nat, t.tag q = v.tag q) ∧ t = { v with tags := t.tags }) ∧
      (x.parErr = false → ∃ t, exec (.hbmAccess ⟨pc, true⟩) s = .next t ∧
        t.pchan pc = { x with refBank := none, parErr := true, retry := some r } ∧
        (t.ctl (pc.val / 64)).parRetry = (s.ctl (pc.val / 64)).parRetry + 1 ∧ t = { s with pchans := t.pchans, hbm := t.hbm }) ∧
      (x.parErr = true → ∃ t, exec (.hbmAccess ⟨pc, true⟩) s = .next t ∧
        t.faults.flight.map (fun a => (a.src, a.sev, a.cause)) =
          s.faults.flight.map (fun a => (a.src, a.sev, a.cause)) ++ [(76 + pc.val / 64, 4, 0x0F)])) ∧
    (∀ (pc : Fin 768) (x : PChan), s.hbmNext pc = (none, x) → ∀ par : Bool,
      exec (.hbmAccess ⟨pc, par⟩) s = .next (s.setPchan pc { x.drained with refBank := none })) ∧
    (∀ (pc : Fin 768) (k : Nat) (r : HReq), (s.pchan pc).served[k]? = some r →
      let u := s.onPchan pc fun x => { x with served := x.served.filter fun o => o.seq != r.seq }
      let d := u.rdGran (u.agentWho r.req.agent r.ctx r.req.slot) r.req.addr.toNat r.req.len
      ∃ t, exec (.hbmResponse pc k) s = .next t ∧ (t.pchan pc).lastData = d.2.data ∧ (t.pchan pc).lastBad = d.2.bad.isSome ∧
        (t.pchan pc).served = (s.pchan pc).served.filter (fun o => o.seq != r.seq) ∧ t.mem = d.1.mem)

/-- HBM_REWRITE (R278), HBM_SCRUB_STEP (R280), REFRESH, STACK_TEMP_READ (Table 11.10), REGION_CLEAR_DONE (R268), HBM_WINDOW_BOUNDARY (R270) and HBM_WEIGHTS (R271, R272). -/
def Obligations.HbmMaintenanceCommands : Prop :=
  ∀ (s : State),
    (∀ (pc : Fin 768) (g : Nat) (rest : List Nat) (j : Nat) (v : Byte), (s.pchan pc).fixQ = g :: rest →
      (s.codeword g (s.hbmErr.look g [])).ecc = .single j v → (∀ o ∈ (s.pchan pc).writes, o.req.addr.toNat / 64 ≠ g) →
      ∃ t, exec (.hbmRewrite pc) s = .next t ∧ (t.pchan pc).fixQ = rest ∧ t.hbmErr.look g [] = [] ∧
        (∀ b : Nat, b < 64 * g ∨ 64 * g + 64 ≤ b → t.byte b = s.byte b) ∧ (∀ k : Nat, k ≠ pc.val → t.pchan k = s.pchan k) ∧
        t = { s with mem := t.mem, hbmErr := t.hbmErr, poison := t.poison, written := t.written, pchans := t.pchans }) ∧
    (∀ (pc : Fin 768) (g : Nat) (rest : List Nat), (s.pchan pc).fixQ = g :: rest → (∃ o ∈ (s.pchan pc).writes, o.req.addr.toNat / 64 = g) →
      exec (.hbmRewrite pc) s = .next (s.setPchan pc { s.pchan pc with fixQ := rest })) ∧
    (∀ st : Fin 12, (s.ctl st).scrubEn = true → (s.ctl st).scrubOn = true →
      ∃ t, exec (.hbmScrubStep st) s = .next t ∧ (t.ctl st).scrubPos = ((s.ctl st).scrubPos + 1) % 2 ^ 24) ∧
    (∀ st : Fin 12, (s.ctl st).scrubEn = false ∨ (s.ctl st).scrubOn = false → exec (.hbmScrubStep st) s = .next s) ∧
    (∀ (pc : Fin 768) (sid : Fin 4) (b : Fin 16), ∃ t, exec (.refresh ⟨pc, false⟩ ⟨sid, b⟩) s = .next t ∧
      t.pchan pc = { s.pchan pc with refDone := (s.pchan pc).refDone + 1, refBank := some (sid.val, b.val), parErr := false } ∧
      (∀ k : Nat, k ≠ pc.val → t.pchan k = s.pchan k) ∧ t = { s with pchans := t.pchans }) ∧
    (∀ (pc : Fin 768) (b : HbmBank), (s.pchan pc).parErr = false → ∃ t, exec (.refresh ⟨pc, true⟩ b) s = .next t ∧
      t.pchan pc = { s.pchan pc with parErr := true } ∧ (t.ctl (pc.val / 64)).parRetry = (s.ctl (pc.val / 64)).parRetry + 1 ∧
      t = { s with pchans := t.pchans, hbm := t.hbm }) ∧
    (∀ (st : Fin 12) (x : Byte), ∃ t, exec (.stackTempRead st x) s = .next t ∧ (t.ctl st).temp = x ∧
      ((t.ctl st).doubled = true ↔ 85 < x.toNat) ∧ (∀ k : Nat, k ≠ st.val → t.ctl k = s.ctl k) ∧ t = { s with hbm := t.hbm }) ∧
    (∀ base : BitVec 48, ∃ t, exec (.regionClearDone base) s = .next t ∧ base.toNat ∉ t.clearing ∧
      (∀ a : Nat, a ≠ base.toNat → (a ∈ t.clearing ↔ a ∈ s.clearing)) ∧
      ((∀ q : Nat, q < 4 → (s.tag q).wait = []) →
        (∀ q : Nat, t.tag q = s.tag q) ∧ t = { s with clearing := t.clearing, tags := t.tags })) ∧
    (∀ (r : Requester) (st : Fin 12) (v : Word), writesBlock r = false → exec (.hbmWeights r st v) s = .next s) ∧
    (∀ (r : Requester) (st : Fin 12) (v : Word), writesBlock r = true →
      let b := s.weightBounds (st.val / 3)
      let put (lo hi k : Nat) := min (max ((v.extractLsb' k 8).toNat) lo) hi
      let moved (lo hi k : Nat) := if put lo hi k = (v.extractLsb' k 8).toNat then 0 else 1
      ∃ t, exec (.hbmWeights r st v) s = .next t ∧ (t.ctl st).w = (s.ctl st).w ∧
        (t.ctl st).wNext = some ⟨put b.1.urg b.2.urg 0, put b.1.normal b.2.normal 8, put b.1.bulk b.2.bulk 16, put b.1.back b.2.back 24⟩ ∧
        (t.ctl st).wClamps = (s.ctl st).wClamps + BitVec.ofNat 32 (moved b.1.urg b.2.urg 0 + moved b.1.normal b.2.normal 8 +
          moved b.1.bulk b.2.bulk 16 + moved b.1.back b.2.back 24) ∧
        (∀ k : Nat, k ≠ st.val → t.ctl k = s.ctl k) ∧ t = { s with hbm := t.hbm }) ∧
    (∀ st : Fin 12, ∃ t, exec (.hbmWindowBoundary st) s = .next t ∧
      (t.ctl st).w = ((s.ctl st).wNext.getD (s.ctl st).w) ∧ (t.ctl st).wNext = none ∧ (t.ctl st).urgUse.toNat ≤ 1000 ∧
      (∀ k : Nat, k < 64 → (t.pchan (64 * st.val + k)).usedUrg = 0) ∧
      (∀ k : Nat, k < 64 → min (s.pchan (64 * st.val + k)).usedUrg 1000 ≤ (t.ctl st).urgUse.toNat) ∧
      t.cellar.count % 1000 = 0 ∧ s.cellar.count ≤ t.cellar.count ∧ t.cellar.count < s.cellar.count + 1000 ∧
      (∀ k : Nat, k ≠ st.val → t.ctl k = s.ctl k) ∧ t.mem = s.mem)

/-- POWER_LOOP_SAMPLE, QPWR_CAP (R363, R364), SAFETY_HOLD_EXPIRY (R366), AVS_RESPONSE, AVS_FRAME_FAILURE and CLOCK_RAISE_DELAY (R414). -/
def Obligations.PowerLoopStepsWithinItsBounds : Prop :=
  ∀ (q : Fin 4) (s : State),
    let p := s.pwr q
    let others (t : State) := ∀ k : Nat, k ≠ q.val → t.pwr k = s.pwr k
    (∀ (r : Requester) (v : Word), writesBlock r = false → exec (.qpwrCap r q v) s = .next s) ∧
    (∀ (r : Requester) (v : Word), writesBlock r = true →
      let b := s.active.bounds 1 q
      let c := min (max ((v.extractLsb' 0 16).toNat) b.1) b.2
      ∃ t, exec (.qpwrCap r q v) s = .next t ∧ (t.pwr q).cap = BitVec.ofNat 16 c ∧
        (t.pwr q).clamps = p.clamps + (if c = (v.extractLsb' 0 16).toNat then 0 else 1) ∧
        t.pwr q = { p with cap := (t.pwr q).cap, clamps := (t.pwr q).clamps } ∧ others t ∧ t = { s with power := t.power }) ∧
    (∀ power junction : Nat, s.hubUp = true → p.halted = false → junction < 824 →
      let mean := ((power :: p.samples).take 10).sum / max 1 ((power :: p.samples).take 10).length
      10 * p.cap.toNat < mean →
      ∃ t, exec (.powerLoopSample q power junction false) s = .next t ∧ (t.pwr q).now = BitVec.ofNat 16 mean ∧ others t ∧
        ((s.active.bounds 0 q).1 < p.mhz → (t.pwr q).mhz = p.mhz - 25 ∧
          (t.pwr q).target = some (Config.voltageTable (p.mhz - 25), false) ∧ (t.pwr q).clamps = p.clamps) ∧
        (p.mhz ≤ (s.active.bounds 0 q).1 → (t.pwr q).mhz = p.mhz ∧ (t.pwr q).clamps = p.clamps + 1) ∧ t = { s with power := t.power }) ∧
    (∀ (power junction : Nat) (oc : Bool), s.hubUp = true → p.halted = false → 824 ≤ junction ∨ oc = true →
      ∃ t, exec (.powerLoopSample q power junction oc) s = .next t ∧ (t.pwr q).held = true ∧ (t.pwr q).above = true ∧
        (824 ≤ junction → (t.pwr q).safety.getLsbD 0 = true) ∧ (oc = true → (t.pwr q).safety.getLsbD 1 = true) ∧
        (500 < p.mhz → (t.pwr q).mhz = p.mhz - 25) ∧ (p.mhz ≤ 500 → (t.pwr q).mhz = p.mhz) ∧ others t) ∧
    (∀ mv : Nat, s.hubUp = true → ∃ t, exec (.avsResponse q mv) s = .next t ∧ (t.pwr q).mv = mv ∧ (t.pwr q).target = none ∧
      (t.pwr q).tries = 0 ∧ (t.pwr q).mhz = p.mhz ∧ (∀ x, p.target = some (x, true) → (t.pwr q).raise = some (s.now + 6000)) ∧
      others t ∧ t = { s with power := t.power }) ∧
    (s.hubUp = true → p.tries < 3 → ∃ t, exec (.avsFrameFailure q) s = .next t ∧ t.pwr q = { p with tries := p.tries + 1 } ∧ others t ∧
      t = { s with power := t.power }) ∧
    (s.hubUp = true → 3 ≤ p.tries → ∃ t, exec (.avsFrameFailure q) s = .next t ∧ (t.pwr q).tries = 0 ∧
      (t.pwr q).target = none ∧ (t.pwr q).mhz = p.mhz ∧
      t.faults.flight.map (fun a => (a.src, a.sev, a.cause, a.ctx)) =
        s.faults.flight.map (fun a => (a.src, a.sev, a.cause, a.ctx)) ++ [(120 + q.val, 4, 0x11, none)] ∧ others t) ∧
    (s.hubUp = false → exec (.avsFrameFailure q) s = .next s ∧ (∀ mv : Nat, exec (.avsResponse q mv) s = .next s) ∧
      ∀ (power junction : Nat) (oc : Bool), exec (.powerLoopSample q power junction oc) s = .next s) ∧
    (p.raise = none → exec (.clockRaiseDelay q) s = .next s) ∧
    (p.held = false ∨ p.above = true → exec (.safetyHoldExpiry q) s = .next s) ∧
    (∀ at_ : Nat, p.raise = some at_ → ∃ t, exec (.clockRaiseDelay q) s = .next t ∧ at_ ≤ t.now ∧ (t.pwr q).raise = none ∧
      (p.mhz + 25 ≤ (s.active.bounds 0 q).2 → p.held = false → p.halted = false → (t.pwr q).mhz = p.mhz + 25 ∧ (t.pwr q).sinceUp = 0) ∧
      ((s.active.bounds 0 q).2 < p.mhz + 25 ∨ p.held = true ∨ p.halted = true → (t.pwr q).mhz = p.mhz)) ∧
    (p.held = true → p.above = false → ∃ t, exec (.safetyHoldExpiry q) s = .next t ∧ (t.pwr q).held = false ∧ p.holdAt + 1000000 ≤ t.now ∧
      (t.pwr q).mhz = p.mhz ∧ t.mem = s.mem)

/-- The integer and logic rows of Table 6.4 (R147 to R151). -/
def Obligations.IntegerOpWordsComputeEveryActiveElement : Prop :=
  ∀ (c : Fin 64) (s : State),
    let v := (s.core c).vec
    let a (o : OpW) (i : Nat) : BitVec 128 := v.el o.va o.fa i
    let b (o : OpW) (i : Nat) : BitVec 128 := o.bAt v i
    let w (o : OpW) : Nat := fmtBits o.fa
    let sh (o : OpW) (i : Nat) : Nat := (b o i).toNat % w o
    let gives (x : Instr) (k : Nat) (p : VOp) (f : OpW → Nat → BitVec 128) : Prop := s.VecGives c x k p (fun o => o.vl) fun o i => (f o i, 0)
    gives (.iadd c) 0x20 vIadd (fun o i => a o i + b o i) ∧
    gives (.isub c) 0x21 vIsub (fun o i => a o i - b o i) ∧
    gives (.imul c) 0x22 vImul (fun o i => a o i * b o i) ∧
    gives (.imin c) 0x23 vImin (fun o i => if sInt o.fa (a o i) ≤ sInt o.fa (b o i) then a o i else b o i) ∧
    gives (.imax c) 0x24 vImax (fun o i => if sInt o.fa (a o i) ≤ sInt o.fa (b o i) then b o i else a o i) ∧
    gives (.iminu c) 0x25 vIminu (fun o i => if (a o i).toNat ≤ (b o i).toNat then a o i else b o i) ∧
    gives (.imaxu c) 0x26 vImaxu (fun o i => if (a o i).toNat ≤ (b o i).toNat then b o i else a o i) ∧
    gives (.and c) 0x27 vAnd (fun o i => a o i &&& b o i) ∧
    gives (.or c) 0x28 vOr (fun o i => a o i ||| b o i) ∧
    gives (.xor c) 0x29 vXor (fun o i => a o i ^^^ b o i) ∧
    gives (.shl c) 0x2A vShl (fun o i => a o i <<< sh o i) ∧
    gives (.shr c) 0x2B vShr (fun o i => a o i >>> sh o i) ∧
    gives (.sra c) 0x2C vSra (fun o i => (((a o i).setWidth (w o)).sshiftRight (sh o i)).setWidth 128) ∧
    gives (.popc c) 0x2E vPopc (fun o i => BitVec.ofNat 128 ((List.range (w o)).filter fun k => (a o i).getLsbD k).length) ∧
    gives (.vset c) 0x31 vVset (fun o _ => o.sa.setWidth 128) ∧
    gives (.iota c) 0x32 vIota (fun _ i => BitVec.ofNat 128 i) ∧
    gives (.vmov c) 0x33 vVmov a ∧
    gives (.iwmul c) 0x34 vIwmul (fun o i => BitVec.ofInt 128 (sInt o.fa (a o i) * sInt o.fa (b o i))) ∧
    s.VecGives c (.idot4 c) 0x2F vIdot4 (fun o => o.vl / 4) (fun o j =>
      let p (k : Nat) : Int := sInt o.fa (a o (4 * j + k)) * sInt o.fa (b o (4 * j + k))
      (BitVec.ofInt 128 ((v.el o.vc o.fd j).toNat + p 0 + p 1 + p 2 + p 3), 0)) ∧
    s.VecGives c (.xadd c) 0x30 vXadd (fun o => o.vl) fun o i => xaAdd (a o i) (b o i)

/-- The floating-point and MX rows of Table 6.4 (R148 to R153, R164). -/
def Obligations.FloatingPointOpWordsRoundOnce : Prop :=
  ∀ (c : Fin 64) (s : State),
    let v := (s.core c).vec
    let a (o : OpW) (i : Nat) : Val := valOf o.fa (v.el o.va o.fa i)
    let b (o : OpW) (i : Nat) : Val := valOf o.fa (o.bAt v i)
    let d (o : OpW) (i : Nat) : Val := valOf o.fd (v.el o.vc o.fd i)
    let fin (o : OpW) (r : Val × Flags) : BitVec 128 × Flags :=
      let x := convert o.fd o.rm o.sat r.1
      (x.1, r.2 ||| x.2)
    let sticky (o : OpW) (r : Val × Bool × Flags) : BitVec 128 × Flags :=
      let x := convert o.fd o.rm o.sat r.1 r.2.1
      (x.1, r.2.2 ||| x.2)
    let sign (o : OpW) (i : Nat) (x : BitVec 128) : BitVec 128 × Flags :=
      if (a o i).isNan then ((convert o.fa 0 false (.nan false)).1, flagIf (a o i).isSig fInvalid) else (x, 0)
    let gives (x : Instr) (k : Nat) (p : VOp) (f : OpW → Nat → BitVec 128 × Flags) : Prop := s.VecGives c x k p (fun o => o.vl) f
    gives (.fadd c) 0x00 vFadd (fun o i => fin o ((a o i).add o.rm (b o i))) ∧
    gives (.fsub c) 0x01 vFsub (fun o i => fin o ((a o i).add o.rm (b o i).neg)) ∧
    gives (.fmul c) 0x02 vFmul (fun o i => fin o ((a o i).mul (b o i))) ∧
    gives (.fma c) 0x03 vFma (fun o i => fin o ((a o i).fma o.rm (b o i) (d o i))) ∧
    gives (.fnma c) 0x04 vFnma (fun o i => fin o ((a o i).neg.fma o.rm (b o i) (d o i))) ∧
    gives (.fmin c) 0x05 vFmin (fun o i => fMinMax false o.fa (v.el o.va o.fa i) (o.bAt v i)) ∧
    gives (.fmax c) 0x06 vFmax (fun o i => fMinMax true o.fa (v.el o.va o.fa i) (o.bAt v i)) ∧
    gives (.fneg c) 0x07 vFneg (fun o i => sign o i (v.el o.va o.fa i ^^^ BitVec.twoPow 128 (fmtBits o.fa - 1))) ∧
    gives (.fabs c) 0x08 vFabs (fun o i => sign o i (v.el o.va o.fa i &&& ~~~ BitVec.twoPow 128 (fmtBits o.fa - 1))) ∧
    gives (.cvt c) 0x0A vCvt (fun o i => fin o (a o i, 0)) ∧
    gives (.fdiv c) 0x0B vFdiv (fun o i => sticky o ((a o i).div (b o i))) ∧
    gives (.fsqrt c) 0x0C vFsqrt (fun o i => sticky o (a o i).sqrt) ∧
    gives (.rcp c) 0x0D vRcp (fun o i => fin o (refEval .rcp (a o i))) ∧
    gives (.rsqrt c) 0x0E vRsqrt (fun o i => fin o (refEval .rsqrt (a o i))) ∧
    gives (.exp2 c) 0x0F vExp2 (fun o i => fin o (refEval .exp2 (a o i))) ∧
    gives (.log2 c) 0x10 vLog2 (fun o i => fin o (refEval .log2 (a o i))) ∧
    gives (.wmul c) 0x11 vWmul (fun o i => fin o ((a o i).mul (b o i))) ∧
    gives (.wfma c) 0x12 vWfma (fun o i => fin o ((a o i).fma o.rm (b o i) (d o i))) ∧
    s.VecGives c (.xdot c) 0x13 vXdot (fun o => o.vl / o.sa.toNat) (fun o j =>
      (List.range o.sa.toNat).foldl (fun r k =>
        let p := (a o (j * o.sa.toNat + k)).mul (b o (j * o.sa.toNat + k))
        let t := xaTerm p.1
        let y := xaAdd r.1 t.1
        (y.1, r.2 ||| p.2 ||| t.2 ||| y.2)) (v.el o.vc 13 j, 0)) ∧
    (∀ o : OpW, s.VecRuns c 0x14 vMxscale o → ∃ t, exec (.mxscale c) s = .next t ∧ VecOnly s t c o ∧
      let block (k : Nat) : List Val := (List.range (min 32 (o.vl - 32 * k))).map fun j => a o (32 * k + j)
      VecElems v (t.core c).vec o o.vd 8 (cdiv o.vl 32) (fun k => BitVec.ofNat 128 (mxScale o.fd (block k))) ∧
      (t.core c).vec.flags = flagsOf o v (cdiv o.vl 32) (fun k => flagIf ((block k).any Val.isSig) fInvalid) ∧
      (t.core c).vec.vres = v.vres) ∧
    gives (.mxquant c) 0x15 vMxquant (fun o i =>
      let x := (v.el o.vb 8 (i / 32)).toNat
      fin o (if x = 0xFF then .nan (a o i).isSig else (a o i).scale (127 - (x : Int) + (if o.fd = 8 then 6 else 0)), 0))

/-- The comparison and mask rows of Table 6.4 (R148 to R150). -/
def Obligations.CompareAndMaskOpWordsWriteMaskBits : Prop :=
  ∀ (c : Fin 64) (s : State),
    let v := (s.core c).vec
    let x (o : OpW) (i : Nat) : Bool := v.mbit o.va i
    let y (o : OpW) (i : Nat) : Bool := v.mbit o.vb i
    let bits (z : Instr) (k : Nat) (p : VOp) (f : OpW → Nat → Bool) : Prop := s.MaskGives c z k p fun o i => (f o i, 0)
    s.MaskGives c (.fcmp c) 0x09 vFcmp (fun o i => fcmpCond o.vc (valOf o.fa (v.el o.va o.fa i)) (valOf o.fa (o.bAt v i))) ∧
    bits (.icmp c) 0x2D vIcmp (fun o i =>
      let a := v.el o.va o.fa i
      let b := o.bAt v i
      (o.vc = 0 && a == b) || (o.vc = 1 && a != b) || (o.vc = 2 && decide (sInt o.fa a < sInt o.fa b)) ||
        (o.vc = 3 && decide (sInt o.fa a ≤ sInt o.fa b)) || (o.vc = 4 && a.ult b) || (o.vc = 5 && a.ule b)) ∧
    bits (.mand c) 0x50 vMand (fun o i => x o i && y o i) ∧
    bits (.mor c) 0x51 vMor (fun o i => x o i || y o i) ∧
    bits (.mxor c) 0x52 vMxor (fun o i => xor (x o i) (y o i)) ∧
    bits (.mandn c) 0x53 vMandn (fun o i => x o i && !y o i) ∧
    bits (.mnot c) 0x54 vMnot (fun o i => !x o i) ∧
    bits (.mset c) 0x55 vMset (fun _ _ => true) ∧
    s.ScalarGives c (.mpopc c) 0x56 vMpopc (fun o => ((List.range o.vl).filter fun i => x o i).length) ∧
    s.ScalarGives c (.mfirst c) 0x57 vMfirst (fun o => ((List.range o.vl).find? fun i => x o i).getD (2 ^ 64 - 1))

/-- The permutation rows of Table 6.4 (R148, R154). A TRANSPOSE whose column count does not divide VL writes free values (log entry 11). -/
def Obligations.PermutationOpWordsMoveElements : Prop :=
  ∀ (c : Fin 64) (s : State),
    let v := (s.core c).vec
    let a (o : OpW) (i : Nat) : BitVec 128 := v.el o.va o.fa i
    let gives (x : Instr) (k : Nat) (p : VOp) (f : OpW → Nat → BitVec 128) : Prop := s.VecGives c x k p (fun o => o.vl) fun o i => (f o i, 0)
    (∀ o : OpW, s.VecRuns c 0x40 vCompress o → ∃ t, exec (.compress c) s = .next t ∧ VecOnly s t c o ∧ t.parts = s.parts ∧
      let w := (t.core c).vec
      let sel := (List.range o.vl).filter fun i => v.mbit o.mreg i
      (∀ j : Nat, j < o.vl → w.el o.vd o.fd j =
        if j < sel.length then a o (sel.getD j 0) else if o.mzero then 0 else v.el o.vd o.fd j) ∧
      RegsBut v w o.vd o.fd o.vl ∧ w.masks = v.masks ∧ w.flags = v.flags ∧ w.vres = BitVec.ofNat 64 sel.length) ∧
    gives (.expand c) 0x41 vExpand (fun o i => a o ((List.range i).filter fun j => v.mbit o.mreg j).length) ∧
    gives (.vperm c) 0x42 vVperm (fun o i =>
      let k := if o.scal then o.sb.toNat % 2 ^ (8 * container o.fa) else v.raw o.vb o.fa i
      if k < o.vl then a o k else 0) ∧
    (∀ o : OpW, s.VecRuns c 0x43 vSlideup o → ∃ t, exec (.slideup c) s = .next t ∧ VecOnly s t c o ∧ t.parts = s.parts ∧
      let w := (t.core c).vec
      (∀ i : Nat, i < o.vl → w.el o.vd o.fd i =
        if i < o.sa.toNat then v.el o.vd o.fd i
        else if o.active v i then a o (i - o.sa.toNat) else if o.mzero then 0 else v.el o.vd o.fd i) ∧
      RegsBut v w o.vd o.fd o.vl ∧ w.masks = v.masks ∧ w.flags = v.flags ∧ w.vres = v.vres) ∧
    gives (.slidedn c) 0x44 vSlidedn (fun o i => if i + o.sa.toNat < o.vl then a o (i + o.sa.toNat) else 0) ∧
    (∀ o : OpW, s.VecRuns c 0x45 vTranspose o → ∃ t, exec (.transpose c) s = .next t ∧
      let w := (t.core c).vec
      (o.cols ≠ 0 → o.cols ∣ o.vl → VecOnly s t c o ∧ t.parts = s.parts ∧ w.flags = v.flags ∧ w.vres = v.vres ∧
        VecElems v w o o.vd o.fd o.vl fun i => a o (i % (o.vl / o.cols) * o.cols + i / (o.vl / o.cols))) ∧
      (o.cols = 0 ∨ ¬ o.cols ∣ o.vl → VecOnly { s with free := t.free } t c o ∧ RegsBut v w o.vd o.fd o.vl ∧ w.masks = v.masks ∧
        w.flags = v.flags ∧ w.vres = v.vres)) ∧
    s.ScalarGives c (.extract c) 0x46 vExtract (fun o =>
      if o.sa.toNat < o.vl then
        (if o.fa = 13 ∧ o.sb.getLsbD 0 = true then (a o o.sa.toNat).toNat / 2 ^ 64 else (a o o.sa.toNat).toNat)
      else 0) ∧
    (∀ o : OpW, s.VecRuns c 0x47 vInsert o → ∃ t, exec (.insert c) s = .next t ∧ VecOnly s t c o ∧ t.parts = s.parts ∧
      let w := (t.core c).vec
      let i := o.sb.toNat
      (i < o.vl → w.el o.vd o.fd i =
          (if o.active v i then BitVec.ofNat 128 (o.sa.toNat % 2 ^ fmtBits o.fd) else if o.mzero then 0 else v.el o.vd o.fd i) ∧
        ∀ b : Nat, b < 8192 * o.vd + i * container o.fd ∨ 8192 * o.vd + (i + 1) * container o.fd ≤ b →
          w.regs.look b 0 = v.regs.look b 0) ∧
      (o.vl ≤ i ∨ (o.active v i = false ∧ o.mzero = false) → w.regs = v.regs) ∧
      w.masks = v.masks ∧ w.flags = v.flags ∧ w.vres = v.vres)

/-- The reductions of Table 6.4 (R152). -/
def Obligations.ReductionsCombineInAFixedPairTree : Prop :=
  ∀ (c : Fin 64) (s : State),
    let v := (s.core c).vec
    let gives (x : Instr) (k : Nat) (p : VOp) (scalar : Bool) (leaf : OpW → BitVec 128 → BitVec 128 × Flags)
        (f : OpW → BitVec 128 → BitVec 128 → BitVec 128 × Flags) (ident : OpW → BitVec 128) : Prop :=
      ∀ o : OpW, s.VecRuns c k p o → ∃ t, exec x s = .next t ∧ VecOnly s t c o ∧
        let w := (t.core c).vec
        let leaves : List (Option (BitVec 128 × Flags)) :=
          (List.range o.vl).map fun i => if o.active v i then some (leaf o (v.el o.va o.fa i)) else none
        let r := (pairTree (fun (a b : BitVec 128 × Flags) => ((f o a.1 b.1).1, a.2 ||| b.2 ||| (f o a.1 b.1).2)) 14 leaves).getD (ident o, 0)
        w.masks = v.masks ∧
        (o.vl = 0 → w.regs = v.regs ∧ w.flags = v.flags ∧ w.vres = if scalar then (ident o).setWidth 64 else v.vres) ∧
        (0 < o.vl → w.el o.vd o.fd 0 = BitVec.ofNat 128 (r.1.toNat % 2 ^ fmtBits o.fd) ∧ RegsBut v w o.vd o.fd 1 ∧
          w.flags = v.flags ||| r.2 ∧ w.vres = if scalar then r.1.setWidth 64 else v.vres)
    let fp (o : OpW) (x : BitVec 128) : BitVec 128 × Flags :=
      if (valOf o.fa x).isNan then ((convert o.fa 0 false (.nan false)).1, flagIf (valOf o.fa x).isSig fInvalid) else (x, 0)
    gives (.fredsum c) 0x48 vFredsum true fp
      (fun o a b =>
        let e := (valOf o.fa a).add o.rm (valOf o.fa b)
        let x := convert o.fd o.rm o.sat e.1
        (x.1, e.2 ||| x.2)) (fun _ => 0) ∧
    gives (.fredmin c) 0x49 vFredmin true fp (fun o a b => fMinMax false o.fa a b)
      (fun o => (convert o.fa 0 false (.inf false)).1) ∧
    gives (.fredmax c) 0x4A vFredmax true fp (fun o a b => fMinMax true o.fa a b)
      (fun o => (convert o.fa 0 false (.inf true)).1) ∧
    gives (.iredsum c) 0x4B vIredsum true (fun o x => (BitVec.ofNat 128 (BitVec.ofInt (fmtBits o.fd) (sInt o.fa x)).toNat, 0))
      (fun o a b => (BitVec.ofNat 128 ((a.toNat + b.toNat) % 2 ^ fmtBits o.fd), 0)) (fun _ => 0) ∧
    gives (.xredsum c) 0x4C vXredsum false (fun _ x => (x, 0)) (fun _ a b => xaAdd a b) (fun _ => 0)

/-- VLD, VGATHER, GLD, VLDSEG and TLD (R156, R157, R160 to R162). -/
def Obligations.VectorLoadsFillActiveElements : Prop :=
  ∀ (c : Fin 64) (s : State),
    let v := (s.core c).vec
    let dflt (o : OpW) (x y : Bool) (val old : BitVec 128) : BitVec 128 :=
      if x then BitVec.ofNat 128 (val.toNat % 2 ^ fmtBits o.fd) else if y then 0 else old
    -- an op word of this opcode whose accesses pass the checks and read
    let reads (k : Nat) (p : VOp) (n : OpW → Nat) (l : OpW → List (Nat × Nat × Nat)) (o : OpW) (u : State) (ds : List (MAcc × Bytes)) : Prop :=
      s.VecRuns c k p o ∧ ∃ ms q, s.vecCheck c o [.rd] (n o) (l o) = (q, .inl ms) ∧ q.vecRead c o (n o) ms = (u, .inl ds)
    let filled (o : OpW) (vl : Nat) (ds : List (MAcc × Bytes)) (w : Vec) : Prop :=
      (∀ d ∈ ds, ∀ j : Nat, j < groupLen o.fd → d.1.i * groupLen o.fd + j < vl →
        let i := d.1.i * groupLen o.fd + j
        w.el o.vd o.fd i = dflt o (o.active v i) o.mzero (unpackAt o.fd d.2 j) (v.el o.vd o.fd i)) ∧
      (∀ i : Nat, i < vl → o.active v i = false → w.el o.vd o.fd i = if o.mzero then 0 else v.el o.vd o.fd i) ∧
      RegsBut v w o.vd o.fd vl ∧ w.masks = v.masks ∧ w.flags = v.flags ∧ w.vres = v.vres
    (∀ o u ds, reads 0x60 vVld (fun o => groupBytes o.fa)
        (fun o => o.groupAccs v o.fa o.vl fun g => vaOf o.sa (g * o.stride (groupBytes o.fa))) o u ds →
      ∃ t, exec (.vld c) s = .next t ∧ VecOnly u t c o ∧ filled o o.vl ds (t.core c).vec) ∧
    (∀ o u ds, reads 0x62 vVgather (fun o => groupBytes o.fd)
        (fun o => o.groupAccs v o.fd o.vl fun g => vaOf o.sa (sInt o.fa (v.el o.va o.fa g) * o.sb.toInt)) o u ds →
      ∃ t, exec (.vgather c) s = .next t ∧ VecOnly u t c o ∧ filled o o.vl ds (t.core c).vec) ∧
    (∀ o u ds, reads 0x6A vGld (fun _ => 32)
        (fun o => ((List.range o.vl).filter (o.active v)).map fun i => (i, i, vaOf o.sa (i * o.stride 32))) o u ds →
      ∃ t, exec (.gld c) s = .next t ∧ VecOnly u t c o ∧
        (∀ d ∈ ds, (t.core c).vec.el o.vd 13 d.1.i = (cellOf d.2).narrow.1) ∧
        (∀ i : Nat, i < o.vl → o.active v i = false → (t.core c).vec.el o.vd 13 i = if o.mzero then 0 else v.el o.vd 13 i) ∧
        RegsBut v (t.core c).vec o.vd 13 o.vl ∧ (t.core c).vec.masks = v.masks ∧ (t.core c).vec.vres = v.vres ∧
        (t.core c).vec.flags = ds.foldl (fun f d => f ||| (cellOf d.2).narrow.2) v.flags) ∧
    (∀ o u ds, reads 0x65 vVldseg (fun o => container o.fa) (fun o => o.records v) o u ds →
      ∃ t, exec (.vldseg c) s = .next t ∧ VecOnly u t c o ∧
        (∀ d ∈ ds, (t.core c).vec.el (o.vd + d.1.i % o.fields) o.fa (d.1.i / o.fields) =
          BitVec.ofNat 128 (leNat d.2 % 2 ^ fmtBits o.fa)) ∧
        (∀ f i : Nat, f < o.fields → i < o.vl → o.active v i = false →
          (t.core c).vec.el (o.vd + f) o.fa i = if o.mzero then 0 else v.el (o.vd + f) o.fa i) ∧
        (∀ a : Nat, (∀ f : Nat, f < o.fields → a < 8192 * (o.vd + f) ∨ 8192 * (o.vd + f) + o.vl * container o.fa ≤ a) →
          (t.core c).vec.regs.look a 0 = v.regs.look a 0) ∧
        (t.core c).vec.masks = v.masks ∧ (t.core c).vec.flags = v.flags ∧ (t.core c).vec.vres = v.vres) ∧
    (∀ o u ds,
      let x (o : OpW) := v.slots.look (o.vc % 4) {}
      let n (o : OpW) := min o.vl (tCount (x o).desc - (x o).cursor)
      reads 0x67 vTld (fun o => groupBytes o.fa)
        (fun o => o.groupAccs v o.fa (n o) fun g => (tAddr (x o).desc ((x o).cursor + g * groupLen o.fa)).toNat) o u ds →
      (x o).bound = true → tFmt (x o).desc = o.fa → o.vl % groupLen o.fa = 0 →
      ∃ t, exec (.tld c) s = .next t ∧ filled o (n o) ds (t.core c).vec ∧
        (t.core c).vec.slots = v.slots.set (o.vc % 4) { x o with cursor := (x o).cursor + o.vl } ∧
        (t.core c).vec.items = v.items.drop 1 ∧ t = { u with cores := t.cores } ∧ ∀ d : Nat, d ≠ c.val → t.core d = u.core d)

/-- VST, VSCATTER, VSTSEG, TST, VSCATADD and VATADD (R156 to R162). -/
def Obligations.VectorStoresWriteTheirAddresses : Prop :=
  ∀ (c : Fin 64) (s : State),
    let v := (s.core c).vec
    let checked (k : Nat) (p : VOp) (as : List Acc) (n : OpW → Nat) (l : OpW → List (Nat × Nat × Nat)) (o : OpW) (u : State) (ms : List MAcc) : Prop :=
      s.VecRuns c k p o ∧ s.vecCheck c o as (n o) (l o) = (u, .inl ms)
    let places (n : OpW → Nat) (o : OpW) (ms : List MAcc) : List (Nat × Nat) :=
      ms.flatMap fun m => if m.more = [] then [(m.pa, n o)] else (m.pa, 1) :: m.more.map fun p => (p.1, 1)
    let stored (x : Instr) (o : OpW) (n : OpW → Nat) (u : State) (ms : List MAcc) (data : MAcc → Bytes) : Prop :=
      ∃ t, exec x s = .next t ∧ t = (u.vecWrite c o (ms.map fun m => (m, data m))).vecRan c o.idx 1 ∧ KeepsOutside s t (places n o ms)
    let group (o : OpW) (m : MAcc) : Bytes :=
      pack o.fa ((List.range (groupLen o.fa)).map fun j => v.el o.va o.fa (groupLen o.fa * m.i + j))
    let actives (o : OpW) : List Nat := (List.range o.vl).filter (o.active v)
    let indexed (o : OpW) : List (Nat × Nat × Nat) :=
      (actives o).map fun i => (i, i, vaOf o.sa (sInt o.fa (v.el o.va o.fa i) * o.sb.toInt))
    (∀ o u ms, checked 0x61 vVst [.wr] (fun o => groupBytes o.fa)
        (fun o => o.groupAccs v o.fa o.vl fun g => vaOf o.sa (g * o.stride (groupBytes o.fa))) o u ms →
      o.men = false ∨ groupLen o.fa = 1 → stored (.vst c) o (fun o => groupBytes o.fa) u ms (group o)) ∧
    (∀ o u ms u' ds, checked 0x61 vVst [.wr] (fun o => groupBytes o.fa)
        (fun o => o.groupAccs v o.fa o.vl fun g => vaOf o.sa (g * o.stride (groupBytes o.fa))) o u ms →
      storeData o.fa c o v ms u = (u', .inl ds) → exec (.vst c) s = .next ((u'.vecWrite c o ds).vecRan c o.idx 1)) ∧
    (∀ o u ms, checked 0x63 vVscatter [.wr] (fun o => container o.fd) indexed o u ms →
      stored (.vscatter c) o (fun o => container o.fd) u ms fun m => leBytes (container o.fd) (v.el o.vb o.fd m.i).toNat) ∧
    (∀ o u ms, checked 0x66 vVstseg [.wr] (fun o => container o.fa) (fun o => o.records v) o u ms →
      stored (.vstseg c) o (fun o => container o.fa) u ms fun m =>
        leBytes (container o.fa) (v.el (o.va + m.i % o.fields) o.fa (m.i / o.fields)).toNat) ∧
    (∀ o u ms,
      let x (o : OpW) := v.slots.look (o.vc % 4) {}
      let n (o : OpW) := min o.vl (tCount (x o).desc - (x o).cursor)
      checked 0x68 vTst [.wr] (fun o => groupBytes o.fa)
        (fun o => o.groupAccs v o.fa (n o) fun g => (tAddr (x o).desc ((x o).cursor + g * groupLen o.fa)).toNat) o u ms →
      (x o).bound = true → (x o).wr = true → tFmt (x o).desc = o.fa → o.vl % groupLen o.fa = 0 → o.men = false ∨ groupLen o.fa = 1 →
      ∃ t, exec (.tst c) s = .next t ∧
        t = ((u.vecWrite c o (ms.map fun m => (m, group o m))).cursor c (o.vc % 4) o.vl).vecRan c o.idx 1 ∧
        (t.core c).vec.slots.look (o.vc % 4) {} = { x o with cursor := (x o).cursor + o.vl } ∧
        KeepsOutside s t (places (fun o => groupBytes o.fa) o ms)) ∧
    (∀ o u ms u' ds, checked 0x64 vVscatadd [.rd, .wr] (fun o => container o.vc) indexed o u ms →
      u.vecRead c o (container o.vc) ms = (u', .inl ds) → (ms.map (·.pa)).Nodup →
      ∃ t, exec (.vscatadd c) s = .next t ∧
        t = (ds.foldl (fun q d =>
          let r := scatCombine o (BitVec.ofNat 128 (leNat d.2)) (v.el o.vb o.fd d.1.i)
          (q.vecWrite c o [(d.1, leBytes (container o.vc) r.1.toNat)]).vecFlags c r.2.1) u').vecRan c o.idx 1 ∧
        KeepsOutside u' t (places (fun o => container o.vc) o ms)) ∧
    (∀ o u ms, checked 0x69 vVatadd [.rd, .wr] (fun _ => 32) indexed o u ms →
      ∃ t, exec (.vatadd c) s = .next t ∧ t.mem = s.mem ∧
        (t.core c).cells = (s.core c).cells ++ ms.map (fun m =>
          { pa := m.pa, xa := (toXa 0 (valOf o.fd (v.el o.vb o.fd m.i))).1, key := m.key, ctx := (s.core c).seq.context, item := o.idx }) ∧
        (t.core c).vec = { v with
          items := v.items.drop 1,
          run := v.run ++ [(1, (t.core c).addsOf o.idx 1)],
          flags := ms.foldl (fun f m => f ||| (toXa 0 (valOf o.fd (v.el o.vb o.fd m.i))).2) v.flags } ∧
        (∀ d : Nat, d ≠ c.val → t.core d = s.core d))

/-- TBIND (R162), TLOOP (R163), RDFLAGS (R153), VECTOR_OP_DONE (R107, R159) and GUARDED_CELL_ADD (R159). -/
def Obligations.TensorSlotsLoopsAndCompletion : Prop :=
  ∀ (c : Fin 64) (s : State),
    let v := (s.core c).vec
    (∀ (o : OpW) (u : State) (r : Rd), s.VecRuns c 0x70 vTbind o →
      let e : Eng := { src := c, agent := 128 + c, ctx := (s.core c).seq.context, ring := o.ring }
      s.vRd e o.sa.toNat 64 = (u, .ok r) → r.err = false → r.bad = none → tBad r.data = false →
      u.tGrant e .rd r.data = none → (o.sb.getLsbD 0 = true → u.tGrant e .wr r.data = none) →
      ∃ t, exec (.tbind c) s = .next t ∧ (t.core c).vec.slots = v.slots.set o.vd ⟨true, o.sb.getLsbD 0, r.data, 0⟩ ∧
        (t.core c).vec.regs = v.regs ∧ (t.core c).vec.masks = v.masks ∧ (t.core c).vec.items = v.items.drop 1 ∧
        t = { u with cores := t.cores } ∧ ∀ d : Nat, d ≠ c.val → t.core d = u.core d) ∧
    (∀ (i : VqItem) (l : List VqItem), v.items = i :: l →
      let o := parseOp i v.front
      let n := o.sa.toNat
      let x := v.slots.look 0 {}
      let left := x.left.toNat
      let body := (List.range n).zipWith (fun j i => parseOp i (o.idx + 1 + j)) (l.take n)
      o.opc = 0x71 → s.goes c = true → vTloop.bad o (s.coreFeatures c) = false → n ≤ l.length → x.bound = true →
      (∀ b ∈ body, bodyBad v x.left b = false) →
      (∀ u, 0 < left → o.vl ≠ 0 → loopGo c o.vl body (body.filterMap OpW.named).eraseDups (cdiv left o.vl) left s = (u, none) →
        exec (.tloop c) s = .next (u.vecRan c o.idx (n + 1))) ∧
      (x.left ≤ 0 ∨ o.vl = 0 → s.bodyForm c body = none → exec (.tloop c) s = .next (s.vecRan c o.idx (n + 1))) ∧
      (∀ idx : Nat, x.left ≤ 0 ∨ o.vl = 0 → s.bodyForm c body = some idx → exec (.tloop c) s = .next (s.vecFail c idx malformed)) ∧
      (∀ (b : OpW) (p : VOp) (k : Nat) (u : State), body = [b] → vecOp b.opc = some p → b.named = some k → 0 < left → left ≤ o.vl →
        (if b.touches = true then s.cellAll c else s).vecRun c p { b with vl := left, loop := true } = (u, none) →
        exec (.tloop c) s = .next ((u.cursor c k left).vecRan c o.idx 2))) ∧
    (∀ o : OpW, s.VecRuns c 0x72 vRdflags o → ∃ t, exec (.rdflags c) s = .next t ∧ VecOnly s t c o ∧ t.parts = s.parts ∧
      (t.core c).vec.vres = v.flags.setWidth 64 ∧ (t.core c).vec.flags = (if o.sa.getLsbD 0 then 0 else v.flags) ∧
      (t.core c).vec.regs = v.regs ∧ (t.core c).vec.masks = v.masks) ∧
    (∀ (n : Nat) (l : List (Nat × Nat)), v.run = (n, 0) :: l →
      ∃ t, exec (.vectorOpDone c) s = .next t ∧ t.core c = { s.core c with vec := { v with done := v.done + n, run := l } } ∧
        (∀ d : Nat, d ≠ c.val → t.core d = s.core d) ∧ t = { s with cores := t.cores }) ∧
    (∀ (q : CellAdd) (l : List CellAdd) (s' u : State) (r : Rd), (s.core c).cells = q :: l →
      s.faults.inj0.armed = false → s.faults.inj1.armed = false →
      s' = s.onCore c (fun x => { x with cells := l, vec := { x.vec with run := runDec (q.item - x.vec.done) x.vec.run } }) →
      let w : Who := { src := 138, ctx := some q.ctx, part := some ((s.partOfCtx q.ctx).getD 64), key := q.key }
      s'.memRd w q.pa 32 = (u, r) →
      let g := (cellOf r.data).add q.xa
      let owner := if zone q.pa 32 = .sram then sramCore q.pa else 76 + (u.place q.pa).1
      (r.err = false → r.bad = none → exec (.guardedCellAdd c) s = .next ((u.addStatus owner g.2).memWr w q.pa (cellBytes g.1)).1) ∧
      (r.err = true ∨ r.bad ≠ none → exec (.guardedCellAdd c) s = .next u)) ∧
    ((s.core c).cells = [] → exec (.guardedCellAdd c) s = .next s)

/-- MAC, MIN-PLUS, MAX-PLUS, L1, L2SQ and HAMMING (R171, R175, R185, R186, R196). -/
def Obligations.MatrixPassesComputeTheirResults : Prop :=
  ∀ (c : Fin 64) (s : State),
    let runs (x : Instr) (op : Nat) (ident : BitVec 128) (term : PassD → Val × Word → Val × Word → Val)
        (comb : BitVec 128 → BitVec 128 → BitVec 128) : Prop :=
      ∀ (q : Pass) (p : PassD) (bs as : List Vecs) (r : PRun), s.PassReads c op q p bs as r → p.xa = true ∨ op = 0 →
        let row (m : Nat) : Vecs := as.getD m ([], [], none)
        let col (m j : Nat) : Vecs := bs.getD (if p.stream then m % 32 else j) ([], [], none)
        let line (f : Nat) (mx : Bool) (v : Vecs) : List (Val × Word) := (lineVals f mx v).zip v.1
        let dot (m j : Nat) (init : BitVec 128) : BitVec 128 :=
          ((line p.fa p.mxA (row m)).zip (line p.fb p.mxB (col m j))).foldl (fun acc e =>
            if p.xa then comb acc (xaTerm (term p e.1 e.2)).1
            else (convert 0 0 false (e.1.1.fma 0 e.2.1 (valOf 0 acc)).1).1) init
        let out (v : Val) : BitVec 128 := (convert p.out p.rm p.sat (if p.xa && v.isZero then .zero else v)).1
        let e := matEng s c q.ring
        (p.acc = false → p.smode = 0 → p.ew = 0 →
          ∃ t, exec x s = .next t ∧ t = { r.s with cores := t.cores, parts := t.parts } ∧
            (∀ d : Nat, d ≠ c.val → t.core d = r.s.core d) ∧ t.core c = { r.s.core c with mat := (t.core c).mat } ∧
            (p.fill = true → (t.core c).mat.rbData = as.map (·.1) ∧ (t.core c).mat.rbScale = as.map (·.2.1)) ∧
            ∃ q' ∈ (t.core c).mat.passes,
              q' = { q with computed := true, results := q'.results, resFlags := q'.resFlags, resBad := q'.resBad, badAddr := q'.badAddr } ∧
              q'.results.length = p.rows * p.outCols ∧
              ∀ m j : Nat, m < p.rows → j < p.outCols → q'.results.getD (m * p.outCols + j) 0 = out (valOf p.accFmt (dot m j ident))) ∧
        (p.rows = 1 → p.outCols = 1 →
          let rc := if p.acc then (r.started c p bs as).rd e (p.cBase : Int) p.accSize else (r.started c p bs as, [], none)
          let rs := if p.smode = 0 then (rc.1, [], none) else rc.1.rd e (p.sAddr : Int) (scaleSize p)
          let re := if p.ew = 0 then (rs.1, [], none) else rs.1.rd e p.eBase (container p.ef)
          re.1.err = false →
          let v0 := valOf p.accFmt (dot 0 0 (if p.acc then BitVec.ofNat 128 (leNat rc.2.1) else ident))
          let v1 := if p.smode = 0 then v0 else (v0.mul (valOf (if p.sfmt = 1 then 0 else 1) (BitVec.ofNat 128 (leNat rs.2.1)))).1
          let ev := valOf p.ef (BitVec.ofNat 128 (leNat re.2.1))
          let v2 := if p.ew = 0 then v1 else if p.ew = 2 then (v1.mul ev).1 else (v1.add p.rm ev).1
          ∃ t, exec x s = .next t ∧ t = { re.1.s with cores := t.cores, parts := t.parts } ∧
            ∃ q' ∈ (t.core c).mat.passes, q'.idx = q.idx ∧ q'.computed = true ∧ q'.results = [out v2])
    runs (.mac c) 0 0 (fun _ a b => (a.1.mul b.1).1) (fun x y => (xaAdd x y).1) ∧
    runs (.minPlus c) 1 xaPinf (fun _ a b => (a.1.add 0 b.1).1) (xaPick false) ∧
    runs (.maxPlus c) 2 xaNinf (fun _ a b => (a.1.add 0 b.1).1) (xaPick true) ∧
    runs (.l1 c) 3 0 (fun _ a b => (a.1.add 0 b.1.neg).1.abs) (fun x y => (xaAdd x y).1) ∧
    runs (.l2sq c) 4 0 (fun _ a b => ((a.1.add 0 b.1.neg).1.mul (a.1.add 0 b.1.neg).1).1) (fun x y => (xaAdd x y).1) ∧
    runs (.hamming c) 5 0
      (fun p a b => .ofInt ((List.range (fmtBits p.fa)).filter fun k => (a.2 ^^^ b.2).getLsbD k).length)
      (fun x y => (xaAdd x y).1)

/-- PASS_ACCEPT (R174, R176, R177), TILE_COMMIT (R178, R179) and PASS_COMPLETE (R189). -/
def Obligations.MatrixPassesAreAcceptedLoadedAndCompleted : Prop :=
  ∀ (c : Fin 64) (s : State),
    let m := (s.core c).mat
    (∀ i : QItem, (s.core c).nextPass = some i → s.goes c = true →
      let e := matEng s c i.ring
      let errored (u t : State) (fill : Bool) (cause : Byte) (lo opnd : Nat) : Prop :=
        (t.core c).mq.err = true ∧ (∀ x ∈ (t.core c).mq.items, x.idx < i.idx ∧ x ∈ (u.core c).mq.items) ∧
        (∀ x ∈ (t.core c).mat.passes, x.idx < i.idx) ∧ (fill = true → (t.core c).mat.rbValid = false) ∧
        ((t.core c).seq.ctl.look 0x411 0).getLsbD 32 = true ∧
        (∃ al : Alarm, t.faults.flight = u.faults.flight ++ [al] ∧ al.src = c.val ∧ al.sev = 1 ∧ al.cause = cause ∧
          al.ctx = some (u.core c).seq.context ∧ al.addr = lo ∧ al.info = itemInfo i.idx opnd) ∧
        t.mem = u.mem ∧ ∀ d : Nat, d ≠ c.val → t.core d = u.core d
      (i.va.toNat % 128 ≠ 0 → ∃ t, exec (.passAccept c) s = .next t ∧ errored s t false 6 0 0) ∧
      (∀ (u : State) (r : Rd), i.va.toNat % 128 = 0 → s.vRd e i.va.toNat 128 = (u, .ok r) → r.err = false → r.bad = none →
        let p := parsePass r.data
        let fmtA := BitVec.ofNat 8 (fld r.data 2 1)
        let bad := p.bad (u.coreFeatures c) (u.leadCore c)
        (bad = true ∨ (u.core c).mat.useBad p fmtA = true →
          ∃ t, exec (.passAccept c) s = .next t ∧ errored u t p.fill 6 0 0) ∧
        (∀ cause g pa lo o, bad = false → (u.core c).mat.useBad p fmtA = false → u.passSpans e p.spans = some (cause, g, pa, lo, o) →
          ∃ t, exec (.passAccept c) s = .next t ∧
            errored (u.refuse { src := c, ctx := some e.ctx } g pa) t p.fill cause lo o.code) ∧
        (bad = false → (u.core c).mat.useBad p fmtA = false → u.passSpans e p.spans = none →
          ∃ t, exec (.passAccept c) s = .next t ∧ t = { u with cores := t.cores } ∧ (∀ d : Nat, d ≠ c.val → t.core d = u.core d) ∧
            t.core c = { u.core c with mat := (t.core c).mat } ∧
            let n := (t.core c).mat
            n.cur = (if p.load = 1 then !(u.core c).mat.cur else (u.core c).mat.cur) ∧
            n.passes = (u.core c).mat.passes ++ [{ idx := i.idx, ring := i.ring, desc := r.data, set := n.cur, loaded := p.load != 1, computed := false }] ∧
            n.set0 = (u.core c).mat.set0 ∧ n.set1 = (u.core c).mat.set1 ∧
            n.rbValid = (p.fill || (u.core c).mat.rbValid) ∧ n.rbRows = (if p.fill then p.rows else (u.core c).mat.rbRows) ∧
            n.rbDepth = (if p.fill then p.depth else (u.core c).mat.rbDepth)))) ∧
    (∀ (before : List Pass) (q : Pass) (r : PRun) (x : Tile), splitPass (fun q => !q.loaded) m.passes = some (before, q) → s.goes c = true →
      (∀ b ∈ before, b.set = q.set → b.computed = true) → clearOf before (parsePass q.desc) = true →
      let p := parsePass q.desc
      PRun.tile ⟨s, none, false⟩ (matEng s c q.ring) p = (r, x) → r.err = false →
      ∃ t, exec (.tileCommit c) s = .next t ∧ (t.core c).mat.tile q.set = x ∧ (t.core c).mat.tile (!q.set) = (r.s.core c).mat.tile (!q.set) ∧
        x.loaded = true ∧ x.cols.length = p.cols ∧ x.fmt = p.fb ∧ x.depth = p.depth ∧
        (∃ q' ∈ (t.core c).mat.passes, q'.idx = q.idx ∧ q'.loaded = true) ∧
        t = { r.s with cores := t.cores } ∧ ∀ d : Nat, d ≠ c.val → t.core d = r.s.core d) ∧
    (∀ (q : Pass) (rest : List Pass), m.passes = q :: rest → q.computed = true →
      let p := parsePass q.desc
      let e := matEng s c q.ring
      let u := passWrite e p q (List.range p.rows) s
      let w := if p.stat ≠ 0 ∧ (0 < p.rows ∨ p.load = 1) then (u.vWr e p.stat (leBytes 8 (q.statusWord p))).1 else u
      ∃ t, exec (.passComplete c) s = .next t ∧ t.mem = w.mem ∧ (t.core c).mat = { m with passes := rest } ∧
        (∀ i ∈ (t.core c).mq.items, i.idx ≠ q.idx) ∧ (t.core c).mq.err = (s.core c).mq.err ∧
        (p.rows = 0 → p.stat = 0 → t.mem = s.mem))

/-- LOOKUP_BATCH, UPDATE_BATCH, ROW_FETCH_ISSUE, ROW_ARRIVAL and BATCH_COMPLETE (R237 to R247, R253, R259). -/
def Obligations.PressBatchesAreReadFetchedPooledAndWritten : Prop :=
  ∀ (q : Fin 4) (s : State),
    (∀ (l : Fin 8) (it : BatchItem) (u s2 s3 : State) (p : Plan) (r : TableRec) (idx ws : List (Bytes × Bool)),
      s.frontBatch q l false = some it →
      let b := parseBatch it.desc
      let e := laneEng q l it
      (s.popBatch q l).plan e it.desc = (u, .inl p) → (u.table b.table).rc = some r →
      State.readItems e b.idxSize b.idxSize (p.offs.getLastD 0) b.idxA u = (s2, idx, false) →
      (if b.wgt then State.readItems e b.auxSize b.auxSize (p.offs.getLastD 0) b.auxA s2 else (s2, [], false)) = (s3, ws, false) →
      ∃ t run, exec (.lookupBatch q l) s = .next t ∧ ((t.press q).lane l).run = some run ∧ run.item = it ∧ run.adds = 0 ∧
        ((t.press q).lane l).queue = ((s3.press q).lane l).queue ∧ t.mem = s3.mem ∧
        run.bags.length = p.offs.length - 1 ∧
        (∀ i : Nat, i + 1 < p.offs.length →
          let lo := if b.pool = 2 then i else p.offs.getD i 0
          let hi := if b.pool = 2 then i + 1 else p.offs.getD (i + 1) 0
          let beyond := ∃ j : Nat, lo ≤ j ∧ j < hi ∧ r.rows ≤ leNat (idx.getD j ([], false)).1
          ∃ g, run.bags[i]? = some g ∧ g.n = hi - lo ∧ g.sums = List.replicate r.rowElems {} ∧ g.flags = 0 ∧
            (g.error = true ↔ beyond) ∧ g.left = (if g.error then 0 else hi - lo) ∧
            (g.error = false → (run.todo.filter fun d => d.bag = i).map (·.row) =
              (List.range (hi - lo)).map fun j => leNat (idx.getD (lo + j) ([], false)).1))) ∧
    (∀ (l : Fin 8) (it : BatchItem) (u s2 s3 : State) (p : Plan) (r : TableRec) (idx ds : List (Bytes × Bool)),
      s.frontBatch q l true = some it →
      let b := parseBatch it.desc
      let e := laneEng q l it
      (s.popBatch q l).plan e it.desc = (u, .inl p) → (u.table b.table).rc = some r →
      State.readItems e b.idxSize b.idxSize b.count b.idxA u = (s2, idx, false) →
      State.readItems e (r.rowElems * b.auxSize) b.stride b.count b.auxA s2 = (s3, ds, false) →
      (∀ x ∈ idx, x.2 = false ∧ leNat x.1 < r.rows) →
      ∃ t run, exec (.updateBatch q l) s = .next t ∧ t = { s3 with presses := t.presses } ∧
        ((t.press q).lane l).run = some run ∧ run.item = it ∧ run.adds = b.count ∧ run.bags = [] ∧ run.todo = [] ∧ run.error = false ∧
        run.id = (s3.press q).nextRun ∧ (t.press q).nextRun = run.id + 1 ∧
        (t.press r.homeQ).reqs.look q [] = (s3.press r.homeQ).reqs.look q [] ++ (idx.zip ds).map fun x =>
          .jadd b.table (leNat x.1.1) ((unpack b.aux r.rowElems x.2.1).map fun y => (toXa 0 (valOf b.aux y)).1) x.2.2 run.id) ∧
    (∀ (l : Nat) (run : BatchRun) (d : FetchTodo) (rest : List FetchTodo) (r : TableRec),
      s.goes (64 + q) = true → s.grant q = some l → l < 8 → ((s.press q).lane l).run = some run → run.todo = d :: rest →
      let b := parseBatch run.desc
      (s.table b.table).rc = some r →
      ∃ (t : State) (f : Fetch) (u : State), exec (.rowFetchIssue q) s = .next t ∧ (t.press q).fetches = (s.press q).fetches ++ [f] ∧
        (t.press q).nextFetch = (s.press q).nextFetch + 1 ∧ (t.press q).nFetches = (s.press q).nFetches + 1 ∧
        ((t.press q).lane l).run = some { run with todo := rest } ∧
        f.id = (s.press q).nextFetch ∧ f.lane = l ∧ f.run = run.id ∧ f.bag = d.bag ∧ f.row = d.row ∧ f.table = r.table ∧ f.journal = none ∧ f.stale = false ∧
        (f.need = true ↔ (s.table b.table).closed ≠ []) ∧ f.src = s.copyOf q r.table d.row ∧
        u = { s with presses := u.presses } ∧
        (let w := tableWho q r (some run.item.ctx)
         (∀ (k : Nat) (x : PressQRec), f.src = .cache k → s.pressRec q = some x →
           f.copy = (u.storeRd w q (s.active.rcOff q x k) r.pitch).2.data) ∧
         (∀ slot : Nat, f.src = .cutting slot → f.copy = (u.memRd w (s.slotAddr q slot) r.pitch).2.data) ∧
         (f.src = .home → f.copy = (u.memRd w (r.base + d.row * r.pitch) r.pitch).2.data)) ∧
        (f.need = true → r.homeQ < 4 →
          (t.press r.homeQ).reqs.look q [] = (s.press r.homeQ).reqs.look q [] ++ [.jlookup r.table d.row f.id])) ∧
    (s.goes (64 + q) = false ∨ s.grant q = none → exec (.rowFetchIssue q) s = .next s) ∧
    (s.goes (64 + q) = true → s.grant q = some 8 → (∀ m ∈ (s.press q).moves, m.reads = false) →
      exec (.rowFetchIssue q) s = .next (s.onPress q fun p => { p with sinceBlend := 0, bgSlots := p.bgSlots + 1 })) ∧
    (∀ (k : Nat) (f : Fetch) (r : TableRec) (run : BatchRun) (bag : Bag), (s.press q).fetches.find? (fun f => f.id = k) = some f →
      f.need = false ∨ f.journal.isSome = true → (s.table f.table).rc = some r → ((s.press q).lane f.lane).run = some run → run.id = f.run →
      run.bags[f.bag]? = some bag → s.faults.inj0.armed = false → s.faults.inj1.armed = false →
      let b := parseBatch run.desc
      let v := (overlay r (r.stamp f.copy) (f.journal.getD []) (r.elems f.copy)).1
      let term (x : BitVec 128) : BitVec 128 :=
        if b.wgt then (xaTerm ((valOf b.aux (f.w.setWidth 128)).mul (valOf r.fmt x)).1).1 else (toXa 0 (valOf r.fmt x)).1
      ∃ t new, exec (.rowArrival q k) s = .next t ∧ t = { s with presses := t.presses } ∧
        (∀ g ∈ (t.press q).fetches, g.id ≠ k) ∧
        ((t.press q).lane f.lane).run = some { run with bags := setAt run.bags f.bag new } ∧
        new.n = bag.n ∧ new.left = bag.left - 1 ∧ new.error = bag.error ∧
        new.sums = (bag.sums.zip v).map fun x => (x.1.add (term x.2)).1) ∧
    (∀ (l : Fin 8) (run : BatchRun) (u : State) (sts : List Nat) (fl : Flags), ((s.press q).lane l).run = some run →
      s.goes (64 + q) = true → s.batchOver q run = true →
      let b := parseBatch run.desc
      let e := laneEng q l run.item
      writeBags q e run b 0 run.bags (s.onLane q l fun x => { x with run := none }) = (u, sts, fl) → run.full = false →
      ∃ t, exec (.batchComplete q l) s = .next t ∧ ((t.press q).lane l).run = none ∧
        ((t.press q).lane l).queue = ((u.press q).lane l).queue ∧
        (b.statA = 0 → t.mem = u.mem) ∧
        (b.statA ≠ 0 → b.upd = false → t.mem = (u.vWr e b.statA (leBytes 8 (summary sts) ++ sts.map fun x => BitVec.ofNat 8 x)).1.mem) ∧
        (b.statA ≠ 0 → b.upd = true → t.mem = (u.vWr e b.statA (leBytes 8 (2 * run.flags.toNat + 64 * b2n run.error))).1.mem))

/-- JOURNAL_LOOKUP, JOURNAL_ADD, CUTTING_WRITE, DIRECTORY_CHANGE, ROW_CACHE_INVALIDATE, CANDIDATE and CUTTING_COUNT (R250 to R258). -/
def Obligations.PressRequestsAreServedInOrderAndAnswered : Prop :=
  ∀ (q k : Fin 4) (s : State),
    let took (t : State) (a : PressAns) : Prop :=
      (t.press q).reqs.look k [] = ((s.press q).reqs.look k []).drop 1 ∧ (t.press k).answers.look q [] = (s.press k).answers.look q [] ++ [a]
    (∀ tb row id : Nat, s.frontReq q k = some (.jlookup tb row id) → (s.table tb).rc.isSome = true →
      ∃ t es, exec (.journalLookup q k) s = .next t ∧ took t (.entries id es) ∧ t.tables = s.tables ∧
        es.Pairwise (fun a b => a.1 ≤ b.1) ∧
        (∀ e ∈ es, ∃ b ∈ (s.table tb).closed, b.epoch = e.1 ∧ ∃ j, b.entries.find? (fun j => j.row = row) = some j ∧
          e.2 = { j with poison := e.2.poison } ∧ (j.poison = true → e.2.poison = true)) ∧
        (∀ b ∈ (s.table tb).closed, ∀ j, b.entries.find? (fun j => j.row = row) = some j →
          ∃ e ∈ es, e.1 = b.epoch ∧ e.2.elems = j.elems)) ∧
    (∀ r : PressReq, ((s.press q).parked.look k []).find? (fun r => !s.addWaits r) = some r →
      exec (.journalAdd q k) s = .next ((s.onPress q fun p =>
        { p with parked := p.parked.set k (dropFirst (fun x => !s.addWaits x) ((s.press q).parked.look k [])) }).addAnswer q k r)) ∧
    (∀ (tb row : Nat) (xs : List (BitVec 128)) (poison : Bool) (run : Nat) (r : TableRec),
      ((s.press q).parked.look k []).find? (fun r => !s.addWaits r) = none →
      s.frontReq q k = some (.jadd tb row xs poison run) → (s.table tb).rc = some r →
      let x := s.table tb
      let b := x.bankAt x.openEpoch
      let old := if b.used then b.entries else []
      (b.used = true → b.epoch ≠ x.openEpoch →
        ∃ t, exec (.journalAdd q k) s = .next t ∧ t = { s with presses := t.presses } ∧
          (t.press q).reqs.look k [] = ((s.press q).reqs.look k []).drop 1 ∧
          (t.press q).parked.look k [] = (s.press q).parked.look k [] ++ [.jadd tb row xs poison run]) ∧
      (b.used = false ∨ b.epoch = x.openEpoch →
       (x.overflowed = true ∨ (old.find? (fun j => j.row = row) = none ∧ r.journalRows ≤ old.length)) →
        ∃ t, exec (.journalAdd q k) s = .next t ∧ took t (.added run true) ∧ t.table tb = { x with overflowed := true } ∧
          t = { s with presses := t.presses, tables := t.tables }) ∧
      (b.used = false ∨ b.epoch = x.openEpoch → x.overflowed = false →
        (old.find? fun j => j.row = row).isSome = true ∨ old.length < r.journalRows →
        s.faults.inj0.armed = false → s.faults.inj1.armed = false →
        ∃ t j, exec (.journalAdd q k) s = .next t ∧ took t (.added run false) ∧
          (old.find? (fun j => j.row = row) = none → t.mem = (s.slotWrite r x.openEpoch j).mem) ∧
          let o := ((old.find? fun j => j.row = row).map (·.elems)).getD (List.replicate r.rowElems {})
          let es := ((t.table tb).bankAt x.openEpoch).entries
          j ∈ es ∧ j.row = row ∧ j.elems = (o.zip xs).map (fun e => (e.1.add e.2).1) ∧ (poison = true → j.poison = true) ∧
          (∀ i : JEntry, i.row ≠ row → (i ∈ es ↔ i ∈ old)) ∧ (∀ i ∈ es, i.row = row → i = j) ∧
          (t.table tb).openEpoch = x.openEpoch ∧ ∀ n : Nat, n ≠ tb → t.table n = s.table n)) ∧
    (∀ (tb row slot : Nat) (data : Bytes) (bad : Bool) (why : CutWhy) (r : TableRec),
      s.frontReq q k = some (.cutWrite tb row slot data bad why) → (s.table tb).rc = some r →
      let here := ∃ n e, (s.press q).dirOf tb row = some (n, e) ∧ e.slot = slot
      ∃ t, exec (.cuttingWrite q k) s = .next t ∧ took t (.cutWritten tb slot why) ∧
        (here → t.mem = (s.memWr (tableWho q r none) (s.slotAddr q slot) data bad).1.mem) ∧
        (¬here → t = { s with presses := t.presses }) ∧
        (why ≠ .create → ∀ f ∈ (t.press q).fetches, f.table = tb → f.row = row → f.src = .cutting slot → f.stale = true)) ∧
    (∀ (tb row slot : Nat) (st : BitVec 2), s.frontReq q k = some (.dirChange tb row slot st) →
      ∃ t, exec (.directoryChange q k) s = .next t ∧ took t (.dirChanged tb slot st) ∧ t = { s with presses := t.presses } ∧
        (st ≠ 0 → ∃ n e, (t.press q).dirOf tb row = some (n, e) ∧ e.st = st ∧
          e.slot = (((s.press q).dirOf tb row).map fun o => o.2.slot).getD slot) ∧
        (∀ n e, st = 0 → (s.press q).dirOf tb row = some (n, e) → (t.press q).dir = (s.press q).dir.del n)) ∧
    (∀ (tb row : Nat) (why : CutWhy), s.frontReq q k = some (.rcInval tb row why) →
      ∃ t, exec (.rowCacheInvalidate q k) s = .next t ∧ took t (.invalidated tb row why) ∧ t = { s with presses := t.presses } ∧
        ∀ e : Nat × RowLine, e ∈ (t.press q).cache ↔ e ∈ (s.press q).cache ∧ ¬ (e.2.table = tb ∧ e.2.row = row)) ∧
    (∀ tb row : Nat, s.frontReq q k = some (.candidate tb row) →
      (∀ slot : Nat, s.freeSlot q = some slot → s.mayPromote q tb row = true →
        ∃ t, exec (.candidate q k) s = .next t ∧ (t.press k).answers.look q [] = (s.press k).answers.look q [] ++ [.considered] ∧
          (t.press q).moves = (s.press q).moves ++ [⟨tb, row, slot, 1, 4, 0⟩] ∧ (t.press q).movesDone = (s.press q).movesDone + 1 ∧
          (∀ h : Nat, h < 4 → (h ≠ q.val ∨ k ≠ q) →
            (t.press h).reqs.look q [] = (s.press h).reqs.look q [] ++ [.dirChange tb row slot 1]) ∧
          t = { s with presses := t.presses }) ∧
      (s.freeSlot q = none ∨ s.mayPromote q tb row = false →
        ∃ t, exec (.candidate q k) s = .next t ∧ took t .considered ∧ (t.press q).moves = (s.press q).moves ∧
          t = { s with presses := t.presses })) ∧
    (∀ tb row slot : Nat, s.frontReq q k = some (.cutCount tb row slot) →
      ∃ t, exec (.cuttingCount q k) s = .next t ∧ t = { s with presses := t.presses } ∧
        took t (.count tb row slot ((((s.press q).dirOf tb row).map fun e => e.2.count).getD 0)))

/-- PRESS_ANSWER and CUTTING_SLOT_FREE (R250 to R252, R258). -/
def Obligations.PressAnswersAdvanceWhatAwaitsThem : Prop :=
  ∀ (q k : Fin 4) (s : State) (rest : List PressAns),
    let is (a : PressAns) : Prop := (s.press q).answers.look k [] = a :: rest
    let took (t : State) : Prop := (t.press q).answers.look k [] = rest
    (∀ (id : Nat) (es : List (Nat × JEntry)) (f : Fetch), is (.entries id es) → (s.press q).fetches.find? (fun g => g.id = id) = some f →
      ∃ t, exec (.pressAnswer q k) s = .next t ∧ took t ∧ t = { s with presses := t.presses } ∧
        (t.press q).fetches.find? (fun g => g.id = id) = some { f with journal := some es } ∧
        (t.press q).lanes = (s.press q).lanes ∧ (t.press q).cache = (s.press q).cache) ∧
    (∀ (l id : Nat) (full : Bool) (run : BatchRun), is (.added id full) → ((s.press q).lane l).run = some run → run.id = id →
      ∃ t, exec (.pressAnswer q k) s = .next t ∧ took t ∧ t = { s with presses := t.presses } ∧
        ((t.press q).lane l).run = some { run with adds := run.adds - 1, full := run.full || full }) ∧
    (∀ tb row slot : Nat, is (.invalidated tb row .blend) ∨ is (.cutWritten tb slot .blend) →
      ∃ t, exec (.pressAnswer q k) s = .next t ∧ took t ∧ t = { s with presses := t.presses, tables := t.tables } ∧
        t.table tb = { s.table tb with blendWait := (s.table tb).blendWait - 1, banks := (t.table tb).banks } ∧
        (∀ h : Nat, (t.press h).nextFetch = (s.press h).nextFetch) ∧ ∀ n : Nat, n ≠ tb → t.table n = s.table n) ∧
    (∀ tb row slot : Nat, is (.invalidated tb row .poison) ∨ is (.cutWritten tb slot .poison) ∨ is .considered →
      exec (.pressAnswer q k) s = .next (s.onPress q fun p => { p with answers := p.answers.set k rest })) ∧
    (∀ (tb slot : Nat) (st : BitVec 2) (m : CutMove), is (.dirChanged tb slot st) →
      (s.press q).moves.find? (fun m => m.table = tb && m.slot = slot && 0 < m.wait) = some m → (∀ o ∈ (s.press q).moves, o.slot = slot → o = m) →
      (1 < m.wait → ∃ t, exec (.pressAnswer q k) s = .next t ∧ took t ∧ { m with wait := m.wait - 1 } ∈ (t.press q).moves ∧
        (t.press q).moves.length = (s.press q).moves.length ∧ t = { s with presses := t.presses }) ∧
      (m.wait = 1 → m.step = 4 → ∃ t, exec (.pressAnswer q k) s = .next t ∧ took t ∧ t = { s with presses := t.presses } ∧
        (t.press q).moves.length + 1 = (s.press q).moves.length) ∧
      (m.wait = 1 → m.step = 1 → ∃ t, exec (.pressAnswer q k) s = .next t ∧ took t ∧ t = { s with presses := t.presses } ∧
        { m with step := 2, wait := 0 } ∈ (t.press q).moves ∧ (t.press q).moves.length = (s.press q).moves.length)) ∧
    (∀ (tb slot : Nat) (m : CutMove), is (.cutWritten tb slot .create) →
      (s.press q).moves.find? (fun m => m.table = tb && m.slot = slot && 0 < m.wait) = some m → (∀ o ∈ (s.press q).moves, o.slot = slot → o = m) →
      m.wait = 1 → m.step = 3 → ∃ t, exec (.pressAnswer q k) s = .next t ∧ took t ∧ t = { s with presses := t.presses } ∧
        { m with step := 4, wait := 4 } ∈ (t.press q).moves ∧
        ∀ h : Nat, h < 4 → (t.press h).reqs.look q [] = (s.press h).reqs.look q [] ++ [.dirChange m.table m.row m.slot 2]) ∧
    (∀ (slot : Nat) (m : CutMove), (s.press q).moves.find? (fun m => m.slot = slot && m.step = 7) = some m →
      ((∃ h : Nat, h < 4 ∧ ∃ f ∈ (s.press h).fetches, f.src = .cutting slot) → exec (.cuttingSlotFree q slot) s = .next s) ∧
      ((∀ h : Nat, h < 4 → ∀ f ∈ (s.press h).fetches, f.src ≠ .cutting slot) →
        ∃ t, exec (.cuttingSlotFree q slot) s = .next t ∧ t = { s with presses := t.presses } ∧
          ∀ h : Nat, h < 4 → (t.press h).reqs.look q [] = (s.press h).reqs.look q [] ++ [.dirChange m.table m.row slot 0]))

/-- BLEND_ENTRY, JOURNAL_BANK_FREE (R242, R256, R258), AGEING_BOUNDARY (R248 to R250) and SERVE_WINDOW (R259). -/
def Obligations.BlendingAndAgeingKeepTablesCurrent : Prop :=
  ∀ (s : State),
    (∀ (tb : Fin 4096) (r : TableRec) (b : Bank) (j : JEntry) (u u2 : State) (rd : Rd) (worn : Bool), (s.table tb).rc = some r → (s.table tb).toBlend = some (b, j) →
      s.goes (64 + r.homeQ) = true → (s.table tb).blendWait = 0 → r.slots ≤ (s.press r.homeQ).bgSlots →
      s.faults.inj0.armed = false → s.faults.inj1.armed = false →
      let q := r.homeQ
      let w := tableWho q r none
      let a := r.base + j.row * r.pitch
      (s.onPress q fun p => { p with bgSlots := p.bgSlots - r.slots }).memRd w a r.pitch = (u, rd) → u.slotBad r b.epoch j = (u2, worn) →
      let body := pack r.fmt (((r.elems rd.data).zip j.elems).map fun x => (blendElem r x.1 x.2).1)
      let row := patch (patch rd.data 0 body) (r.pitch - 8) (leBytes 8 b.epoch)
      ∃ t, exec (.blendEntry tb) s = .next t ∧ t.mem = (u2.memWr w a row (j.poison || worn || rd.bad.isSome)).1.mem ∧
        (∃ o ∈ ((t.table tb).banks.look (b.epoch % 4) {}).entries, o.row = j.row ∧ o.blended = true) ∧
        4 ≤ (t.table tb).blendWait ∧ (t.table tb).openEpoch = (s.table tb).openEpoch ∧
        (∀ h : Nat, h < 4 → PressReq.rcInval tb j.row .blend ∈ (t.press h).reqs.look q []) ∧ ∀ n : Nat, n ≠ tb → t.table n = s.table n) ∧
    (∀ (tb : Fin 4096) (r : TableRec), (s.table tb).rc = some r →
      s.goes (64 + r.homeQ) = false ∨ (s.table tb).blendWait ≠ 0 ∨ (s.press r.homeQ).bgSlots < r.slots ∨ (s.table tb).toBlend = none →
      exec (.blendEntry tb) s = .next s) ∧
    (∀ (tb : Fin 4096) (b : Bank), s.freeBank tb = some b →
      ∃ t, exec (.journalBankFree tb) s = .next t ∧ t = { s with tables := t.tables } ∧
        (t.table tb).banks = (s.table tb).banks.del (b.epoch % 4) ∧
        (t.table tb).st = (if (s.table tb).st = 2 ∧ (t.table tb).closed = [] then 3 else (s.table tb).st) ∧
        ∀ n : Nat, n ≠ tb → t.table n = s.table n) ∧
    (∀ (tb : Fin 4096), s.freeBank tb = none → exec (.journalBankFree tb) s = .next s) ∧
    (∀ (q : Fin 4) (r : PressQRec), s.pressRec q = some r →
      ((s.press q).ageCount < 2 ^ r.ageLog → exec (.ageingBoundary q) s = .next s) ∧
      (2 ^ r.ageLog ≤ (s.press q).ageCount →
        ∃ t, exec (.ageingBoundary q) s = .next t ∧ t = { s with presses := t.presses } ∧
          (t.press q).sketch = (s.press q).sketch.map (fun e => (e.1, e.2 / 2)) ∧
          (t.press q).dir = (s.press q).dir.map (fun e => (e.1, { e.2 with count := e.2.count / 2 })) ∧
          (∀ e ∈ (t.press q).cache, ∃ o ∈ (s.press q).cache, o.1 = e.1 ∧ e.2.count = o.2.count / 2 ∧ e.2.table = o.2.table ∧ e.2.row = o.2.row) ∧
          (t.press q).ageCount = 0 ∧ (t.press q).ageHits = 0 ∧ (t.press q).movesDone = 0 ∧ (t.press q).lanes = (s.press q).lanes ∧
          (t.press q).fetches = (s.press q).fetches)) ∧
    (∀ q : Fin 4, ∃ t, exec (.serveWindow q) s = .next t ∧ t.cellar.count = (s.cellar.count + 999) / 1000 * 1000 ∧
      (t.press q).serveWin = ((s.press q).serveUsed :: (s.press q).serveWin).take 10 ∧ (t.press q).serveUsed = 0 ∧
      t.mem = s.mem ∧ t.cores = s.cores)

/-- COPY, FILL, DMA_TRANSFER_START, CHUNK_TRANSLATE and CHUNK_COMPLETE (R294 to R300). -/
def Obligations.DmaTransfersAreTakenInStartedAndMoved : Prop :=
  ∀ (ch : Fin 256) (s : State),
    let c := s.chan ch
    let others (u t : State) : Prop := ∀ d : Nat, d ≠ ch.val → t.chan d = u.chan d
    (∀ (fill : Bool) (a : Arrive) (u : State) (b : Bytes), s.running = true → s.admits (72 + ch.val / 64) = true →
      s.arriving ch = some (a, u, .ok b) → (fld b 0 1 = 1 ↔ fill = true) →
      a.desc.isSome = true ∨ (∃ rs, (u.onChan ch fun c => { c with arrive := c.arrive.drop 1 }).dmaCheck a.ctx a.ring b = .ok rs) →
      let r := if a.desc.isSome then (u, a.meas) else u.reserve a.ctx (parseDma b).measured
      ∃ t, exec (if fill then .fill ch else .copy ch) s = .next t ∧ t = { r.1 with chans := t.chans } ∧ others u t ∧
        (t.chan ch) = { u.chan ch with
          arrive := (u.chan ch).arrive.drop 1, xfers := preempt a.level (u.chan ch).xfers ++ [{ xferOf a b with measured := r.2 }] }) ∧
    (∀ (a : Arrive) (u : State) (page : Nat), s.running = true → s.admits (72 + ch.val / 64) = true → s.arriving ch = some (a, u, .wait page) →
      exec (.copy ch) s = .next (s.atsAsk (ch.val / 64) (s.pasidOf a.ctx) page) ∧
      exec (.fill ch) s = .next (s.atsAsk (ch.val / 64) (s.pasidOf a.ctx) page)) ∧
    (∀ x : Xfer, c.next = some x → s.goes (72 + ch.val / 64) = true → x.st ≠ .running →
      ((∃ y ∈ preempt x.level c.xfers, y.st = .running) → exec (.dmaTransferStart ch) s = .next s) ∧
      ((∀ y ∈ preempt x.level c.xfers, y.st ≠ .running) →
        ∃ t, exec (.dmaTransferStart ch) s = .next t ∧ t = { s with chans := t.chans } ∧ others s t ∧
          ∃ y ∈ (t.chan ch).xfers, y.src = x.src ∧ y.st = .running ∧ ∀ z ∈ (t.chan ch).xfers, z.st = .running → z = y)) ∧
    (∀ x : Xfer, c.issuer = some x → s.goes (72 + ch.val / 64) = true → (∀ y ∈ c.xfers, y.src = x.src → y = x) →
      let q := ch.val / 64
      let dva := rowAt x.dstVa x.dstStr x.row x.off
      let n := min (x.rowBytes - x.off) (4096 - dva % 4096)
      let src := if x.fill then PieceXl.ok [] 0 [] [] else s.pieceXl q x.ctx x.ring .rd (rowAt x.srcVa x.srcStr x.row x.off) n
      let dst := s.pieceXl q x.ctx x.ring .wr dva n
      (∀ a ak ai ap b bk bi bp, src = .ok a ak ai ap → dst = .ok b bk bi bp →
        ∃ t y, exec (.chunkTranslate ch) s = .next t ∧ t = { s with chans := t.chans, xlat := t.xlat } ∧ others s t ∧ y ∈ (t.chan ch).xfers ∧
          y.flight = x.flight ++ [⟨x.row, x.off, n, a, b, ak, bk, ai ++ bi, (ap ++ bp).map fun p => (s.pasidOf x.ctx, p), s.xlat.nextChunk⟩] ∧
          y.src = x.src ∧ t.xlat.nextChunk = s.xlat.nextChunk + 1 ∧
          (x.off + n = x.rowBytes → y.row = x.row + 1 ∧ y.off = 0) ∧ (x.off + n ≠ x.rowBytes → y.row = x.row ∧ y.off = x.off + n)) ∧
      (∀ p, src = .wait p ∨ ((∃ a ak ai ap, src = .ok a ak ai ap) ∧ dst = .wait p) → ∃ t, exec (.chunkTranslate ch) s = .next t ∧ t = { s with xlat := t.xlat } ∧
        (q, s.pasidOf x.ctx, p) ∈ t.xlat.atsWait ∧ ∀ w ∈ s.xlat.atsWait, w ∈ t.xlat.atsWait) ∧
      (∀ h va p, src = .fault h va p ∨ ((∃ a ak ai ap, src = .ok a ak ai ap) ∧ dst = .fault h va p) → x.flight = [] →
        ∃ t y, exec (.chunkTranslate ch) s = .next t ∧ y ∈ (t.chan ch).xfers ∧ y.src = x.src ∧ y.st = .parked ∧ y.faultSeq = c.parks + 1 ∧
          (t.chan ch).parks = c.parks + 1 ∧ (t.chan ch).hostResp = 0 ∧ others s t)) ∧
    (∀ (x : Xfer) (k : Chunk) (rest : List Chunk) (u : State) (bs : Bytes) (cause : Byte) (pa : Nat), c.xfers.find? (fun x => !x.flight.isEmpty) = some x →
      x.flight = k :: rest → (∀ y ∈ c.xfers, y.src = x.src → y = x) →
      let w : Who := { src := 72 + ch.val / 64, ctx := some x.ctx, part := some ((s.partOfCtx x.ctx).getD 64) }
      s.moveChunk w x k = (u, bs, cause, pa) →
      (cause = 0 → x.parking = none → ¬ (x.row = x.rows ∧ rest = []) →
        ∃ t, exec (.chunkComplete ch) s = .next t ∧ t = { u with chans := t.chans } ∧ others u t ∧
          { x with flight := rest, progress := x.progress + 1, digest := if x.measured then x.digest ++ bs else x.digest } ∈ (t.chan ch).xfers) ∧
      (cause = 0 → x.row = x.rows → rest = [] → (c.xfers.filter fun y => y.src = x.src) = [x] →
        ∃ t, exec (.chunkComplete ch) s = .next t ∧
          t.mem = (if x.measured then u.logEntry { x with digest := x.digest ++ bs } else u).mem ∧ others u t ∧ ∀ y ∈ (t.chan ch).xfers, y.src ≠ x.src) ∧
      (cause ≠ 0 → ∃ t, exec (.chunkComplete ch) s = .next t ∧ t.mem = u.mem ∧ ∀ y ∈ (t.chan ch).xfers, y.src ≠ x.src))

/-- ATS_COMPLETION, PRG_RESPONSE, ATS_INVALIDATE, ATS_INVALIDATION_COMPLETE (R291, R298) and PCIE_COMPLETION. That PCIE_COMPLETION sets what later device reads of the host window return is the model's reading (log entry 67). -/
def Obligations.HostAnswersReachTheTranslationState : Prop :=
  ∀ (s : State),
    let only (t : State) : Prop := t = { s with xlat := t.xlat }
    (∀ (q : Fin 4) (pasid : BitVec 20) (page : Nat) (answer : Option (Nat × Bool × Bool)),
      ((q.val, pasid, page) ∈ s.xlat.atsWait →
        ∃ t, exec (.atsCompletion q pasid page answer) s = .next t ∧ only t ∧ (q.val, pasid, page) ∉ t.xlat.atsWait ∧
          (t.xlat.ats.look q []).head? = some (match answer with
            | some (a, rd, wr) => ⟨pasid, page, a, rd, wr⟩
            | none => ⟨pasid, page, 0, false, false⟩) ∧
          (∀ w ∈ s.xlat.atsWait, w ≠ (q.val, pasid, page) → w ∈ t.xlat.atsWait) ∧
          (∀ e ∈ (t.xlat.ats.look q []).drop 1, e ∈ s.xlat.ats.look q [] ∧ ¬ (e.pasid = pasid ∧ e.page = page)) ∧
          ∀ p : Nat, p ≠ q.val → t.xlat.ats.look p [] = s.xlat.ats.look p []) ∧
      ((q.val, pasid, page) ∉ s.xlat.atsWait → exec (.atsCompletion q pasid page answer) s = .next s)) ∧
    (∀ (ch : Fin 256) (code : PrgCode),
      ∃ t, exec (.prgResponse ch code) s = .next t ∧ t = { s with xlat := t.xlat, chans := t.chans } ∧
        t.xlat = { s.xlat with pageReqs := t.xlat.pageReqs } ∧ (∀ d : Nat, d ≠ ch.val → t.chan d = s.chan d) ∧
        ((∃ r ∈ s.xlat.pageReqs, r.group = ch.val) → t.xlat.pageReqs.length + 1 = s.xlat.pageReqs.length) ∧
        ((∀ r ∈ s.xlat.pageReqs, r.group ≠ ch.val) → t.xlat.pageReqs = s.xlat.pageReqs) ∧
        (let first := s.xlat.pageReqs.find? fun r => r.group = ch.val
         ((∀ r, first = some r → r.dead = false) →
           t.chan ch = { s.chan ch with hostResp := (match code with | .success => 1 | .invalidRequest => 2 | .responseFailure => 3) }) ∧
         ((∃ r, first = some r ∧ r.dead = true) → t.chan ch = s.chan ch))) ∧
    (∀ (pasid : BitVec 20) (page pages : Nat),
      ∃ t, exec (.atsInvalidate pasid page pages) s = .next t ∧ only t ∧
        t.xlat.atsDrops = s.xlat.atsDrops ++
          [(s.chunks.filter fun k => k.2.pages.any fun p => p.1 = pasid && page ≤ p.2 && p.2 < page + pages).map (·.2.id)] ∧
        ∀ (q : Nat) (e : AtsEnt), e ∈ t.xlat.ats.look q [] ↔
          e ∈ s.xlat.ats.look q [] ∧ ¬ (e.pasid = pasid ∧ page ≤ e.page ∧ e.page < page + pages)) ∧
    (∀ (d : List Nat) (rest : List (List Nat)), s.xlat.atsDrops = d :: rest →
      ((∃ k ∈ s.chunks, k.2.id ∈ d) → exec .atsInvalidationComplete s = .next s) ∧
      ((∀ k ∈ s.chunks, k.2.id ∉ d) →
        exec .atsInvalidationComplete s = .next { s with xlat := { s.xlat with atsDrops := rest, atsInvDone := s.xlat.atsInvDone + 1 } })) ∧
    (s.xlat.atsDrops = [] → exec .atsInvalidationComplete s = .next s) ∧
    (∀ (addr : BitVec 48) (data : Bytes) (poisoned ok : Bool), data ≠ [] → zone (hostBase + addr.toNat) data.length = .host →
      let a := hostBase + addr.toNat
      ∃ t, exec (.pcieCompletion addr data poisoned ok) s = .next t ∧ t = { s with mem := t.mem, poison := t.poison, hostBad := t.hostBad } ∧
        (ok = true → ∀ i : Nat, i < data.length → t.byte (a + i) = data.getD i 0) ∧
        (∀ b : Nat, b < a ∨ a + data.length ≤ b ∨ ok = false → t.byte b = s.byte b) ∧
        (∀ g : Nat, a / 64 ≤ g → g ≤ (a + data.length - 1) / 64 → t.poisoned g = poisoned ∧ t.hostBad.look g false = !ok) ∧
        (∀ g : Nat, g < a / 64 ∨ (a + data.length - 1) / 64 < g → t.poisoned g = s.poisoned g ∧ t.hostBad.look g false = s.hostBad.look g false))

/-- DMA_RESUME_RETRY, DMA_RESUME_ABORT (R300), INVAL_CMD, INVAL_DONE (R292, R293, R304), RESCUE_CMD and RESCUE_COMPLETE (R301, R302). -/
def Obligations.ResumptionInvalidationAndRescue : Prop :=
  ∀ (s : State),
    (∀ (r : Requester) (ch : Fin 256) (level : BitVec 2) (seq : BitVec 32),
      let no (f : Instr) : Prop := exec f s = .next s
      let stale (f : Instr) : Prop := exec f s = .next { s with xlat := { s.xlat with stale := s.xlat.stale + 1 } }
      (writesBlock r = false → no (.dmaResumeRetry r ch level seq) ∧ no (.dmaResumeAbort r ch level seq)) ∧
      (writesBlock r = true → (∀ x ∈ (s.chan ch).xfers, ¬ (x.st = .parked ∧ x.level = level ∧ x.faultSeq = seq)) →
        stale (.dmaResumeRetry r ch level seq) ∧ stale (.dmaResumeAbort r ch level seq)) ∧
      (∀ x : Xfer, writesBlock r = true → s.parkedXfer ch level seq = some x →
        (∃ t, exec (.dmaResumeRetry r ch level seq) s = .next t ∧ t = { s with chans := t.chans } ∧
          (∃ y ∈ (t.chan ch).xfers, y.src = x.src ∧ y.st = .preempted) ∧ (t.chan ch).xfers.length = (s.chan ch).xfers.length ∧
          ∀ d : Nat, d ≠ ch.val → t.chan d = s.chan d) ∧
        (∃ t, exec (.dmaResumeAbort r ch level seq) s = .next t ∧ t.mem = s.mem ∧ ∀ y ∈ (t.chan ch).xfers, y.src ≠ x.src))) ∧
    (∀ r : Requester, s.invalMay r s.xlat.invCtx.toNat = false → exec (.invalCmd r) s = .next s) ∧
    (∀ r : Requester,
      let k := s.xlat.invCtx.toNat
      let first := s.xlat.invFirst.toNat
      let count := s.xlat.invCount.toNat
      s.invalMay r k = true →
      (s.xlat.busy = true → exec (.invalCmd r) s = .next { s with xlat := { s.xlat with invIgnored := s.xlat.invIgnored + 1 } }) ∧
      (s.xlat.busy = false → s.ctxRec k = none ∨ count = 0 ∨ (s.ctx k).xtCount < first + count →
        ∃ t, exec (.invalCmd r) s = .next t ∧
          t.xlat = { s.xlat with invErr := true, busy := false, doneSeq := s.xlat.doneSeq + 1 } ∧ t = { s with xlat := t.xlat, host := t.host }) ∧
      (∀ c : CtxRec, s.xlat.busy = false → s.ctxRec k = some c → 0 < count → first + count ≤ (s.ctx k).xtCount →
        ∃ t, exec (.invalCmd r) s = .next t ∧ t.xlat.busy = true ∧ t.xlat.busyCtx = k ∧ t.xlat.doneSeq = s.xlat.doneSeq ∧
          t.xlat.invWait =
            (s.chunks.filter fun x => x.2.exts.any fun i => x.1 = k && first ≤ i && i < first + count).map (·.2.id) ∧
          ∀ b ∈ t.xlat.tlb, ∀ e ∈ b.2, ¬ (e.1 = k ∧ first ≤ e.2 ∧ e.2 < first + count))) ∧
    (let x := s.xlat
     (x.busy = false ∨ (∃ k ∈ s.chunks, k.2.id ∈ x.invWait) → exec .invalDone s = .next s) ∧
     (x.busy = true → (∀ k ∈ s.chunks, k.2.id ∉ x.invWait) →
       ∃ t, exec .invalDone s = .next t ∧ t.xlat = { x with busy := false, doneSeq := x.doneSeq + 1 } ∧
         t = { s with xlat := t.xlat, host := t.host })) ∧
    (∀ (r : Requester) (q : Fin 4), writesBlock r = false ∨ r = .controller → exec (.rescueCmd r q) s = .next s) ∧
    (∀ (r : Requester) (q : Fin 4), writesBlock r = true → r ≠ .controller →
      let x := s.rescue q
      let b := x.bytes
      let bad := dmaBad b false false = true ∨ fld b 1 1 ≠ 0 ∨ 1023 < fld b 56 2 ∨ zeroAt b 58 6 = false
      (x.st = 1 → exec (.rescueCmd r q) s = .next s) ∧
      (x.st ≠ 1 → bad → ∃ t, exec (.rescueCmd r q) s = .next t ∧ (t.rescue q).st = 3 ∧ (t.rescue q).run = x.run ∧ t.mem = s.mem) ∧
      (x.st ≠ 1 → ¬ bad → ∃ t y, exec (.rescueCmd r q) s = .next t ∧ t.rescue q = { x with st := 1, run := some y, skey := BitVec.ofNat 10 (fld b 56 2) } ∧
        y.srcVa = fld b 16 8 ∧ y.dstVa = fld b 32 8 ∧ y.rowBytes = fld b 8 4 ∧ y.rows = fld b 12 4 ∧ (y.fill = true ↔ fld b 0 1 = 1) ∧
        t = { s with rescues := t.rescues } ∧ ∀ p : Nat, p ≠ q.val → t.rescue p = s.rescue p)) ∧
    (∀ (q : Fin 4) (x : Xfer) (u : State), (s.rescue q).run = some x → (s.rescue q).st = 1 →
      let w : Who := { src := 72 + q.val, key := (s.rescue q).skey, quiet := true, rescue := true }
      let ks := (List.range x.rows).flatMap fun row =>
        (rowChunks (x.rowBytes / 4096 + 2) (rowAt x.dstVa x.dstStr row 0) 0 x.rowBytes).map fun (o, n) => rescueChunk x (s.rescue q).skey row o n
      (rescueRun w x ks s = (u, none) →
        ∃ t, exec (.rescueComplete q) s = .next t ∧ t.rescue q = { u.rescue q with st := 2, run := none } ∧ t = { u with rescues := t.rescues }) ∧
      (∀ a : Nat, rescueRun w x ks s = (u, some a) →
        ∃ t, exec (.rescueComplete q) s = .next t ∧ t = { u with rescues := t.rescues } ∧
          t.rescue q = { u.rescue q with st := 3, addr := BitVec.ofNat 48 a, run := none }))

/-- DETECT_POLL, TRAINING_COMPLETE, TRAINING_TIMEOUT, IDENTIFY_TIMEOUT, HOLDOFF_EXPIRY, LANE_SIGNAL_CHANGE, SIGNAL_LOSS_TIMEOUT and PORT_CTRL (R319 to R321, R326). -/
def Obligations.PortsAndRoutesFollowTheirStates : Prop :=
  ∀ (s : State),
    let down (p : Fin 32) (cause : Nat) (t : State) : Prop :=
      let x := s.port p
      let y := t.port p
      y.st = 8 ∧ y.cause = cause ∧ y.departs = x.departs + 1 ∧ y.sess = {} ∧ y.replay = [] ∧ y.outQ = [] ∧ y.cred0 = 0 ∧ y.cred1 = 0 ∧
        y.flitsTx = x.flitsTx ∧ y.flitsRx = x.flitsRx ∧ y.lanes = x.lanes ∧ y.mode = x.mode ∧ y.partDev = x.partDev ∧
        (∀ d : Nat, d ≠ p.val → t.port d = s.port d) ∧ t.mem = s.mem ∧ t.cores = s.cores
    (∀ (p : Fin 32) (lanes : BitVec 4),
      ((s.port p).st = 1 → ∃ t, exec (.detectPoll p lanes) s = .next t ∧ (s.port p).since + 1000000 ≤ t.now ∧
        t.port p = { s.port p with st := (if lanes = 15 then 2 else 1), since := t.now } ∧
        (∀ d : Nat, d ≠ p.val → t.port d = s.port d) ∧ t.mem = s.mem) ∧
      ((s.port p).st ≠ 1 → exec (.detectPoll p lanes) s = .next s)) ∧
    (∀ (p : Fin 32) (rev : Bool),
      ((s.port p).st = 2 → ∃ t, exec (.trainingComplete p rev) s = .next t ∧ (t.port p).reversed = rev ∧ (t.port p).cred0 = 64 ∧
        (t.port p).lost = [] ∧ (t.port p).since = s.now ∧
        (s.trellis.gen = 0 → (t.port p).st = 3 ∧ (t.port p).outQ = []) ∧
        (s.trellis.gen ≠ 0 → (s.port p).mode = 2 → (t.port p).st = 6) ∧
        (s.trellis.gen ≠ 0 → (s.port p).mode ≠ 2 → (t.port p).st = 4 ∧ ∃ k, (t.port p).outQ = [k] ∧ k.plain = true ∧ k.vc = false) ∧
        ∀ d : Nat, d ≠ p.val → t.port d = s.port d) ∧
      ((s.port p).st ≠ 2 → exec (.trainingComplete p rev) s = .next s ∧ exec (.trainingTimeout p) s = .next s) ∧
      ((s.port p).st = 2 → ∃ t, exec (.trainingTimeout p) s = .next t ∧ down p 5 t)) ∧
    (∀ l : LinkId, s.linkSt l ≠ 4 → exec (.identifyTimeout l) s = .next s) ∧
    (∀ p : Fin 32, (s.port p).st = 4 → ∃ t, exec (.identifyTimeout (.port p)) s = .next t ∧ down p 6 t ∧ (s.port p).since + 50000000 ≤ t.now) ∧
    (∀ d : Fin 8192, (s.route d).st = 4 → ∃ t, exec (.identifyTimeout (.route d)) s = .next t ∧
      t.route d = { st := 8, cause := 6, since := t.now } ∧ t.ports = s.ports) ∧
    (∀ p : Fin 32, (s.port p).st = 8 → s.broughtUp = true → ∃ t, exec (.holdoffExpiry (.port p)) s = .next t ∧
      t.port p = { s.port p with st := (if (s.port p).hold ∨ (s.port p).mode = 0 then 0 else 1), since := t.now } ∧
      (s.port p).since + 10000000 ≤ t.now ∧ ∀ d : Nat, d ≠ p.val → t.port d = s.port d) ∧
    (∀ d : Fin 8192, (s.route d).st = 8 → s.broughtUp = true → (∀ q : Nat, s.portUp q = false) →
      ∃ t, exec (.holdoffExpiry (.route d)) s = .next t ∧ t.route d = { s.route d with st := 0, since := t.now } ∧ t.ports = s.ports) ∧
    (∀ (p : Fin 32) (lane : Fin 4) (sig lock : Bool) (snr : BitVec 6),
      ∃ t, exec (.laneSignalChange p lane sig lock snr) s = .next t ∧ t = { s with ports := t.ports } ∧
        (t.port p).lanes.look lane 0 = BitVec.ofNat 8 ((if sig then 1 else 0) + (if lock then 2 else 0) + 4 * snr.toNat) ∧
        (sig = true → lock = true → (t.port p).lost.find lane = none) ∧
        (sig = false ∨ lock = false → (t.port p).lost.find lane = some (((s.port p).lost.find lane).getD s.now)) ∧
        (∀ d : Nat, d ≠ p.val → t.port d = s.port d)) ∧
    (∀ (p : Fin 32) (lane : Fin 4) (n : Nat), (s.port p).lost.find lane = some n →
      ((s.port p).live = true → ∃ t, exec (.signalLossTimeout p lane) s = .next t ∧ down p 1 t ∧ n + 10000 ≤ t.now) ∧
      ((s.port p).live = false → exec (.signalLossTimeout p lane) s = .next s)) ∧
    (∀ l : LinkId, s.linkSt l ≠ 8 ∨ s.broughtUp = false → exec (.holdoffExpiry l) s = .next s) ∧
    (∀ (p : Fin 32) (r : Requester) (v : Word), writesBlock r = true →
      (v.getLsbD 0 = true → (s.port p).st = 0 ∨ (s.port p).st = 8 → ∃ t, exec (.portCtrl r p v) s = .next t ∧
        t.port p = { s.port p with hold := true } ∧ t = { s with ports := t.ports }) ∧
      (v.getLsbD 0 = true → (s.port p).st ≠ 0 → (s.port p).st ≠ 8 → ∃ t, exec (.portCtrl r p v) s = .next t ∧ down p 7 t ∧
        (t.port p).hold = true) ∧
      (v.getLsbD 0 = false → (s.port p).st = 0 → ∃ t, exec (.portCtrl r p v) s = .next t ∧
        t.port p = { s.port p with hold := false, st := (if (s.port p).mode = 0 then 0 else 1), since := s.now } ∧ t = { s with ports := t.ports }) ∧
      (v.getLsbD 0 = false → (s.port p).st ≠ 0 → ∃ t, exec (.portCtrl r p v) s = .next t ∧
        t.port p = { s.port p with hold := false } ∧ t = { s with ports := t.ports })) ∧
    (∀ (p : Fin 32) (r : Requester) (v : Word), writesBlock r = false → exec (.portCtrl r p v) s = .next s)

/-- DATA_FLIT, IDLE_FLIT and REPLAY_TIMEOUT (R307 to R311). -/
def Obligations.FlitsAreTakenInSequenceAndReplayed : Prop :=
  ∀ (p : Fin 32) (s : State),
    let x := s.port p
    (∀ (f : Bytes) (i : Instr), i = .dataFlit p f ∨ i = .idleFlit p f →
      (f.length ≠ 272 → exec i s = .fault .illFormed) ∧
      (f.length = 272 → x.live = false ∨ x.mode ≠ 1 → exec i s = .next s) ∧
      (f.length = 272 → x.live = true → x.mode = 1 →
        (∀ n : Nat, flitDecode f = (none, n) → ∃ t, exec i s = .next t ∧ (t.port p).fecBad = x.fecBad + 1 ∧ (t.port p).fecCorr = x.fecCorr + n ∧
          (t.port p).nakSent = true ∧ (t.port p).rxBytes = x.rxBytes ∧ (t.port p).rxSeq = x.rxSeq ∧ (t.port p).replay = x.replay ∧
          (∀ d : Nat, d ≠ p.val → t.port d = s.port d) ∧ t.mem = s.mem) ∧
        (∀ (b : Bytes) (n : Nat), flitDecode f = (some b, n) → bit (fld b 0 4) 22 = false →
          let h := fld b 0 4
          ∃ t, exec i s = .next t ∧ (t.port p).fecCorr = x.fecCorr + n ∧ (t.port p).fecBad = x.fecBad ∧
            (bit h 23 = true → (t.port p).cred1 = x.cred1 + bits h 31 24 ∧ (t.port p).cred0 = x.cred0) ∧
            (bit h 23 = false → (t.port p).cred0 = x.cred0 + bits h 31 24 ∧ (t.port p).cred1 = x.cred1) ∧
            (t.port p).replay = (x.ack (bits h 21 12) s.now).replay ∧
            (bits h 1 0 = 1 → bits h 11 2 = x.rxSeq → (t.port p).rxBytes = x.rxBytes ++ (b.drop 4).take 248 ∧
              (t.port p).rxSeq = (x.rxSeq + 1) % 1024 ∧ (t.port p).flitsRx = x.flitsRx + 1 ∧ (t.port p).nakSent = false) ∧
            (bits h 1 0 = 1 → bits h 11 2 ≠ x.rxSeq → (t.port p).rxBytes = x.rxBytes ∧ (t.port p).rxSeq = x.rxSeq ∧
              (t.port p).flitsRx = x.flitsRx ∧ (t.port p).nakSent = true) ∧
            (bits h 1 0 ≠ 1 → (t.port p).rxBytes = x.rxBytes ∧ (t.port p).rxSeq = x.rxSeq ∧ (t.port p).flitsRx = x.flitsRx ∧
              (t.port p).flitOut = x.flitOut) ∧
            (∀ d : Nat, d ≠ p.val → t.port d = s.port d) ∧ t.mem = s.mem))) ∧
    (x.live = true → x.replay ≠ [] → (∀ e ∈ x.replay, e.2.1 < 16) → ∃ t, exec (.replayTimeout p) s = .next t ∧
      (t.port p).retries = x.retries + 1 ∧ (t.port p).replay = x.replay.map (fun e => (e.1, e.2.1 + 1, e.2.2)) ∧ (t.port p).flitsTx = x.flitsTx + x.replay.length ∧
      (t.port p).txSeq = x.txSeq ∧ x.progAt + 1000 ≤ t.now ∧ (∀ d : Nat, d ≠ p.val → t.port d = s.port d) ∧ t.mem = s.mem) ∧
    (x.live = true → (∃ e ∈ x.replay, 16 ≤ e.2.1) → ∃ t, exec (.replayTimeout p) s = .next t ∧ (t.port p).st = 8 ∧ (t.port p).cause = 2) ∧
    (x.live = false ∨ x.replay = [] → exec (.replayTimeout p) s = .next s)

/-- MARUNO_PACKET_SEND, CONTROL_PACKET, COLLECTIVE_PACKET, TRANSPORT_ACK, ACK_TIMER and RETRANSMIT_TIMEOUT (R311 to R317). -/
def Obligations.PacketsAreSentCheckedAndAcknowledged : Prop :=
  ∀ (s : State),
    (∀ (p : Fin 32) (k : OutPkt), (s.port p).choose s.now = some k →
      let x := s.port p
      let plain := k.plain && !x.sess.ready
      let n := k.size plain
      x.replay.length + (x.txPad + x.txBytes.length + n) / 248 + 1 ≤ 128 →
      (plain = true ∨ x.sess.tx.psn < 2 ^ 41 → ∃ t, exec (.marunoPacketSend (.port p)) s = .next t ∧
        (t.port p).outQ = dropFirst (· == k) x.outQ ∧ (t.port p).sess.tx.psn = (if plain then x.sess.tx.psn else x.sess.tx.psn + 1) ∧
        (t.port p).cred0 = (if k.vc then x.cred0 else x.cred0 - (n + 63) / 64) ∧
        (t.port p).cred1 = (if k.vc then x.cred1 - (n + 63) / 64 else x.cred1) ∧
        (∀ e ∈ x.replay, e ∈ (t.port p).replay) ∧ (∀ d : Nat, d ≠ p.val → t.port d = s.port d) ∧ t.mem = s.mem) ∧
      (plain = false → 2 ^ 41 ≤ x.sess.tx.psn → 4 ≤ x.st → x.st ≤ 7 → ∃ t, exec (.marunoPacketSend (.port p)) s = .next t ∧
        (t.port p).st = 8 ∧ (t.port p).cause = 4)) ∧
    (∀ p : Fin 32, (s.port p).choose s.now = none →
      ((s.port p).txBytes = [] ∨ 128 ≤ (s.port p).replay.length → exec (.marunoPacketSend (.port p)) s = .next s) ∧
      ((s.port p).txBytes ≠ [] → (s.port p).replay.length < 128 → ∃ t, exec (.marunoPacketSend (.port p)) s = .next t ∧
        (t.port p).txBytes = [] ∧ (s.port p).replay.length < (t.port p).replay.length ∧ (t.port p).outQ = (s.port p).outQ ∧
        (∀ d : Nat, d ≠ p.val → t.port d = s.port d) ∧ t.mem = s.mem)) ∧
    (∀ (d : Fin 8192) (k : OutPkt) (f : RouteForm) (p : Nat), (s.route d).choose s.now = some k → s.routeForm d = some f →
      (if k.vc then (if s.portUp k.port then some k.port else none) else s.routePort f) = some p →
      let x := s.route d
      let plain := k.plain && !x.sess.ready
      plain = true ∨ x.sess.tx.psn < 2 ^ 41 → ∃ t, exec (.marunoPacketSend (.route d)) s = .next t ∧
        (t.route d).outQ = dropFirst (· == k) x.outQ ∧ (t.route d).sess.tx.psn = (if plain then x.sess.tx.psn else x.sess.tx.psn + 1) ∧
        (plain = true → (t.route d).unacked = x.unacked) ∧
        (plain = false → ∃ b, (t.route d).unacked = x.unacked ++ [(x.sess.tx.psn, p, b)]) ∧
        (∀ e : Nat, e ≠ d.val → t.route e = s.route e) ∧ t.mem = s.mem) ∧
    (∀ (p : Fin 32) (pkt rest : Bytes), (s.port p).nextPacket = some (pkt, rest) → (s.port p).live = true → packetType pkt = 0 →
      s.linkRoom false (p.val / 8) pkt.length = true →
      (let x := (s.port p).sess
       (x.ready = true ∧ packetPlain pkt = true) ∨ (x.ready = false ∧ packetPlain pkt = false) ∨
         (x.ready = true ∧ x.rx.psn < 2 ^ 41 ∧ packetPlain pkt = false ∧ openPacket x.rx pkt = none) →
        ∃ t, exec (.controlPacket (.native p)) s = .next t ∧ (t.port p).st = 8 ∧ (t.port p).cause = 3 ∧
          (t.port p).authFail = (s.port p).authFail + 1) ∧
      ((s.port p).sess.ready = false → packetPlain pkt = true → ∃ t, exec (.controlPacket (.native p)) s = .next t ∧
        t.port p = { s.port p with rxBytes := rest, owe0 := (s.port p).owe0 + (pkt.length + 63) / 64 } ∧
        t = { s with ports := t.ports, fabric := t.fabric })) ∧
    (∀ (p : Fin 32) (pkt rest : Bytes), (s.port p).nextPacket = some (pkt, rest) →
      s.linkRoom (packetType pkt = 1) (p.val / 8) pkt.length = false →
      exec (.controlPacket (.native p)) s = .next s ∧ exec (.collectivePacket (.native p)) s = .next s) ∧
    (∀ (rx : LinkRx) (u : State) (l : LinkId) (q : Nat) (b : Bytes), s.packetIn rx (fun t => t = 0) = (u, some (l, q, b)) →
      exec (.controlPacket rx) s = .next (if (u.sessOf l).ready && b.length = 16 then u.timeIn l b else u)) ∧
    (∀ (rx : LinkRx) (u : State) (l : LinkId) (q : Nat) (b : Bytes), s.packetIn rx (fun t => t = 1) = (u, some (l, q, b)) →
      exec (.collectivePacket rx) s = .next (if u.linkSt l = 6 && 32 ≤ b.length then u.collPacket q b else u)) ∧
    (∀ (rx : LinkRx) (u : State), s.packetIn rx (fun t => t = 0) = (u, none) → exec (.controlPacket rx) s = .next u) ∧
    (∀ (rx : LinkRx) (u : State), s.packetIn rx (fun t => t = 1) = (u, none) → exec (.collectivePacket rx) s = .next u) ∧
    (∀ (p : Fin 32) (ce : Bool) (pkt : Bytes) (u : State) (d : Fin 8192) (q : Nat) (b : Bytes),
      s.packetIn (.frame p ce pkt) (fun t => 2 ≤ t) = (u, some (.route d, q, b)) → packetType pkt = 2 → bit (fld b 8 1) 0 = false →
      ∃ t, exec (.transportAck (.frame p ce pkt)) s = .next t ∧ t = { u with routes := t.routes } ∧
        (t.route d).unacked = (u.route d).unacked.filter (fun e => !(e.1 ≤ fld b 0 8 && fld b 0 8 < 2 ^ 63)) ∧
        (t.route d).cred0 = (u.route d).cred0 + fld b 10 2 ∧ (t.route d).cred1 = (u.route d).cred1 + fld b 12 2 ∧
        ∀ e : Nat, e ≠ d.val → t.route e = u.route e) ∧
    (∀ p : Fin 32, exec (.ackTimer (.port p)) s = .next s ∧ exec (.retransmitTimeout (.port p)) s = .next s) ∧
    (∀ (d : Fin 8192) (p : Nat),
      let x := s.route d
      (x.ackDue = false → exec (.ackTimer (.route d)) s = .next s) ∧
      (x.ackDue = true → x.sess.ready = true → (s.routeForm d).bind s.routePort = some p → x.sess.tx.psn < 2 ^ 41 →
        ∃ t b, exec (.ackTimer (.route d)) s = .next t ∧ (t.route d).owe0 = 0 ∧ (t.route d).owe1 = 0 ∧ (t.route d).ackDue = false ∧
          (t.route d).sess.tx.psn = x.sess.tx.psn + 1 ∧ (t.route d).unacked = x.unacked ++ [(x.sess.tx.psn, p, b)] ∧ t.mem = s.mem) ∧
      (x.unacked = [] → exec (.retransmitTimeout (.route d)) s = .next s) ∧
      (x.unacked ≠ [] → x.timeouts < 7 → ∃ t, exec (.retransmitTimeout (.route d)) s = .next t ∧ (t.route d).timeouts = x.timeouts + 1 ∧
        (t.route d).unacked = x.unacked ∧ x.progAt + 16000 ≤ t.now ∧ t.mem = s.mem) ∧
      (x.unacked ≠ [] → 7 ≤ x.timeouts → x.st ≠ 8 → ∃ t, exec (.retransmitTimeout (.route d)) s = .next t ∧ (t.route d).st = 8 ∧
        (t.route d).cause = 2 ∧ (t.route d).unacked = []))

/-- REDUCE, ALL_REDUCE, REDUCE_SCATTER, ALL_GATHER, BROADCAST, BARRIER (R333 to R338), START_AT_REACHED (R351) and GROUP_SEL (Table 14.10; when LATE_ABORT clears is the model's reading, log entry 52). -/
def Obligations.CollectivesStartAndRun : Prop :=
  ∀ (g : Fin 4096) (s : State),
    let starts (x : Instr) (op : Nat) : Prop :=
      ∀ (r : GroupRec) (i : CollItem) (rest : List CollItem) (s1 : State), s.groupRec g = some r → r.group = g.val →
        (s.group g).running = none → (s.group g).queue = i :: rest →
        let d := parseColl i.desc
        let j : CollItem := { i with late := false }
        let me := (s.member r).1
        d.op = op → d.start = 0 → i.cmd = none → s.running = true → s.admits (s.collSrc r) = true → (s.group g).early = [] →
        (∀ rs, s.collCheck r j = (s1, none, rs) →
          let seq := (s.group g).nextSeq.toNat
          let u0 : CollRun := { item := j, began := s1.now, start := s1.cellar.count, own := [] }
          let s2 := s1.onGroup g fun x =>
            { x with queue := rest, nextSeq := x.nextSeq + 1, early := x.early.filter (fun p => p.seq != seq), running := some u0 }
          ∀ (s3 s4 s5 : State) (b : Bytes) (u1 u2 : CollRun),
            (if d.srcN me = 0 then (s2, [], none) else s2.collRead (s2.collEng r j) d.src (d.srcN me * elemBytes d.fmt)) = (s3, b, none) →
            let own := (List.range (d.srcN me)).map fun k => BitVec.ofNat 128 (fld b (k * elemBytes d.fmt) (elemBytes d.fmt))
            s3.collFirst r d { u0 with own := own } seq = (s4, u1) → collPump r d seq (collFuel r d) s4 u1 = (s5, u2, none) →
            ∃ t, exec x s = .next t ∧ (t.group g).running = some u2 ∧ (t.group g).queue = rest ∧
              (t.group g).nextSeq = (s.group g).nextSeq + 1 ∧ u2.own = own ∧ u2.item = j ∧ t = { s5 with groups := t.groups }) ∧
        (∀ (c : Nat) (st : Byte) rs, s.collCheck r j = (s1, some (c, st), rs) →
          ∃ t, exec x s = .next t ∧ (t.group g).running = none ∧ (t.group g).aborts = (s.group g).aborts + 1 ∧
            (t.group g).cause = BitVec.ofNat 8 c ∧ (t.group g).nextSeq = (s.group g).nextSeq + 1)
    starts (.reduce g) 0 ∧ starts (.allReduce g) 1 ∧ starts (.reduceScatter g) 2 ∧ starts (.allGather g) 3 ∧
    starts (.broadcast g) 4 ∧ starts (.barrier g) 5 ∧
    (∀ (i : CollItem) (rest : List CollItem), (s.group g).running = none → (s.group g).queue = i :: rest → i.cmd = none → i.due = false →
      s.cellar.count ≤ (parseColl i.desc).start → (parseColl i.desc).start ≠ 0 →
      ∃ t, exec (.startAtReached g) s = .next t ∧ t.cellar.count = (parseColl i.desc).start ∧ (t.group g).queue = { i with due := true } :: rest ∧
        (t.group g).running = none ∧ t.mem = s.mem ∧ t.cores = s.cores) ∧
    (∀ (q : Fin 4) (x : Requester) (v : Word), writesBlock x = false → exec (.groupSel x q v) s = .next s) ∧
    (∀ (q : Fin 4) (x : Requester) (v : Word), writesBlock x = true →
      ∃ t, exec (.groupSel x q v) s = .next t ∧ (t.coll q).sel = v.setWidth 12 ∧ (t.coll q).discards = (s.coll q).discards ∧
        t = { s with colls := t.colls, groups := t.groups } ∧
        (∀ r, s.groupRec (s.coll q).sel.toNat = some r → (s.member r).2 = q.val → (t.group (s.coll q).sel.toNat).lateAbort = false))

/-- COLLECTIVE_COMPLETE and COLLECTIVE_TIMEOUT (R335, R338, R339, R343, R345). -/
def Obligations.CollectivesCompleteOrAbort : Prop :=
  ∀ (g : Fin 4096) (s : State) (r : GroupRec) (u : CollRun), s.groupRec g = some r → r.group = g.val → (s.group g).running = some u →
    let d := parseColl u.item.desc
    let me := (s.member r).1
    (∀ s1 : State, s.goes (s.collSrc r) = true → segCount r d ≤ u.seg + 1 → s.collResult r d u = (s1, none) →
      exec (.collectiveComplete g) s = .next s1) ∧
    (u.seg + 1 < segCount r d → exec (.collectiveComplete g) s = .next s) ∧
    (∀ (s1 s2 : State) (xs : List DstRun), s.goes (s.collSrc r) = true → segCount r d ≤ u.seg + 1 →
      s.collResult r d u = (s1, some (xs, none)) → State.collWrite (s1.collEng r u.item) d xs s1 = (s2, false) →
      let fl := (collFlags r d u xs).toNat + 0x20 * b2n u.item.late
      ∃ t, exec (.collectiveComplete g) s = .next t ∧ (t.group g).running = none ∧ (∃ k, (t.group g).ended.find k = some u.item.ctx) ∧
        (t.group g).aborts = (s2.group g).aborts ∧ (t.group g).queue = (s2.group g).queue ∧
        t.mem = (s2.collStatus (s2.collEng r u.item) d fl).mem ∧ (d.stat = 0 → t.mem = s2.mem)) ∧
    (s.goes (s.collSrc r) = false → exec (.collectiveComplete g) s = .next s) ∧
    (∀ (ls : List (List (BitVec 128))), collAlg r d = .direct → d.op = 1 → d.epi.smode = 0 →
      s.faults.inj0.armed = false → s.faults.inj1.armed = false →
      let part := segOf r d u.seg
      (List.range r.n).mapM (fun m => u.elems me m (elemBytes d.fmt) part.1 part.2) = some ls →
      ∃ xs, s.collResult r d u = (s, some ([(part.1, xs)], none)) ∧ xs.length = part.2 ∧
        ∀ j : Nat, j < part.2 → (xs.getD j (0, 0)).1 =
          (d.epi.finish (collCombine d.fmt (ls.map fun l => l.getD j 0)).1 none none).1) ∧
    (u.item.core = none → u.item.cmd = none →
      ∃ t, exec (.collectiveTimeout g) s = .next t ∧ (t.group g).running = none ∧ (t.group g).aborts = (s.group g).aborts + 1 ∧
        (t.group g).cause = 1 ∧ u.began + 1000 * r.timeout ≤ t.now) ∧
    (∀ c idx, u.item.core = some (c, idx) → u.item.cmd = none →
      ∃ t, exec (.collectiveTimeout g) s = .next t ∧ (t.group g).running = none ∧ (t.group g).aborts = (s.group g).aborts + 1 ∧
        (t.group g).cause = 1 ∧ u.began + 1000 * r.timeout ≤ t.now ∧ (t.core c).cq.err = true ∧
        ∀ i ∈ (t.group g).queue, ∀ k, i.core = some (c, k) → k < idx) ∧
    (∀ q serial, u.item.cmd = some (q, serial) →
      ∃ t, exec (.collectiveTimeout g) s = .next t ∧ (t.group g).running = none ∧ (t.group g).aborts = (s.group g).aborts + 1 ∧
        (t.group g).cause = 1 ∧ u.began + 1000 * r.timeout ≤ t.now)

/-- CELLAR_SLEW, CELLAR_SYNC_EDGE, LOAD_CMD, CELLAR_CTRL, TIME_EXCHANGE, SYNC_LOSS_TIMEOUT, CELLAR_REF_LOSS and CELLAR_REF_RETURN (R347 to R350). -/
def Obligations.TheCellarCountIsKept : Prop :=
  ∀ (s : State),
    let c := s.cellar
    let report (t : State) : Prop := t.faults.flight = s.faults.flight ++ [{ src := 134, sev := 0, cause := 0x12, ctx := none, part := none }]
    (c.slew = 0 → exec .cellarSlew s = .next s) ∧
    ((∀ n, c.slewAt = some n → n + 10000 ≤ s.now) →
      (0 < c.slew → ∃ t, exec .cellarSlew s = .next t ∧ t.cellar.count = c.count + 1 ∧ t.cellar.slew = c.slew - 1 ∧ t.now = s.now ∧
        t.cellar.slewAt = some t.now ∧ t.mem = s.mem) ∧
      (c.slew < 0 → ∃ t, exec .cellarSlew s = .next t ∧ t.cellar.count = c.count ∧ t.cellar.slew = c.slew + 1 ∧ t.now = s.now + 1 ∧
        t.cellar.slewAt = some t.now ∧ t.mem = s.mem)) ∧
    (∀ frac : BitVec 4, ∃ t, exec (.cellarSyncEdge frac) s = .next t ∧ t.cellar.armed = false ∧ t.now = s.now ∧ t.mem = s.mem ∧ c.count ≤ t.cellar.count ∧
      (c.armed = true → c.count < c.load.toNat → t.cellar.count = c.load.toNat ∧ t.cellar.refused = c.refused) ∧
      (c.armed = true → c.load.toNat ≤ c.count → t.cellar.count = c.count ∧ t.cellar.refused = true) ∧
      (c.armed = false → t.cellar.count = c.count ∧ t.cellar.refused = c.refused) ∧
      (c.source ≠ 1 → t.cellar.slew = c.slew ∧ t.cellar.offset = c.offset ∧ t.cellar.locked = c.locked) ∧
      (c.source = 1 → c.armed = false →
        let r := c.count % c.period.toNat
        let err : Int := 16 * (if 2 * r ≤ c.period.toNat then (r : Int) else (r : Int) - c.period.toNat) + frac.toNat
        t.cellar.offset = err ∧ t.cellar.slew = -(err.tdiv 16) ∧ (t.cellar.locked = true ↔ err.natAbs < 16) ∧ t.cellar.missed = 0 ∧
          t.cellar.holdover = false ∧ t.cellar.edgeAt = s.now)) ∧
    (∀ (r : Requester) (v : Word), writesBlock r = false → exec (.loadCmd r v) s = .next s ∧ exec (.cellarCtrl r v) s = .next s) ∧
    (∀ (r : Requester) (v : Word), writesBlock r = true →
      (v = 1 → exec (.loadCmd r v) s = .next { s with cellar := { c with armed := true, refused := false } }) ∧
      (v ≠ 1 → exec (.loadCmd r v) s = .next s) ∧
      (∃ t, exec (.cellarCtrl r v) s = .next t ∧ t.cellar.ctrl = (v.setWidth 29 &&& 0x1FFF01FF) ∧ t.cellar.locked = false ∧
        t.cellar.slew = 0 ∧ t.cellar.count = c.count ∧ t.cellar.holdover = c.holdover ∧ t = { s with cellar := t.cellar })) ∧
    (∀ p : Fin 32, c.link = some (.port p) → (s.port p).st = 6 → c.edgeAt + c.period.toNat ≤ s.now →
      ∃ t k, exec .timeExchange s = .next t ∧ t.cellar.seq = c.seq + 1 ∧ t.cellar.t3 = some c.count ∧ t.cellar.t1 = none ∧ t.cellar.t2 = none ∧
        t.cellar.count = c.count ∧ (t.port p).outQ = (s.port p).outQ ++ [k] ∧ k.vc = false ∧
        k.payload = [3, 0] ++ leBytes 2 (c.seq + 1).toNat ++ leBytes 4 0 ++ leBytes 8 0 ∧
        (c.replied = true → t.cellar.missed = 0) ∧ (c.replied = false → c.missed ≠ 0xFFFF → t.cellar.missed = c.missed + 1) ∧ t.mem = s.mem) ∧
    (c.link = none → exec .timeExchange s = .next s) ∧
    (c.holdover = true → exec .syncLossTimeout s = .next s) ∧
    (c.holdover = false → c.source = 1 → ∃ t, exec .syncLossTimeout s = .next t ∧ t.cellar.holdover = true ∧ t.cellar.locked = false ∧
      t.cellar.missed = 3 ∧ c.edgeAt + 3 * c.period.toNat ≤ t.now ∧ report t) ∧
    (c.holdover = false → c.source = 2 → 3 ≤ c.missed.toNat → ∃ t, exec .syncLossTimeout s = .next t ∧
      t.cellar = { c with holdover := true, locked := false } ∧ report t ∧ t = { s with cellar := t.cellar, faults := t.faults }) ∧
    (c.refLost = false → (∃ t, exec .cellarRefLoss s = .next t ∧ t.cellar = { c with refLost := true } ∧ report t ∧
      t = { s with cellar := t.cellar, faults := t.faults }) ∧ exec .cellarRefReturn s = .next s) ∧
    (c.refLost = true → (∃ t, exec .cellarRefReturn s = .next t ∧ t.cellar = { c with refLost := false } ∧ report t ∧
      t = { s with cellar := t.cellar, faults := t.faults }) ∧ exec .cellarRefLoss s = .next s)

/-- ENTDAA, SETDASA, SET_ENDPOINT_ID, I3C_BUS_FAULT, I3C_RECOVERY (R354, R355), the PLDM rows (R354, R358, R362) and the unit state word (R368, R369). -/
def Obligations.ManagementAnswersOnlyWhenItMay : Prop :=
  ∀ (s : State),
    let m := s.mgmt
    let only (t : State) : Prop := t = { s with mgmt := t.mgmt }
    (∀ (i : Instr) (addr : BitVec 7), i = .entdaa addr ∨ i = .setdasa 0x3A addr →
      (s.hubUp = true → m.i3cAddr = none → exec i s = .next { s with mgmt := { m with i3cAddr := some addr } }) ∧
      (s.hubUp = false ∨ m.i3cAddr ≠ none → exec i s = .next s)) ∧
    (∀ st addr : BitVec 7, st ≠ 0x3A → exec (.setdasa st addr) s = .next s) ∧
    (s.hubUp = true → exec .i3cBusFault s = .next { s with mgmt := { m with i3cDown := true, i3cFault := m.i3cFault + 1 } }) ∧
    (∃ t, exec .i3cRecovery s = .next t ∧ t = { s with mgmt := { m with i3cDown := t.mgmt.i3cDown } } ∧
      (t.mgmt.i3cDown = true ↔ m.i3cDown = true ∧ m.i3cAddr = none)) ∧
    (∀ (b : Binding) (eid code : Byte) (id : Nat) (w k : Int),
      let ans (a : Answer) : State := { s with mgmt := { m with answer := a, ansI3c := b == .i3c } }
      (s.mayAnswer b false = true →
        exec (.setEndpointId b eid) s = .next { s with mgmt := { m with eid := eid } } ∧
        exec (.pldmBaseRequest b code) s = .next (ans (.base code)) ∧
        (sensorExists id = true → id ≠ 48 → exec (.pldmSensorReading b id) s = .next (ans (.sensor id (m.sensors.look id 0)))) ∧
        exec (.pldmSensorReading b 48) s = .next (ans (.sensor 48 s.cellar.offset)) ∧
        (sensorExists id = false → exec (.pldmSensorReading b id) s = .next (ans .refused) ∧
          exec (.setSensorThresholds b id w k) s = .next (ans .refused)) ∧
        (sensorExists id = true → ∃ t, exec (.setSensorThresholds b id w k) s = .next t ∧ only t ∧
          t.mgmt = { m with limits := m.limits.set id (some (w, k)), answer := .thresholds, ansI3c := b == .i3c })) ∧
      (s.mayAnswer b false = false → exec (.setEndpointId b eid) s = .next s ∧ exec (.pldmBaseRequest b code) s = .next s ∧
        exec (.pldmSensorReading b id) s = .next s ∧ exec (.setSensorThresholds b id w k) s = .next s)) ∧
    (∀ (b : Binding) (off : Nat) (data : Bytes), s.mayAnswer b true = true → off + data.length ≤ 0x800000 → m.signing = none →
      ∃ t, exec (.pldmFirmwareUpdate b off data) s = .next t ∧ only t ∧ t.mgmt.updated = true ∧
        (m.others.any SignReq.verifies = false → t.mgmt.signing = some (.firmware b)) ∧
        (∀ a : Nat, t.mgmt.flash.look a 0xFF =
          let p := s.otherSlot + off
          if p ≤ a ∧ a < p + data.length then data.getD (a - p) 0 else m.flash.look a 0xFF)) ∧
    (∀ (id : Nat) (v w c : Int), s.hubUp = true → sensorExists id = true → id ≠ 48 → m.limits.look id none = some (w, c) → w < c →
      let old := m.sensors.look id 0
      ∃ t, exec (.sensorUpdate id v) s = .next t ∧ only t ∧ t.mgmt.sensors.look id 0 = v ∧
        (old < w → w ≤ v → v < c → t.mgmt.events = m.events ++ [.crossing id false true]) ∧
        (old < w → c ≤ v → t.mgmt.events = m.events ++ [.crossing id false true, .crossing id true true]) ∧
        (w ≤ old → old < c → v < w → t.mgmt.events = m.events ++ [.crossing id false false]) ∧
        (old < w → v < w → t.mgmt.events = m.events) ∧ ∀ j : Nat, j ≠ id → t.mgmt.sensors.look j 0 = m.sensors.look j 0) ∧
    (∀ (u : Fin 120) (v : BitVec 2) (gen : BitVec 32), s.hubUp = true → s.boot.phase ≠ 5 →
      ((s.unit u).gen ≠ gen ∨ v = 3 → exec (.unitStateEffecter u v gen) s = .next { s with unitRefused := s.unitRefused + 1 }) ∧
      ((s.unit u).gen = gen → (s.unit u).adm = v → v ≠ 3 → v ≠ 2 → exec (.unitStateEffecter u v gen) s = .next s) ∧
      ((s.unit u).gen = gen → (s.unit u).adm ≠ v → v ≠ 3 → ∃ t, exec (.unitStateEffecter u v gen) s = .next t ∧
        (t.unit u).adm = v ∧ (t.unit u).gen = gen + 1 ∧ (t.unit u).oper = (s.unit u).oper ∧ t.mem = s.mem ∧
        (v ≠ 2 → t = { s with units := t.units } ∧ ∀ d : Nat, d ≠ u.val → t.unit d = s.unit d))) ∧
    (∀ (u : Fin 120) (r : Requester) (v : Word), (∀ c, r ≠ .ring c 0) ∨ v.toNat % 256 ≠ 0 ∨ v.toNat / 1024 % 2 ^ 22 ≠ 0 →
      exec (.operAliasWrite r u v) s = .next s) ∧
    (∀ (u : Fin 120) (c : Fin 64) (v : Word), v.toNat % 256 = 0 → v.toNat / 1024 % 2 ^ 22 = 0 →
      let o : BitVec 2 := v.extractLsb' 8 2
      ((s.unit u).gen ≠ v.extractLsb' 32 32 ∨ o = 2 →
        exec (.operAliasWrite (.ring c 0) u v) s = .next { s with unitRefused := s.unitRefused + 1 }) ∧
      ((s.unit u).gen = v.extractLsb' 32 32 → o ≠ 2 → ∃ t, exec (.operAliasWrite (.ring c 0) u v) s = .next t ∧
        (t.unit u).oper = o ∧ (t.unit u).gen = (if (s.unit u).oper = o then (s.unit u).gen else (s.unit u).gen + 1) ∧
        (t.unit u).adm = (s.unit u).adm ∧ t = { s with units := t.units }))

/-- The SPDM rows (R354, R356, R313), the signing engine (R357), TRELLIS_KEY_LOAD (R360) and HBM_KEY_LOAD (R282). -/
def Obligations.SpdmAnswersSessionsAndKeys : Prop :=
  ∀ (s : State),
    let m := s.mgmt
    let ans (b : Binding) (a : Answer) : State := { s with mgmt := { m with answer := a, ansI3c := b == .i3c } }
    (∀ b : Binding, s.mayAnswer b true = true →
      exec (.getVersion b) s = .next (ans b .version) ∧ exec (.getCapabilities b) s = .next (ans b .capabilities) ∧
      exec (.negotiateAlgorithms b) s = .next (ans b .algorithms) ∧ exec (.getDigests b) s = .next (ans b (.digests 1)) ∧
      exec (.getMeasurements b) s = .next (ans b .measurements) ∧
      exec (.getCertificate b 0) s = .next (ans b (.certificate s.jtag.debug)) ∧
      (∀ slot : BitVec 3, slot ≠ 0 → exec (.getCertificate b slot) s = .next (ans b .emptySlot)) ∧
      (∀ nonce, m.signing = none → exec (.challenge b 0 nonce) s = .next { s with mgmt := { m with signing := some (.challenge b) } }) ∧
      (∀ nonce r, m.signing = some r → exec (.challenge b 0 nonce) s = .next { s with mgmt := { m with others := m.others ++ [.challenge b] } }) ∧
      (∀ (slot : BitVec 3) nonce, slot ≠ 0 → exec (.challenge b slot nonce) s = .next (ans b .emptySlot)) ∧
      (∀ w : PeerId, w.ok = true → m.signing = none → ∃ t, exec (.keyExchange (.mgmt b) w) s = .next t ∧ t = { s with mgmt := t.mgmt } ∧
        t.mgmt.signing = some (.session (.mgmt b)) ∧ (t.mgmtSess b).who = some w ∧ (t.mgmtSess b).exchanged = false ∧ (t.mgmtSess b).ready = false) ∧
      (∀ w : PeerId, w.ok = false → exec (.keyExchange (.mgmt b) w) s = .next (ans b .refused)) ∧
      ((s.mgmtSess b).exchanged = true → (s.mgmtSess b).ready = false →
        (∃ t, exec (.finish (.mgmt b) true) s = .next t ∧ t.mgmtSess b = { s.mgmtSess b with ready := true } ∧ t.mgmt.answer = .finished) ∧
        (∃ t, exec (.finish (.mgmt b) false) s = .next t ∧ t.mgmtSess b = {} ∧ t.mgmt.answer = .refused)) ∧
      (∀ out : Bool, (s.mgmtSess b).ready = true → ∃ t, exec (.keyUpdate (.mgmt b) out) s = .next t ∧ t.mgmt.answer = .keyUpdated ∧
        (out = true → (t.mgmtSess b).tx.psn = 0 ∧ (t.mgmtSess b).rx = (s.mgmtSess b).rx) ∧
        (out = false → (t.mgmtSess b).rx.psn = 0 ∧ (t.mgmtSess b).tx = (s.mgmtSess b).tx)) ∧
      ((s.mgmtSess b).ready = true → exec (.spdmHeartbeat (.mgmt b)) s = .next (ans b .heartbeat)) ∧
      ((s.mgmtSess b).exchanged = true → ∃ t, exec (.endSession (.mgmt b)) s = .next t ∧ t.mgmtSess b = {} ∧ t.mgmt.answer = .ended)) ∧
    (∀ l : LinkId, s.linkSt l = 4 →
      (∀ w : PeerId, w.ok = true → m.signing = none → ∃ t, exec (.keyExchange (.link l) w) s = .next t ∧ (t.sessOf l).who = some w ∧
        (t.sessOf l).exchanged = false ∧ t.mgmt.signing = some (.session (.link l))) ∧
      (∀ w : PeerId, w.ok = false → ∃ t, exec (.keyExchange (.link l) w) s = .next t ∧ t.linkSt l = 8 ∧ t.sessOf l = {})) ∧
    (∀ r : SignReq, m.signing = some r →
      (∀ b, r = .challenge b → m.prov = [] → m.others = [] → ∃ t sig, exec .signatureComplete s = .next t ∧ t.mgmt.answer = .challenge sig ∧
        sig.length = 96 ∧ t.mgmt.signing = none ∧ t = { s with mgmt := t.mgmt, free := t.free }) ∧
      (∀ b w, r = .session (.mgmt b) → (s.mgmtSess b).who = some w → ∃ t, exec .signatureComplete s = .next t ∧
        (t.mgmtSess b).exchanged = true ∧ (t.mgmtSess b).ready = false ∧ (t.mgmtSess b).tx.psn = 0 ∧ (t.mgmtSess b).rx.psn = 0 ∧
        t.mgmt.answer = .session ∧
        (∀ x l, m.prov = x :: l → t.mgmt.signing = some x ∧ t.mgmt.prov = l) ∧
        (∀ x l, m.prov = [] → m.others = x :: l → t.mgmt.signing = some x ∧ t.mgmt.others = l))) ∧
    (m.signing = none → exec .signatureComplete s = .next s) ∧
    (∀ (b : Binding) (slot : Fin 4) (h : Option Digest),
      let own : Prop := s.mayAnswer b true = true ∧ (s.mgmtSess b).ready = true ∧
        ∃ w, (s.mgmtSess b).who = some w ∧ w.rootHash = Config.ownerKey
      (own → s.trellis.keys.look slot none = none → s.trellis.keysNext.look slot none = none →
        ∃ t, exec (.trellisKeyLoad ⟨b, slot⟩ h) s = .next t ∧ t.trellis.keys.look slot none = h ∧ t.trellis.keysNext = s.trellis.keysNext ∧
          t.mgmt = { m with answer := .loaded, ansI3c := b == .i3c }) ∧
      (own → s.trellis.keys.look slot none ≠ none → ∃ t, exec (.trellisKeyLoad ⟨b, slot⟩ h) s = .next t ∧
        t.trellis.keys = s.trellis.keys ∧ t.trellis.keysNext.look slot none = some h) ∧
      (¬ own → exec (.trellisKeyLoad ⟨b, slot⟩ h) s = .next s)) ∧
    (∀ (slot : Fin 1024) (st : BitVec 2) (key : BitVec 512) (gen : BitVec 16), (s.mgmtSess .vdm).ready = true → s.mayAnswer .vdm false = true →
      (st = 3 ∨ (st ≠ 2 ∧ key ≠ 0) ∨ (st ≠ 0 ∧ gen.toNat ≤ (m.newest slot).gen.toNat) →
        exec (.hbmKeyLoad slot st key gen) s = .next (ans .vdm .refused)) ∧
      (st = 2 → (m.newest slot).gen.toNat < gen.toNat → s.slotParts slot = [] → (∀ p ∈ m.keyPend, p.slot ≠ slot.val) →
        ∃ t, exec (.hbmKeyLoad slot st key gen) s = .next t ∧ t.mgmt.keys.look slot {} = ⟨2, gen, key⟩ ∧ t.mgmt.keyPend = m.keyPend ∧
          t = { s with mgmt := t.mgmt } ∧ ∀ k : Nat, k ≠ slot.val → t.mgmt.keys.look k {} = m.keys.look k {}))

/-- IDCODE, BYPASS, UNLOCK_CHALLENGE, UNLOCK_RESPONSE and the test reset (R359, R405). -/
def Obligations.TestPortUnlocksOnlyByChallenge : Prop :=
  ∀ (s : State) (sig : Bytes),
    exec .idcode s = .next { s with jtag := { s.jtag with ir := 1 } } ∧
    exec .bypass s = .next { s with jtag := { s.jtag with ir := 2 } } ∧
    exec .testReset s = .next { s with jtag := { s.jtag with ir := 0 } } ∧
    (∃ t n, exec .unlockChallenge s = .next t ∧ t.jtag = { s.jtag with ir := 3, nonce := some n } ∧ t = { s with jtag := t.jtag, free := t.free }) ∧
    (s.jtag.nonce = none ∨ s.now < s.jtag.nextTry → exec (.unlockResponse sig) s = .next s) ∧
    (∀ n, s.jtag.nonce = some n → s.jtag.nextTry ≤ s.now →
      ∃ t, exec (.unlockResponse sig) s = .next t ∧ t.jtag.nonce = none ∧ t.jtag.nextTry = s.now + 1000000000 ∧
        (Config.unlockValid n sig = true → t.jtag.debug = true ∧
          t.mgmt = { s.mgmt with keys := [], keyPend := [], secrets := false, sess := [] } ∧
          (∀ k, (t.port k).sess = (s.port k).sess.keyless) ∧ ∀ k, (t.routes.look k {}).sess = (s.routes.look k {}).sess.keyless) ∧
        (Config.unlockValid n sig = false → t.jtag.debug = s.jtag.debug ∧ t = { s with jtag := t.jtag }) ∧
        t = { s with jtag := t.jtag, mgmt := t.mgmt, ports := t.ports, routes := t.routes })

/-- ALARM (R377 to R379, R383 to R388), FAULT_DETAIL (R375), FAULT_ACK and FIRST_CLR (R380 to R382), COLLECTOR_STORAGE_READ (R392) and CONTEXT_HALT_TIMEOUT (R385). A held record's repetition of a context's fault is stated for context numbers of the device (below 1,024). -/
def Obligations.AlarmsAreRecordedAndAcknowledged : Prop :=
  ∀ (s : State) (a b : Alarm),
    let f := s.faults
    let x := f.slots.look a.src {}
    let part := a.part <|> a.ctx.bind s.partOfCtx
    let record : FSlot :=
      { valid := true, sev := a.sev, inj := a.inj, wait := !a.dry, fatal := a.sev = 4, src := BitVec.ofNat 8 a.src, cause := a.cause, ctx := a.ctx,
        part := part, maxSev := a.sev, cellar := BitVec.ofNat 64 s.cellar.count, seq := f.seq }
    let calm := f.inj0.armed = false ∧ f.inj1.armed = false ∧ f.stErr.look (4 * a.src) {} = {}
    (f.flight = [a] → a.sev = 0 → exec (.alarm ⟨0, none⟩) s = .next { s with faults := { f with
        flight := [], sev0 := f.sev0.set a.src (f.sev0.look a.src 0 + 1), sevN := f.sevN.set 0 (f.sevN.look 0 0 + 1) } }) ∧
    (f.flight = [a] → a.src < 139 → 1 ≤ a.sev → a.sev ≤ 4 → calm → x.sev < 8 → f.firstWait = none → ∃ t, exec (.alarm ⟨0, none⟩) s = .next t ∧
      let g := t.faults
      g.seq = f.seq + 1 ∧ g.faultN = f.faultN + 1 ∧ (f.first.valid = true → g.first = f.first) ∧
      (x.valid = false →
        g.slots = f.slots.set a.src record ∧ g.escN = f.escN ∧
        (a.dry = false → g.details.look a.src none = some (a.addr, a.info) ∧ g.dropped = f.dropped) ∧
        (a.dry = true → g.details = f.details ∧ g.dropped.look a.src 0 = f.dropped.look a.src 0 + 1) ∧
        g.sevN.look a.sev 0 = f.sevN.look a.sev 0 + 1 ∧
        (f.first.valid = false → g.first = record ∧ g.firstWait = (if a.dry then none else some a.src) ∧ g.concurN = f.concurN) ∧
        (3 ≤ a.sev → t.mgmt.events = s.mgmt.events ++ [.fault a.src a.cause a.sev]) ∧
        (a.sev = 1 → g.flight = [] ∧ t = { s with faults := g, host := t.host } ∧ t.host = (s.msix f.irqVec.toNat).host) ∧
        (∀ k, a.sev = 2 → a.ctx = some k → (s.ctxRec k).isSome = true → ∀ m : Nat, m < 8 → (s.queue (8 * k + m)).enable = true →
          (t.queue (8 * k + m)).err = true ∧ (t.queue (8 * k + m)).failed = true) ∧
        (a.sev = 2 → a.ctx = none → t = { s with faults := g, host := t.host }) ∧
        (∀ p, a.sev = 3 → part = some p → f.fatal = false → (s.part p).st ≠ 3 → (s.partRec p).isSome = true → s.trellis.staged = none →
          (a.src, f.seq.toNat) ∈ (t.part p).hold ∧ ((s.part p).st = 0 → (t.part p).st = 1 ∧ (t.part p).forced = true)) ∧
        (a.sev = 4 → g.fatal = true ∧ (f.fatal = false → g.alive = false ∧ t.host.aer = true ∧
          ∀ p : Fin 32, (t.port p).hold = true ∧ ((t.port p).st = 0 ∨ (t.port p).st = 8)))) ∧
      (x.valid = true →
        let rep : Byte := if x.rep = 255 then 255 else x.rep + 1
        let up := min 4 (a.sev + 1)
        g.dropped.look a.src 0 = f.dropped.look a.src 0 + 1 ∧ g.details = f.details ∧
        (∀ k, k < 1024 → x.cause = a.cause → x.ctx = some k → a.ctx = some k →
          g.slots = f.slots.set a.src { x with esc := true, rep := rep, maxSev := max x.maxSev up, fatal := x.fatal || decide (up = 4) } ∧
          g.escN = f.escN + 1 ∧ (up = 4 → g.fatal = true)) ∧
        (x.cause ≠ a.cause →
          g.slots = f.slots.set a.src { x with rep := rep, maxSev := max x.maxSev a.sev, fatal := x.fatal || decide (a.sev = 4) } ∧
          g.escN = f.escN))) ∧
    (∀ (r : Requester) (v : Word),
      (writesBlock r = false → ∀ n : Nat, exec (.alarm ⟨n, some (r, v)⟩) s = exec (.alarm ⟨n, none⟩) s) ∧
      (writesBlock r = true → f.flight = [a] → a.src < 139 → 1 ≤ a.sev → a.sev ≤ 4 → calm → x.valid = true → x.sev < 8 →
        v.toNat % 256 = a.src → v.toNat / 256 % 2 ^ 24 = 0 → v.extractLsb' 32 32 = x.seq →
        ∃ t, exec (.alarm ⟨0, some (r, v)⟩) s = .next t ∧
          let y := t.faults.slots.look a.src {}
          y.valid = true ∧ y.cause = a.cause ∧ y.ctx = a.ctx ∧ y.seq = f.seq ∧ y.rep = 0 ∧ y.wait = false ∧
          t.faults.details = f.details ∧ t.faults.dropped.look a.src 0 = f.dropped.look a.src 0 + 1)) ∧
    (f.flight = [a, b] → a.src < b.src → b.src < 139 → 1 ≤ a.sev → a.sev ≤ 2 → 1 ≤ b.sev → b.sev ≤ 2 → calm → x.valid = false →
      x.sev < 8 → f.stErr.look (4 * b.src) {} = {} → (f.slots.look b.src {}).valid = false → (f.slots.look b.src {}).sev < 8 →
      f.first.valid = false → f.firstWait = none → ∃ t, exec (.alarm ⟨1, none⟩) s = .next t ∧
        let first := if a.sev < b.sev then b else a
        let other := if a.sev < b.sev then a else b
        t.faults.first.src = BitVec.ofNat 8 first.src ∧ t.faults.first.sev = first.sev ∧
        t.faults.concur = f.concur ||| (1 <<< other.src) ∧ t.faults.concurN = f.concurN + 1) ∧
    (∀ src : Fin 139,
      (f.details.look src none = none → exec (.faultDetail src) s = .next s) ∧
      (∀ addr info, f.details.look src none = some (addr, info) → ∃ t, exec (.faultDetail src) s = .next t ∧ t = { s with faults := t.faults } ∧
        let y := f.slots.look src {}
        let full (z : FSlot) : FSlot := { z with detail := true, wait := false, addr := BitVec.ofNat 64 addr, info := info }
        t.faults.details.look src none = none ∧ t.faults.slots.look src {} = (if y.valid && y.wait then full y else y) ∧
        (∀ d : Nat, d ≠ src.val → t.faults.slots.look d {} = f.slots.look d {}) ∧
        t.faults.first = if f.firstWait = some src.val then full f.first else f.first)) ∧
    (∀ (r : Requester) (v : Word),
      let src := v.toNat % 256
      let y := f.slots.look src {}
      let good := v.toNat / 256 % 2 ^ 24 = 0 ∧ y.valid = true ∧ y.seq = v.extractLsb' 32 32
      (writesBlock r = false → exec (.faultAck r v) s = .next s ∧ exec (.firstClr r) s = .next s) ∧
      (writesBlock r = true →
        exec (.firstClr r) s = .next { s with faults := { f with first := {}, concur := 0, concurN := 0, firstWait := none } } ∧
        (¬ good → exec (.faultAck r v) s = .next { s with faults := { f with ackStale := f.ackStale + 1 } }) ∧
        (good → ∃ t, exec (.faultAck r v) s = .next t ∧ t = { s with faults := t.faults, parts := t.parts } ∧
          t.faults = { f with slots := f.slots.set src { y with valid := false } } ∧
          ∀ p : Nat, t.part p = { s.part p with
            hold := (s.part p).hold.filter fun h => !(h.1 = src && h.2 = (v.extractLsb' 32 32).toNat) }))) ∧
    (∀ (slot : Fin 140) (w : Fin 4), f.inj0.armed = false → f.inj1.armed = false →
      (f.stErr.look (4 * slot.val + w.val) {} = {} →
        exec (.collectorStorageRead slot w) s = .next { s with faults := { f with readOut := (f.slot slot).word w } }) ∧
      ((f.stErr.look (4 * slot.val + w.val) {}).count = 2 → ∃ t, exec (.collectorStorageRead slot w) s = .next t ∧
        t.faults.flight = f.flight ++ [{ src := 138, sev := 4, cause := 0x18, ctx := none, part := none, dry := f.noCredit 138 }] ∧
        t = { s with faults := t.faults })) ∧
    (∀ c : Fin 64,
      ((s.core c).seq.haltDue = none → exec (.contextHaltTimeout c) s = .next s) ∧
      (∀ d, (s.core c).seq.haltDue = some d → ∃ t, exec (.contextHaltTimeout c) s = .next t ∧ t.now = max s.now d ∧
        (t.core c).seq.haltDue = none ∧
        (t.core c).seq.run = if (s.core c).seq.run = .running ∧ f.fatal = false then .halting else (s.core c).seq.run))

/-- HEARTBEAT, HEARTBEAT_LOSS and ALIVE_TOGGLE (R390, R391), INJ_ARM (R392, R393). That a refused arming leaves an earlier one is the model's choice. -/
def Obligations.HeartbeatAndInjection : Prop :=
  ∀ (s : State),
    let f := s.faults
    let passed (t : State) : Prop := t = { s with now := t.now, cellar := t.cellar, power := t.power, faults := t.faults } ∧
      t.cellar = { s.cellar with count := s.cellar.count + (t.now - s.now) }
    (s.hubUp = false → exec .heartbeat s = .next s) ∧
    (s.hubUp = true →
      (f.fatal = true ∨ f.aliveOn = true → exec .heartbeat s = .next { s with faults := { f with hbAt := some s.now, hbLost := false } }) ∧
      (f.fatal = false → f.aliveOn = false →
        exec .heartbeat s = .next { s with faults := { f with hbAt := some s.now, hbLost := false, alive := true, aliveOn := true, edge := s.now } })) ∧
    (∀ h, f.hbAt = some h →
      (max s.now (f.edge + 500000) ≤ h + 10000000 → f.aliveOn = true → f.fatal = false → ∃ t, exec .aliveToggle s = .next t ∧
        t.now = max s.now (f.edge + 500000) ∧ t.faults = { f with alive := !f.alive, edge := t.now } ∧ passed t) ∧
      (h + 10000000 < max s.now (f.edge + 500000) → exec .aliveToggle s = .next s) ∧
      (f.hbLost = true → exec .heartbeatLoss s = .next s) ∧
      (f.hbLost = false → ∃ t, exec .heartbeatLoss s = .next t ∧ h + 10000000 < t.now ∧
        (f.aliveOn = false → t.now = max s.now (h + 10000001)) ∧
        (f.aliveOn = true → s.now ≤ h + 10000001 → f.edge ≤ h + 10000000 →
          (t.now - f.edge) % 500000 = 0 ∧ f.edge < t.now ∧ t.now ≤ h + 10000000 + 500000) ∧
        t.faults = { f with
          hbLost := true, alive := false, aliveOn := false
          flight := f.flight ++ [{ src := 137, sev := 2, cause := 0x17, ctx := none, part := none, dry := f.noCredit 137 }] } ∧ passed t)) ∧
    (f.aliveOn = false ∨ f.fatal = true ∨ f.hbAt = none → exec .aliveToggle s = .next s) ∧
    (f.hbAt = none → exec .heartbeatLoss s = .next s) ∧
    (∀ (r : Requester) (n : Fin 2),
      let x := if n = 0 then f.inj0 else f.inj1
      let into (y : Inject) : State := { s with faults := if n = 0 then { f with inj0 := y } else { f with inj1 := y } }
      let src := x.target.toNat % 256
      let code := x.target.toNat / 256 % 16
      let kind := x.target.toNat / 4096 % 4
      let count := x.target.toNat / 65536
      let writes := (∃ c, r = .ring c 0 ∧ n = 0) ∨ (r = .controller ∧ n = 1)
      (¬ writes → exec (.injArm r n) s = .next s) ∧
      (writes → count ≠ 0 → injAllowed src code kind = true → exec (.injArm r n) s =
        .next (into { x with armed := true, refused := false, src := src, code := code, kind := kind, remain := count })) ∧
      (writes → count = 0 ∨ injAllowed src code kind = false → exec (.injArm r n) s = .next (into { x with refused := true })))

/-- RESET_N, PERST_N, HOT_RESET, LINK_DISABLE, FUNCTION_LEVEL_RESET, DEV_RESET, DEVICE_RESET_EFFECTER, RAIL_FAULT and SYS_REFCLK_LOSS (R396 to R399, R405, R423). That a reset is one step, and that it delivers alarms in flight first, is the model's choice (log entry 66). -/
def Obligations.ResetsReachWhatTheTableSays : Prop :=
  ∀ (s : State),
    let b := s.boot
    let f := s.faults
    let keeps (t : State) : Prop := t.pending = s.pending ∧ t.now = s.now ∧
      (∀ a : Nat, t.byte a = if sramBase ≤ a ∧ a < sramBase + 0x80000000 then 0 else s.byte a)
    let domain (t : State) : Prop := t.cores = [] ∧ t.queues = [] ∧ t.ctxs = [] ∧ t.parts = [] ∧ t.active = {} ∧ t.presses = [] ∧
      t.tables = [] ∧ t.hbm = [] ∧ t.chans = [] ∧ t.rescues = [] ∧ t.groups = [] ∧ t.colls = [] ∧ t.routes = [] ∧ t.xlat = {} ∧
      t.fabric = {} ∧ t.sramErr = [] ∧ t.trellis.st = 0 ∧ t.trellis.gen = 0 ∧ t.mgmt.keys = [] ∧ t.mgmt.keyPend = [] ∧
      t.cellar = { edgeAt := s.now } ∧ ∀ p : Fin 32, t.port p = { since := s.now }
    let warm (t : State) (boot : Boot) : Prop := keeps t ∧ domain t ∧ t.boot = boot ∧
      t.trellis.keys = s.trellis.keys ∧ t.trellis.keysNext = s.trellis.keysNext ∧
      t.faults = { f with fatal := false, alive := false, aliveOn := false, flight := [], details := [], firstWait := none } ∧
      t.jtag = s.jtag ∧ t.mgmt.flash = s.mgmt.flash ∧ t.mgmt.i3cAddr = s.mgmt.i3cAddr ∧ t.unitRefused = s.unitRefused ∧
      ∀ u : Nat, (t.unit u).oper = 0 ∧ (t.unit u).adm = (s.unit u).adm ∧
        (t.unit u).gen = if (s.unit u).oper = 0 then (s.unit u).gen else (s.unit u).gen + 1
    let down : Boot := { b with d2d := false, cores := 0, hbmDone := 0 }
    let free := b.perstLow = false ∧ b.refclk = true
    let cold (t : State) (boot : Boot) : Prop := keeps t ∧ domain t ∧ t.boot = boot ∧ t.faults = {} ∧ t.units = [] ∧ t.jtag = {} ∧
      t.mgmt = { flash := s.mgmt.flash, sensors := s.mgmt.sensors } ∧ t.trellis.keysNext = [] ∧
      ∀ i : Fin 4, t.trellis.keys.look i none = (s.trellis.keysNext.look i none).getD (s.trellis.keys.look i none)
    (∀ i : Instr, i = .hotReset ∨ i = .linkDisable →
      (s.broughtUp = false → exec i s = .next s) ∧
      (s.broughtUp = true → f.flight = [] → ∃ t, exec i s = .next t ∧ (free → warm t { down with phase := 3, last := 1, linkUp := false }) ∧
        (¬ free → warm t { down with phase := 2, last := 1, linkUp := false }))) ∧
    (∀ i : Instr, i = .functionLevelReset ∨ i = .deviceResetEffecter ∨ (∃ id, i = .devReset (.host id) 0xB2A0) →
      (s.broughtUp = false → exec i s = .next s) ∧
      (s.broughtUp = true → f.flight = [] → ∃ t, exec i s = .next t ∧ (free → warm t { down with phase := 3, last := 2 }) ∧
        (¬ free → warm t { down with phase := 2, last := 2 }))) ∧
    (∀ (r : Requester) (v : Word), v ≠ 0xB2A0 ∨ (∀ id, r ≠ .host id) → exec (.devReset r v) s = .next s) ∧
    (s.broughtUp = false → exec .perstN s = .next { s with boot := { b with perstLow := true } } ∧
      exec .sysRefclkLoss s = .next { s with boot := { b with refclk := false } }) ∧
    (s.broughtUp = true → f.flight = [] →
      (∃ t, exec .perstN s = .next t ∧ warm t { down with phase := 2, last := 1, linkUp := false, perstLow := true }) ∧
      (∃ t, exec .sysRefclkLoss s = .next t ∧ warm t { down with phase := 2, linkUp := false, refclk := false })) ∧
    (∃ t, exec .resetN s = .next t ∧
      cold t { perstLow := b.perstLow, resetLow := true, rails := b.rails, refclk := b.refclk, tripped := b.tripped }) ∧
    (∀ rail : Rail, rail = .hubVdd ∨ rail = .vio18 → ∃ t, exec (.railFault rail) s = .next t ∧
      cold t { perstLow := b.perstLow, resetLow := b.resetLow, rails := false, refclk := b.refclk }) ∧
    (∀ rail : Rail, rail ≠ .hubVdd → rail ≠ .vio18 →
      (b.phase = 0 → exec (.railFault rail) s = .next { s with boot := { b with rails := false } }) ∧
      (b.phase ≠ 0 →
        let src := match rail with
          | .qvdd q => 120 + q.val
          | _ => 138
        exec (.railFault rail) s = .next { s with
          boot := { b with rails := false }
          faults := { f with flight := f.flight ++ [{ src := src, sev := 4, cause := 0x11, ctx := none, part := none, dry := f.noCredit src }] } }))

/-- RESET_N_RELEASE, PERST_N_RELEASE, RAILS_GOOD, FIRMWARE_VERIFY (R358, R400), D2D_TRAINING_DONE, CORE_BRINGUP_DONE, HBM_TRAINING_DONE (R400, R401), PCIE_LINK_UP (R403), THERMTRIP (R422) and SYS_REFCLK_RETURN (R423). -/
def Obligations.BringUpRunsInItsPhases : Prop :=
  ∀ (s : State),
    let b := s.boot
    let boot (y : Boot) : State := { s with boot := y }
    let rom (y : Boot) : State := { s with boot := { y with phase := 1 }, cellar := { edgeAt := s.now } }
    (b.phase = 0 → b.rails = true → exec .resetNRelease s = .next (rom { b with resetLow := false })) ∧
    (b.phase ≠ 0 ∨ b.rails = false → exec .resetNRelease s = .next (boot { b with resetLow := false })) ∧
    (b.phase = 0 → b.resetLow = false → exec .railsGood s = .next (rom { b with rails := true })) ∧
    (b.phase ≠ 0 ∨ b.resetLow = true → exec .railsGood s = .next (boot { b with rails := true })) ∧
    (b.phase = 2 → b.refclk = true → exec .perstNRelease s = .next (boot { b with perstLow := false, phase := 3 })) ∧
    (b.phase ≠ 2 ∨ b.refclk = false → exec .perstNRelease s = .next (boot { b with perstLow := false })) ∧
    (b.phase = 2 → b.perstLow = false → exec .sysRefclkReturn s = .next (boot { b with refclk := true, phase := 3 })) ∧
    (b.phase ≠ 2 ∨ b.perstLow = true → exec .sysRefclkReturn s = .next (boot { b with refclk := true })) ∧
    (b.phase ≠ 1 → exec .firmwareVerify s = .next s) ∧
    (b.phase = 1 →
      let up : BitVec 4 := if b.perstLow = false ∧ b.refclk = true then 3 else 2
      let good (base : Nat) : Bool := Config.firmwareValid (s.slotBytes base)
      (good 0 = true → exec .firmwareVerify s = .next (boot { b with phase := up, fwSlot := 1 })) ∧
      (good 0 = false → good 0x800000 = true → exec .firmwareVerify s = .next (boot { b with phase := up, fwSlot := 2 })) ∧
      (good 0 = false → good 0x800000 = false → exec .firmwareVerify s = .next (boot { b with phase := 5 }))) ∧
    (s.broughtUp = true → exec .d2dTrainingDone s = .next (boot { b with d2d := true }) ∧
      exec .pcieLinkUp s = .next (boot { b with linkUp := true })) ∧
    (s.broughtUp = false → exec .d2dTrainingDone s = .next s ∧ exec .pcieLinkUp s = .next s) ∧
    (∀ c : Fin 64,
      (s.broughtUp = false ∨ b.cores.getLsbD c = true → exec (.coreBringupDone c) s = .next s) ∧
      (s.broughtUp = true → b.cores.getLsbD c = false → ∃ t, exec (.coreBringupDone c) s = .next t ∧
        t.boot = { b with cores := b.cores ||| (1 <<< c.val) } ∧ (∀ d : Nat, d ≠ c.val → t.core d = s.core d) ∧
        t.core c = { s.core c with store := { (s.core c).store with scrubPos := 0, scrubOn := true } } ∧
        (∀ a : Nat, t.byte a =
          if sramBase + c * 0x2000000 ≤ a ∧ a < sramBase + c * 0x2000000 + 0x2000000 then 0 else s.byte a) ∧
        t = { s with mem := t.mem, poison := t.poison, sramErr := t.sramErr, cores := t.cores, boot := t.boot })) ∧
    (∀ (st : Fin 12) (res : Training),
      let one : BitVec 12 := 1 <<< st.val
      (b.phase ≠ 3 ∨ b.hbmDone.getLsbD st = true → exec (.hbmTrainingDone st res) s = .next s) ∧
      (b.phase = 3 → b.hbmDone.getLsbD st = false → ∃ t, exec (.hbmTrainingDone st res) s = .next t ∧
        t = { s with boot := t.boot, hbm := t.hbm } ∧ t.boot.hbmDone = b.hbmDone ||| one ∧
        t.boot.phase = (if b.hbmDone ||| one = 0xFFF then 4 else 3) ∧
        (t.ctl st).scrubPos = 0 ∧ (t.ctl st).scrubOn = !t.boot.failed.getLsbD st ∧
        (b.trained.getLsbD st = true → t.boot.failed = b.failed ∧ t.boot.fallback = b.fallback) ∧
        (b.trained.getLsbD st = false → t.boot.trained = b.trained ||| one ∧
          t.boot.failed = (if res = .failed then b.failed ||| one else b.failed) ∧
          t.boot.fallback = if res = .full then b.fallback else b.fallback ||| one))) ∧
    (∀ d : Fin 5, ∃ t, exec (.thermtrip d) s = .next t ∧ t.boot = { b with tripped := true } ∧
      (∀ q : Fin 4, t.pwr q = { s.pwr q with halted := true }) ∧ t = { s with boot := t.boot, power := t.power, faults := t.faults } ∧
      (b.phase = 0 → t.faults = s.faults) ∧
      (b.phase ≠ 0 →
        let src := if d.val < 4 then 120 + d.val else 138
        t.faults = { s.faults with flight := s.faults.flight ++
          [{ src := src, sev := 4, cause := 0x11, ctx := none, part := none, dry := s.faults.noCredit src }] }))

/-- PHASE of the completion ring (R24). -/
def Obligations.PhaseInvertsOnEachWrap : Prop :=
  ∀ (n : Fin 8192) (s : State),
    let q := s.queue n
    (∀ v : Word, q.enable = false → v.getLsbD 0 = true → queueExists s n = true →
      ∃ t, exec (.queueEnable n v) s = .next t ∧ (t.queue n).phase = true ∧ (t.queue n).cqTail = 0) ∧
    (∀ (c : Cmd) (rest : List Cmd) (s1 : State),
      let va := q.cqBase.toNat + 16 * q.cqTail
      let u := s.setQueue n { q with cmds := rest }
      let bytes := leBytes 2 c.tag.toNat ++ [c.status, BitVec.ofNat 8 (b2n c.outInv + 2 * b2n q.phase + 4 * b2n c.late)] ++
        [0, 0, 0, 0] ++ leBytes 8 c.vint
      q.cmds = c :: rest → c.st = .ended → c.signing = false →
      (c.isEnd = true → c.early = true ∨ c.status ≠ 0 ∨ s.partSt n ≠ 0) →
      (u.vOk (cmdEng n) .wr va 16).isSome = true → u.vWr (cmdEng n) va bytes = (s1, false) →
      ∃ t, exec (.completionWrite n) s = .next t ∧ t.mem = s1.mem ∧
        (q.cqTail + 1 ≠ q.cqEntries → (t.queue n).cqTail = q.cqTail + 1 ∧ (t.queue n).phase = q.phase) ∧
        (q.cqTail + 1 = q.cqEntries → (t.queue n).cqTail = 0 ∧ (t.queue n).phase = !q.phase))

/-- Fixed-order addition in XA128 (R77), with XA_MAX and XA_MIN as Table 3.4 writes them. -/
def Obligations.FixedOrderAdditionSaturates : Prop :=
  ∀ a b : BitVec 128, xaClass a = .fin → xaClass b = .fin →
    let n := a.toInt + b.toInt
    let r := xaAdd a b
    (2 ^ 127 - 2 < n → r = (0x7FFFFFFFFFFFFFFFFFFFFFFFFFFFFFFE#128, fOverflow)) ∧
    (n < -(2 ^ 127 - 2) → r = (0x80000000000000000000000000000002#128, fOverflow)) ∧
    (-(2 ^ 127 - 2) ≤ n → n ≤ 2 ^ 127 - 2 → r.1.toInt = n ∧ r.2 = 0) ∧ xaClass r.1 = .fin

/-- Adds in arrival order (R54), by the guarded form that GUARDED_CELL_ADD, the journal and the presses' pooling use. -/
def Obligations.ArrivalOrderDoesNotMatter : Prop :=
  ∀ (g : Guarded) (xs ys : List (BitVec 128)),
    let sum (l : List (BitVec 128)) : Guarded := l.foldl (fun h x => (h.add x).1) g
    (xs.Perm ys → sum xs = sum ys) ∧
    (sum xs).reg = g.reg + BitVec.ofInt 144 ((xs.filter fun x => decide (xaClass x = .fin)).map BitVec.toInt).sum ∧
    (g.cls = .fin → (∀ x ∈ xs, xaClass x = .fin) →
      let n := (sum xs).reg.toInt
      (sum xs).cls = .fin ∧ (∀ (h : Guarded) (x : BitVec 128), h.cls = .fin → x ∈ xs → (h.add x).2 = 0) ∧
      (2 ^ 127 - 2 < n → (sum xs).narrow = (xaMax, fOverflow)) ∧
      (n < -(2 ^ 127 - 2) → (sum xs).narrow = (xaMin, fOverflow)) ∧
      (-(2 ^ 127 - 2) ≤ n → n ≤ 2 ^ 127 - 2 → (sum xs).narrow.1.toInt = n ∧ (sum xs).narrow.2 = 0))

/-- The values after reset that the spec states (R398, Tables 1.4, 1.5, 5.6, 9.3, 9.4, 11.8, 14.11, 15.7, 16.8, 17.3, 17.5). Values that the log names are not stated. -/
def Obligations.ResetLeavesTheStatedValues : Prop :=
    let s := State.reset
    s.boot.phase = 0 ∧ s.boot.last = 0 ∧ s.boot.fwSlot = 0 ∧ s.boot.failed = 0 ∧ s.boot.fallback = 0 ∧
    s.cellar.count = 0 ∧ s.cellar.ctrl = 0 ∧ s.cellar.period = 1000000 ∧ s.trellis.st = 0 ∧ s.trellis.reject = 0 ∧ s.trellis.pend = [] ∧
    s.trellis.gen = 0 ∧ s.faults.irqVec = 0x7FF ∧ s.faults.fatal = false ∧ s.faults.alive = false ∧ s.faults.first.valid = false ∧
    (∀ p : Fin 64, (s.part p).st = 3) ∧
    (∀ n : Fin 8192, (s.queue n).enable = false ∧ (s.queue n).prio = 1 ∧ (s.queue n).cqSize = 6 ∧ (s.queue n).qSize = 6 ∧
      (s.queue n).irqEn = false ∧ (s.queue n).err = false ∧ (s.queue n).phase = true) ∧
    (∀ c : Fin 64, (s.core c).pwr = {} ∧ (s.core c).pwr.dcOn = 0xFF ∧ (s.core c).pwr.icOn = 0xFF ∧ (s.core c).pwr.dcTgt = 0xFF ∧
      (s.core c).pwr.icTgt = 0xFF ∧ (s.core c).rb.trapBase = 0 ∧ (s.core c).rb.gateBase = 0 ∧ (s.core c).rb.gateCount = 0 ∧
      (s.core c).store.scrubEn = true ∧ (s.core c).store.pace = 64 ∧ (s.core c).seq.lsuMode = 3) ∧
    (∀ st : Fin 12, (s.ctl st).w = ⟨0, 8, 4, 1⟩ ∧ (s.ctl st).scrubEn = true ∧ (s.ctl st).hours = 24) ∧
    (∀ k : Fin 1024, (s.mgmt.keys.look k {}).st = 0) ∧ (∀ q : Fin 4, (s.pwr q).cap = 550) ∧
    (∀ u : Fin 120, s.unit u = ⟨0, 0, 0⟩) ∧ (∀ p : Fin 32, (s.port p).st = 8) ∧
    (∀ src : Fin 139, (s.faults.slots.look src {}).valid = false)

/-- The canonical form of memory at reset; its premise of MemoryStaysCanonical (R3; the form is the model's own). -/
def Obligations.MemoryIsCanonicalAtReset : Prop :=
  Memory.wf State.reset.mem = true

/-- Equal memories stay equal data: every step, of any command or of time, keeps the canonical form (R3; the form is the model's own). -/
def Obligations.MemoryStaysCanonical : Prop :=
  ∀ s t : State, Memory.wf s.mem = true → step s = .next t → Memory.wf t.mem = true
end

