-- ==== Sys2Proof/Laws/Map.lean ====
section
/-!
SUPPORT. Laws of finite maps and of memory: a value read back, values left alone, and the canonical form that every operation on
memory keeps.
-/

namespace Sys2Proof

variable {α : Type}

/-! ## Reading what was written -/

theorem Map.find_set_same (m : Map α) (k : Nat) (v : α) : (m.set k v).find k = some v := by
  induction m with
  | nil => simp [Map.set, Map.find]
  | cons e m ih =>
    obtain ⟨j, w⟩ := e
    simp only [Map.set]
    split
    · simp [Map.find]
    · split
      · simp [Map.find]
      · rename_i h1 h2
        have : j ≠ k := fun h => h2 h.symm
        simp [Map.find, this, ih]

theorem Map.find_set_other (m : Map α) (k j : Nat) (v : α) (h : j ≠ k) : (m.set k v).find j = m.find j := by
  induction m with
  | nil => simp [Map.set, Map.find, Ne.symm h]
  | cons e m ih =>
    obtain ⟨i, w⟩ := e
    simp only [Map.set]
    split
    · simp [Map.find, Ne.symm h]
    · split
      · rename_i h1 h2
        subst h2
        simp [Map.find, Ne.symm h]
      · simp [Map.find, ih]

@[simp] theorem Map.look_set_same (m : Map α) (k : Nat) (v d : α) : (m.set k v).look k d = v := by
  simp [Map.look, Map.find_set_same]

theorem Map.look_set_other (m : Map α) (k j : Nat) (v d : α) (h : j ≠ k) : (m.set k v).look j d = m.look j d := by
  simp [Map.look, Map.find_set_other m k j v h]

theorem Map.look_set (m : Map α) (k j : Nat) (v d : α) : (m.set k v).look j d = if j = k then v else m.look j d := by
  split
  · rename_i h; subst h; simp
  · rename_i h; exact Map.look_set_other m k j v d h

theorem Map.find_del_same (m : Map α) (k : Nat) : (m.del k).find k = none := by
  induction m with
  | nil => rfl
  | cons e m ih =>
    obtain ⟨j, w⟩ := e
    by_cases h : j = k
    · subst h; simpa [Map.del] using ih
    · have hd : Map.del ((j, w) :: m) k = (j, w) :: Map.del m k := by simp [Map.del, h]
      simp [hd, Map.find, h, ih]

theorem Map.find_del_other (m : Map α) (k j : Nat) (h : j ≠ k) : (m.del k).find j = m.find j := by
  induction m with
  | nil => rfl
  | cons e m ih =>
    obtain ⟨i, w⟩ := e
    by_cases h1 : i = k
    · subst h1
      have hd : Map.del ((i, w) :: m) i = Map.del m i := by simp [Map.del]
      simp [hd, Map.find, Ne.symm h, ih]
    · have hd : Map.del ((i, w) :: m) k = (i, w) :: Map.del m k := by simp [Map.del, h1]
      simp [hd, Map.find, ih]

@[simp] theorem Map.look_del_same (m : Map α) (k : Nat) (d : α) : (m.del k).look k d = d := by
  simp [Map.look, Map.find_del_same]

theorem Map.look_del_other (m : Map α) (k j : Nat) (d : α) (h : j ≠ k) : (m.del k).look j d = m.look j d := by
  simp [Map.look, Map.find_del_other m k j h]

theorem Map.look_put [DecidableEq α] (m : Map α) (k j : Nat) (v d : α) :
    (m.put k v d).look j d = if j = k then v else m.look j d := by
  unfold Map.put
  by_cases hv : v = d
  · subst hv
    by_cases h : j = k
    · subst h; simp
    · simp [h, Map.look_del_other m k j v h]
  · simp [hv, Map.look_set]

end Sys2Proof

namespace Sys2Proof.Machine

/-! ## The canonical form of memory -/

variable {α : Type}

/-- A lower bound on a rising list's keys. -/
def above (lo : Option Nat) (k : Nat) : Prop := ∀ x, lo = some x → x < k

theorem rising_cons {lo : Option Nat} {k : Nat} {v : α} {l : List (Nat × α)} :
    rising lo ((k, v) :: l) = true ↔ above lo k ∧ rising (some k) l = true := by
  cases lo <;> simp [rising, above]

theorem rising_mono {lo lo' : Option Nat} {l : List (Nat × α)} (h : ∀ x, lo' = some x → ∃ y, lo = some y ∧ x ≤ y)
    (hr : rising lo l = true) : rising lo' l = true := by
  cases l with
  | nil => rfl
  | cons e l =>
    obtain ⟨k, v⟩ := e
    rw [rising_cons] at hr ⊢
    refine ⟨fun x hx => ?_, hr.2⟩
    obtain ⟨y, hy, hxy⟩ := h x hx
    exact Nat.lt_of_le_of_lt hxy (hr.1 y hy)

theorem rising_set {lo : Option Nat} {m : Map α} {k : Nat} {v : α} (hk : above lo k) (h : rising lo m = true) :
    rising lo (m.set k v) = true := by
  induction m generalizing lo with
  | nil => exact rising_cons.2 ⟨hk, rfl⟩
  | cons e m ih =>
    obtain ⟨j, w⟩ := e
    rw [rising_cons] at h
    simp only [Map.set]
    split
    · rename_i hlt
      exact rising_cons.2 ⟨hk, rising_cons.2 ⟨fun x hx => by cases hx; exact hlt, h.2⟩⟩
    · split
      · rename_i h2
        subst h2
        exact rising_cons.2 ⟨hk, h.2⟩
      · rename_i h1 h2
        refine rising_cons.2 ⟨h.1, ih (fun x hx => ?_) h.2⟩
        cases hx
        omega

theorem rising_filter {lo : Option Nat} {m : Map α} (p : Nat × α → Bool) (h : rising lo m = true) :
    rising lo (m.filter p) = true := by
  induction m generalizing lo with
  | nil => rfl
  | cons e m ih =>
    obtain ⟨j, w⟩ := e
    rw [rising_cons] at h
    simp only [List.filter]
    split
    · exact rising_cons.2 ⟨h.1, ih h.2⟩
    · exact ih (rising_mono (fun x hx => ⟨j, rfl, Nat.le_of_lt (h.1 x hx)⟩) h.2)

theorem mem_set {m : Map α} {k : Nat} {v : α} {e : Nat × α} (h : e ∈ m.set k v) : e = (k, v) ∨ e ∈ m := by
  induction m with
  | nil => simpa [Map.set] using h
  | cons f m ih =>
    obtain ⟨j, w⟩ := f
    simp only [Map.set] at h
    split at h
    · simpa using h
    · split at h
      · rcases List.mem_cons.1 h with h | h
        · exact .inl h
        · exact .inr (List.mem_cons_of_mem _ h)
      · rcases List.mem_cons.1 h with h | h
        · exact .inr (h ▸ List.mem_cons_self ..)
        · exact (ih h).imp id (List.mem_cons_of_mem _)

theorem Memory.wf_iff {m : List Host.Cell} : Memory.wf m = true ↔ rising none m = true ∧ ∀ c ∈ m, c.2 ≠ 0 := by
  simp [Memory.wf]

theorem Memory.wf_filter {m : List Host.Cell} (p : Host.Cell → Bool) (h : Memory.wf m = true) :
    Memory.wf (m.filter p) = true := by
  rw [Memory.wf_iff] at h ⊢
  exact ⟨rising_filter p h.1, fun c hc => h.2 c (List.mem_filter.1 hc).1⟩

theorem Memory.wf_cut {m : List Host.Cell} (lo hi : Nat) (h : Memory.wf m = true) : Memory.wf (Map.cut m lo hi) = true :=
  Memory.wf_filter _ h

theorem Memory.wf_put {m : List Host.Cell} (k : Nat) (v : Byte) (h : Memory.wf m = true) :
    Memory.wf (Map.put m k v 0) = true := by
  unfold Map.put
  split
  · exact Memory.wf_filter _ h
  · rename_i hv
    rw [Memory.wf_iff] at h ⊢
    refine ⟨rising_set (fun x hx => by cases hx) h.1, fun c hc => ?_⟩
    rcases mem_set hc with hc | hc
    · subst hc; exact hv
    · exact h.2 c hc

theorem Memory.wf_memPut {m : List Host.Cell} (a : Nat) (bs : Bytes) (h : Memory.wf m = true) :
    Memory.wf (memPut m a bs) = true := by
  induction bs generalizing m a with
  | nil => exact h
  | cons b bs ih => exact ih _ (Memory.wf_put a b h)

/-! ## Bytes read after bytes stored -/

theorem look_memPut (m : List Host.Cell) (a x : Nat) (bs : Bytes) :
    Map.look (memPut m a bs) x 0 = if a ≤ x ∧ x < a + bs.length then bs.getD (x - a) 0 else Map.look m x 0 := by
  induction bs generalizing m a with
  | nil => rw [if_neg (by simp only [List.length_nil]; omega)]; rfl
  | cons b bs ih =>
    simp only [memPut]
    rw [ih, Map.look_put]
    by_cases h1 : x = a
    · subst h1
      have h3 : ¬(x + 1 ≤ x ∧ x < x + 1 + bs.length) := by omega
      rw [if_neg h3]
      simp
    · by_cases h2 : a ≤ x ∧ x < a + (b :: bs).length
      · have h3 : a + 1 ≤ x ∧ x < a + 1 + bs.length := by simp at h2; omega
        have h4 : x - a = (x - (a + 1)) + 1 := by omega
        simp only [h2, h3, if_true, and_self, h4, List.getD_cons_succ]
      · have h3 : ¬(a + 1 ≤ x ∧ x < a + 1 + bs.length) := by simp at h2; omega
        rw [if_neg h3, if_neg h1, if_neg h2]

@[simp] theorem State.store_byte (s : State) (a x : Nat) (bs : Bytes) :
    (s.store a bs).byte x = if a ≤ x ∧ x < a + bs.length then bs.getD (x - a) 0 else s.byte x := look_memPut ..

theorem State.store_wf {s : State} (a : Nat) (bs : Bytes) (h : Memory.wf s.mem = true) : Memory.wf (s.store a bs).mem = true :=
  Memory.wf_memPut a bs h

theorem State.zero_wf {s : State} (lo hi : Nat) (h : Memory.wf s.mem = true) : Memory.wf (s.zero lo hi).mem = true :=
  Memory.wf_cut lo hi h

end Sys2Proof.Machine
end

