-- ==== Sys2Proof/Laws/State.lean ====
section
/-!
SUPPORT. What each update of a numbered part of the state does to each field and to each part: one simp lemma for each, so that no proof
unfolds a record update.
-/

namespace Sys2Proof.Machine

variable (s : State) (k j : Nat)

@[simp] theorem State.onCore_eq (g : CoreSt → CoreSt) : s.onCore k g = s.setCore k (g (s.core k)) := rfl
@[simp] theorem State.setCore_pending (x : CoreSt) : (s.setCore k x).pending = s.pending := rfl
@[simp] theorem State.setCore_free (x : CoreSt) : (s.setCore k x).free = s.free := rfl
@[simp] theorem State.setCore_now (x : CoreSt) : (s.setCore k x).now = s.now := rfl
@[simp] theorem State.setCore_mem (x : CoreSt) : (s.setCore k x).mem = s.mem := rfl
@[simp] theorem State.setCore_poison (x : CoreSt) : (s.setCore k x).poison = s.poison := rfl
@[simp] theorem State.setCore_written (x : CoreSt) : (s.setCore k x).written = s.written := rfl
@[simp] theorem State.setCore_sramErr (x : CoreSt) : (s.setCore k x).sramErr = s.sramErr := rfl
@[simp] theorem State.setCore_hbmErr (x : CoreSt) : (s.setCore k x).hbmErr = s.hbmErr := rfl
@[simp] theorem State.setCore_sramFix (x : CoreSt) : (s.setCore k x).sramFix = s.sramFix := rfl
@[simp] theorem State.setCore_hostBad (x : CoreSt) : (s.setCore k x).hostBad = s.hostBad := rfl
@[simp] theorem State.setCore_clearing (x : CoreSt) : (s.setCore k x).clearing = s.clearing := rfl
@[simp] theorem State.setCore_host (x : CoreSt) : (s.setCore k x).host = s.host := rfl
@[simp] theorem State.setCore_trellis (x : CoreSt) : (s.setCore k x).trellis = s.trellis := rfl
@[simp] theorem State.setCore_active (x : CoreSt) : (s.setCore k x).active = s.active := rfl
@[simp] theorem State.setCore_parts (x : CoreSt) : (s.setCore k x).parts = s.parts := rfl
@[simp] theorem State.setCore_ctxs (x : CoreSt) : (s.setCore k x).ctxs = s.ctxs := rfl
@[simp] theorem State.setCore_queues (x : CoreSt) : (s.setCore k x).queues = s.queues := rfl
@[simp] theorem State.setCore_cores (x : CoreSt) : (s.setCore k x).cores = s.cores.set k x := rfl
@[simp] theorem State.setCore_presses (x : CoreSt) : (s.setCore k x).presses = s.presses := rfl
@[simp] theorem State.setCore_tables (x : CoreSt) : (s.setCore k x).tables = s.tables := rfl
@[simp] theorem State.setCore_hbm (x : CoreSt) : (s.setCore k x).hbm = s.hbm := rfl
@[simp] theorem State.setCore_pchans (x : CoreSt) : (s.setCore k x).pchans = s.pchans := rfl
@[simp] theorem State.setCore_tags (x : CoreSt) : (s.setCore k x).tags = s.tags := rfl
@[simp] theorem State.setCore_fabric (x : CoreSt) : (s.setCore k x).fabric = s.fabric := rfl
@[simp] theorem State.setCore_xlat (x : CoreSt) : (s.setCore k x).xlat = s.xlat := rfl
@[simp] theorem State.setCore_chans (x : CoreSt) : (s.setCore k x).chans = s.chans := rfl
@[simp] theorem State.setCore_rescues (x : CoreSt) : (s.setCore k x).rescues = s.rescues := rfl
@[simp] theorem State.setCore_ports (x : CoreSt) : (s.setCore k x).ports = s.ports := rfl
@[simp] theorem State.setCore_routes (x : CoreSt) : (s.setCore k x).routes = s.routes := rfl
@[simp] theorem State.setCore_groups (x : CoreSt) : (s.setCore k x).groups = s.groups := rfl
@[simp] theorem State.setCore_colls (x : CoreSt) : (s.setCore k x).colls = s.colls := rfl
@[simp] theorem State.setCore_cellar (x : CoreSt) : (s.setCore k x).cellar = s.cellar := rfl
@[simp] theorem State.setCore_mgmt (x : CoreSt) : (s.setCore k x).mgmt = s.mgmt := rfl
@[simp] theorem State.setCore_jtag (x : CoreSt) : (s.setCore k x).jtag = s.jtag := rfl
@[simp] theorem State.setCore_power (x : CoreSt) : (s.setCore k x).power = s.power := rfl
@[simp] theorem State.setCore_units (x : CoreSt) : (s.setCore k x).units = s.units := rfl
@[simp] theorem State.setCore_unitRefused (x : CoreSt) : (s.setCore k x).unitRefused = s.unitRefused := rfl
@[simp] theorem State.setCore_faults (x : CoreSt) : (s.setCore k x).faults = s.faults := rfl
@[simp] theorem State.setCore_boot (x : CoreSt) : (s.setCore k x).boot = s.boot := rfl
@[simp] theorem State.setCore_core_at (x : CoreSt) : (s.setCore k x).core k = x := Map.look_set_same ..
theorem State.setCore_core (x : CoreSt) : (s.setCore k x).core j = if j = k then x else s.core j := Map.look_set ..
@[simp] theorem State.setCore_part (x : CoreSt) : (s.setCore k x).part j = s.part j := rfl
@[simp] theorem State.setCore_ctx (x : CoreSt) : (s.setCore k x).ctx j = s.ctx j := rfl
@[simp] theorem State.setCore_queue (x : CoreSt) : (s.setCore k x).queue j = s.queue j := rfl
@[simp] theorem State.setCore_press (x : CoreSt) : (s.setCore k x).press j = s.press j := rfl
@[simp] theorem State.setCore_table (x : CoreSt) : (s.setCore k x).table j = s.table j := rfl
@[simp] theorem State.setCore_ctl (x : CoreSt) : (s.setCore k x).ctl j = s.ctl j := rfl
@[simp] theorem State.setCore_pchan (x : CoreSt) : (s.setCore k x).pchan j = s.pchan j := rfl
@[simp] theorem State.setCore_tag (x : CoreSt) : (s.setCore k x).tag j = s.tag j := rfl
@[simp] theorem State.setCore_chan (x : CoreSt) : (s.setCore k x).chan j = s.chan j := rfl
@[simp] theorem State.setCore_rescue (x : CoreSt) : (s.setCore k x).rescue j = s.rescue j := rfl
@[simp] theorem State.setCore_port (x : CoreSt) : (s.setCore k x).port j = s.port j := rfl
@[simp] theorem State.setCore_route (x : CoreSt) : (s.setCore k x).route j = s.route j := rfl
@[simp] theorem State.setCore_group (x : CoreSt) : (s.setCore k x).group j = s.group j := rfl
@[simp] theorem State.setCore_coll (x : CoreSt) : (s.setCore k x).coll j = s.coll j := rfl
@[simp] theorem State.setCore_pwr (x : CoreSt) : (s.setCore k x).pwr j = s.pwr j := rfl
@[simp] theorem State.setCore_unit (x : CoreSt) : (s.setCore k x).unit j = s.unit j := rfl

@[simp] theorem State.onPart_eq (g : Part → Part) : s.onPart k g = s.setPart k (g (s.part k)) := rfl
@[simp] theorem State.setPart_pending (x : Part) : (s.setPart k x).pending = s.pending := rfl
@[simp] theorem State.setPart_free (x : Part) : (s.setPart k x).free = s.free := rfl
@[simp] theorem State.setPart_now (x : Part) : (s.setPart k x).now = s.now := rfl
@[simp] theorem State.setPart_mem (x : Part) : (s.setPart k x).mem = s.mem := rfl
@[simp] theorem State.setPart_poison (x : Part) : (s.setPart k x).poison = s.poison := rfl
@[simp] theorem State.setPart_written (x : Part) : (s.setPart k x).written = s.written := rfl
@[simp] theorem State.setPart_sramErr (x : Part) : (s.setPart k x).sramErr = s.sramErr := rfl
@[simp] theorem State.setPart_hbmErr (x : Part) : (s.setPart k x).hbmErr = s.hbmErr := rfl
@[simp] theorem State.setPart_sramFix (x : Part) : (s.setPart k x).sramFix = s.sramFix := rfl
@[simp] theorem State.setPart_hostBad (x : Part) : (s.setPart k x).hostBad = s.hostBad := rfl
@[simp] theorem State.setPart_clearing (x : Part) : (s.setPart k x).clearing = s.clearing := rfl
@[simp] theorem State.setPart_host (x : Part) : (s.setPart k x).host = s.host := rfl
@[simp] theorem State.setPart_trellis (x : Part) : (s.setPart k x).trellis = s.trellis := rfl
@[simp] theorem State.setPart_active (x : Part) : (s.setPart k x).active = s.active := rfl
@[simp] theorem State.setPart_parts (x : Part) : (s.setPart k x).parts = s.parts.set k x := rfl
@[simp] theorem State.setPart_ctxs (x : Part) : (s.setPart k x).ctxs = s.ctxs := rfl
@[simp] theorem State.setPart_queues (x : Part) : (s.setPart k x).queues = s.queues := rfl
@[simp] theorem State.setPart_cores (x : Part) : (s.setPart k x).cores = s.cores := rfl
@[simp] theorem State.setPart_presses (x : Part) : (s.setPart k x).presses = s.presses := rfl
@[simp] theorem State.setPart_tables (x : Part) : (s.setPart k x).tables = s.tables := rfl
@[simp] theorem State.setPart_hbm (x : Part) : (s.setPart k x).hbm = s.hbm := rfl
@[simp] theorem State.setPart_pchans (x : Part) : (s.setPart k x).pchans = s.pchans := rfl
@[simp] theorem State.setPart_tags (x : Part) : (s.setPart k x).tags = s.tags := rfl
@[simp] theorem State.setPart_fabric (x : Part) : (s.setPart k x).fabric = s.fabric := rfl
@[simp] theorem State.setPart_xlat (x : Part) : (s.setPart k x).xlat = s.xlat := rfl
@[simp] theorem State.setPart_chans (x : Part) : (s.setPart k x).chans = s.chans := rfl
@[simp] theorem State.setPart_rescues (x : Part) : (s.setPart k x).rescues = s.rescues := rfl
@[simp] theorem State.setPart_ports (x : Part) : (s.setPart k x).ports = s.ports := rfl
@[simp] theorem State.setPart_routes (x : Part) : (s.setPart k x).routes = s.routes := rfl
@[simp] theorem State.setPart_groups (x : Part) : (s.setPart k x).groups = s.groups := rfl
@[simp] theorem State.setPart_colls (x : Part) : (s.setPart k x).colls = s.colls := rfl
@[simp] theorem State.setPart_cellar (x : Part) : (s.setPart k x).cellar = s.cellar := rfl
@[simp] theorem State.setPart_mgmt (x : Part) : (s.setPart k x).mgmt = s.mgmt := rfl
@[simp] theorem State.setPart_jtag (x : Part) : (s.setPart k x).jtag = s.jtag := rfl
@[simp] theorem State.setPart_power (x : Part) : (s.setPart k x).power = s.power := rfl
@[simp] theorem State.setPart_units (x : Part) : (s.setPart k x).units = s.units := rfl
@[simp] theorem State.setPart_unitRefused (x : Part) : (s.setPart k x).unitRefused = s.unitRefused := rfl
@[simp] theorem State.setPart_faults (x : Part) : (s.setPart k x).faults = s.faults := rfl
@[simp] theorem State.setPart_boot (x : Part) : (s.setPart k x).boot = s.boot := rfl
@[simp] theorem State.setPart_core (x : Part) : (s.setPart k x).core j = s.core j := rfl
@[simp] theorem State.setPart_part_at (x : Part) : (s.setPart k x).part k = x := Map.look_set_same ..
theorem State.setPart_part (x : Part) : (s.setPart k x).part j = if j = k then x else s.part j := Map.look_set ..
@[simp] theorem State.setPart_ctx (x : Part) : (s.setPart k x).ctx j = s.ctx j := rfl
@[simp] theorem State.setPart_queue (x : Part) : (s.setPart k x).queue j = s.queue j := rfl
@[simp] theorem State.setPart_press (x : Part) : (s.setPart k x).press j = s.press j := rfl
@[simp] theorem State.setPart_table (x : Part) : (s.setPart k x).table j = s.table j := rfl
@[simp] theorem State.setPart_ctl (x : Part) : (s.setPart k x).ctl j = s.ctl j := rfl
@[simp] theorem State.setPart_pchan (x : Part) : (s.setPart k x).pchan j = s.pchan j := rfl
@[simp] theorem State.setPart_tag (x : Part) : (s.setPart k x).tag j = s.tag j := rfl
@[simp] theorem State.setPart_chan (x : Part) : (s.setPart k x).chan j = s.chan j := rfl
@[simp] theorem State.setPart_rescue (x : Part) : (s.setPart k x).rescue j = s.rescue j := rfl
@[simp] theorem State.setPart_port (x : Part) : (s.setPart k x).port j = s.port j := rfl
@[simp] theorem State.setPart_route (x : Part) : (s.setPart k x).route j = s.route j := rfl
@[simp] theorem State.setPart_group (x : Part) : (s.setPart k x).group j = s.group j := rfl
@[simp] theorem State.setPart_coll (x : Part) : (s.setPart k x).coll j = s.coll j := rfl
@[simp] theorem State.setPart_pwr (x : Part) : (s.setPart k x).pwr j = s.pwr j := rfl
@[simp] theorem State.setPart_unit (x : Part) : (s.setPart k x).unit j = s.unit j := rfl

@[simp] theorem State.onCtx_eq (g : Ctx → Ctx) : s.onCtx k g = s.setCtx k (g (s.ctx k)) := rfl
@[simp] theorem State.setCtx_pending (x : Ctx) : (s.setCtx k x).pending = s.pending := rfl
@[simp] theorem State.setCtx_free (x : Ctx) : (s.setCtx k x).free = s.free := rfl
@[simp] theorem State.setCtx_now (x : Ctx) : (s.setCtx k x).now = s.now := rfl
@[simp] theorem State.setCtx_mem (x : Ctx) : (s.setCtx k x).mem = s.mem := rfl
@[simp] theorem State.setCtx_poison (x : Ctx) : (s.setCtx k x).poison = s.poison := rfl
@[simp] theorem State.setCtx_written (x : Ctx) : (s.setCtx k x).written = s.written := rfl
@[simp] theorem State.setCtx_sramErr (x : Ctx) : (s.setCtx k x).sramErr = s.sramErr := rfl
@[simp] theorem State.setCtx_hbmErr (x : Ctx) : (s.setCtx k x).hbmErr = s.hbmErr := rfl
@[simp] theorem State.setCtx_sramFix (x : Ctx) : (s.setCtx k x).sramFix = s.sramFix := rfl
@[simp] theorem State.setCtx_hostBad (x : Ctx) : (s.setCtx k x).hostBad = s.hostBad := rfl
@[simp] theorem State.setCtx_clearing (x : Ctx) : (s.setCtx k x).clearing = s.clearing := rfl
@[simp] theorem State.setCtx_host (x : Ctx) : (s.setCtx k x).host = s.host := rfl
@[simp] theorem State.setCtx_trellis (x : Ctx) : (s.setCtx k x).trellis = s.trellis := rfl
@[simp] theorem State.setCtx_active (x : Ctx) : (s.setCtx k x).active = s.active := rfl
@[simp] theorem State.setCtx_parts (x : Ctx) : (s.setCtx k x).parts = s.parts := rfl
@[simp] theorem State.setCtx_ctxs (x : Ctx) : (s.setCtx k x).ctxs = s.ctxs.set k x := rfl
@[simp] theorem State.setCtx_queues (x : Ctx) : (s.setCtx k x).queues = s.queues := rfl
@[simp] theorem State.setCtx_cores (x : Ctx) : (s.setCtx k x).cores = s.cores := rfl
@[simp] theorem State.setCtx_presses (x : Ctx) : (s.setCtx k x).presses = s.presses := rfl
@[simp] theorem State.setCtx_tables (x : Ctx) : (s.setCtx k x).tables = s.tables := rfl
@[simp] theorem State.setCtx_hbm (x : Ctx) : (s.setCtx k x).hbm = s.hbm := rfl
@[simp] theorem State.setCtx_pchans (x : Ctx) : (s.setCtx k x).pchans = s.pchans := rfl
@[simp] theorem State.setCtx_tags (x : Ctx) : (s.setCtx k x).tags = s.tags := rfl
@[simp] theorem State.setCtx_fabric (x : Ctx) : (s.setCtx k x).fabric = s.fabric := rfl
@[simp] theorem State.setCtx_xlat (x : Ctx) : (s.setCtx k x).xlat = s.xlat := rfl
@[simp] theorem State.setCtx_chans (x : Ctx) : (s.setCtx k x).chans = s.chans := rfl
@[simp] theorem State.setCtx_rescues (x : Ctx) : (s.setCtx k x).rescues = s.rescues := rfl
@[simp] theorem State.setCtx_ports (x : Ctx) : (s.setCtx k x).ports = s.ports := rfl
@[simp] theorem State.setCtx_routes (x : Ctx) : (s.setCtx k x).routes = s.routes := rfl
@[simp] theorem State.setCtx_groups (x : Ctx) : (s.setCtx k x).groups = s.groups := rfl
@[simp] theorem State.setCtx_colls (x : Ctx) : (s.setCtx k x).colls = s.colls := rfl
@[simp] theorem State.setCtx_cellar (x : Ctx) : (s.setCtx k x).cellar = s.cellar := rfl
@[simp] theorem State.setCtx_mgmt (x : Ctx) : (s.setCtx k x).mgmt = s.mgmt := rfl
@[simp] theorem State.setCtx_jtag (x : Ctx) : (s.setCtx k x).jtag = s.jtag := rfl
@[simp] theorem State.setCtx_power (x : Ctx) : (s.setCtx k x).power = s.power := rfl
@[simp] theorem State.setCtx_units (x : Ctx) : (s.setCtx k x).units = s.units := rfl
@[simp] theorem State.setCtx_unitRefused (x : Ctx) : (s.setCtx k x).unitRefused = s.unitRefused := rfl
@[simp] theorem State.setCtx_faults (x : Ctx) : (s.setCtx k x).faults = s.faults := rfl
@[simp] theorem State.setCtx_boot (x : Ctx) : (s.setCtx k x).boot = s.boot := rfl
@[simp] theorem State.setCtx_core (x : Ctx) : (s.setCtx k x).core j = s.core j := rfl
@[simp] theorem State.setCtx_part (x : Ctx) : (s.setCtx k x).part j = s.part j := rfl
@[simp] theorem State.setCtx_ctx_at (x : Ctx) : (s.setCtx k x).ctx k = x := Map.look_set_same ..
theorem State.setCtx_ctx (x : Ctx) : (s.setCtx k x).ctx j = if j = k then x else s.ctx j := Map.look_set ..
@[simp] theorem State.setCtx_queue (x : Ctx) : (s.setCtx k x).queue j = s.queue j := rfl
@[simp] theorem State.setCtx_press (x : Ctx) : (s.setCtx k x).press j = s.press j := rfl
@[simp] theorem State.setCtx_table (x : Ctx) : (s.setCtx k x).table j = s.table j := rfl
@[simp] theorem State.setCtx_ctl (x : Ctx) : (s.setCtx k x).ctl j = s.ctl j := rfl
@[simp] theorem State.setCtx_pchan (x : Ctx) : (s.setCtx k x).pchan j = s.pchan j := rfl
@[simp] theorem State.setCtx_tag (x : Ctx) : (s.setCtx k x).tag j = s.tag j := rfl
@[simp] theorem State.setCtx_chan (x : Ctx) : (s.setCtx k x).chan j = s.chan j := rfl
@[simp] theorem State.setCtx_rescue (x : Ctx) : (s.setCtx k x).rescue j = s.rescue j := rfl
@[simp] theorem State.setCtx_port (x : Ctx) : (s.setCtx k x).port j = s.port j := rfl
@[simp] theorem State.setCtx_route (x : Ctx) : (s.setCtx k x).route j = s.route j := rfl
@[simp] theorem State.setCtx_group (x : Ctx) : (s.setCtx k x).group j = s.group j := rfl
@[simp] theorem State.setCtx_coll (x : Ctx) : (s.setCtx k x).coll j = s.coll j := rfl
@[simp] theorem State.setCtx_pwr (x : Ctx) : (s.setCtx k x).pwr j = s.pwr j := rfl
@[simp] theorem State.setCtx_unit (x : Ctx) : (s.setCtx k x).unit j = s.unit j := rfl

@[simp] theorem State.onQueue_eq (g : Queue → Queue) : s.onQueue k g = s.setQueue k (g (s.queue k)) := rfl
@[simp] theorem State.setQueue_pending (x : Queue) : (s.setQueue k x).pending = s.pending := rfl
@[simp] theorem State.setQueue_free (x : Queue) : (s.setQueue k x).free = s.free := rfl
@[simp] theorem State.setQueue_now (x : Queue) : (s.setQueue k x).now = s.now := rfl
@[simp] theorem State.setQueue_mem (x : Queue) : (s.setQueue k x).mem = s.mem := rfl
@[simp] theorem State.setQueue_poison (x : Queue) : (s.setQueue k x).poison = s.poison := rfl
@[simp] theorem State.setQueue_written (x : Queue) : (s.setQueue k x).written = s.written := rfl
@[simp] theorem State.setQueue_sramErr (x : Queue) : (s.setQueue k x).sramErr = s.sramErr := rfl
@[simp] theorem State.setQueue_hbmErr (x : Queue) : (s.setQueue k x).hbmErr = s.hbmErr := rfl
@[simp] theorem State.setQueue_sramFix (x : Queue) : (s.setQueue k x).sramFix = s.sramFix := rfl
@[simp] theorem State.setQueue_hostBad (x : Queue) : (s.setQueue k x).hostBad = s.hostBad := rfl
@[simp] theorem State.setQueue_clearing (x : Queue) : (s.setQueue k x).clearing = s.clearing := rfl
@[simp] theorem State.setQueue_host (x : Queue) : (s.setQueue k x).host = s.host := rfl
@[simp] theorem State.setQueue_trellis (x : Queue) : (s.setQueue k x).trellis = s.trellis := rfl
@[simp] theorem State.setQueue_active (x : Queue) : (s.setQueue k x).active = s.active := rfl
@[simp] theorem State.setQueue_parts (x : Queue) : (s.setQueue k x).parts = s.parts := rfl
@[simp] theorem State.setQueue_ctxs (x : Queue) : (s.setQueue k x).ctxs = s.ctxs := rfl
@[simp] theorem State.setQueue_queues (x : Queue) : (s.setQueue k x).queues = s.queues.set k x := rfl
@[simp] theorem State.setQueue_cores (x : Queue) : (s.setQueue k x).cores = s.cores := rfl
@[simp] theorem State.setQueue_presses (x : Queue) : (s.setQueue k x).presses = s.presses := rfl
@[simp] theorem State.setQueue_tables (x : Queue) : (s.setQueue k x).tables = s.tables := rfl
@[simp] theorem State.setQueue_hbm (x : Queue) : (s.setQueue k x).hbm = s.hbm := rfl
@[simp] theorem State.setQueue_pchans (x : Queue) : (s.setQueue k x).pchans = s.pchans := rfl
@[simp] theorem State.setQueue_tags (x : Queue) : (s.setQueue k x).tags = s.tags := rfl
@[simp] theorem State.setQueue_fabric (x : Queue) : (s.setQueue k x).fabric = s.fabric := rfl
@[simp] theorem State.setQueue_xlat (x : Queue) : (s.setQueue k x).xlat = s.xlat := rfl
@[simp] theorem State.setQueue_chans (x : Queue) : (s.setQueue k x).chans = s.chans := rfl
@[simp] theorem State.setQueue_rescues (x : Queue) : (s.setQueue k x).rescues = s.rescues := rfl
@[simp] theorem State.setQueue_ports (x : Queue) : (s.setQueue k x).ports = s.ports := rfl
@[simp] theorem State.setQueue_routes (x : Queue) : (s.setQueue k x).routes = s.routes := rfl
@[simp] theorem State.setQueue_groups (x : Queue) : (s.setQueue k x).groups = s.groups := rfl
@[simp] theorem State.setQueue_colls (x : Queue) : (s.setQueue k x).colls = s.colls := rfl
@[simp] theorem State.setQueue_cellar (x : Queue) : (s.setQueue k x).cellar = s.cellar := rfl
@[simp] theorem State.setQueue_mgmt (x : Queue) : (s.setQueue k x).mgmt = s.mgmt := rfl
@[simp] theorem State.setQueue_jtag (x : Queue) : (s.setQueue k x).jtag = s.jtag := rfl
@[simp] theorem State.setQueue_power (x : Queue) : (s.setQueue k x).power = s.power := rfl
@[simp] theorem State.setQueue_units (x : Queue) : (s.setQueue k x).units = s.units := rfl
@[simp] theorem State.setQueue_unitRefused (x : Queue) : (s.setQueue k x).unitRefused = s.unitRefused := rfl
@[simp] theorem State.setQueue_faults (x : Queue) : (s.setQueue k x).faults = s.faults := rfl
@[simp] theorem State.setQueue_boot (x : Queue) : (s.setQueue k x).boot = s.boot := rfl
@[simp] theorem State.setQueue_core (x : Queue) : (s.setQueue k x).core j = s.core j := rfl
@[simp] theorem State.setQueue_part (x : Queue) : (s.setQueue k x).part j = s.part j := rfl
@[simp] theorem State.setQueue_ctx (x : Queue) : (s.setQueue k x).ctx j = s.ctx j := rfl
@[simp] theorem State.setQueue_queue_at (x : Queue) : (s.setQueue k x).queue k = x := Map.look_set_same ..
theorem State.setQueue_queue (x : Queue) : (s.setQueue k x).queue j = if j = k then x else s.queue j := Map.look_set ..
@[simp] theorem State.setQueue_press (x : Queue) : (s.setQueue k x).press j = s.press j := rfl
@[simp] theorem State.setQueue_table (x : Queue) : (s.setQueue k x).table j = s.table j := rfl
@[simp] theorem State.setQueue_ctl (x : Queue) : (s.setQueue k x).ctl j = s.ctl j := rfl
@[simp] theorem State.setQueue_pchan (x : Queue) : (s.setQueue k x).pchan j = s.pchan j := rfl
@[simp] theorem State.setQueue_tag (x : Queue) : (s.setQueue k x).tag j = s.tag j := rfl
@[simp] theorem State.setQueue_chan (x : Queue) : (s.setQueue k x).chan j = s.chan j := rfl
@[simp] theorem State.setQueue_rescue (x : Queue) : (s.setQueue k x).rescue j = s.rescue j := rfl
@[simp] theorem State.setQueue_port (x : Queue) : (s.setQueue k x).port j = s.port j := rfl
@[simp] theorem State.setQueue_route (x : Queue) : (s.setQueue k x).route j = s.route j := rfl
@[simp] theorem State.setQueue_group (x : Queue) : (s.setQueue k x).group j = s.group j := rfl
@[simp] theorem State.setQueue_coll (x : Queue) : (s.setQueue k x).coll j = s.coll j := rfl
@[simp] theorem State.setQueue_pwr (x : Queue) : (s.setQueue k x).pwr j = s.pwr j := rfl
@[simp] theorem State.setQueue_unit (x : Queue) : (s.setQueue k x).unit j = s.unit j := rfl

@[simp] theorem State.onPress_eq (g : Press → Press) : s.onPress k g = s.setPress k (g (s.press k)) := rfl
@[simp] theorem State.setPress_pending (x : Press) : (s.setPress k x).pending = s.pending := rfl
@[simp] theorem State.setPress_free (x : Press) : (s.setPress k x).free = s.free := rfl
@[simp] theorem State.setPress_now (x : Press) : (s.setPress k x).now = s.now := rfl
@[simp] theorem State.setPress_mem (x : Press) : (s.setPress k x).mem = s.mem := rfl
@[simp] theorem State.setPress_poison (x : Press) : (s.setPress k x).poison = s.poison := rfl
@[simp] theorem State.setPress_written (x : Press) : (s.setPress k x).written = s.written := rfl
@[simp] theorem State.setPress_sramErr (x : Press) : (s.setPress k x).sramErr = s.sramErr := rfl
@[simp] theorem State.setPress_hbmErr (x : Press) : (s.setPress k x).hbmErr = s.hbmErr := rfl
@[simp] theorem State.setPress_sramFix (x : Press) : (s.setPress k x).sramFix = s.sramFix := rfl
@[simp] theorem State.setPress_hostBad (x : Press) : (s.setPress k x).hostBad = s.hostBad := rfl
@[simp] theorem State.setPress_clearing (x : Press) : (s.setPress k x).clearing = s.clearing := rfl
@[simp] theorem State.setPress_host (x : Press) : (s.setPress k x).host = s.host := rfl
@[simp] theorem State.setPress_trellis (x : Press) : (s.setPress k x).trellis = s.trellis := rfl
@[simp] theorem State.setPress_active (x : Press) : (s.setPress k x).active = s.active := rfl
@[simp] theorem State.setPress_parts (x : Press) : (s.setPress k x).parts = s.parts := rfl
@[simp] theorem State.setPress_ctxs (x : Press) : (s.setPress k x).ctxs = s.ctxs := rfl
@[simp] theorem State.setPress_queues (x : Press) : (s.setPress k x).queues = s.queues := rfl
@[simp] theorem State.setPress_cores (x : Press) : (s.setPress k x).cores = s.cores := rfl
@[simp] theorem State.setPress_presses (x : Press) : (s.setPress k x).presses = s.presses.set k x := rfl
@[simp] theorem State.setPress_tables (x : Press) : (s.setPress k x).tables = s.tables := rfl
@[simp] theorem State.setPress_hbm (x : Press) : (s.setPress k x).hbm = s.hbm := rfl
@[simp] theorem State.setPress_pchans (x : Press) : (s.setPress k x).pchans = s.pchans := rfl
@[simp] theorem State.setPress_tags (x : Press) : (s.setPress k x).tags = s.tags := rfl
@[simp] theorem State.setPress_fabric (x : Press) : (s.setPress k x).fabric = s.fabric := rfl
@[simp] theorem State.setPress_xlat (x : Press) : (s.setPress k x).xlat = s.xlat := rfl
@[simp] theorem State.setPress_chans (x : Press) : (s.setPress k x).chans = s.chans := rfl
@[simp] theorem State.setPress_rescues (x : Press) : (s.setPress k x).rescues = s.rescues := rfl
@[simp] theorem State.setPress_ports (x : Press) : (s.setPress k x).ports = s.ports := rfl
@[simp] theorem State.setPress_routes (x : Press) : (s.setPress k x).routes = s.routes := rfl
@[simp] theorem State.setPress_groups (x : Press) : (s.setPress k x).groups = s.groups := rfl
@[simp] theorem State.setPress_colls (x : Press) : (s.setPress k x).colls = s.colls := rfl
@[simp] theorem State.setPress_cellar (x : Press) : (s.setPress k x).cellar = s.cellar := rfl
@[simp] theorem State.setPress_mgmt (x : Press) : (s.setPress k x).mgmt = s.mgmt := rfl
@[simp] theorem State.setPress_jtag (x : Press) : (s.setPress k x).jtag = s.jtag := rfl
@[simp] theorem State.setPress_power (x : Press) : (s.setPress k x).power = s.power := rfl
@[simp] theorem State.setPress_units (x : Press) : (s.setPress k x).units = s.units := rfl
@[simp] theorem State.setPress_unitRefused (x : Press) : (s.setPress k x).unitRefused = s.unitRefused := rfl
@[simp] theorem State.setPress_faults (x : Press) : (s.setPress k x).faults = s.faults := rfl
@[simp] theorem State.setPress_boot (x : Press) : (s.setPress k x).boot = s.boot := rfl
@[simp] theorem State.setPress_core (x : Press) : (s.setPress k x).core j = s.core j := rfl
@[simp] theorem State.setPress_part (x : Press) : (s.setPress k x).part j = s.part j := rfl
@[simp] theorem State.setPress_ctx (x : Press) : (s.setPress k x).ctx j = s.ctx j := rfl
@[simp] theorem State.setPress_queue (x : Press) : (s.setPress k x).queue j = s.queue j := rfl
@[simp] theorem State.setPress_press_at (x : Press) : (s.setPress k x).press k = x := Map.look_set_same ..
theorem State.setPress_press (x : Press) : (s.setPress k x).press j = if j = k then x else s.press j := Map.look_set ..
@[simp] theorem State.setPress_table (x : Press) : (s.setPress k x).table j = s.table j := rfl
@[simp] theorem State.setPress_ctl (x : Press) : (s.setPress k x).ctl j = s.ctl j := rfl
@[simp] theorem State.setPress_pchan (x : Press) : (s.setPress k x).pchan j = s.pchan j := rfl
@[simp] theorem State.setPress_tag (x : Press) : (s.setPress k x).tag j = s.tag j := rfl
@[simp] theorem State.setPress_chan (x : Press) : (s.setPress k x).chan j = s.chan j := rfl
@[simp] theorem State.setPress_rescue (x : Press) : (s.setPress k x).rescue j = s.rescue j := rfl
@[simp] theorem State.setPress_port (x : Press) : (s.setPress k x).port j = s.port j := rfl
@[simp] theorem State.setPress_route (x : Press) : (s.setPress k x).route j = s.route j := rfl
@[simp] theorem State.setPress_group (x : Press) : (s.setPress k x).group j = s.group j := rfl
@[simp] theorem State.setPress_coll (x : Press) : (s.setPress k x).coll j = s.coll j := rfl
@[simp] theorem State.setPress_pwr (x : Press) : (s.setPress k x).pwr j = s.pwr j := rfl
@[simp] theorem State.setPress_unit (x : Press) : (s.setPress k x).unit j = s.unit j := rfl

@[simp] theorem State.onTable_eq (g : Table → Table) : s.onTable k g = s.setTable k (g (s.table k)) := rfl
@[simp] theorem State.setTable_pending (x : Table) : (s.setTable k x).pending = s.pending := rfl
@[simp] theorem State.setTable_free (x : Table) : (s.setTable k x).free = s.free := rfl
@[simp] theorem State.setTable_now (x : Table) : (s.setTable k x).now = s.now := rfl
@[simp] theorem State.setTable_mem (x : Table) : (s.setTable k x).mem = s.mem := rfl
@[simp] theorem State.setTable_poison (x : Table) : (s.setTable k x).poison = s.poison := rfl
@[simp] theorem State.setTable_written (x : Table) : (s.setTable k x).written = s.written := rfl
@[simp] theorem State.setTable_sramErr (x : Table) : (s.setTable k x).sramErr = s.sramErr := rfl
@[simp] theorem State.setTable_hbmErr (x : Table) : (s.setTable k x).hbmErr = s.hbmErr := rfl
@[simp] theorem State.setTable_sramFix (x : Table) : (s.setTable k x).sramFix = s.sramFix := rfl
@[simp] theorem State.setTable_hostBad (x : Table) : (s.setTable k x).hostBad = s.hostBad := rfl
@[simp] theorem State.setTable_clearing (x : Table) : (s.setTable k x).clearing = s.clearing := rfl
@[simp] theorem State.setTable_host (x : Table) : (s.setTable k x).host = s.host := rfl
@[simp] theorem State.setTable_trellis (x : Table) : (s.setTable k x).trellis = s.trellis := rfl
@[simp] theorem State.setTable_active (x : Table) : (s.setTable k x).active = s.active := rfl
@[simp] theorem State.setTable_parts (x : Table) : (s.setTable k x).parts = s.parts := rfl
@[simp] theorem State.setTable_ctxs (x : Table) : (s.setTable k x).ctxs = s.ctxs := rfl
@[simp] theorem State.setTable_queues (x : Table) : (s.setTable k x).queues = s.queues := rfl
@[simp] theorem State.setTable_cores (x : Table) : (s.setTable k x).cores = s.cores := rfl
@[simp] theorem State.setTable_presses (x : Table) : (s.setTable k x).presses = s.presses := rfl
@[simp] theorem State.setTable_tables (x : Table) : (s.setTable k x).tables = s.tables.set k x := rfl
@[simp] theorem State.setTable_hbm (x : Table) : (s.setTable k x).hbm = s.hbm := rfl
@[simp] theorem State.setTable_pchans (x : Table) : (s.setTable k x).pchans = s.pchans := rfl
@[simp] theorem State.setTable_tags (x : Table) : (s.setTable k x).tags = s.tags := rfl
@[simp] theorem State.setTable_fabric (x : Table) : (s.setTable k x).fabric = s.fabric := rfl
@[simp] theorem State.setTable_xlat (x : Table) : (s.setTable k x).xlat = s.xlat := rfl
@[simp] theorem State.setTable_chans (x : Table) : (s.setTable k x).chans = s.chans := rfl
@[simp] theorem State.setTable_rescues (x : Table) : (s.setTable k x).rescues = s.rescues := rfl
@[simp] theorem State.setTable_ports (x : Table) : (s.setTable k x).ports = s.ports := rfl
@[simp] theorem State.setTable_routes (x : Table) : (s.setTable k x).routes = s.routes := rfl
@[simp] theorem State.setTable_groups (x : Table) : (s.setTable k x).groups = s.groups := rfl
@[simp] theorem State.setTable_colls (x : Table) : (s.setTable k x).colls = s.colls := rfl
@[simp] theorem State.setTable_cellar (x : Table) : (s.setTable k x).cellar = s.cellar := rfl
@[simp] theorem State.setTable_mgmt (x : Table) : (s.setTable k x).mgmt = s.mgmt := rfl
@[simp] theorem State.setTable_jtag (x : Table) : (s.setTable k x).jtag = s.jtag := rfl
@[simp] theorem State.setTable_power (x : Table) : (s.setTable k x).power = s.power := rfl
@[simp] theorem State.setTable_units (x : Table) : (s.setTable k x).units = s.units := rfl
@[simp] theorem State.setTable_unitRefused (x : Table) : (s.setTable k x).unitRefused = s.unitRefused := rfl
@[simp] theorem State.setTable_faults (x : Table) : (s.setTable k x).faults = s.faults := rfl
@[simp] theorem State.setTable_boot (x : Table) : (s.setTable k x).boot = s.boot := rfl
@[simp] theorem State.setTable_core (x : Table) : (s.setTable k x).core j = s.core j := rfl
@[simp] theorem State.setTable_part (x : Table) : (s.setTable k x).part j = s.part j := rfl
@[simp] theorem State.setTable_ctx (x : Table) : (s.setTable k x).ctx j = s.ctx j := rfl
@[simp] theorem State.setTable_queue (x : Table) : (s.setTable k x).queue j = s.queue j := rfl
@[simp] theorem State.setTable_press (x : Table) : (s.setTable k x).press j = s.press j := rfl
@[simp] theorem State.setTable_table_at (x : Table) : (s.setTable k x).table k = x := Map.look_set_same ..
theorem State.setTable_table (x : Table) : (s.setTable k x).table j = if j = k then x else s.table j := Map.look_set ..
@[simp] theorem State.setTable_ctl (x : Table) : (s.setTable k x).ctl j = s.ctl j := rfl
@[simp] theorem State.setTable_pchan (x : Table) : (s.setTable k x).pchan j = s.pchan j := rfl
@[simp] theorem State.setTable_tag (x : Table) : (s.setTable k x).tag j = s.tag j := rfl
@[simp] theorem State.setTable_chan (x : Table) : (s.setTable k x).chan j = s.chan j := rfl
@[simp] theorem State.setTable_rescue (x : Table) : (s.setTable k x).rescue j = s.rescue j := rfl
@[simp] theorem State.setTable_port (x : Table) : (s.setTable k x).port j = s.port j := rfl
@[simp] theorem State.setTable_route (x : Table) : (s.setTable k x).route j = s.route j := rfl
@[simp] theorem State.setTable_group (x : Table) : (s.setTable k x).group j = s.group j := rfl
@[simp] theorem State.setTable_coll (x : Table) : (s.setTable k x).coll j = s.coll j := rfl
@[simp] theorem State.setTable_pwr (x : Table) : (s.setTable k x).pwr j = s.pwr j := rfl
@[simp] theorem State.setTable_unit (x : Table) : (s.setTable k x).unit j = s.unit j := rfl

@[simp] theorem State.onCtl_eq (g : HbmCtl → HbmCtl) : s.onCtl k g = s.setCtl k (g (s.ctl k)) := rfl
@[simp] theorem State.setCtl_pending (x : HbmCtl) : (s.setCtl k x).pending = s.pending := rfl
@[simp] theorem State.setCtl_free (x : HbmCtl) : (s.setCtl k x).free = s.free := rfl
@[simp] theorem State.setCtl_now (x : HbmCtl) : (s.setCtl k x).now = s.now := rfl
@[simp] theorem State.setCtl_mem (x : HbmCtl) : (s.setCtl k x).mem = s.mem := rfl
@[simp] theorem State.setCtl_poison (x : HbmCtl) : (s.setCtl k x).poison = s.poison := rfl
@[simp] theorem State.setCtl_written (x : HbmCtl) : (s.setCtl k x).written = s.written := rfl
@[simp] theorem State.setCtl_sramErr (x : HbmCtl) : (s.setCtl k x).sramErr = s.sramErr := rfl
@[simp] theorem State.setCtl_hbmErr (x : HbmCtl) : (s.setCtl k x).hbmErr = s.hbmErr := rfl
@[simp] theorem State.setCtl_sramFix (x : HbmCtl) : (s.setCtl k x).sramFix = s.sramFix := rfl
@[simp] theorem State.setCtl_hostBad (x : HbmCtl) : (s.setCtl k x).hostBad = s.hostBad := rfl
@[simp] theorem State.setCtl_clearing (x : HbmCtl) : (s.setCtl k x).clearing = s.clearing := rfl
@[simp] theorem State.setCtl_host (x : HbmCtl) : (s.setCtl k x).host = s.host := rfl
@[simp] theorem State.setCtl_trellis (x : HbmCtl) : (s.setCtl k x).trellis = s.trellis := rfl
@[simp] theorem State.setCtl_active (x : HbmCtl) : (s.setCtl k x).active = s.active := rfl
@[simp] theorem State.setCtl_parts (x : HbmCtl) : (s.setCtl k x).parts = s.parts := rfl
@[simp] theorem State.setCtl_ctxs (x : HbmCtl) : (s.setCtl k x).ctxs = s.ctxs := rfl
@[simp] theorem State.setCtl_queues (x : HbmCtl) : (s.setCtl k x).queues = s.queues := rfl
@[simp] theorem State.setCtl_cores (x : HbmCtl) : (s.setCtl k x).cores = s.cores := rfl
@[simp] theorem State.setCtl_presses (x : HbmCtl) : (s.setCtl k x).presses = s.presses := rfl
@[simp] theorem State.setCtl_tables (x : HbmCtl) : (s.setCtl k x).tables = s.tables := rfl
@[simp] theorem State.setCtl_hbm (x : HbmCtl) : (s.setCtl k x).hbm = s.hbm.set k x := rfl
@[simp] theorem State.setCtl_pchans (x : HbmCtl) : (s.setCtl k x).pchans = s.pchans := rfl
@[simp] theorem State.setCtl_tags (x : HbmCtl) : (s.setCtl k x).tags = s.tags := rfl
@[simp] theorem State.setCtl_fabric (x : HbmCtl) : (s.setCtl k x).fabric = s.fabric := rfl
@[simp] theorem State.setCtl_xlat (x : HbmCtl) : (s.setCtl k x).xlat = s.xlat := rfl
@[simp] theorem State.setCtl_chans (x : HbmCtl) : (s.setCtl k x).chans = s.chans := rfl
@[simp] theorem State.setCtl_rescues (x : HbmCtl) : (s.setCtl k x).rescues = s.rescues := rfl
@[simp] theorem State.setCtl_ports (x : HbmCtl) : (s.setCtl k x).ports = s.ports := rfl
@[simp] theorem State.setCtl_routes (x : HbmCtl) : (s.setCtl k x).routes = s.routes := rfl
@[simp] theorem State.setCtl_groups (x : HbmCtl) : (s.setCtl k x).groups = s.groups := rfl
@[simp] theorem State.setCtl_colls (x : HbmCtl) : (s.setCtl k x).colls = s.colls := rfl
@[simp] theorem State.setCtl_cellar (x : HbmCtl) : (s.setCtl k x).cellar = s.cellar := rfl
@[simp] theorem State.setCtl_mgmt (x : HbmCtl) : (s.setCtl k x).mgmt = s.mgmt := rfl
@[simp] theorem State.setCtl_jtag (x : HbmCtl) : (s.setCtl k x).jtag = s.jtag := rfl
@[simp] theorem State.setCtl_power (x : HbmCtl) : (s.setCtl k x).power = s.power := rfl
@[simp] theorem State.setCtl_units (x : HbmCtl) : (s.setCtl k x).units = s.units := rfl
@[simp] theorem State.setCtl_unitRefused (x : HbmCtl) : (s.setCtl k x).unitRefused = s.unitRefused := rfl
@[simp] theorem State.setCtl_faults (x : HbmCtl) : (s.setCtl k x).faults = s.faults := rfl
@[simp] theorem State.setCtl_boot (x : HbmCtl) : (s.setCtl k x).boot = s.boot := rfl
@[simp] theorem State.setCtl_core (x : HbmCtl) : (s.setCtl k x).core j = s.core j := rfl
@[simp] theorem State.setCtl_part (x : HbmCtl) : (s.setCtl k x).part j = s.part j := rfl
@[simp] theorem State.setCtl_ctx (x : HbmCtl) : (s.setCtl k x).ctx j = s.ctx j := rfl
@[simp] theorem State.setCtl_queue (x : HbmCtl) : (s.setCtl k x).queue j = s.queue j := rfl
@[simp] theorem State.setCtl_press (x : HbmCtl) : (s.setCtl k x).press j = s.press j := rfl
@[simp] theorem State.setCtl_table (x : HbmCtl) : (s.setCtl k x).table j = s.table j := rfl
@[simp] theorem State.setCtl_ctl_at (x : HbmCtl) : (s.setCtl k x).ctl k = x := Map.look_set_same ..
theorem State.setCtl_ctl (x : HbmCtl) : (s.setCtl k x).ctl j = if j = k then x else s.ctl j := Map.look_set ..
@[simp] theorem State.setCtl_pchan (x : HbmCtl) : (s.setCtl k x).pchan j = s.pchan j := rfl
@[simp] theorem State.setCtl_tag (x : HbmCtl) : (s.setCtl k x).tag j = s.tag j := rfl
@[simp] theorem State.setCtl_chan (x : HbmCtl) : (s.setCtl k x).chan j = s.chan j := rfl
@[simp] theorem State.setCtl_rescue (x : HbmCtl) : (s.setCtl k x).rescue j = s.rescue j := rfl
@[simp] theorem State.setCtl_port (x : HbmCtl) : (s.setCtl k x).port j = s.port j := rfl
@[simp] theorem State.setCtl_route (x : HbmCtl) : (s.setCtl k x).route j = s.route j := rfl
@[simp] theorem State.setCtl_group (x : HbmCtl) : (s.setCtl k x).group j = s.group j := rfl
@[simp] theorem State.setCtl_coll (x : HbmCtl) : (s.setCtl k x).coll j = s.coll j := rfl
@[simp] theorem State.setCtl_pwr (x : HbmCtl) : (s.setCtl k x).pwr j = s.pwr j := rfl
@[simp] theorem State.setCtl_unit (x : HbmCtl) : (s.setCtl k x).unit j = s.unit j := rfl

@[simp] theorem State.onPchan_eq (g : PChan → PChan) : s.onPchan k g = s.setPchan k (g (s.pchan k)) := rfl
@[simp] theorem State.setPchan_pending (x : PChan) : (s.setPchan k x).pending = s.pending := rfl
@[simp] theorem State.setPchan_free (x : PChan) : (s.setPchan k x).free = s.free := rfl
@[simp] theorem State.setPchan_now (x : PChan) : (s.setPchan k x).now = s.now := rfl
@[simp] theorem State.setPchan_mem (x : PChan) : (s.setPchan k x).mem = s.mem := rfl
@[simp] theorem State.setPchan_poison (x : PChan) : (s.setPchan k x).poison = s.poison := rfl
@[simp] theorem State.setPchan_written (x : PChan) : (s.setPchan k x).written = s.written := rfl
@[simp] theorem State.setPchan_sramErr (x : PChan) : (s.setPchan k x).sramErr = s.sramErr := rfl
@[simp] theorem State.setPchan_hbmErr (x : PChan) : (s.setPchan k x).hbmErr = s.hbmErr := rfl
@[simp] theorem State.setPchan_sramFix (x : PChan) : (s.setPchan k x).sramFix = s.sramFix := rfl
@[simp] theorem State.setPchan_hostBad (x : PChan) : (s.setPchan k x).hostBad = s.hostBad := rfl
@[simp] theorem State.setPchan_clearing (x : PChan) : (s.setPchan k x).clearing = s.clearing := rfl
@[simp] theorem State.setPchan_host (x : PChan) : (s.setPchan k x).host = s.host := rfl
@[simp] theorem State.setPchan_trellis (x : PChan) : (s.setPchan k x).trellis = s.trellis := rfl
@[simp] theorem State.setPchan_active (x : PChan) : (s.setPchan k x).active = s.active := rfl
@[simp] theorem State.setPchan_parts (x : PChan) : (s.setPchan k x).parts = s.parts := rfl
@[simp] theorem State.setPchan_ctxs (x : PChan) : (s.setPchan k x).ctxs = s.ctxs := rfl
@[simp] theorem State.setPchan_queues (x : PChan) : (s.setPchan k x).queues = s.queues := rfl
@[simp] theorem State.setPchan_cores (x : PChan) : (s.setPchan k x).cores = s.cores := rfl
@[simp] theorem State.setPchan_presses (x : PChan) : (s.setPchan k x).presses = s.presses := rfl
@[simp] theorem State.setPchan_tables (x : PChan) : (s.setPchan k x).tables = s.tables := rfl
@[simp] theorem State.setPchan_hbm (x : PChan) : (s.setPchan k x).hbm = s.hbm := rfl
@[simp] theorem State.setPchan_pchans (x : PChan) : (s.setPchan k x).pchans = s.pchans.set k x := rfl
@[simp] theorem State.setPchan_tags (x : PChan) : (s.setPchan k x).tags = s.tags := rfl
@[simp] theorem State.setPchan_fabric (x : PChan) : (s.setPchan k x).fabric = s.fabric := rfl
@[simp] theorem State.setPchan_xlat (x : PChan) : (s.setPchan k x).xlat = s.xlat := rfl
@[simp] theorem State.setPchan_chans (x : PChan) : (s.setPchan k x).chans = s.chans := rfl
@[simp] theorem State.setPchan_rescues (x : PChan) : (s.setPchan k x).rescues = s.rescues := rfl
@[simp] theorem State.setPchan_ports (x : PChan) : (s.setPchan k x).ports = s.ports := rfl
@[simp] theorem State.setPchan_routes (x : PChan) : (s.setPchan k x).routes = s.routes := rfl
@[simp] theorem State.setPchan_groups (x : PChan) : (s.setPchan k x).groups = s.groups := rfl
@[simp] theorem State.setPchan_colls (x : PChan) : (s.setPchan k x).colls = s.colls := rfl
@[simp] theorem State.setPchan_cellar (x : PChan) : (s.setPchan k x).cellar = s.cellar := rfl
@[simp] theorem State.setPchan_mgmt (x : PChan) : (s.setPchan k x).mgmt = s.mgmt := rfl
@[simp] theorem State.setPchan_jtag (x : PChan) : (s.setPchan k x).jtag = s.jtag := rfl
@[simp] theorem State.setPchan_power (x : PChan) : (s.setPchan k x).power = s.power := rfl
@[simp] theorem State.setPchan_units (x : PChan) : (s.setPchan k x).units = s.units := rfl
@[simp] theorem State.setPchan_unitRefused (x : PChan) : (s.setPchan k x).unitRefused = s.unitRefused := rfl
@[simp] theorem State.setPchan_faults (x : PChan) : (s.setPchan k x).faults = s.faults := rfl
@[simp] theorem State.setPchan_boot (x : PChan) : (s.setPchan k x).boot = s.boot := rfl
@[simp] theorem State.setPchan_core (x : PChan) : (s.setPchan k x).core j = s.core j := rfl
@[simp] theorem State.setPchan_part (x : PChan) : (s.setPchan k x).part j = s.part j := rfl
@[simp] theorem State.setPchan_ctx (x : PChan) : (s.setPchan k x).ctx j = s.ctx j := rfl
@[simp] theorem State.setPchan_queue (x : PChan) : (s.setPchan k x).queue j = s.queue j := rfl
@[simp] theorem State.setPchan_press (x : PChan) : (s.setPchan k x).press j = s.press j := rfl
@[simp] theorem State.setPchan_table (x : PChan) : (s.setPchan k x).table j = s.table j := rfl
@[simp] theorem State.setPchan_ctl (x : PChan) : (s.setPchan k x).ctl j = s.ctl j := rfl
@[simp] theorem State.setPchan_pchan_at (x : PChan) : (s.setPchan k x).pchan k = x := Map.look_set_same ..
theorem State.setPchan_pchan (x : PChan) : (s.setPchan k x).pchan j = if j = k then x else s.pchan j := Map.look_set ..
@[simp] theorem State.setPchan_tag (x : PChan) : (s.setPchan k x).tag j = s.tag j := rfl
@[simp] theorem State.setPchan_chan (x : PChan) : (s.setPchan k x).chan j = s.chan j := rfl
@[simp] theorem State.setPchan_rescue (x : PChan) : (s.setPchan k x).rescue j = s.rescue j := rfl
@[simp] theorem State.setPchan_port (x : PChan) : (s.setPchan k x).port j = s.port j := rfl
@[simp] theorem State.setPchan_route (x : PChan) : (s.setPchan k x).route j = s.route j := rfl
@[simp] theorem State.setPchan_group (x : PChan) : (s.setPchan k x).group j = s.group j := rfl
@[simp] theorem State.setPchan_coll (x : PChan) : (s.setPchan k x).coll j = s.coll j := rfl
@[simp] theorem State.setPchan_pwr (x : PChan) : (s.setPchan k x).pwr j = s.pwr j := rfl
@[simp] theorem State.setPchan_unit (x : PChan) : (s.setPchan k x).unit j = s.unit j := rfl

@[simp] theorem State.onTag_eq (g : Tags → Tags) : s.onTag k g = s.setTag k (g (s.tag k)) := rfl
@[simp] theorem State.setTag_pending (x : Tags) : (s.setTag k x).pending = s.pending := rfl
@[simp] theorem State.setTag_free (x : Tags) : (s.setTag k x).free = s.free := rfl
@[simp] theorem State.setTag_now (x : Tags) : (s.setTag k x).now = s.now := rfl
@[simp] theorem State.setTag_mem (x : Tags) : (s.setTag k x).mem = s.mem := rfl
@[simp] theorem State.setTag_poison (x : Tags) : (s.setTag k x).poison = s.poison := rfl
@[simp] theorem State.setTag_written (x : Tags) : (s.setTag k x).written = s.written := rfl
@[simp] theorem State.setTag_sramErr (x : Tags) : (s.setTag k x).sramErr = s.sramErr := rfl
@[simp] theorem State.setTag_hbmErr (x : Tags) : (s.setTag k x).hbmErr = s.hbmErr := rfl
@[simp] theorem State.setTag_sramFix (x : Tags) : (s.setTag k x).sramFix = s.sramFix := rfl
@[simp] theorem State.setTag_hostBad (x : Tags) : (s.setTag k x).hostBad = s.hostBad := rfl
@[simp] theorem State.setTag_clearing (x : Tags) : (s.setTag k x).clearing = s.clearing := rfl
@[simp] theorem State.setTag_host (x : Tags) : (s.setTag k x).host = s.host := rfl
@[simp] theorem State.setTag_trellis (x : Tags) : (s.setTag k x).trellis = s.trellis := rfl
@[simp] theorem State.setTag_active (x : Tags) : (s.setTag k x).active = s.active := rfl
@[simp] theorem State.setTag_parts (x : Tags) : (s.setTag k x).parts = s.parts := rfl
@[simp] theorem State.setTag_ctxs (x : Tags) : (s.setTag k x).ctxs = s.ctxs := rfl
@[simp] theorem State.setTag_queues (x : Tags) : (s.setTag k x).queues = s.queues := rfl
@[simp] theorem State.setTag_cores (x : Tags) : (s.setTag k x).cores = s.cores := rfl
@[simp] theorem State.setTag_presses (x : Tags) : (s.setTag k x).presses = s.presses := rfl
@[simp] theorem State.setTag_tables (x : Tags) : (s.setTag k x).tables = s.tables := rfl
@[simp] theorem State.setTag_hbm (x : Tags) : (s.setTag k x).hbm = s.hbm := rfl
@[simp] theorem State.setTag_pchans (x : Tags) : (s.setTag k x).pchans = s.pchans := rfl
@[simp] theorem State.setTag_tags (x : Tags) : (s.setTag k x).tags = s.tags.set k x := rfl
@[simp] theorem State.setTag_fabric (x : Tags) : (s.setTag k x).fabric = s.fabric := rfl
@[simp] theorem State.setTag_xlat (x : Tags) : (s.setTag k x).xlat = s.xlat := rfl
@[simp] theorem State.setTag_chans (x : Tags) : (s.setTag k x).chans = s.chans := rfl
@[simp] theorem State.setTag_rescues (x : Tags) : (s.setTag k x).rescues = s.rescues := rfl
@[simp] theorem State.setTag_ports (x : Tags) : (s.setTag k x).ports = s.ports := rfl
@[simp] theorem State.setTag_routes (x : Tags) : (s.setTag k x).routes = s.routes := rfl
@[simp] theorem State.setTag_groups (x : Tags) : (s.setTag k x).groups = s.groups := rfl
@[simp] theorem State.setTag_colls (x : Tags) : (s.setTag k x).colls = s.colls := rfl
@[simp] theorem State.setTag_cellar (x : Tags) : (s.setTag k x).cellar = s.cellar := rfl
@[simp] theorem State.setTag_mgmt (x : Tags) : (s.setTag k x).mgmt = s.mgmt := rfl
@[simp] theorem State.setTag_jtag (x : Tags) : (s.setTag k x).jtag = s.jtag := rfl
@[simp] theorem State.setTag_power (x : Tags) : (s.setTag k x).power = s.power := rfl
@[simp] theorem State.setTag_units (x : Tags) : (s.setTag k x).units = s.units := rfl
@[simp] theorem State.setTag_unitRefused (x : Tags) : (s.setTag k x).unitRefused = s.unitRefused := rfl
@[simp] theorem State.setTag_faults (x : Tags) : (s.setTag k x).faults = s.faults := rfl
@[simp] theorem State.setTag_boot (x : Tags) : (s.setTag k x).boot = s.boot := rfl
@[simp] theorem State.setTag_core (x : Tags) : (s.setTag k x).core j = s.core j := rfl
@[simp] theorem State.setTag_part (x : Tags) : (s.setTag k x).part j = s.part j := rfl
@[simp] theorem State.setTag_ctx (x : Tags) : (s.setTag k x).ctx j = s.ctx j := rfl
@[simp] theorem State.setTag_queue (x : Tags) : (s.setTag k x).queue j = s.queue j := rfl
@[simp] theorem State.setTag_press (x : Tags) : (s.setTag k x).press j = s.press j := rfl
@[simp] theorem State.setTag_table (x : Tags) : (s.setTag k x).table j = s.table j := rfl
@[simp] theorem State.setTag_ctl (x : Tags) : (s.setTag k x).ctl j = s.ctl j := rfl
@[simp] theorem State.setTag_pchan (x : Tags) : (s.setTag k x).pchan j = s.pchan j := rfl
@[simp] theorem State.setTag_tag_at (x : Tags) : (s.setTag k x).tag k = x := Map.look_set_same ..
theorem State.setTag_tag (x : Tags) : (s.setTag k x).tag j = if j = k then x else s.tag j := Map.look_set ..
@[simp] theorem State.setTag_chan (x : Tags) : (s.setTag k x).chan j = s.chan j := rfl
@[simp] theorem State.setTag_rescue (x : Tags) : (s.setTag k x).rescue j = s.rescue j := rfl
@[simp] theorem State.setTag_port (x : Tags) : (s.setTag k x).port j = s.port j := rfl
@[simp] theorem State.setTag_route (x : Tags) : (s.setTag k x).route j = s.route j := rfl
@[simp] theorem State.setTag_group (x : Tags) : (s.setTag k x).group j = s.group j := rfl
@[simp] theorem State.setTag_coll (x : Tags) : (s.setTag k x).coll j = s.coll j := rfl
@[simp] theorem State.setTag_pwr (x : Tags) : (s.setTag k x).pwr j = s.pwr j := rfl
@[simp] theorem State.setTag_unit (x : Tags) : (s.setTag k x).unit j = s.unit j := rfl

@[simp] theorem State.onChan_eq (g : Chan → Chan) : s.onChan k g = s.setChan k (g (s.chan k)) := rfl
@[simp] theorem State.setChan_pending (x : Chan) : (s.setChan k x).pending = s.pending := rfl
@[simp] theorem State.setChan_free (x : Chan) : (s.setChan k x).free = s.free := rfl
@[simp] theorem State.setChan_now (x : Chan) : (s.setChan k x).now = s.now := rfl
@[simp] theorem State.setChan_mem (x : Chan) : (s.setChan k x).mem = s.mem := rfl
@[simp] theorem State.setChan_poison (x : Chan) : (s.setChan k x).poison = s.poison := rfl
@[simp] theorem State.setChan_written (x : Chan) : (s.setChan k x).written = s.written := rfl
@[simp] theorem State.setChan_sramErr (x : Chan) : (s.setChan k x).sramErr = s.sramErr := rfl
@[simp] theorem State.setChan_hbmErr (x : Chan) : (s.setChan k x).hbmErr = s.hbmErr := rfl
@[simp] theorem State.setChan_sramFix (x : Chan) : (s.setChan k x).sramFix = s.sramFix := rfl
@[simp] theorem State.setChan_hostBad (x : Chan) : (s.setChan k x).hostBad = s.hostBad := rfl
@[simp] theorem State.setChan_clearing (x : Chan) : (s.setChan k x).clearing = s.clearing := rfl
@[simp] theorem State.setChan_host (x : Chan) : (s.setChan k x).host = s.host := rfl
@[simp] theorem State.setChan_trellis (x : Chan) : (s.setChan k x).trellis = s.trellis := rfl
@[simp] theorem State.setChan_active (x : Chan) : (s.setChan k x).active = s.active := rfl
@[simp] theorem State.setChan_parts (x : Chan) : (s.setChan k x).parts = s.parts := rfl
@[simp] theorem State.setChan_ctxs (x : Chan) : (s.setChan k x).ctxs = s.ctxs := rfl
@[simp] theorem State.setChan_queues (x : Chan) : (s.setChan k x).queues = s.queues := rfl
@[simp] theorem State.setChan_cores (x : Chan) : (s.setChan k x).cores = s.cores := rfl
@[simp] theorem State.setChan_presses (x : Chan) : (s.setChan k x).presses = s.presses := rfl
@[simp] theorem State.setChan_tables (x : Chan) : (s.setChan k x).tables = s.tables := rfl
@[simp] theorem State.setChan_hbm (x : Chan) : (s.setChan k x).hbm = s.hbm := rfl
@[simp] theorem State.setChan_pchans (x : Chan) : (s.setChan k x).pchans = s.pchans := rfl
@[simp] theorem State.setChan_tags (x : Chan) : (s.setChan k x).tags = s.tags := rfl
@[simp] theorem State.setChan_fabric (x : Chan) : (s.setChan k x).fabric = s.fabric := rfl
@[simp] theorem State.setChan_xlat (x : Chan) : (s.setChan k x).xlat = s.xlat := rfl
@[simp] theorem State.setChan_chans (x : Chan) : (s.setChan k x).chans = s.chans.set k x := rfl
@[simp] theorem State.setChan_rescues (x : Chan) : (s.setChan k x).rescues = s.rescues := rfl
@[simp] theorem State.setChan_ports (x : Chan) : (s.setChan k x).ports = s.ports := rfl
@[simp] theorem State.setChan_routes (x : Chan) : (s.setChan k x).routes = s.routes := rfl
@[simp] theorem State.setChan_groups (x : Chan) : (s.setChan k x).groups = s.groups := rfl
@[simp] theorem State.setChan_colls (x : Chan) : (s.setChan k x).colls = s.colls := rfl
@[simp] theorem State.setChan_cellar (x : Chan) : (s.setChan k x).cellar = s.cellar := rfl
@[simp] theorem State.setChan_mgmt (x : Chan) : (s.setChan k x).mgmt = s.mgmt := rfl
@[simp] theorem State.setChan_jtag (x : Chan) : (s.setChan k x).jtag = s.jtag := rfl
@[simp] theorem State.setChan_power (x : Chan) : (s.setChan k x).power = s.power := rfl
@[simp] theorem State.setChan_units (x : Chan) : (s.setChan k x).units = s.units := rfl
@[simp] theorem State.setChan_unitRefused (x : Chan) : (s.setChan k x).unitRefused = s.unitRefused := rfl
@[simp] theorem State.setChan_faults (x : Chan) : (s.setChan k x).faults = s.faults := rfl
@[simp] theorem State.setChan_boot (x : Chan) : (s.setChan k x).boot = s.boot := rfl
@[simp] theorem State.setChan_core (x : Chan) : (s.setChan k x).core j = s.core j := rfl
@[simp] theorem State.setChan_part (x : Chan) : (s.setChan k x).part j = s.part j := rfl
@[simp] theorem State.setChan_ctx (x : Chan) : (s.setChan k x).ctx j = s.ctx j := rfl
@[simp] theorem State.setChan_queue (x : Chan) : (s.setChan k x).queue j = s.queue j := rfl
@[simp] theorem State.setChan_press (x : Chan) : (s.setChan k x).press j = s.press j := rfl
@[simp] theorem State.setChan_table (x : Chan) : (s.setChan k x).table j = s.table j := rfl
@[simp] theorem State.setChan_ctl (x : Chan) : (s.setChan k x).ctl j = s.ctl j := rfl
@[simp] theorem State.setChan_pchan (x : Chan) : (s.setChan k x).pchan j = s.pchan j := rfl
@[simp] theorem State.setChan_tag (x : Chan) : (s.setChan k x).tag j = s.tag j := rfl
@[simp] theorem State.setChan_chan_at (x : Chan) : (s.setChan k x).chan k = x := Map.look_set_same ..
theorem State.setChan_chan (x : Chan) : (s.setChan k x).chan j = if j = k then x else s.chan j := Map.look_set ..
@[simp] theorem State.setChan_rescue (x : Chan) : (s.setChan k x).rescue j = s.rescue j := rfl
@[simp] theorem State.setChan_port (x : Chan) : (s.setChan k x).port j = s.port j := rfl
@[simp] theorem State.setChan_route (x : Chan) : (s.setChan k x).route j = s.route j := rfl
@[simp] theorem State.setChan_group (x : Chan) : (s.setChan k x).group j = s.group j := rfl
@[simp] theorem State.setChan_coll (x : Chan) : (s.setChan k x).coll j = s.coll j := rfl
@[simp] theorem State.setChan_pwr (x : Chan) : (s.setChan k x).pwr j = s.pwr j := rfl
@[simp] theorem State.setChan_unit (x : Chan) : (s.setChan k x).unit j = s.unit j := rfl

@[simp] theorem State.onRescue_eq (g : Rescue → Rescue) : s.onRescue k g = s.setRescue k (g (s.rescue k)) := rfl
@[simp] theorem State.setRescue_pending (x : Rescue) : (s.setRescue k x).pending = s.pending := rfl
@[simp] theorem State.setRescue_free (x : Rescue) : (s.setRescue k x).free = s.free := rfl
@[simp] theorem State.setRescue_now (x : Rescue) : (s.setRescue k x).now = s.now := rfl
@[simp] theorem State.setRescue_mem (x : Rescue) : (s.setRescue k x).mem = s.mem := rfl
@[simp] theorem State.setRescue_poison (x : Rescue) : (s.setRescue k x).poison = s.poison := rfl
@[simp] theorem State.setRescue_written (x : Rescue) : (s.setRescue k x).written = s.written := rfl
@[simp] theorem State.setRescue_sramErr (x : Rescue) : (s.setRescue k x).sramErr = s.sramErr := rfl
@[simp] theorem State.setRescue_hbmErr (x : Rescue) : (s.setRescue k x).hbmErr = s.hbmErr := rfl
@[simp] theorem State.setRescue_sramFix (x : Rescue) : (s.setRescue k x).sramFix = s.sramFix := rfl
@[simp] theorem State.setRescue_hostBad (x : Rescue) : (s.setRescue k x).hostBad = s.hostBad := rfl
@[simp] theorem State.setRescue_clearing (x : Rescue) : (s.setRescue k x).clearing = s.clearing := rfl
@[simp] theorem State.setRescue_host (x : Rescue) : (s.setRescue k x).host = s.host := rfl
@[simp] theorem State.setRescue_trellis (x : Rescue) : (s.setRescue k x).trellis = s.trellis := rfl
@[simp] theorem State.setRescue_active (x : Rescue) : (s.setRescue k x).active = s.active := rfl
@[simp] theorem State.setRescue_parts (x : Rescue) : (s.setRescue k x).parts = s.parts := rfl
@[simp] theorem State.setRescue_ctxs (x : Rescue) : (s.setRescue k x).ctxs = s.ctxs := rfl
@[simp] theorem State.setRescue_queues (x : Rescue) : (s.setRescue k x).queues = s.queues := rfl
@[simp] theorem State.setRescue_cores (x : Rescue) : (s.setRescue k x).cores = s.cores := rfl
@[simp] theorem State.setRescue_presses (x : Rescue) : (s.setRescue k x).presses = s.presses := rfl
@[simp] theorem State.setRescue_tables (x : Rescue) : (s.setRescue k x).tables = s.tables := rfl
@[simp] theorem State.setRescue_hbm (x : Rescue) : (s.setRescue k x).hbm = s.hbm := rfl
@[simp] theorem State.setRescue_pchans (x : Rescue) : (s.setRescue k x).pchans = s.pchans := rfl
@[simp] theorem State.setRescue_tags (x : Rescue) : (s.setRescue k x).tags = s.tags := rfl
@[simp] theorem State.setRescue_fabric (x : Rescue) : (s.setRescue k x).fabric = s.fabric := rfl
@[simp] theorem State.setRescue_xlat (x : Rescue) : (s.setRescue k x).xlat = s.xlat := rfl
@[simp] theorem State.setRescue_chans (x : Rescue) : (s.setRescue k x).chans = s.chans := rfl
@[simp] theorem State.setRescue_rescues (x : Rescue) : (s.setRescue k x).rescues = s.rescues.set k x := rfl
@[simp] theorem State.setRescue_ports (x : Rescue) : (s.setRescue k x).ports = s.ports := rfl
@[simp] theorem State.setRescue_routes (x : Rescue) : (s.setRescue k x).routes = s.routes := rfl
@[simp] theorem State.setRescue_groups (x : Rescue) : (s.setRescue k x).groups = s.groups := rfl
@[simp] theorem State.setRescue_colls (x : Rescue) : (s.setRescue k x).colls = s.colls := rfl
@[simp] theorem State.setRescue_cellar (x : Rescue) : (s.setRescue k x).cellar = s.cellar := rfl
@[simp] theorem State.setRescue_mgmt (x : Rescue) : (s.setRescue k x).mgmt = s.mgmt := rfl
@[simp] theorem State.setRescue_jtag (x : Rescue) : (s.setRescue k x).jtag = s.jtag := rfl
@[simp] theorem State.setRescue_power (x : Rescue) : (s.setRescue k x).power = s.power := rfl
@[simp] theorem State.setRescue_units (x : Rescue) : (s.setRescue k x).units = s.units := rfl
@[simp] theorem State.setRescue_unitRefused (x : Rescue) : (s.setRescue k x).unitRefused = s.unitRefused := rfl
@[simp] theorem State.setRescue_faults (x : Rescue) : (s.setRescue k x).faults = s.faults := rfl
@[simp] theorem State.setRescue_boot (x : Rescue) : (s.setRescue k x).boot = s.boot := rfl
@[simp] theorem State.setRescue_core (x : Rescue) : (s.setRescue k x).core j = s.core j := rfl
@[simp] theorem State.setRescue_part (x : Rescue) : (s.setRescue k x).part j = s.part j := rfl
@[simp] theorem State.setRescue_ctx (x : Rescue) : (s.setRescue k x).ctx j = s.ctx j := rfl
@[simp] theorem State.setRescue_queue (x : Rescue) : (s.setRescue k x).queue j = s.queue j := rfl
@[simp] theorem State.setRescue_press (x : Rescue) : (s.setRescue k x).press j = s.press j := rfl
@[simp] theorem State.setRescue_table (x : Rescue) : (s.setRescue k x).table j = s.table j := rfl
@[simp] theorem State.setRescue_ctl (x : Rescue) : (s.setRescue k x).ctl j = s.ctl j := rfl
@[simp] theorem State.setRescue_pchan (x : Rescue) : (s.setRescue k x).pchan j = s.pchan j := rfl
@[simp] theorem State.setRescue_tag (x : Rescue) : (s.setRescue k x).tag j = s.tag j := rfl
@[simp] theorem State.setRescue_chan (x : Rescue) : (s.setRescue k x).chan j = s.chan j := rfl
@[simp] theorem State.setRescue_rescue_at (x : Rescue) : (s.setRescue k x).rescue k = x := Map.look_set_same ..
theorem State.setRescue_rescue (x : Rescue) : (s.setRescue k x).rescue j = if j = k then x else s.rescue j := Map.look_set ..
@[simp] theorem State.setRescue_port (x : Rescue) : (s.setRescue k x).port j = s.port j := rfl
@[simp] theorem State.setRescue_route (x : Rescue) : (s.setRescue k x).route j = s.route j := rfl
@[simp] theorem State.setRescue_group (x : Rescue) : (s.setRescue k x).group j = s.group j := rfl
@[simp] theorem State.setRescue_coll (x : Rescue) : (s.setRescue k x).coll j = s.coll j := rfl
@[simp] theorem State.setRescue_pwr (x : Rescue) : (s.setRescue k x).pwr j = s.pwr j := rfl
@[simp] theorem State.setRescue_unit (x : Rescue) : (s.setRescue k x).unit j = s.unit j := rfl

@[simp] theorem State.onPort_eq (g : Port → Port) : s.onPort k g = s.setPort k (g (s.port k)) := rfl
@[simp] theorem State.setPort_pending (x : Port) : (s.setPort k x).pending = s.pending := rfl
@[simp] theorem State.setPort_free (x : Port) : (s.setPort k x).free = s.free := rfl
@[simp] theorem State.setPort_now (x : Port) : (s.setPort k x).now = s.now := rfl
@[simp] theorem State.setPort_mem (x : Port) : (s.setPort k x).mem = s.mem := rfl
@[simp] theorem State.setPort_poison (x : Port) : (s.setPort k x).poison = s.poison := rfl
@[simp] theorem State.setPort_written (x : Port) : (s.setPort k x).written = s.written := rfl
@[simp] theorem State.setPort_sramErr (x : Port) : (s.setPort k x).sramErr = s.sramErr := rfl
@[simp] theorem State.setPort_hbmErr (x : Port) : (s.setPort k x).hbmErr = s.hbmErr := rfl
@[simp] theorem State.setPort_sramFix (x : Port) : (s.setPort k x).sramFix = s.sramFix := rfl
@[simp] theorem State.setPort_hostBad (x : Port) : (s.setPort k x).hostBad = s.hostBad := rfl
@[simp] theorem State.setPort_clearing (x : Port) : (s.setPort k x).clearing = s.clearing := rfl
@[simp] theorem State.setPort_host (x : Port) : (s.setPort k x).host = s.host := rfl
@[simp] theorem State.setPort_trellis (x : Port) : (s.setPort k x).trellis = s.trellis := rfl
@[simp] theorem State.setPort_active (x : Port) : (s.setPort k x).active = s.active := rfl
@[simp] theorem State.setPort_parts (x : Port) : (s.setPort k x).parts = s.parts := rfl
@[simp] theorem State.setPort_ctxs (x : Port) : (s.setPort k x).ctxs = s.ctxs := rfl
@[simp] theorem State.setPort_queues (x : Port) : (s.setPort k x).queues = s.queues := rfl
@[simp] theorem State.setPort_cores (x : Port) : (s.setPort k x).cores = s.cores := rfl
@[simp] theorem State.setPort_presses (x : Port) : (s.setPort k x).presses = s.presses := rfl
@[simp] theorem State.setPort_tables (x : Port) : (s.setPort k x).tables = s.tables := rfl
@[simp] theorem State.setPort_hbm (x : Port) : (s.setPort k x).hbm = s.hbm := rfl
@[simp] theorem State.setPort_pchans (x : Port) : (s.setPort k x).pchans = s.pchans := rfl
@[simp] theorem State.setPort_tags (x : Port) : (s.setPort k x).tags = s.tags := rfl
@[simp] theorem State.setPort_fabric (x : Port) : (s.setPort k x).fabric = s.fabric := rfl
@[simp] theorem State.setPort_xlat (x : Port) : (s.setPort k x).xlat = s.xlat := rfl
@[simp] theorem State.setPort_chans (x : Port) : (s.setPort k x).chans = s.chans := rfl
@[simp] theorem State.setPort_rescues (x : Port) : (s.setPort k x).rescues = s.rescues := rfl
@[simp] theorem State.setPort_ports (x : Port) : (s.setPort k x).ports = s.ports.set k x := rfl
@[simp] theorem State.setPort_routes (x : Port) : (s.setPort k x).routes = s.routes := rfl
@[simp] theorem State.setPort_groups (x : Port) : (s.setPort k x).groups = s.groups := rfl
@[simp] theorem State.setPort_colls (x : Port) : (s.setPort k x).colls = s.colls := rfl
@[simp] theorem State.setPort_cellar (x : Port) : (s.setPort k x).cellar = s.cellar := rfl
@[simp] theorem State.setPort_mgmt (x : Port) : (s.setPort k x).mgmt = s.mgmt := rfl
@[simp] theorem State.setPort_jtag (x : Port) : (s.setPort k x).jtag = s.jtag := rfl
@[simp] theorem State.setPort_power (x : Port) : (s.setPort k x).power = s.power := rfl
@[simp] theorem State.setPort_units (x : Port) : (s.setPort k x).units = s.units := rfl
@[simp] theorem State.setPort_unitRefused (x : Port) : (s.setPort k x).unitRefused = s.unitRefused := rfl
@[simp] theorem State.setPort_faults (x : Port) : (s.setPort k x).faults = s.faults := rfl
@[simp] theorem State.setPort_boot (x : Port) : (s.setPort k x).boot = s.boot := rfl
@[simp] theorem State.setPort_core (x : Port) : (s.setPort k x).core j = s.core j := rfl
@[simp] theorem State.setPort_part (x : Port) : (s.setPort k x).part j = s.part j := rfl
@[simp] theorem State.setPort_ctx (x : Port) : (s.setPort k x).ctx j = s.ctx j := rfl
@[simp] theorem State.setPort_queue (x : Port) : (s.setPort k x).queue j = s.queue j := rfl
@[simp] theorem State.setPort_press (x : Port) : (s.setPort k x).press j = s.press j := rfl
@[simp] theorem State.setPort_table (x : Port) : (s.setPort k x).table j = s.table j := rfl
@[simp] theorem State.setPort_ctl (x : Port) : (s.setPort k x).ctl j = s.ctl j := rfl
@[simp] theorem State.setPort_pchan (x : Port) : (s.setPort k x).pchan j = s.pchan j := rfl
@[simp] theorem State.setPort_tag (x : Port) : (s.setPort k x).tag j = s.tag j := rfl
@[simp] theorem State.setPort_chan (x : Port) : (s.setPort k x).chan j = s.chan j := rfl
@[simp] theorem State.setPort_rescue (x : Port) : (s.setPort k x).rescue j = s.rescue j := rfl
@[simp] theorem State.setPort_port_at (x : Port) : (s.setPort k x).port k = x := Map.look_set_same ..
theorem State.setPort_port (x : Port) : (s.setPort k x).port j = if j = k then x else s.port j := Map.look_set ..
@[simp] theorem State.setPort_route (x : Port) : (s.setPort k x).route j = s.route j := rfl
@[simp] theorem State.setPort_group (x : Port) : (s.setPort k x).group j = s.group j := rfl
@[simp] theorem State.setPort_coll (x : Port) : (s.setPort k x).coll j = s.coll j := rfl
@[simp] theorem State.setPort_pwr (x : Port) : (s.setPort k x).pwr j = s.pwr j := rfl
@[simp] theorem State.setPort_unit (x : Port) : (s.setPort k x).unit j = s.unit j := rfl

@[simp] theorem State.onRoute_eq (g : Route → Route) : s.onRoute k g = s.setRoute k (g (s.route k)) := rfl
@[simp] theorem State.setRoute_pending (x : Route) : (s.setRoute k x).pending = s.pending := rfl
@[simp] theorem State.setRoute_free (x : Route) : (s.setRoute k x).free = s.free := rfl
@[simp] theorem State.setRoute_now (x : Route) : (s.setRoute k x).now = s.now := rfl
@[simp] theorem State.setRoute_mem (x : Route) : (s.setRoute k x).mem = s.mem := rfl
@[simp] theorem State.setRoute_poison (x : Route) : (s.setRoute k x).poison = s.poison := rfl
@[simp] theorem State.setRoute_written (x : Route) : (s.setRoute k x).written = s.written := rfl
@[simp] theorem State.setRoute_sramErr (x : Route) : (s.setRoute k x).sramErr = s.sramErr := rfl
@[simp] theorem State.setRoute_hbmErr (x : Route) : (s.setRoute k x).hbmErr = s.hbmErr := rfl
@[simp] theorem State.setRoute_sramFix (x : Route) : (s.setRoute k x).sramFix = s.sramFix := rfl
@[simp] theorem State.setRoute_hostBad (x : Route) : (s.setRoute k x).hostBad = s.hostBad := rfl
@[simp] theorem State.setRoute_clearing (x : Route) : (s.setRoute k x).clearing = s.clearing := rfl
@[simp] theorem State.setRoute_host (x : Route) : (s.setRoute k x).host = s.host := rfl
@[simp] theorem State.setRoute_trellis (x : Route) : (s.setRoute k x).trellis = s.trellis := rfl
@[simp] theorem State.setRoute_active (x : Route) : (s.setRoute k x).active = s.active := rfl
@[simp] theorem State.setRoute_parts (x : Route) : (s.setRoute k x).parts = s.parts := rfl
@[simp] theorem State.setRoute_ctxs (x : Route) : (s.setRoute k x).ctxs = s.ctxs := rfl
@[simp] theorem State.setRoute_queues (x : Route) : (s.setRoute k x).queues = s.queues := rfl
@[simp] theorem State.setRoute_cores (x : Route) : (s.setRoute k x).cores = s.cores := rfl
@[simp] theorem State.setRoute_presses (x : Route) : (s.setRoute k x).presses = s.presses := rfl
@[simp] theorem State.setRoute_tables (x : Route) : (s.setRoute k x).tables = s.tables := rfl
@[simp] theorem State.setRoute_hbm (x : Route) : (s.setRoute k x).hbm = s.hbm := rfl
@[simp] theorem State.setRoute_pchans (x : Route) : (s.setRoute k x).pchans = s.pchans := rfl
@[simp] theorem State.setRoute_tags (x : Route) : (s.setRoute k x).tags = s.tags := rfl
@[simp] theorem State.setRoute_fabric (x : Route) : (s.setRoute k x).fabric = s.fabric := rfl
@[simp] theorem State.setRoute_xlat (x : Route) : (s.setRoute k x).xlat = s.xlat := rfl
@[simp] theorem State.setRoute_chans (x : Route) : (s.setRoute k x).chans = s.chans := rfl
@[simp] theorem State.setRoute_rescues (x : Route) : (s.setRoute k x).rescues = s.rescues := rfl
@[simp] theorem State.setRoute_ports (x : Route) : (s.setRoute k x).ports = s.ports := rfl
@[simp] theorem State.setRoute_routes (x : Route) : (s.setRoute k x).routes = s.routes.set k x := rfl
@[simp] theorem State.setRoute_groups (x : Route) : (s.setRoute k x).groups = s.groups := rfl
@[simp] theorem State.setRoute_colls (x : Route) : (s.setRoute k x).colls = s.colls := rfl
@[simp] theorem State.setRoute_cellar (x : Route) : (s.setRoute k x).cellar = s.cellar := rfl
@[simp] theorem State.setRoute_mgmt (x : Route) : (s.setRoute k x).mgmt = s.mgmt := rfl
@[simp] theorem State.setRoute_jtag (x : Route) : (s.setRoute k x).jtag = s.jtag := rfl
@[simp] theorem State.setRoute_power (x : Route) : (s.setRoute k x).power = s.power := rfl
@[simp] theorem State.setRoute_units (x : Route) : (s.setRoute k x).units = s.units := rfl
@[simp] theorem State.setRoute_unitRefused (x : Route) : (s.setRoute k x).unitRefused = s.unitRefused := rfl
@[simp] theorem State.setRoute_faults (x : Route) : (s.setRoute k x).faults = s.faults := rfl
@[simp] theorem State.setRoute_boot (x : Route) : (s.setRoute k x).boot = s.boot := rfl
@[simp] theorem State.setRoute_core (x : Route) : (s.setRoute k x).core j = s.core j := rfl
@[simp] theorem State.setRoute_part (x : Route) : (s.setRoute k x).part j = s.part j := rfl
@[simp] theorem State.setRoute_ctx (x : Route) : (s.setRoute k x).ctx j = s.ctx j := rfl
@[simp] theorem State.setRoute_queue (x : Route) : (s.setRoute k x).queue j = s.queue j := rfl
@[simp] theorem State.setRoute_press (x : Route) : (s.setRoute k x).press j = s.press j := rfl
@[simp] theorem State.setRoute_table (x : Route) : (s.setRoute k x).table j = s.table j := rfl
@[simp] theorem State.setRoute_ctl (x : Route) : (s.setRoute k x).ctl j = s.ctl j := rfl
@[simp] theorem State.setRoute_pchan (x : Route) : (s.setRoute k x).pchan j = s.pchan j := rfl
@[simp] theorem State.setRoute_tag (x : Route) : (s.setRoute k x).tag j = s.tag j := rfl
@[simp] theorem State.setRoute_chan (x : Route) : (s.setRoute k x).chan j = s.chan j := rfl
@[simp] theorem State.setRoute_rescue (x : Route) : (s.setRoute k x).rescue j = s.rescue j := rfl
@[simp] theorem State.setRoute_port (x : Route) : (s.setRoute k x).port j = s.port j := rfl
@[simp] theorem State.setRoute_route_at (x : Route) : (s.setRoute k x).route k = x := Map.look_set_same ..
theorem State.setRoute_route (x : Route) : (s.setRoute k x).route j = if j = k then x else s.route j := Map.look_set ..
@[simp] theorem State.setRoute_group (x : Route) : (s.setRoute k x).group j = s.group j := rfl
@[simp] theorem State.setRoute_coll (x : Route) : (s.setRoute k x).coll j = s.coll j := rfl
@[simp] theorem State.setRoute_pwr (x : Route) : (s.setRoute k x).pwr j = s.pwr j := rfl
@[simp] theorem State.setRoute_unit (x : Route) : (s.setRoute k x).unit j = s.unit j := rfl

@[simp] theorem State.onGroup_eq (g : Group → Group) : s.onGroup k g = s.setGroup k (g (s.group k)) := rfl
@[simp] theorem State.setGroup_pending (x : Group) : (s.setGroup k x).pending = s.pending := rfl
@[simp] theorem State.setGroup_free (x : Group) : (s.setGroup k x).free = s.free := rfl
@[simp] theorem State.setGroup_now (x : Group) : (s.setGroup k x).now = s.now := rfl
@[simp] theorem State.setGroup_mem (x : Group) : (s.setGroup k x).mem = s.mem := rfl
@[simp] theorem State.setGroup_poison (x : Group) : (s.setGroup k x).poison = s.poison := rfl
@[simp] theorem State.setGroup_written (x : Group) : (s.setGroup k x).written = s.written := rfl
@[simp] theorem State.setGroup_sramErr (x : Group) : (s.setGroup k x).sramErr = s.sramErr := rfl
@[simp] theorem State.setGroup_hbmErr (x : Group) : (s.setGroup k x).hbmErr = s.hbmErr := rfl
@[simp] theorem State.setGroup_sramFix (x : Group) : (s.setGroup k x).sramFix = s.sramFix := rfl
@[simp] theorem State.setGroup_hostBad (x : Group) : (s.setGroup k x).hostBad = s.hostBad := rfl
@[simp] theorem State.setGroup_clearing (x : Group) : (s.setGroup k x).clearing = s.clearing := rfl
@[simp] theorem State.setGroup_host (x : Group) : (s.setGroup k x).host = s.host := rfl
@[simp] theorem State.setGroup_trellis (x : Group) : (s.setGroup k x).trellis = s.trellis := rfl
@[simp] theorem State.setGroup_active (x : Group) : (s.setGroup k x).active = s.active := rfl
@[simp] theorem State.setGroup_parts (x : Group) : (s.setGroup k x).parts = s.parts := rfl
@[simp] theorem State.setGroup_ctxs (x : Group) : (s.setGroup k x).ctxs = s.ctxs := rfl
@[simp] theorem State.setGroup_queues (x : Group) : (s.setGroup k x).queues = s.queues := rfl
@[simp] theorem State.setGroup_cores (x : Group) : (s.setGroup k x).cores = s.cores := rfl
@[simp] theorem State.setGroup_presses (x : Group) : (s.setGroup k x).presses = s.presses := rfl
@[simp] theorem State.setGroup_tables (x : Group) : (s.setGroup k x).tables = s.tables := rfl
@[simp] theorem State.setGroup_hbm (x : Group) : (s.setGroup k x).hbm = s.hbm := rfl
@[simp] theorem State.setGroup_pchans (x : Group) : (s.setGroup k x).pchans = s.pchans := rfl
@[simp] theorem State.setGroup_tags (x : Group) : (s.setGroup k x).tags = s.tags := rfl
@[simp] theorem State.setGroup_fabric (x : Group) : (s.setGroup k x).fabric = s.fabric := rfl
@[simp] theorem State.setGroup_xlat (x : Group) : (s.setGroup k x).xlat = s.xlat := rfl
@[simp] theorem State.setGroup_chans (x : Group) : (s.setGroup k x).chans = s.chans := rfl
@[simp] theorem State.setGroup_rescues (x : Group) : (s.setGroup k x).rescues = s.rescues := rfl
@[simp] theorem State.setGroup_ports (x : Group) : (s.setGroup k x).ports = s.ports := rfl
@[simp] theorem State.setGroup_routes (x : Group) : (s.setGroup k x).routes = s.routes := rfl
@[simp] theorem State.setGroup_groups (x : Group) : (s.setGroup k x).groups = s.groups.set k x := rfl
@[simp] theorem State.setGroup_colls (x : Group) : (s.setGroup k x).colls = s.colls := rfl
@[simp] theorem State.setGroup_cellar (x : Group) : (s.setGroup k x).cellar = s.cellar := rfl
@[simp] theorem State.setGroup_mgmt (x : Group) : (s.setGroup k x).mgmt = s.mgmt := rfl
@[simp] theorem State.setGroup_jtag (x : Group) : (s.setGroup k x).jtag = s.jtag := rfl
@[simp] theorem State.setGroup_power (x : Group) : (s.setGroup k x).power = s.power := rfl
@[simp] theorem State.setGroup_units (x : Group) : (s.setGroup k x).units = s.units := rfl
@[simp] theorem State.setGroup_unitRefused (x : Group) : (s.setGroup k x).unitRefused = s.unitRefused := rfl
@[simp] theorem State.setGroup_faults (x : Group) : (s.setGroup k x).faults = s.faults := rfl
@[simp] theorem State.setGroup_boot (x : Group) : (s.setGroup k x).boot = s.boot := rfl
@[simp] theorem State.setGroup_core (x : Group) : (s.setGroup k x).core j = s.core j := rfl
@[simp] theorem State.setGroup_part (x : Group) : (s.setGroup k x).part j = s.part j := rfl
@[simp] theorem State.setGroup_ctx (x : Group) : (s.setGroup k x).ctx j = s.ctx j := rfl
@[simp] theorem State.setGroup_queue (x : Group) : (s.setGroup k x).queue j = s.queue j := rfl
@[simp] theorem State.setGroup_press (x : Group) : (s.setGroup k x).press j = s.press j := rfl
@[simp] theorem State.setGroup_table (x : Group) : (s.setGroup k x).table j = s.table j := rfl
@[simp] theorem State.setGroup_ctl (x : Group) : (s.setGroup k x).ctl j = s.ctl j := rfl
@[simp] theorem State.setGroup_pchan (x : Group) : (s.setGroup k x).pchan j = s.pchan j := rfl
@[simp] theorem State.setGroup_tag (x : Group) : (s.setGroup k x).tag j = s.tag j := rfl
@[simp] theorem State.setGroup_chan (x : Group) : (s.setGroup k x).chan j = s.chan j := rfl
@[simp] theorem State.setGroup_rescue (x : Group) : (s.setGroup k x).rescue j = s.rescue j := rfl
@[simp] theorem State.setGroup_port (x : Group) : (s.setGroup k x).port j = s.port j := rfl
@[simp] theorem State.setGroup_route (x : Group) : (s.setGroup k x).route j = s.route j := rfl
@[simp] theorem State.setGroup_group_at (x : Group) : (s.setGroup k x).group k = x := Map.look_set_same ..
theorem State.setGroup_group (x : Group) : (s.setGroup k x).group j = if j = k then x else s.group j := Map.look_set ..
@[simp] theorem State.setGroup_coll (x : Group) : (s.setGroup k x).coll j = s.coll j := rfl
@[simp] theorem State.setGroup_pwr (x : Group) : (s.setGroup k x).pwr j = s.pwr j := rfl
@[simp] theorem State.setGroup_unit (x : Group) : (s.setGroup k x).unit j = s.unit j := rfl

@[simp] theorem State.onColl_eq (g : Coll → Coll) : s.onColl k g = s.setColl k (g (s.coll k)) := rfl
@[simp] theorem State.setColl_pending (x : Coll) : (s.setColl k x).pending = s.pending := rfl
@[simp] theorem State.setColl_free (x : Coll) : (s.setColl k x).free = s.free := rfl
@[simp] theorem State.setColl_now (x : Coll) : (s.setColl k x).now = s.now := rfl
@[simp] theorem State.setColl_mem (x : Coll) : (s.setColl k x).mem = s.mem := rfl
@[simp] theorem State.setColl_poison (x : Coll) : (s.setColl k x).poison = s.poison := rfl
@[simp] theorem State.setColl_written (x : Coll) : (s.setColl k x).written = s.written := rfl
@[simp] theorem State.setColl_sramErr (x : Coll) : (s.setColl k x).sramErr = s.sramErr := rfl
@[simp] theorem State.setColl_hbmErr (x : Coll) : (s.setColl k x).hbmErr = s.hbmErr := rfl
@[simp] theorem State.setColl_sramFix (x : Coll) : (s.setColl k x).sramFix = s.sramFix := rfl
@[simp] theorem State.setColl_hostBad (x : Coll) : (s.setColl k x).hostBad = s.hostBad := rfl
@[simp] theorem State.setColl_clearing (x : Coll) : (s.setColl k x).clearing = s.clearing := rfl
@[simp] theorem State.setColl_host (x : Coll) : (s.setColl k x).host = s.host := rfl
@[simp] theorem State.setColl_trellis (x : Coll) : (s.setColl k x).trellis = s.trellis := rfl
@[simp] theorem State.setColl_active (x : Coll) : (s.setColl k x).active = s.active := rfl
@[simp] theorem State.setColl_parts (x : Coll) : (s.setColl k x).parts = s.parts := rfl
@[simp] theorem State.setColl_ctxs (x : Coll) : (s.setColl k x).ctxs = s.ctxs := rfl
@[simp] theorem State.setColl_queues (x : Coll) : (s.setColl k x).queues = s.queues := rfl
@[simp] theorem State.setColl_cores (x : Coll) : (s.setColl k x).cores = s.cores := rfl
@[simp] theorem State.setColl_presses (x : Coll) : (s.setColl k x).presses = s.presses := rfl
@[simp] theorem State.setColl_tables (x : Coll) : (s.setColl k x).tables = s.tables := rfl
@[simp] theorem State.setColl_hbm (x : Coll) : (s.setColl k x).hbm = s.hbm := rfl
@[simp] theorem State.setColl_pchans (x : Coll) : (s.setColl k x).pchans = s.pchans := rfl
@[simp] theorem State.setColl_tags (x : Coll) : (s.setColl k x).tags = s.tags := rfl
@[simp] theorem State.setColl_fabric (x : Coll) : (s.setColl k x).fabric = s.fabric := rfl
@[simp] theorem State.setColl_xlat (x : Coll) : (s.setColl k x).xlat = s.xlat := rfl
@[simp] theorem State.setColl_chans (x : Coll) : (s.setColl k x).chans = s.chans := rfl
@[simp] theorem State.setColl_rescues (x : Coll) : (s.setColl k x).rescues = s.rescues := rfl
@[simp] theorem State.setColl_ports (x : Coll) : (s.setColl k x).ports = s.ports := rfl
@[simp] theorem State.setColl_routes (x : Coll) : (s.setColl k x).routes = s.routes := rfl
@[simp] theorem State.setColl_groups (x : Coll) : (s.setColl k x).groups = s.groups := rfl
@[simp] theorem State.setColl_colls (x : Coll) : (s.setColl k x).colls = s.colls.set k x := rfl
@[simp] theorem State.setColl_cellar (x : Coll) : (s.setColl k x).cellar = s.cellar := rfl
@[simp] theorem State.setColl_mgmt (x : Coll) : (s.setColl k x).mgmt = s.mgmt := rfl
@[simp] theorem State.setColl_jtag (x : Coll) : (s.setColl k x).jtag = s.jtag := rfl
@[simp] theorem State.setColl_power (x : Coll) : (s.setColl k x).power = s.power := rfl
@[simp] theorem State.setColl_units (x : Coll) : (s.setColl k x).units = s.units := rfl
@[simp] theorem State.setColl_unitRefused (x : Coll) : (s.setColl k x).unitRefused = s.unitRefused := rfl
@[simp] theorem State.setColl_faults (x : Coll) : (s.setColl k x).faults = s.faults := rfl
@[simp] theorem State.setColl_boot (x : Coll) : (s.setColl k x).boot = s.boot := rfl
@[simp] theorem State.setColl_core (x : Coll) : (s.setColl k x).core j = s.core j := rfl
@[simp] theorem State.setColl_part (x : Coll) : (s.setColl k x).part j = s.part j := rfl
@[simp] theorem State.setColl_ctx (x : Coll) : (s.setColl k x).ctx j = s.ctx j := rfl
@[simp] theorem State.setColl_queue (x : Coll) : (s.setColl k x).queue j = s.queue j := rfl
@[simp] theorem State.setColl_press (x : Coll) : (s.setColl k x).press j = s.press j := rfl
@[simp] theorem State.setColl_table (x : Coll) : (s.setColl k x).table j = s.table j := rfl
@[simp] theorem State.setColl_ctl (x : Coll) : (s.setColl k x).ctl j = s.ctl j := rfl
@[simp] theorem State.setColl_pchan (x : Coll) : (s.setColl k x).pchan j = s.pchan j := rfl
@[simp] theorem State.setColl_tag (x : Coll) : (s.setColl k x).tag j = s.tag j := rfl
@[simp] theorem State.setColl_chan (x : Coll) : (s.setColl k x).chan j = s.chan j := rfl
@[simp] theorem State.setColl_rescue (x : Coll) : (s.setColl k x).rescue j = s.rescue j := rfl
@[simp] theorem State.setColl_port (x : Coll) : (s.setColl k x).port j = s.port j := rfl
@[simp] theorem State.setColl_route (x : Coll) : (s.setColl k x).route j = s.route j := rfl
@[simp] theorem State.setColl_group (x : Coll) : (s.setColl k x).group j = s.group j := rfl
@[simp] theorem State.setColl_coll_at (x : Coll) : (s.setColl k x).coll k = x := Map.look_set_same ..
theorem State.setColl_coll (x : Coll) : (s.setColl k x).coll j = if j = k then x else s.coll j := Map.look_set ..
@[simp] theorem State.setColl_pwr (x : Coll) : (s.setColl k x).pwr j = s.pwr j := rfl
@[simp] theorem State.setColl_unit (x : Coll) : (s.setColl k x).unit j = s.unit j := rfl

@[simp] theorem State.onPwr_eq (g : Power → Power) : s.onPwr k g = s.setPwr k (g (s.pwr k)) := rfl
@[simp] theorem State.setPwr_pending (x : Power) : (s.setPwr k x).pending = s.pending := rfl
@[simp] theorem State.setPwr_free (x : Power) : (s.setPwr k x).free = s.free := rfl
@[simp] theorem State.setPwr_now (x : Power) : (s.setPwr k x).now = s.now := rfl
@[simp] theorem State.setPwr_mem (x : Power) : (s.setPwr k x).mem = s.mem := rfl
@[simp] theorem State.setPwr_poison (x : Power) : (s.setPwr k x).poison = s.poison := rfl
@[simp] theorem State.setPwr_written (x : Power) : (s.setPwr k x).written = s.written := rfl
@[simp] theorem State.setPwr_sramErr (x : Power) : (s.setPwr k x).sramErr = s.sramErr := rfl
@[simp] theorem State.setPwr_hbmErr (x : Power) : (s.setPwr k x).hbmErr = s.hbmErr := rfl
@[simp] theorem State.setPwr_sramFix (x : Power) : (s.setPwr k x).sramFix = s.sramFix := rfl
@[simp] theorem State.setPwr_hostBad (x : Power) : (s.setPwr k x).hostBad = s.hostBad := rfl
@[simp] theorem State.setPwr_clearing (x : Power) : (s.setPwr k x).clearing = s.clearing := rfl
@[simp] theorem State.setPwr_host (x : Power) : (s.setPwr k x).host = s.host := rfl
@[simp] theorem State.setPwr_trellis (x : Power) : (s.setPwr k x).trellis = s.trellis := rfl
@[simp] theorem State.setPwr_active (x : Power) : (s.setPwr k x).active = s.active := rfl
@[simp] theorem State.setPwr_parts (x : Power) : (s.setPwr k x).parts = s.parts := rfl
@[simp] theorem State.setPwr_ctxs (x : Power) : (s.setPwr k x).ctxs = s.ctxs := rfl
@[simp] theorem State.setPwr_queues (x : Power) : (s.setPwr k x).queues = s.queues := rfl
@[simp] theorem State.setPwr_cores (x : Power) : (s.setPwr k x).cores = s.cores := rfl
@[simp] theorem State.setPwr_presses (x : Power) : (s.setPwr k x).presses = s.presses := rfl
@[simp] theorem State.setPwr_tables (x : Power) : (s.setPwr k x).tables = s.tables := rfl
@[simp] theorem State.setPwr_hbm (x : Power) : (s.setPwr k x).hbm = s.hbm := rfl
@[simp] theorem State.setPwr_pchans (x : Power) : (s.setPwr k x).pchans = s.pchans := rfl
@[simp] theorem State.setPwr_tags (x : Power) : (s.setPwr k x).tags = s.tags := rfl
@[simp] theorem State.setPwr_fabric (x : Power) : (s.setPwr k x).fabric = s.fabric := rfl
@[simp] theorem State.setPwr_xlat (x : Power) : (s.setPwr k x).xlat = s.xlat := rfl
@[simp] theorem State.setPwr_chans (x : Power) : (s.setPwr k x).chans = s.chans := rfl
@[simp] theorem State.setPwr_rescues (x : Power) : (s.setPwr k x).rescues = s.rescues := rfl
@[simp] theorem State.setPwr_ports (x : Power) : (s.setPwr k x).ports = s.ports := rfl
@[simp] theorem State.setPwr_routes (x : Power) : (s.setPwr k x).routes = s.routes := rfl
@[simp] theorem State.setPwr_groups (x : Power) : (s.setPwr k x).groups = s.groups := rfl
@[simp] theorem State.setPwr_colls (x : Power) : (s.setPwr k x).colls = s.colls := rfl
@[simp] theorem State.setPwr_cellar (x : Power) : (s.setPwr k x).cellar = s.cellar := rfl
@[simp] theorem State.setPwr_mgmt (x : Power) : (s.setPwr k x).mgmt = s.mgmt := rfl
@[simp] theorem State.setPwr_jtag (x : Power) : (s.setPwr k x).jtag = s.jtag := rfl
@[simp] theorem State.setPwr_power (x : Power) : (s.setPwr k x).power = s.power.set k x := rfl
@[simp] theorem State.setPwr_units (x : Power) : (s.setPwr k x).units = s.units := rfl
@[simp] theorem State.setPwr_unitRefused (x : Power) : (s.setPwr k x).unitRefused = s.unitRefused := rfl
@[simp] theorem State.setPwr_faults (x : Power) : (s.setPwr k x).faults = s.faults := rfl
@[simp] theorem State.setPwr_boot (x : Power) : (s.setPwr k x).boot = s.boot := rfl
@[simp] theorem State.setPwr_core (x : Power) : (s.setPwr k x).core j = s.core j := rfl
@[simp] theorem State.setPwr_part (x : Power) : (s.setPwr k x).part j = s.part j := rfl
@[simp] theorem State.setPwr_ctx (x : Power) : (s.setPwr k x).ctx j = s.ctx j := rfl
@[simp] theorem State.setPwr_queue (x : Power) : (s.setPwr k x).queue j = s.queue j := rfl
@[simp] theorem State.setPwr_press (x : Power) : (s.setPwr k x).press j = s.press j := rfl
@[simp] theorem State.setPwr_table (x : Power) : (s.setPwr k x).table j = s.table j := rfl
@[simp] theorem State.setPwr_ctl (x : Power) : (s.setPwr k x).ctl j = s.ctl j := rfl
@[simp] theorem State.setPwr_pchan (x : Power) : (s.setPwr k x).pchan j = s.pchan j := rfl
@[simp] theorem State.setPwr_tag (x : Power) : (s.setPwr k x).tag j = s.tag j := rfl
@[simp] theorem State.setPwr_chan (x : Power) : (s.setPwr k x).chan j = s.chan j := rfl
@[simp] theorem State.setPwr_rescue (x : Power) : (s.setPwr k x).rescue j = s.rescue j := rfl
@[simp] theorem State.setPwr_port (x : Power) : (s.setPwr k x).port j = s.port j := rfl
@[simp] theorem State.setPwr_route (x : Power) : (s.setPwr k x).route j = s.route j := rfl
@[simp] theorem State.setPwr_group (x : Power) : (s.setPwr k x).group j = s.group j := rfl
@[simp] theorem State.setPwr_coll (x : Power) : (s.setPwr k x).coll j = s.coll j := rfl
@[simp] theorem State.setPwr_pwr_at (x : Power) : (s.setPwr k x).pwr k = x := Map.look_set_same ..
theorem State.setPwr_pwr (x : Power) : (s.setPwr k x).pwr j = if j = k then x else s.pwr j := Map.look_set ..
@[simp] theorem State.setPwr_unit (x : Power) : (s.setPwr k x).unit j = s.unit j := rfl

@[simp] theorem State.onUnit_eq (g : UnitWord → UnitWord) : s.onUnit k g = s.setUnit k (g (s.unit k)) := rfl
@[simp] theorem State.setUnit_pending (x : UnitWord) : (s.setUnit k x).pending = s.pending := rfl
@[simp] theorem State.setUnit_free (x : UnitWord) : (s.setUnit k x).free = s.free := rfl
@[simp] theorem State.setUnit_now (x : UnitWord) : (s.setUnit k x).now = s.now := rfl
@[simp] theorem State.setUnit_mem (x : UnitWord) : (s.setUnit k x).mem = s.mem := rfl
@[simp] theorem State.setUnit_poison (x : UnitWord) : (s.setUnit k x).poison = s.poison := rfl
@[simp] theorem State.setUnit_written (x : UnitWord) : (s.setUnit k x).written = s.written := rfl
@[simp] theorem State.setUnit_sramErr (x : UnitWord) : (s.setUnit k x).sramErr = s.sramErr := rfl
@[simp] theorem State.setUnit_hbmErr (x : UnitWord) : (s.setUnit k x).hbmErr = s.hbmErr := rfl
@[simp] theorem State.setUnit_sramFix (x : UnitWord) : (s.setUnit k x).sramFix = s.sramFix := rfl
@[simp] theorem State.setUnit_hostBad (x : UnitWord) : (s.setUnit k x).hostBad = s.hostBad := rfl
@[simp] theorem State.setUnit_clearing (x : UnitWord) : (s.setUnit k x).clearing = s.clearing := rfl
@[simp] theorem State.setUnit_host (x : UnitWord) : (s.setUnit k x).host = s.host := rfl
@[simp] theorem State.setUnit_trellis (x : UnitWord) : (s.setUnit k x).trellis = s.trellis := rfl
@[simp] theorem State.setUnit_active (x : UnitWord) : (s.setUnit k x).active = s.active := rfl
@[simp] theorem State.setUnit_parts (x : UnitWord) : (s.setUnit k x).parts = s.parts := rfl
@[simp] theorem State.setUnit_ctxs (x : UnitWord) : (s.setUnit k x).ctxs = s.ctxs := rfl
@[simp] theorem State.setUnit_queues (x : UnitWord) : (s.setUnit k x).queues = s.queues := rfl
@[simp] theorem State.setUnit_cores (x : UnitWord) : (s.setUnit k x).cores = s.cores := rfl
@[simp] theorem State.setUnit_presses (x : UnitWord) : (s.setUnit k x).presses = s.presses := rfl
@[simp] theorem State.setUnit_tables (x : UnitWord) : (s.setUnit k x).tables = s.tables := rfl
@[simp] theorem State.setUnit_hbm (x : UnitWord) : (s.setUnit k x).hbm = s.hbm := rfl
@[simp] theorem State.setUnit_pchans (x : UnitWord) : (s.setUnit k x).pchans = s.pchans := rfl
@[simp] theorem State.setUnit_tags (x : UnitWord) : (s.setUnit k x).tags = s.tags := rfl
@[simp] theorem State.setUnit_fabric (x : UnitWord) : (s.setUnit k x).fabric = s.fabric := rfl
@[simp] theorem State.setUnit_xlat (x : UnitWord) : (s.setUnit k x).xlat = s.xlat := rfl
@[simp] theorem State.setUnit_chans (x : UnitWord) : (s.setUnit k x).chans = s.chans := rfl
@[simp] theorem State.setUnit_rescues (x : UnitWord) : (s.setUnit k x).rescues = s.rescues := rfl
@[simp] theorem State.setUnit_ports (x : UnitWord) : (s.setUnit k x).ports = s.ports := rfl
@[simp] theorem State.setUnit_routes (x : UnitWord) : (s.setUnit k x).routes = s.routes := rfl
@[simp] theorem State.setUnit_groups (x : UnitWord) : (s.setUnit k x).groups = s.groups := rfl
@[simp] theorem State.setUnit_colls (x : UnitWord) : (s.setUnit k x).colls = s.colls := rfl
@[simp] theorem State.setUnit_cellar (x : UnitWord) : (s.setUnit k x).cellar = s.cellar := rfl
@[simp] theorem State.setUnit_mgmt (x : UnitWord) : (s.setUnit k x).mgmt = s.mgmt := rfl
@[simp] theorem State.setUnit_jtag (x : UnitWord) : (s.setUnit k x).jtag = s.jtag := rfl
@[simp] theorem State.setUnit_power (x : UnitWord) : (s.setUnit k x).power = s.power := rfl
@[simp] theorem State.setUnit_units (x : UnitWord) : (s.setUnit k x).units = s.units.set k x := rfl
@[simp] theorem State.setUnit_unitRefused (x : UnitWord) : (s.setUnit k x).unitRefused = s.unitRefused := rfl
@[simp] theorem State.setUnit_faults (x : UnitWord) : (s.setUnit k x).faults = s.faults := rfl
@[simp] theorem State.setUnit_boot (x : UnitWord) : (s.setUnit k x).boot = s.boot := rfl
@[simp] theorem State.setUnit_core (x : UnitWord) : (s.setUnit k x).core j = s.core j := rfl
@[simp] theorem State.setUnit_part (x : UnitWord) : (s.setUnit k x).part j = s.part j := rfl
@[simp] theorem State.setUnit_ctx (x : UnitWord) : (s.setUnit k x).ctx j = s.ctx j := rfl
@[simp] theorem State.setUnit_queue (x : UnitWord) : (s.setUnit k x).queue j = s.queue j := rfl
@[simp] theorem State.setUnit_press (x : UnitWord) : (s.setUnit k x).press j = s.press j := rfl
@[simp] theorem State.setUnit_table (x : UnitWord) : (s.setUnit k x).table j = s.table j := rfl
@[simp] theorem State.setUnit_ctl (x : UnitWord) : (s.setUnit k x).ctl j = s.ctl j := rfl
@[simp] theorem State.setUnit_pchan (x : UnitWord) : (s.setUnit k x).pchan j = s.pchan j := rfl
@[simp] theorem State.setUnit_tag (x : UnitWord) : (s.setUnit k x).tag j = s.tag j := rfl
@[simp] theorem State.setUnit_chan (x : UnitWord) : (s.setUnit k x).chan j = s.chan j := rfl
@[simp] theorem State.setUnit_rescue (x : UnitWord) : (s.setUnit k x).rescue j = s.rescue j := rfl
@[simp] theorem State.setUnit_port (x : UnitWord) : (s.setUnit k x).port j = s.port j := rfl
@[simp] theorem State.setUnit_route (x : UnitWord) : (s.setUnit k x).route j = s.route j := rfl
@[simp] theorem State.setUnit_group (x : UnitWord) : (s.setUnit k x).group j = s.group j := rfl
@[simp] theorem State.setUnit_coll (x : UnitWord) : (s.setUnit k x).coll j = s.coll j := rfl
@[simp] theorem State.setUnit_pwr (x : UnitWord) : (s.setUnit k x).pwr j = s.pwr j := rfl
@[simp] theorem State.setUnit_unit_at (x : UnitWord) : (s.setUnit k x).unit k = x := Map.look_set_same ..
theorem State.setUnit_unit (x : UnitWord) : (s.setUnit k x).unit j = if j = k then x else s.unit j := Map.look_set ..

@[simp] theorem State.onSeq_eq (g : Seq → Seq) : s.onSeq k g = s.setCore k { s.core k with seq := g (s.core k).seq } := rfl
@[simp] theorem State.onVec_eq (g : Vec → Vec) : s.onVec k g = s.setCore k { s.core k with vec := g (s.core k).vec } := rfl
@[simp] theorem State.onMat_eq (g : Mat → Mat) : s.onMat k g = s.setCore k { s.core k with mat := g (s.core k).mat } := rfl
@[simp] theorem State.onStore_eq (g : Store → Store) : s.onStore k g = s.setCore k { s.core k with store := g (s.core k).store } := rfl

@[simp] theorem State.onFaults_pending (g : Collector → Collector) : (s.onFaults g).pending = s.pending := rfl
@[simp] theorem State.onFaults_free (g : Collector → Collector) : (s.onFaults g).free = s.free := rfl
@[simp] theorem State.onFaults_now (g : Collector → Collector) : (s.onFaults g).now = s.now := rfl
@[simp] theorem State.onFaults_mem (g : Collector → Collector) : (s.onFaults g).mem = s.mem := rfl
@[simp] theorem State.onFaults_poison (g : Collector → Collector) : (s.onFaults g).poison = s.poison := rfl
@[simp] theorem State.onFaults_written (g : Collector → Collector) : (s.onFaults g).written = s.written := rfl
@[simp] theorem State.onFaults_sramErr (g : Collector → Collector) : (s.onFaults g).sramErr = s.sramErr := rfl
@[simp] theorem State.onFaults_hbmErr (g : Collector → Collector) : (s.onFaults g).hbmErr = s.hbmErr := rfl
@[simp] theorem State.onFaults_sramFix (g : Collector → Collector) : (s.onFaults g).sramFix = s.sramFix := rfl
@[simp] theorem State.onFaults_hostBad (g : Collector → Collector) : (s.onFaults g).hostBad = s.hostBad := rfl
@[simp] theorem State.onFaults_clearing (g : Collector → Collector) : (s.onFaults g).clearing = s.clearing := rfl
@[simp] theorem State.onFaults_host (g : Collector → Collector) : (s.onFaults g).host = s.host := rfl
@[simp] theorem State.onFaults_trellis (g : Collector → Collector) : (s.onFaults g).trellis = s.trellis := rfl
@[simp] theorem State.onFaults_active (g : Collector → Collector) : (s.onFaults g).active = s.active := rfl
@[simp] theorem State.onFaults_parts (g : Collector → Collector) : (s.onFaults g).parts = s.parts := rfl
@[simp] theorem State.onFaults_ctxs (g : Collector → Collector) : (s.onFaults g).ctxs = s.ctxs := rfl
@[simp] theorem State.onFaults_queues (g : Collector → Collector) : (s.onFaults g).queues = s.queues := rfl
@[simp] theorem State.onFaults_cores (g : Collector → Collector) : (s.onFaults g).cores = s.cores := rfl
@[simp] theorem State.onFaults_presses (g : Collector → Collector) : (s.onFaults g).presses = s.presses := rfl
@[simp] theorem State.onFaults_tables (g : Collector → Collector) : (s.onFaults g).tables = s.tables := rfl
@[simp] theorem State.onFaults_hbm (g : Collector → Collector) : (s.onFaults g).hbm = s.hbm := rfl
@[simp] theorem State.onFaults_pchans (g : Collector → Collector) : (s.onFaults g).pchans = s.pchans := rfl
@[simp] theorem State.onFaults_tags (g : Collector → Collector) : (s.onFaults g).tags = s.tags := rfl
@[simp] theorem State.onFaults_fabric (g : Collector → Collector) : (s.onFaults g).fabric = s.fabric := rfl
@[simp] theorem State.onFaults_xlat (g : Collector → Collector) : (s.onFaults g).xlat = s.xlat := rfl
@[simp] theorem State.onFaults_chans (g : Collector → Collector) : (s.onFaults g).chans = s.chans := rfl
@[simp] theorem State.onFaults_rescues (g : Collector → Collector) : (s.onFaults g).rescues = s.rescues := rfl
@[simp] theorem State.onFaults_ports (g : Collector → Collector) : (s.onFaults g).ports = s.ports := rfl
@[simp] theorem State.onFaults_routes (g : Collector → Collector) : (s.onFaults g).routes = s.routes := rfl
@[simp] theorem State.onFaults_groups (g : Collector → Collector) : (s.onFaults g).groups = s.groups := rfl
@[simp] theorem State.onFaults_colls (g : Collector → Collector) : (s.onFaults g).colls = s.colls := rfl
@[simp] theorem State.onFaults_cellar (g : Collector → Collector) : (s.onFaults g).cellar = s.cellar := rfl
@[simp] theorem State.onFaults_mgmt (g : Collector → Collector) : (s.onFaults g).mgmt = s.mgmt := rfl
@[simp] theorem State.onFaults_jtag (g : Collector → Collector) : (s.onFaults g).jtag = s.jtag := rfl
@[simp] theorem State.onFaults_power (g : Collector → Collector) : (s.onFaults g).power = s.power := rfl
@[simp] theorem State.onFaults_units (g : Collector → Collector) : (s.onFaults g).units = s.units := rfl
@[simp] theorem State.onFaults_unitRefused (g : Collector → Collector) : (s.onFaults g).unitRefused = s.unitRefused := rfl
@[simp] theorem State.onFaults_faults (g : Collector → Collector) : (s.onFaults g).faults = g s.faults := rfl
@[simp] theorem State.onFaults_boot (g : Collector → Collector) : (s.onFaults g).boot = s.boot := rfl
@[simp] theorem State.onFaults_core (g : Collector → Collector) : (s.onFaults g).core j = s.core j := rfl
@[simp] theorem State.onFaults_part (g : Collector → Collector) : (s.onFaults g).part j = s.part j := rfl
@[simp] theorem State.onFaults_ctx (g : Collector → Collector) : (s.onFaults g).ctx j = s.ctx j := rfl
@[simp] theorem State.onFaults_queue (g : Collector → Collector) : (s.onFaults g).queue j = s.queue j := rfl
@[simp] theorem State.onFaults_press (g : Collector → Collector) : (s.onFaults g).press j = s.press j := rfl
@[simp] theorem State.onFaults_table (g : Collector → Collector) : (s.onFaults g).table j = s.table j := rfl
@[simp] theorem State.onFaults_ctl (g : Collector → Collector) : (s.onFaults g).ctl j = s.ctl j := rfl
@[simp] theorem State.onFaults_pchan (g : Collector → Collector) : (s.onFaults g).pchan j = s.pchan j := rfl
@[simp] theorem State.onFaults_tag (g : Collector → Collector) : (s.onFaults g).tag j = s.tag j := rfl
@[simp] theorem State.onFaults_chan (g : Collector → Collector) : (s.onFaults g).chan j = s.chan j := rfl
@[simp] theorem State.onFaults_rescue (g : Collector → Collector) : (s.onFaults g).rescue j = s.rescue j := rfl
@[simp] theorem State.onFaults_port (g : Collector → Collector) : (s.onFaults g).port j = s.port j := rfl
@[simp] theorem State.onFaults_route (g : Collector → Collector) : (s.onFaults g).route j = s.route j := rfl
@[simp] theorem State.onFaults_group (g : Collector → Collector) : (s.onFaults g).group j = s.group j := rfl
@[simp] theorem State.onFaults_coll (g : Collector → Collector) : (s.onFaults g).coll j = s.coll j := rfl
@[simp] theorem State.onFaults_pwr (g : Collector → Collector) : (s.onFaults g).pwr j = s.pwr j := rfl
@[simp] theorem State.onFaults_unit (g : Collector → Collector) : (s.onFaults g).unit j = s.unit j := rfl

end Sys2Proof.Machine
end

