-- ==== Sys2Proof/Laws/Memory.lean ====
section
/-!
SUPPORT. What a memory access can do: the parts of the state that a read or a write of memory may change, and that it keeps memory in
canonical form.
-/

namespace Sys2Proof.Machine

/-- Only what a memory access may change differs: stored bytes and their codes and marks, the error counters and rewrite queues of the
controllers and cores, the alarms and injection counts, the marks that a fault leaves, and free values. -/
def MemOnly (s t : State) : Prop :=
  t = { s with
    mem := t.mem, poison := t.poison, written := t.written, hbmErr := t.hbmErr, sramErr := t.sramErr, sramFix := t.sramFix
    hostBad := t.hostBad, hbm := t.hbm, pchans := t.pchans, cores := t.cores, parts := t.parts, units := t.units
    faults := t.faults, free := t.free }

theorem MemOnly.refl (s : State) : MemOnly s s := rfl

theorem MemOnly.trans {s t u : State} (h : MemOnly s t) (k : MemOnly t u) : MemOnly s u := by
  rw [MemOnly] at *; rw [k, h]

/-- A memory access: its frame, and memory in canonical form stays so. -/
structure MemStep (s t : State) : Prop where
  frame : MemOnly s t
  wf    : Memory.wf s.mem = true → Memory.wf t.mem = true

theorem MemStep.refl (s : State) : MemStep s s := ⟨.refl s, id⟩

theorem MemStep.trans {s t u : State} (h : MemStep s t) (k : MemStep t u) : MemStep s u :=
  ⟨h.frame.trans k.frame, fun w => k.wf (h.wf w)⟩

theorem foldl_memStep {α : Type} (f : State → α → State) (hf : ∀ s a, MemStep s (f s a)) (l : List α) (s : State) :
    MemStep s (l.foldl f s) := by
  induction l generalizing s with
  | nil => exact .refl s
  | cons a l ih => exact (hf s a).trans (ih _)

theorem State.raise_memStep (s : State) (a : Alarm) : MemStep s (s.raise a) := by
  refine ⟨?_, fun h => ?_⟩
  · simp only [State.raise, MemOnly]
    split
    · rfl
    · split
      · rfl
      · split <;> rfl
  · have : (s.raise a).mem = s.mem := by
      simp only [State.raise]
      split
      · rfl
      · split
        · rfl
        · split <;> rfl
    rwa [this]

theorem State.sev_memStep (s : State) (src sev : Nat) (cause : Byte) (ctx : Option Nat) (addr : Nat) (info : BitVec 32) (inj : Bool) :
    MemStep s (s.sev src sev cause ctx addr info inj) := State.raise_memStep ..

theorem State.inject_memStep (s : State) (a b n : Nat) : MemStep s (s.inject a b n).2 := ⟨rfl, id⟩

theorem State.fresh_memStep (s : State) : MemStep s s.fresh.2 := ⟨rfl, id⟩

theorem State.freshIf_memStep (s : State) (b : Bool) : MemStep s (s.freshIf b).2 := by
  simp only [State.freshIf]; split
  · exact s.fresh_memStep
  · exact .refl s

theorem freshBytes_memStep (n : Nat) (s : State) : MemStep s (freshBytes n s).2 := by
  induction n generalizing s with
  | zero => exact .refl s
  | succ n ih => exact s.fresh_memStep.trans (ih _)

theorem State.store_memStep (s : State) (a : Nat) (bs : Bytes) : MemStep s (s.store a bs) := ⟨rfl, State.store_wf a bs⟩

theorem State.setPoison_memStep (s : State) (g : Nat) : MemStep s (s.setPoison g) := ⟨rfl, id⟩
theorem State.unPoison_memStep (s : State) (g : Nat) : MemStep s (s.unPoison g) := ⟨rfl, id⟩
theorem State.setCore_memStep (s : State) (c : Nat) (x : CoreSt) : MemStep s (s.setCore c x) := ⟨rfl, id⟩
theorem State.setPchan_memStep (s : State) (c : Nat) (x : PChan) : MemStep s (s.setPchan c x) := ⟨rfl, id⟩
theorem State.setCtl_memStep (s : State) (c : Nat) (x : HbmCtl) : MemStep s (s.setCtl c x) := ⟨rfl, id⟩

theorem State.hbmEvent_memStep (s : State) (a b g : Nat) : MemStep s (s.hbmEvent a b g) := ⟨rfl, id⟩

/-- The marks an uncorrectable granule is left with. -/
theorem State.lost_memStep (s : State) (g : Nat) :
    MemStep s (State.setPoison { s with hbmErr := s.hbmErr.del g, written := s.written.set g true } g) := ⟨rfl, id⟩

theorem State.hbmGran_memStep (s : State) (g : Nat) (ctx own : Option Nat) (rescue : Bool) :
    MemStep s (s.hbmGran g ctx own rescue).1 := by
  simp only [State.hbmGran]
  have h0 := s.inject_memStep (76 + (s.place (64 * g)).1) 6 1
  generalize State.codeword (s.inject (76 + (s.place (64 * g)).fst) 6 1).snd g _ = r
  cases r.ecc with
  | clean => exact h0
  | single j v =>
    dsimp only
    split
    · exact h0
    · split
      · exact h0.trans (State.hbmEvent_memStep ..)
      · exact ((h0.trans (State.hbmEvent_memStep ..)).trans (State.raise_memStep ..)).trans (State.setPchan_memStep ..)
  | bad =>
    dsimp only
    split
    · exact h0
    · refine MemStep.trans ?_ (State.lost_memStep _ g)
      refine MemStep.trans ?_ (State.store_memStep ..)
      split
      · exact h0.trans (State.hbmEvent_memStep ..)
      · exact (h0.trans (State.hbmEvent_memStep ..)).trans (State.raise_memStep ..)

theorem State.onStore_memStep (s : State) (c : Nat) (f : Store → Store) : MemStep s (s.onStore c f) := ⟨rfl, id⟩

theorem State.fixLater_memStep (s : State) (w : Nat) (f : WordErr) :
    MemStep s (s.fixLater w f) := by
  simp only [State.fixLater]; split
  · exact .refl s
  · exact ⟨rfl, id⟩

theorem State.sramWord_memStep (s : State) (w : Nat) (ctx : Option Nat) (rescue : Bool) : MemStep s (s.sramWord w ctx rescue).1 := by
  simp only [State.sramWord]
  refine (s.inject_memStep (w / 0x400000) 0 1).trans ?_
  generalize (s.inject (w / 0x400000) 0 1).2 = s1
  refine (s1.freshIf_memStep (2 < ((s1.sramErr.look w {}).xor (injErr (s.inject (w / 0x400000) 0 1).1)).count)).trans ?_
  generalize (s1.freshIf (2 < ((s1.sramErr.look w {}).xor (injErr (s.inject (w / 0x400000) 0 1).1)).count)) = s2
  split
  · exact .refl _
  · split
    · exact .refl _
    · dsimp only
      exact ((s2.2.onStore_memStep _ _).trans (State.fixLater_memStep ..)).trans (State.sev_memStep ..)
    · dsimp only
      exact ((s2.2.onStore_memStep _ _).trans (State.fixLater_memStep ..)).trans (State.sev_memStep ..)
    · dsimp only
      split
      · exact (s2.2.onStore_memStep _ _).trans (State.setPoison_memStep ..)
      · exact ((s2.2.onStore_memStep _ _).trans (State.setPoison_memStep ..)).trans (State.sev_memStep ..)

theorem State.sramPut_memStep (s : State) (w off : Nat) (bs : Bytes) (ctx : Option Nat) : MemStep s (s.sramPut w off bs ctx) := by
  simp only [State.sramPut]
  split
  · exact MemStep.trans (t := { s with sramErr := s.sramErr.del w, sramFix := s.sramFix.filter fun q => q.1 != w }) ⟨rfl, id⟩
      (State.store_memStep ..)
  · refine (s.sramWord_memStep w ctx false).trans ?_
    generalize (s.sramWord w ctx) = r
    exact MemStep.trans (t := { r.1 with sramErr := r.1.sramErr.del w, sramFix := r.1.sramFix.filter fun q => q.1 != w }) ⟨rfl, id⟩
      (State.store_memStep ..)

theorem State.refuse_memStep (s : State) (w : Who) (g : Gate) (a : Nat) : MemStep s (s.refuse w g a) := by
  simp only [State.refuse]
  split
  · exact .refl s
  · split
    · exact State.sev_memStep ..
    · exact State.sev_memStep ..
    · exact .refl s

theorem sramWords_memStep (ctx : Option Nat) (rescue : Bool) (n : Nat) (s : State) (w : Nat) :
    MemStep s (sramWords ctx rescue n s w).1 := by
  induction n generalizing s w with
  | zero => exact .refl s
  | succ n ih => exact (s.sramWord_memStep w ctx rescue).trans (ih _ _)

theorem sramPuts_memStep (f : Nat) (s : State) (o : Nat) (bs : Bytes) (ctx : Option Nat) : MemStep s (sramPuts f s o bs ctx) := by
  induction f generalizing s o bs with
  | zero => exact .refl s
  | succ f ih =>
    simp only [sramPuts]
    split
    · exact .refl s
    · exact (State.sramPut_memStep ..).trans (ih _ _ _)

theorem State.rdGran_memStep (s : State) (w : Who) (a n : Nat) : MemStep s (s.rdGran w a n).1 := by
  simp only [State.rdGran]
  split
  · exact s.hbmGran_memStep ..
  · exact sramWords_memStep ..
  · exact .refl s

theorem State.hbmPut_memStep (s : State) (g a : Nat) (bs : Bytes) :
    MemStep s (State.store { s with hbmErr := s.hbmErr.del g, written := s.written.set g true } a bs) :=
  ⟨rfl, State.store_wf (s := { s with hbmErr := s.hbmErr.del g, written := s.written.set g true }) a bs⟩

theorem State.hostPut_memStep (s : State) (g a : Nat) (bs : Bytes) :
    MemStep s (State.store { s with hostBad := s.hostBad.del g } a bs) :=
  ⟨rfl, State.store_wf (s := { s with hostBad := s.hostBad.del g }) a bs⟩

theorem State.touch_memStep (s : State) (a k i : Nat) : (s.touch a k i).mem = s.mem := rfl

theorem rdGrans_memStep (w : Who) (l : List (Nat × Nat)) (s : State) : MemStep s (rdGrans w l s).1 := by
  induction l generalizing s with
  | nil => exact .refl s
  | cons e l ih => exact (s.rdGran_memStep w e.1 e.2).trans (ih _)

/-- Everything a read of memory can do to the state. -/
theorem State.memRd_memStep (s : State) (w : Who) (a n : Nat) : MemStep s (s.memRd w a n).1 := by
  simp only [State.memRd]
  split
  · exact .refl s
  · split
    · exact rdGrans_memStep ..
    · exact State.refuse_memStep ..

theorem State.wrGran_memStep (s : State) (w : Who) (a : Nat) (bs : Bytes) (m : Bool) : MemStep s (s.wrGran w a bs m) := by
  simp only [State.wrGran]
  have h : ∀ t : State, MemStep s t → MemStep s (if m = true then t.setPoison (a / 64) else t) := by
    intro t ht
    split
    · exact ht.trans (State.setPoison_memStep ..)
    · exact ht
  apply h
  split
  · split
    · exact (s.unPoison_memStep _).trans (State.hbmPut_memStep ..)
    · exact (s.hbmGran_memStep (a / 64) w.ctx none w.rescue).trans (State.hbmPut_memStep ..)
  · split
    · exact (s.unPoison_memStep _).trans (sramPuts_memStep ..)
    · exact sramPuts_memStep ..
  · split
    · exact (s.unPoison_memStep _).trans (State.hostPut_memStep ..)
    · exact State.hostPut_memStep ..

theorem wrGrans_memStep (w : Who) (m : Bool) (l : List (Nat × Nat)) (bs : Bytes) (s : State) : MemStep s (wrGrans w m l bs s) := by
  induction l generalizing s bs with
  | nil => exact .refl s
  | cons e l ih => exact (s.wrGran_memStep w e.1 _ m).trans (ih _ _)

/-- Everything a write of memory can do to the state. -/
theorem State.memWr_memStep (s : State) (w : Who) (a : Nat) (bs : Bytes) (m : Bool) : MemStep s (s.memWr w a bs m).1 := by
  simp only [State.memWr]
  split
  · exact .refl s
  · split
    · exact wrGrans_memStep ..
    · exact State.refuse_memStep ..

/-- A translated access changes the translation buffers beside. -/
def VirtOnly (s t : State) : Prop := MemOnly { s with xlat := t.xlat } t

theorem VirtOnly.of_touch {s t : State} {a k i : Nat} (h : MemOnly (s.touch a k i) t) : VirtOnly s t := by
  have hx : t.xlat = (s.touch a k i).xlat := by
    have := congrArg State.xlat h
    exact this
  simp only [VirtOnly, hx]
  exact h

/-- Everything a translated read can do to the state. -/
theorem State.vRd_frame (s : State) (e : Eng) (va n : Nat) : VirtOnly s (s.vRd e va n).1 := by
  simp only [State.vRd]
  split
  · rfl
  · rfl
  · split
    · rfl
    · exact .of_touch (State.memRd_memStep ..).frame

/-- Everything a translated write can do to the state. -/
theorem State.vWr_frame (s : State) (e : Eng) (va : Nat) (bs : Bytes) (m : Bool) : VirtOnly s (s.vWr e va bs m).1 := by
  simp only [State.vWr]
  split
  · split
    · rfl
    · exact .of_touch (State.memWr_memStep ..).frame
  · rfl

theorem State.vRd_wf (s : State) (e : Eng) (va n : Nat) (h : Memory.wf s.mem = true) : Memory.wf (s.vRd e va n).1.mem = true := by
  simp only [State.vRd]
  split
  · exact h
  · exact h
  · split
    · exact h
    · exact (State.memRd_memStep ..).wf h

theorem State.vWr_wf (s : State) (e : Eng) (va : Nat) (bs : Bytes) (m : Bool) (h : Memory.wf s.mem = true) :
    Memory.wf (s.vWr e va bs m).1.mem = true := by
  simp only [State.vWr]
  split
  · split
    · exact h
    · exact (State.memWr_memStep ..).wf h
  · exact h

end Sys2Proof.Machine
end

