-- ==== Sys2Proof/Tests/Slice0.lean ====
section
/-!
SUPPORT. Tests: ill-formed commands that WellFormed refuses, and for every statement with hypotheses small states that meet them, most with
one step's outcome by the spec's own numbers. Expected values come from the spec's tables and from hand calculation.
-/

namespace Sys2Proof.Tests

set_option maxRecDepth 20000
set_option Elab.async false

open Sys2Proof.Machine

/-! ## Helpers -/

/-- The next state of a command, or the state itself where it answers none. -/
def run (i : Instr) (s : State) : State :=
  match exec i s with
  | .next t => t
  | _ => s

/-- The next state a command answers. -/
def next? (i : Instr) (s : State) : Option State :=
  match exec i s with
  | .next t => some t
  | _ => none

/-- Whether a command leaves a state as it is. -/
def idle (i : Instr) (s : State) : Bool := next? i s == some s

/-- Whether a read succeeded, without poison. -/
def good : VRd → Bool
  | .ok r => !r.err && r.bad.isNone
  | _ => false

def h0 : Requester := .host 0

/-- One pinned extent that gives every ring the first MiB of core 0's SRAM at virtual address 0. -/
def ext0 : Ext := ⟨0, 0, 0x100000, sramBase, 0, 15, 15, 15, false, true⟩

/-- A ready device: partition 0 with core 0, lane 0 and DMA channel 0, context 0 in it, queue 0 enabled. -/
def dev : State :=
  { State.reset with
    boot := { phase := 4, resetLow := false, perstLow := false, rails := true, linkUp := true }
    active := { parts := [⟨0, 1, 1, 1, true, 50⟩], ctxs := [⟨0, 0, 5, true, true, 0, 0, 0, 6, 0, 0⟩] }
    parts := [(0, { st := 0 })]
    ctxs := [(0, { ext := [ext0], xtCount := 1 })]
    queues := [(0, { enable := true })]
    mgmt := { keys := [(0, { st := 1 })] } }

def cmd (op : Byte) (body : Bytes) : Cmd :=
  { opcode := op, flags := 0, tag := 7, wait := 0, signal := 0, launch := 0, body := body ++ List.replicate (32 - body.length) 0,
    resvOk := true, serial := 0 }

def withCmd (s : State) (c : Cmd) : State := s.onQueue 0 fun q => { q with cmds := [c] }

/-- `dev` with bytes at an offset of core 0's SRAM. -/
def withMem (s : State) (off : Nat) (bs : Bytes) : State := s.store (sramBase + off) bs

/-! ## Ill-formed commands -/

theorem test_wf_register_misaligned : (Instr.registerWrite h0 .bar0 4 false 0).wf = false := by decide
theorem test_wf_register_beyond : (Instr.registerWrite h0 .bar0 0x10000000 false 0).wf = false := by decide
theorem test_wf_register_mmio_beyond : (Instr.readClear h0 .mmio 0x100000000 true).wf = false := by decide
theorem test_wf_read_misaligned : (Instr.readClear h0 .mmio 2 true).wf = false := by decide
theorem test_wf_low_half : (Instr.lowHalfRead h0 .bar0 2).wf = false := by decide
theorem test_wf_hbm_read_long : (Instr.hbmReadRequest ⟨.bar2, 64, 256, 0, []⟩).wf = false := by decide
theorem test_wf_hbm_read_data : (Instr.hbmReadRequest ⟨.bar2, 0, 1, 0, [0]⟩).wf = false := by decide
theorem test_wf_hbm_write_empty : (Instr.hbmWriteRequest ⟨.bar2, 0, 0, 0, []⟩).wf = false := by decide
theorem test_wf_hbm_write_data : (Instr.hbmWriteRequest ⟨.bar2, 0, 2, 0, [0]⟩).wf = false := by decide
theorem test_wf_data_flit : (Instr.dataFlit 0 []).wf = false := by decide
theorem test_wf_idle_flit : (Instr.idleFlit 0 [1]).wf = false := by decide
theorem test_wf_control_packet : (Instr.controlPacket (.frame 0 false [])).wf = false := by decide
theorem test_wf_collective_packet : (Instr.collectivePacket (.frame 0 false [1])).wf = false := by decide
theorem test_wf_transport_ack : (Instr.transportAck (.frame 0 false [1, 2])).wf = false := by decide
theorem test_wf_completion : (Instr.pcieCompletion 0 [] false true).wf = false := by decide
theorem test_wf_unlock : (Instr.unlockResponse []).wf = false := by decide
theorem test_wf_accepts : (Instr.registerWrite h0 .bar0 0x200 false 0).wf = true ∧ (Instr.nop 0).wf = true := by decide

/-! ## The queue of commands, and time -/

theorem wit_StepTakesFrontCommand : step { dev with pending := [.testReset, .idcode] } = exec .testReset { dev with pending := [.idcode] } := rfl
theorem wit_EmptyQueueStepIsOneNanosecond : State.reset.pending = [] ∧ State.reset.tick.cellar.count = 1 ∧ State.reset.tick.now = 1 := by decide +kernel

/-! ## Queues and commands -/

/-- QUEUE_CTRL with ENABLE and IRQ_EN, Q_SIZE 16, CQ_SIZE 5 (out of range), PRIO 2, MSIX 9. -/
def ctrl : Word := 3 + 16 * 2 ^ 8 + 5 * 2 ^ 16 + 2 * 2 ^ 32 + 9 * 2 ^ 37

theorem wit_QueueEnableStartsBothRings :
    (dev.queue 1).enable = false ∧ ctrl.getLsbD 0 = true ∧ (dev.ctxRec 0).isSome = true ∧
    (let q := (run (.queueEnable 1 ctrl) dev).queue 1
     q.enable = true ∧ q.qSize = 16 ∧ q.cqSize = 6 ∧ q.prio = 2 ∧ q.msix = some 9 ∧ q.irqEn = true) ∧
    (dev.queue 0).enable = true ∧ ctrl.getLsbD 0 ≠ false ∧ ((run (.queueDisable 0 2) (withCmd dev (cmd 0 []))).queue 0).cmds = [] := by decide +kernel

/-- A partition that racks. -/
def racking : State := { dev with parts := [(0, { st := 1 })] }

theorem wit_DoorbellSetsTailOrCountsAnError :
    (63 : Nat) < 2 ^ (dev.queue 0).qSize ∧ dev.partSt 0 ≠ 1 ∧ ((run (.qtailDb 0 0 63) dev).queue 0).tail = 63 ∧
    racking.partSt 0 = 1 ∧ ((run (.qtailDb 0 0 63) racking).queue 0).dbWait = some 63 ∧
    ((run (.cqheadDb 0 0 63) dev).queue 0).cqHead = 63 ∧
    ((run (.qtailDb 0 0 64) dev).ctx 0).dbErrors = 1 ∧ ((run (.cqheadDb 0 0 64) dev).ctx 0).dbErrors = 1 ∧
    ((run (.qtailDb 0 1 0) dev).ctx 0).dbErrors = 1 := by decide +kernel

/-- A command ring at virtual address 0 with one command available, a NOP with tag 0x0302, LAUNCH_AT and a reserved bit clear. -/
def ring : State :=
  (withMem dev 0 [0, 4, 2, 3, 0, 0, 0, 0, 0, 0, 0, 0, 0, 0, 0, 0, 0, 0, 0, 0, 0, 0, 0, 0, 9]).onQueue 0 fun q => { q with tail := 1 }

/-- The same with an opcode that Table 1.7 does not list. -/
def ringBad : State := (withMem dev 0 [8]).onQueue 0 fun q => { q with tail := 1 }

theorem wit_CommandFetchTakesOneEntry :
    ring.mayFetch 0 = true ∧ good (ring.vRd (cmdEng 0) 0 64).2 = true ∧
    (((run (.commandFetch 0) ring).queue 0).cmds.map fun c => (c.tag, c.launch, c.st)) = [(0x0302, 9, .fetched)] ∧
    ringBad.mayFetch 0 = true ∧ good (ringBad.vRd (cmdEng 0) 0 64).2 = true ∧
    (((run (.commandFetch 0) ringBad).queue 0).cmds.map fun c => (c.st, c.status)) = [(.ended, 1)] ∧
    ((run (.commandFetch 0) ringBad).queue 0).err = true := by decide +kernel

/-- A NOP with LAUNCH_AT at count 9. -/
def later : Cmd := { cmd 0 [] with flags := 4, launch := 9 }

theorem wit_LaunchCountReached : (withCmd dev later).ready 0 [] later = true ∧ later.flags.getLsbD 2 = true ∧
    (withCmd dev later).cellar.count ≤ later.launch ∧ (run (.launchCountReached 0) (withCmd dev later)).cellar.count = 9 := by decide +kernel

theorem wit_Nop : (withCmd dev (cmd 0 [])).MayStart 0 0 [] (cmd 0 []) [] := by
  unfold State.MayStart; decide +kernel
theorem wit_NopMalformed : (withCmd dev (cmd 0 [1])).MayStart 0 0 [] (cmd 0 [1]) [] := by
  unfold State.MayStart; decide +kernel
theorem wit_VintageEnd : (withCmd dev (cmd 5 [])).MayStart 0 5 [] (cmd 5 []) [] := by
  unfold State.MayStart; decide +kernel
/-- Address 8, value 0x1122. -/
def write8 : Cmd := cmd 7 [8, 0, 0, 0, 0, 0, 0, 0, 0x22, 0x11]
theorem wit_WriteValue : (withCmd dev write8).MayStart 0 7 [] write8 [] := by
  unfold State.MayStart; decide +kernel
theorem wit_WriteValueMisaligned : (withCmd dev (cmd 7 [4])).MayStart 0 7 [] (cmd 7 [4]) [] := by
  unfold State.MayStart; decide +kernel

theorem wit_SimpleCommandsComplete :
    zeroAt (cmd 0 []).body 0 32 = true ∧ zeroAt (cmd 0 [1]).body 0 32 = false ∧ fld write8.body 0 8 % 8 = 0 ∧
    zeroAt write8.body 16 16 = true ∧ (((withCmd dev write8).start 0 write8).vOk (cmdEng 0) .wr 8 8).isSome = true ∧
    (((withCmd dev write8).start 0 write8).vWr (cmdEng 0) 8 (leBytes 8 0x1122)).2 = false ∧ fld (cmd 7 [4]).body 0 8 % 8 ≠ 0 ∧
    (run (.writeValue 0) (withCmd dev write8)).mem = [(sramBase + 8, 0x22), (sramBase + 9, 0x11)] ∧
    (((run (.nop 0) (withCmd dev (cmd 0 []))).queue 0).cmds.map fun c => (c.st, c.status)) = [(.ended, 0)] ∧
    ((run (.nop 0) (withCmd dev (cmd 0 [1]))).queue 0).err = true ∧
    (((run (.vintageEnd 0) (withCmd dev (cmd 5 []))).queue 0).cmds.map (·.reached)) = [true] := by decide +kernel

/-- A DISPATCH to core 0 with its entry at 0x100, its block at 0x40, in ring 2. -/
def disp : Cmd := cmd 1 ([1, 0, 0, 0, 0, 0, 0, 0] ++ leBytes 8 0x100 ++ leBytes 8 0x40 ++ [2])
theorem wit_Dispatch : (withCmd dev disp).MayStart 0 1 [] disp [] := by
  unfold State.MayStart; decide +kernel
theorem wit_DispatchStarts : ((withCmd dev disp).start 0 disp).dispatchBad 0 disp = false ∧
    good (((withCmd dev disp).start 0 disp).vRd (cmdEng 0) 0x40 64).2 = true ∧ maskCores (BitVec.ofNat 64 (fld disp.body 0 8)) = [0] ∧
    (((run (.dispatch 0) (withCmd dev disp)).core 0).seq.kernels.map fun k => (k.entry, k.ring)) = [(0x100, 2)] := by decide +kernel

/-- A FILL of 64 bytes at virtual address 0x80, described at 0x40, and the DMA command for it. -/
def fillDesc : Bytes := [1, 0, 0, 0, 0, 0, 0, 0] ++ leBytes 4 64 ++ leBytes 4 1 ++ List.replicate 16 0 ++ leBytes 8 0x80 ++ leBytes 8 0 ++
  leBytes 8 0xAB ++ leBytes 8 0
def dmaCmd : Cmd := cmd 2 (leBytes 8 0x40 ++ [1, 0, 0])
def dmaCmdDev : State := withCmd (withMem dev 0x40 fillDesc) dmaCmd
theorem wit_Dma : dmaCmdDev.MayStart 0 2 [] dmaCmd [] := by
  unfold State.MayStart; decide +kernel
theorem wit_DmaStarts : fld dmaCmd.body 0 8 % 64 = 0 ∧ fld dmaCmd.body 8 2 = 1 ∧ fld dmaCmd.body 10 1 ≤ 3 ∧ zeroAt dmaCmd.body 11 21 = true ∧
    dmaCmdDev.admits 72 = true ∧
    ((dmaCmdDev.start 0 dmaCmd).partOfCtx 0).bind (fun p => (dmaCmdDev.start 0 dmaCmd).dmaChan p 0 0) = some 0 ∧
    (match dmaList 0 0 (dmaEng 0 0 2) 1 0x40 (dmaCmdDev.start 0 dmaCmd) with
      | (s1, .inl ds) => ds.map (·.1) == [fillDesc] && (s1.declare 0 0 (ds.flatMap (·.2))).2
      | _ => false) = true ∧
    (((run (.dma 0) dmaCmdDev).chan 0).arrive.map fun a => (a.va, a.desc)) = [(0x40, some fillDesc)] := by decide +kernel

/-- A lookup batch without bags on table 3 and the PRESS command for it. -/
def tab : TableRec := ⟨0, 0, 3, 1, 0, false, true, 2, 0, 100, 64, 0, 1024, 0, 1⟩
def batchDesc : Bytes := [0, 2, 1, 0, 3, 0, 0, 0] ++ leBytes 4 0 ++ List.replicate 52 0
def pressCmd : Cmd := cmd 3 (leBytes 8 0x40 ++ [1, 0, 0])
def pressCmdDev : State :=
  withCmd { withMem dev 0x40 batchDesc with tables := [(3, { st := 1, rc := some tab, openEpoch := 1 })] } pressCmd
theorem wit_Press : pressCmdDev.MayStart 0 3 [] pressCmd [] := by unfold State.MayStart; decide +kernel
theorem wit_PressSends : fld pressCmd.body 0 8 % 64 = 0 ∧ fld pressCmd.body 8 2 = 1 ∧ fld pressCmd.body 10 1 ≤ 3 ∧
    zeroAt pressCmd.body 11 21 = true ∧ pressCmdDev.admits 64 = true ∧
    (let r := batchRanges { src := 64, agent := 256, ctx := 0, ring := 2 } 1 0x40 (pressCmdDev.start 0 pressCmd)
     (r.1.declare 0 0 r.2).2 = true) := by decide +kernel

/-- A command-style group of this device and device 1, and an ALL_REDUCE of two INT32 elements on it. -/
def grp : GroupRec := ⟨0, 0, true, 64, 2, 0, 100, 1, [(0, 0), (1, 0)], 9⟩
def collDesc : Bytes := [1, 11, 0, 0, 0, 0, 0, 0] ++ leBytes 4 2 ++ leBytes 4 0 ++ leBytes 8 0x100 ++ leBytes 8 0x200 ++ List.replicate 8 0 ++
  [11, 0, 0, 0, 0, 0, 0, 0] ++ List.replicate 16 0
def collCmd : Cmd := cmd 4 (leBytes 8 0x40)
def grpDev : State := { withMem dev 0x40 collDesc with active := { dev.active with groups := [grp] } }
theorem wit_Collective : (withCmd grpDev collCmd).MayStart 0 4 [] collCmd [] := by unfold State.MayStart; decide +kernel
theorem wit_CollectiveStarts : fld collCmd.body 0 8 % 64 = 0 ∧ zeroAt collCmd.body 8 24 = true ∧
    (match ((withCmd grpDev collCmd).start 0 collCmd).vRd (cmdEng 0) 0x40 64 with
      | (s1, .ok r) => !r.err && r.bad.isNone && s1.groupRec (parseColl r.data).group == some grp && s1.partOfCtx 0 == some 0 &&
          (s1.group 0).running.isNone && (s1.group 0).queue.isEmpty
      | _ => false) = true ∧ grp.command = true ∧
    ((run (.collective 0) (withCmd grpDev collCmd)).group 0).queue.map (·.desc) = [collDesc] := by decide +kernel

/-- A PROVENANCE command for address 0x200 with the queue's VINTAGE_END behind it. -/
def provCmd : Cmd := cmd 6 (leBytes 8 0x200)
def provEnd : Cmd := { cmd 5 [] with serial := 1 }
def provDev : State :=
  { dev.onQueue 0 fun q => { q with cmds := [provCmd, provEnd] } with parts := [(0, { st := 0, provFirst := some (0, 0) })] }
theorem wit_Provenance : provDev.MayStart 0 6 [] provCmd [provEnd] := by unfold State.MayStart; decide +kernel
theorem wit_ProvenanceWrites : provDev.partOfCtx 0 = some 0 ∧ (provDev.part 0).provFirst = some (0, 0) ∧ provDev.provBad 0 provCmd = false ∧
    provDev.provReady 0 0 = true ∧ provCmd.signs = false ∧
    (provDev.start 0 provCmd).recPlace 0 0 provCmd = some (sramBase + 0x200, 0) := by decide +kernel

/-! ## Completion records -/

/-- An ended command with SIGNAL (event 2, increment 5) and IRQ, and a completion ring at 0x1000 that stands at its last entry. -/
def done : Cmd := { cmd 0 [] with st := .ended, flags := 1, signal := 0x8000000000000502 }
def doneDev (tail : Nat) : State :=
  (withCmd dev done).onQueue 0 fun q => { q with cqBase := 0x1000, cqTail := tail, irqEn := true }
theorem wit_CompletionRecordIsWritten :
    ((doneDev 0).queue 0).cmds = [done] ∧ done.st = .ended ∧ done.signing = false ∧ done.isEnd = false ∧
    (((doneDev 0).setQueue 0 { (doneDev 0).queue 0 with cmds := [] }).vOk (cmdEng 0) .wr 0x1000 16).isSome = true ∧
    (((doneDev 0).setQueue 0 { (doneDev 0).queue 0 with cmds := [] }).vWr (cmdEng 0) 0x1000 (recordBytes done true)).2 = false ∧
    (let t := run (.completionWrite 0) (doneDev 0)
     (t.queue 0).cmds = [] ∧ (t.queue 0).cqTail = 1 ∧ (t.queue 0).phase = true ∧ (t.ctx 0).events = [(2, 5)] ∧
     t.mem = [(sramBase + 0x1000, 7), (sramBase + 0x1003, 2)] ∧ t.host.msixPba = [(0, true)]) := by decide +kernel
theorem wit_PhaseInvertsOnEachWrap :
    ((doneDev 63).queue 0).cqTail + 1 = ((doneDev 63).queue 0).cqEntries ∧ queueExists dev 1 = true ∧
    (((doneDev 63).setQueue 0 { (doneDev 63).queue 0 with cmds := [] }).vWr (cmdEng 0) 0x13F0 (recordBytes done true)).2 = false ∧
    (let t := run (.completionWrite 0) (doneDev 63)
     (t.queue 0).cqTail = 0 ∧ (t.queue 0).phase = false ∧ t.byte (sramBase + 0x13F3) = 2) := by decide +kernel

/-! ## Vintages, rackings, the trellis -/

/-- Queue 0 at its VINTAGE_END. -/
def ended : State := withCmd dev { cmd 5 [] with st := .running, reached := true }

theorem wit_VintageEndsStartARacking : ended.endsNormally 0 = true ∧ ended.queuesOf 0 = [0] ∧
    (((State.endQueues [0] ended).queue 0).cmds.map fun c => (c.st, c.status)) = [(.ended, 0)] ∧
    (dev.part 0).st = 0 ∧ dev.running = true ∧ (racking.part 0).st ≠ 0 ∧ idle (.partRack h0 0) racking = true ∧
    (let s := { dev with parts := [(0, { st := 0, budget := 50 })] }
     (s.part 0).budget ≠ 0 ∧ s.endsNormally 0 = false ∧ s.ctxsOf 0 = [0]) := by decide +kernel

theorem wit_RackingStopsAndEmptiesThePartition : dev.ctxsOf 0 = [0] ∧
    (let t := dev.rack 0 false
     ((t.partRec 0).isSome, (t.part 0).st, (t.part 0).stepsDone, (t.part 0).forced) = (true, 1, true, false)) := by decide +kernel
theorem wit_RackingOfAGonePartition : (({ dev with active := {} }.rack 0 false).partRec 0).isSome = false := by decide +kernel

/-- A racking whose steps are done; the same held by a SEV3 record. -/
def stepped : State := { dev with parts := [(0, { st := 1, stepsDone := true, forced := true, vintage := 4 })] }
def held : State := { dev with parts := [(0, { st := 1, stepsDone := true, hold := [(3, 9)] })] }
theorem wit_RackingCompleteOpensTheNextVintage : (stepped.part 0).stepsDone = true ∧ stepped.running = true ∧ (stepped.part 0).joint = [] ∧
    (stepped.part 0).hold = [] ∧ (held.part 0).stepsDone = true ∧ held.running = true ∧
    (let p := (run (.rackingComplete 0) stepped).part 0
     p.st = 0 ∧ p.vintage = 5 ∧ p.lastInvalid = 4 ∧ p.invalidLast = true ∧ p.budget = 50) ∧
    ((run (.rackingComplete 0) held).part 0).st = 2 := by decide +kernel

def trel (st : BitVec 3) (addr : BitVec 48) (len : BitVec 25) : State := { dev with trellis := { st := st, addr := addr, len := len } }
/-- A length that differs from IMAGE_LEN fails the header check with REJECT 0x04; key slots are empty. -/
def wrongImage : State := (trel 1 0x400000000000 64).store 0x400000000000 [0x42]
theorem wit_TrellisCommandsStageAndDrop : (trel 0 0 0).bootReady = true ∧ (run (.trellisStage h0) (trel 0 0 0)).trellis.st = 1 ∧
    (trel 3 0 0).trellis.st = 3 ∧ (run (.trellisStage h0) (trel 3 0 0)).trellis.reject = 9 ∧ State.reset.bootReady = false ∧
    (run (.trellisCancel h0) (trel 2 0 0)).trellis.st = 0 ∧ idle (.trellisCancel h0) (trel 1 0 0) = true ∧
    (run .trellisVerifyDone (trel 1 0x400000000001 64)).trellis.reject = 4 ∧
    (run .trellisVerifyDone (trel 1 0x400000000000 0)).trellis.reject = 4 ∧
    zone 0xC000000000 64 ≠ .hbm ∧ (run .trellisVerifyDone (trel 1 0xC000000000 64)).trellis.st = 4 ∧
    (match wrongImage.fetchImage with
      | (u, some b) => (match checkImage b u.trellis.len.toNat u.trellis.gen u.trellis.stageKeys u.jtag.debug u.boot.failed u.tables with
          | .inr code => code == 4
          | .inl _ => false)
      | _ => false) = true := by decide +kernel

/-- A smallest image: a header, a PARTITION record for partition 0 and a signature of zeros. -/
def image0 : Bytes :=
  [0x58, 0x52, 0x54, 0x4C, 1, 0, 128, 0] ++ leBytes 4 296 ++ leBytes 4 1 ++ leBytes 8 5 ++ [3, 0, 0, 1, 0, 0, 0, 0, 1] ++ List.replicate 31 0 ++
  leBytes 2 2 ++ List.replicate 62 0 ++ [1, 0, 72, 0, 0, 0, 0, 0] ++ leBytes 8 1 ++ leBytes 8 1 ++ leBytes 32 1 ++ leBytes 8 1 ++ leBytes 8 50 ++
  List.replicate 96 0
def staged0 : State :=
  let s := (trel 1 0x400000000000 296).store 0x400000000000 image0
  { s with trellis := { s.trellis with stageKeys := [(0, some 9)] } }
def read0 : Image := ⟨5, 0, 3, 2, 1, 1, [.part ⟨0, 1, 1, 1, true, 50⟩], image0⟩
/-- Which way the owner's signature goes, the model leaves open: the image is accepted where it is valid, and rejected where it is not. -/
theorem wit_TrellisImage (b : Bool) (h : Config.trellisSignature 9 (sha384d (image0.take 200)) (image0.drop 200) = b) :
    checkImage image0 296 0 [(0, some 9)] false 0 [] = if b then .inl read0 else .inr 1 := by
  have e : checkImage image0 296 0 [(0, some 9)] false 0 [] =
    if (false || !Config.trellisSignature 9 (sha384d (image0.take 200)) (image0.drop 200)) = true then .inr 1 else .inl read0 := by
    rfl
  rw [e, h]; cases b <;> rfl
theorem wit_TrellisImageFetched : staged0.trellis.st = 1 ∧ staged0.fetchImage = (staged0, some image0) ∧
    staged0.checkTables read0.config = (staged0, none) ∧ staged0.active.parts ≠ [] ∧
    (∀ r ∈ read0.config.parts, ∃ o ∈ staged0.active.parts, o.part = r.part) := by
  refine ⟨rfl, ?_, ?_, ?_, ?_⟩
  · decide +kernel
  · decide +kernel
  · decide +kernel
  · decide +kernel

/-- SHA-384 of "abc" begins with CB 00 75 3F (FIPS 180-4 example). -/
theorem test_sha384 : (sha384 [0x61, 0x62, 0x63]).take 4 = [0xCB, 0x00, 0x75, 0x3F] := by decide +kernel

/-! ## Registers -/

/-- CORE 0's ECC_CORR at 7, DB_ERRORS at 3, LAST_INVALID 6 in PART_STATUS. -/
def regs : State :=
  { dev with
    cores := [(0, { store := { eccCorr := 7 } })], ctxs := [(0, { dbErrors := 3 })], parts := [(0, { st := 0, lastInvalid := 6 })] }
theorem wit_RegisterAccesses :
    (run (.registerWrite h0 .bar0 0x20000 false 0x1122) { dev with queues := [] }).queue 0 = { base := 0x1122 } ∧
    ((run (.registerWrite h0 .bar0 0x20000 false 0x1122) dev).queue 0).base = 0 ∧
    (run (.registerWrite h0 .bar0 0x308 false 0x3FF_C0000000) dev).host.bar2Base = 0xFFF ∧
    idle (.registerWrite h0 .bar0 0x1F8 false 1) dev = true ∧ idle (.registerWrite h0 .bar0 0xA0000 false 1) dev = true ∧
    idle (.registerWrite h0 .bar0 0xFFFFF8 false 1) dev = true ∧
    idle (.registerWrite (.ring 0 2) .mmio 0x10000 false 5) dev = true ∧
    ((run (.registerWrite h0 .mmio 0x10000 false 5) dev).core 0).rb.trapBase = 5 ∧
    (run (.readClear h0 .mmio 0x20010 false) regs).host.rdata = 7 ∧ ((run (.readClear h0 .mmio 0x20010 false) regs).core 0).store.eccCorr = 0 ∧
    (run (.readClear h0 .bar0 0x400080 false) regs).host.rdata = 3 ∧
    (run (.lowHalfRead h0 .bar0 0x600) regs).host.latches = [⟨h0, .bar0, 0x600, 6⟩] := by decide +kernel
theorem test_bar2_resize : (run (.pcieConfigRequest (.resizeBar2 41)) dev).host.bar2Log2 = 30 ∧
    (run (.pcieConfigRequest (.resizeBar2 40)) dev).host.bar2Log2 = 40 := by decide +kernel

/-- BAR2 with key slot 0 in BYPASS: the first 64 bytes of HBM, whose region the image grants. -/
def barDev : State := { dev with active := { dev.active with regions := [⟨0, 0, 0x100000, false, true, 0, 0⟩] } }
theorem wit_Bar2AccessesReachMemoryOrAreUnsupported :
    (run (.bar2Access 0x40000000 (.read 1)) barDev).host.rstatus = .unsupported ∧
    (run (.bar2Access 0x3FFFFFFF (.write [1, 2])) barDev).host.rstatus = .unsupported ∧
    (barDev.memRd { src := 135, quiet := true } 0 4).2.err = false ∧ (barDev.memWr { src := 135, quiet := true } 0 [1, 2]).2 = false ∧
    (run (.bar2Access 0 (.write [1, 2])) barDev).mem = [(0, 1), (1, 2)] ∧
    (run (.bar2Access 0 (.read 2)) (run (.bar2Access 0 (.write [1, 2])) barDev)).host.bar2Data = [1, 2] ∧
    (dev.memRd { src := 135, quiet := true } 0 4).2.err = true ∧ (run (.bar2Access 0 (.read 4)) dev).host.rstatus = .unsupported := by decide +kernel

/-! ## Sequencer -/

/-- A move slot with guard 0 and a signed immediate (Table 4.2). -/
def imm (dst v : Nat) : Nat := dst * 2 ^ 14 + 2 ^ 13 + v
/-- A slot that never moves (guard 0x8). -/
def none4 : Nat := 2 ^ 29
def bundle (a b c d : Nat) : Bytes := leBytes 16 (a * 2 ^ 8 + b * 2 ^ 38 + c * 2 ^ 68 + d * 2 ^ 98)

/-- `dev` with core 0 running at virtual address 0 of a cached line with these bytes. -/
def coding (s : State) (bs : Bytes) (q : Seq) : State :=
  { s with cores := [(0, {
      seq := { q with run := .running }
      icache := [(0, { valid := true, line := sramBase / 64, data := bs ++ List.replicate (64 - bs.length) 0 })] })] }

/-- g1 := 7; ALU0.A := 5; ALU0 ADD 3. -/
def adding : State := coding dev (bundle (imm 1 7) (imm 0x80 5) (imm 0x81 3) none4) {}
/-- g1 := g2 in the middle of a fetch miss: no line cached. -/
def missing : State := { adding with cores := [(0, { seq := { run := .running } })] }
/-- Reserved bit 1 of a bundle set: an illegal bundle (R91). -/
def illegal : State := coding dev (2 :: (bundle none4 none4 none4 none4).drop 1) {}
/-- RET in ring 0, with a frame at 0x2000 that returns to 0x30 in ring 2 with p1 set. -/
def returning : State :=
  coding (withMem dev 0x2000 (leBytes 8 0x30 ++ leBytes 8 0x30002)) (bundle (imm 0x221 0) none4 none4 none4) { eff := [(0x408, 0x2000)] }

theorem wit_BundleIssueMoves : adding.fetching 0 = true ∧
    (match (adding.onSeq 0 Seq.settle).look 0 with
      | (_, .go g) => g == { vals := [(1, 7), (0x80, 5), (0x81, 3)] } && decide (trigIn g.vals 0 = some (1, 3))
      | _ => false) = true ∧
    (let q := ((run (.bundleIssue 0) adding).core 0).seq
     q.pc = 16 ∧ q.g = [(1, 7)] ∧ q.alu0A = 5 ∧ q.alu0Res = 8) := by decide +kernel
theorem wit_BundleIssueReturns : returning.fetching 0 = true ∧
    (match (returning.onSeq 0 Seq.settle).look 0 with
      | (_, .go g) => g.ret == some (0x30, 0x30002) && g.vals == [(0x221, 0)]
      | _ => false) = true ∧ (0x30002 : Word).getLsbD 7 = false ∧
    (let q := ((run (.bundleIssue 0) returning).core 0).seq
     q.pc = 0x30 ∧ q.ring = 2 ∧ q.preds = 3 ∧ q.gov 0x408 = 0x2010) := by decide +kernel
theorem wit_BundleIssueStalls : missing.fetching 0 = true ∧ ((missing.onSeq 0 Seq.settle).look 0).2 = .stall ∧
    ((run (.bundleIssue 0) missing).core 0).seq.stalls = 1 := by decide +kernel
theorem wit_BundleIssueTraps : illegal.fetching 0 = true ∧
    (match ((illegal.onSeq 0 Seq.settle).look 0).2 with
      | .trap v _ _ => v == 0
      | _ => false) = true := by decide +kernel

/-- Core 0 with a handler of vector 40 in ring 0, the stack of ring 0 at 0x2000, vector 40 pending and enabled. -/
def interrupted : State :=
  coding dev (bundle none4 none4 none4 none4)
    { ie := true, ctl := [(0x411, 2 ^ 40)], eff := [(0x408, 0x2000), (0x410, 2 ^ 40)], shadow := [(40, 0x500)], preds := 5 }
theorem wit_EventEntryPushesAFrame :
    ((interrupted.core 0).seq.route 40 (min (interrupted.core 0).seq.ring.toNat (floorOf 40))) = 0 ∧
    (interrupted.core 0).seq.shadow.look 40 0 ≠ 0 ∧ ((interrupted.missTrap 0 40).dropDiv 0).frameFits 0 0 ((interrupted.core 0).seq.gov 0x408) = true ∧
    interrupted.fetching 0 = true ∧ (interrupted.core 0).seq.mute = 0 ∧
    ((interrupted.core 0).seq.ctl.look 0x411 0).getLsbD 40 = true ∧ ((interrupted.core 0).seq.gov 0x410).getLsbD 40 = true ∧
    irqVectors.find? (fun v => ((interrupted.core 0).seq.ctl.look 0x411 0).getLsbD v && ((interrupted.core 0).seq.gov 0x410).getLsbD v) = some 40 ∧
    (match ((interrupted.onSeq 0 Seq.settle).look 0).2 with
      | .trap _ _ _ => false
      | .overflow _ => false
      | _ => true) = true ∧
    (let t := run (.interruptEntry 0) interrupted
     (t.core 0).seq.pc = 0x500 ∧ (t.core 0).seq.ie = false ∧ (t.core 0).seq.gov 0x408 = 0x1FF0 ∧
     (t.core 0).seq.ctl.look 0x434 0 = 40 ∧ ((t.core 0).dcache.map fun e => (e.2.line, e.2.dirty, e.2.data.getD 0x3A 0)) = [((sramBase + 0x1FC0) / 64, true, 5)]) := by decide +kernel

/-- Core 0 with a MUL result for M1 and a load for L2 on their way, DIV busy on −7 by 2 (DIVS), and an LSU ADD of 5 to a word at 0x40. -/
def units (op : Nat) (b : Word) : State :=
  (withMem dev 0x40 [250, 255, 255, 255]).onCore 0 fun x => { x with
    seq := { x.seq with
      mulPend := [⟨1, false, 42, true, false⟩], lsuPend := [⟨2, false, 43, true, true⟩], divBusy := true, divOp := op, divA := -7, divB := b }
    adds := [⟨sramBase + 0x40, 4, 10, 0, 0⟩] }
theorem wit_ScalarUnitsDeliverTheirResults :
    ((run (.mulComplete 0 1) (units 1 2)).core 0).seq.mulRes.look 1 0 = 42 ∧ ((run (.lsuLoadComplete 0 2) (units 1 2)).core 0).seq.lsuRes.look 2 0 = 43 ∧
    ((units 1 2).core 0).seq.divBusy = true ∧ ((units 1 2).core 0).seq.divAfter = none ∧
    ((run (.divComplete 0) (units 1 2)).core 0).seq.divRes = -3 ∧ ((run (.divComplete 0) (units 3 2)).core 0).seq.divRes = -1 ∧
    ((run (.divComplete 0) (units 2 2)).core 0).seq.divRes = 0x7FFFFFFFFFFFFFFC ∧ ((run (.divComplete 0) (units 4 2)).core 0).seq.divRes = 1 ∧
    ((run (.divComplete 0) (units 1 0)).core 0).seq.divRes = BitVec.allOnes 64 ∧ ((run (.divComplete 0) (units 3 0)).core 0).seq.divRes = -7 ∧
    ((run (.divComplete 0) (units 1 0)).core 0).seq.divZero = true ∧
    (((units 1 2).onCore 0 fun x => { x with adds := [] }).memRd { src := 0, ctx := some 0, part := some 0 } (sramBase + 0x40) 4).2.err = false ∧
    (run (.memoryAtomicAdd 0) (units 1 2)).bytes (sramBase + 0x40) 4 = [4, 0, 0, 0] := by decide +kernel

/-- A kernel waiting for idle core 0; core 0 halted. -/
def kern : Kernel := ⟨0, 0, 0, 1, 2, 0x100, (List.range 8).map fun i => BitVec.ofNat 64 (i + 1)⟩
def waitingKernel : State := dev.onSeq 0 fun q => { q with kernels := [kern], preds := 0xFF, g := [(9, 9)] }
def halted : State := (withCmd dev { disp with st := .running, left := 1 }).onSeq 0 fun q => { q with run := .halting }
theorem wit_KernelsStartAndCoresGoIdle :
    (waitingKernel.core 0).seq.kernels = [kern] ∧ (waitingKernel.core 0).seq.run = .idle ∧ waitingKernel.goes 0 = true ∧
    waitingKernel.admits 0 = true ∧ kern.block.length = 8 ∧
    (let q := ((run (.kernelStart 0) waitingKernel).core 0).seq
     q.pc = 0x100 ∧ q.ring = 2 ∧ q.preds = 1 ∧ q.g.look 7 0 = 8 ∧ q.g.look 9 0 = 0) ∧
    (halted.core 0).seq.run = .halting ∧ (halted.core 0).quiet = true ∧ ((run (.coreIdle 0) halted).core 0).seq.run = .idle ∧
    (((run (.coreIdle 0) halted).queue 0).cmds.map fun c => (c.st, c.status)) = [(.ended, 0)] ∧
    ((run (.irqRaise h0 0 0x810000000000) dev).core 0).seq.ctl.look 0x411 0 = 0x810000000000 ∧
    idle (.irqRaise h0 0 0x8000000000) dev = true ∧ idle (.irqRaise h0 0 0x1000000000000) dev = true := by decide +kernel
/-- Core 0 misses the code line of address 0, which lies in memory. -/
def lineMiss : State := (withMem dev 0 [1, 2]).onSeq 0 fun q => { q with fetchMiss := some (sramBase / 64, 0) }
theorem wit_InstructionCacheFill : (lineMiss.core 0).seq.fetchMiss = some (sramBase / 64, 0) ∧ (lineMiss.inject 0 3 1).1 = none ∧
    (lineMiss.memRd (lineMiss.lineWho 0 0) sramBase 64).2.err = false ∧ (lineMiss.memRd (lineMiss.lineWho 0 0) sramBase 64).2.bad = none ∧
    (lineMiss.core 0).icache = [] ∧ ((lineMiss.core 0).pwr.ways false).getLsbD 0 = true ∧
    (((run (.instructionCacheFill 0) lineMiss).core 0).icache.map fun e => (e.2.valid, e.2.data.take 3)) = [(true, [1, 2, 0])] := by decide +kernel

/-! ## Cache power, SRAM, fabric, HBM -/

def way (t : Option (Bool × Nat × Bool)) (cut : Bool) : State :=
  dev.onCore 0 fun x => { x with
    pwr := { trans := t, idleCut := cut }, icache := [(3, { valid := true }), (4, { valid := true })], dcache := [(5, { valid := true })] }
theorem wit_CacheWaysPowerDownAndUp :
    dev.active.bounds 4 0 = (2, 8) ∧ dev.active.bounds 5 0 = (2, 8) ∧
    (let x := ((run (.cachePwr h0 0 0x70F00) dev).core 0).pwr
     x.dcTgt = 7 ∧ x.icTgt = 0xF ∧ x.clamped = false) ∧ ((run (.cachePwr h0 0 0x10300) dev).core 0).pwr.clamped = true ∧
    ((run (.cacheWayPoweredOff 0) (way (some (false, 3, false)) false)).core 0).pwr.icOn = 0xF7 ∧
    (((run (.cacheWayPoweredOff 0) (way (some (false, 3, false)) false)).core 0).icache.map (·.1)) = [4] ∧
    ((run (.cacheWayPoweredOff 0) (way (some (true, 5, false)) false)).core 0).pwr.dcOn = 0xDF ∧
    ((run (.cacheWayPoweredOff 0) (way (some (true, 5, false)) false)).core 0).dcache = [] ∧
    ((run (.cacheWayPoweredOn 0) ((way (some (true, 5, true)) false).onCore 0 fun x => { x with pwr := { x.pwr with dcOn := 3 } })).core 0).pwr.dcOn = 0x23 ∧
    ((way none false).core 0).pwr.idleCut = false ∧ ((run (.idleCoreWayPowerdown 0) (way none false)).core 0).pwr.idleCut = true ∧
    ((way none true).core 0).pwr.idleCut = true ∧ idle (.idleCoreWayPowerdown 0) (way none true) = true := by decide +kernel

/-- Bit 5 of the SRAM word at offset 8 flipped, and queued for its rewrite; the scrubber on. -/
def flipped : State :=
  { (withMem dev 8 [0xFF]).onStore 0 fun x => { x with scrubOn := true, scrubPos := 262143 } with
    sramErr := [(1, ⟨0x20, 0⟩)], sramFix := [(1, ⟨0x20, 0⟩)] }
theorem wit_SramPortsReadAndWriteTheirBytes :
    (run (.sramWriteRequest 0 .bring 8 [1, 2, 3, 4, 5, 6, 7, 8]) dev).bytes (sramBase + 8) 8 = [1, 2, 3, 4, 5, 6, 7, 8] ∧
    (withMem dev 8 [9]).faults.inj0.armed = false ∧ (withMem dev 8 [9]).poisoned ((sramBase + 8) / 64) = false ∧
    (withMem dev 8 [9]).inRowCache (sramBase + 8) = false ∧
    ((run (.sramReadRequest 0 .bring 8 8) (withMem dev 8 [9])).core 0).store.lastRead = [9, 0, 0, 0, 0, 0, 0, 0] ∧
    flipped.sramFix.find? (fun q => q.1 / 0x400000 == 0) = some (1, ⟨0x20, 0⟩) ∧ (run (.sramCorrectionRewrite 0) flipped).sramErr = [] ∧
    (flipped.core 0).store.scrubEn = true ∧ ((run (.sramScrub 0) flipped).core 0).store.scrubPos = 0 ∧
    idle (.sramScrub 0) (flipped.onStore 0 fun x => { x with scrubEn := false }) = true := by decide +kernel

/-- A packet that waits at the router it came to, one on its way, and one on its way to its sink. -/
def pkt (id inp : Nat) (wire : Bool) : FPacket := ⟨id, 0, .core 0, .core 3, 64, (nextHop (attachHop (.core 0)) (.core 3)).1, inp, wire, false⟩
def routed : State := { dev with fabric := { packets := [pkt 4 1 false, pkt 5 1 true, pkt 6 10 true], next := 7 } }
/-- A request from core 0 to core 1 that stands before its sink and reserves 64 bytes; the same accepted, to be answered. -/
def req4 : FPacket := ⟨8, 4, .core 0, .core 1, 32, attachHop (.core 0), 1, false, false⟩
def asking4 : State := { dev with fabric := { packets := [{ req4 with at_ := attachHop (.core 1) }], owed := [⟨8, .core 0, .core 1, 64, false, none⟩], next := 9 } }
def accepting4 : State := { dev with fabric := { owed := [⟨8, .core 0, .core 1, 64, true, none⟩], next := 9 } }
theorem wit_FabricPacketsFollowFixedRoutes :
    (dev.fabric.room (attachHop (.core 0)) (attachInput (.core 0)) 0 64 false) = true ∧ classFits 0 (.core 0) (.core 3) = true ∧
    (attachHop (.core 0)).quarter = (attachHop (.core 3)).quarter ∧
    attachHop (.core 0) ≠ attachHop (.core 3) ∧ (attachHop (.core 0)).x < (attachHop (.core 3)).x ∧
    (attachHop (.core 0)).x = (attachHop (.core 12)).x ∧ (attachHop (.core 0)).y < (attachHop (.core 12)).y ∧
    ((run (.fabricPacketSend (.new 0 (.core 0) (.core 3) 64 0)) dev).fabric.packets.map fun p => (p.id, p.wire)) = [(0, true)] ∧
    ((run (.fabricPacketSend (.new 4 (.core 0) (.core 3) 32 64)) dev).fabric.owed.map fun o => (o.req, o.bytes)) = [(0, 64)] ∧
    accepting4.fabric.answers (.core 1) (.core 0) 64 = some ⟨8, .core 0, .core 1, 64, true, none⟩ ∧
    ((run (.fabricPacketSend (.new 2 (.core 1) (.core 0) 64 0)) accepting4).fabric.owed.map (·.reply)) = [some 9] ∧
    classFits 1 (.core 0) (.core 1) = false ∧ idle (.fabricPacketSend (.new 1 (.core 0) (.core 1) 8 0)) dev = true ∧
    routed.fabric.packets.find? (fun p => p.id = 4) = some (pkt 4 1 false) ∧
    (let n := nextHop (pkt 4 1 false).at_ (.core 3)
     n.2 ≠ 10 ∧ routed.fabric.room n.1 n.2 0 64 (yetToCross n.1 (.core 3)) = true) ∧
    ((run (.fabricPacketSend (.held 4)) routed).fabric.packets.map (·.id)) = [5, 6, 4] ∧
    (nextHop (attachHop (.core 1)) (.core 1)).2 = 10 ∧ asking4.fabric.sinks { req4 with at_ := attachHop (.core 1) } = true ∧
    ((run (.fabricPacketSend (.held 8)) asking4).fabric.packets.map fun p => (p.id, p.inp, p.wire)) = [(8, 10, true)] ∧
    ((run (.fabricPacketSend (.held 8)) asking4).fabric.owed.map (·.taken)) = [true] ∧
    routed.fabric.packets.find? (fun p => p.id = 5 && p.wire) = some (pkt 5 1 true) ∧
    ((run (.fabricPacketArrival 5) routed).fabric.packets.map fun p => (p.id, p.wire)) = [(4, false), (6, true), (5, false)] ∧
    (run (.fabricPacketArrival 6) routed).fabric.delivered = [(0, 1)] ∧
    (run (.d2dLinkFailure 9) dev).faults.flight.map (fun a => (a.src, a.sev)) = [(133, 4)] := by decide +kernel

/-- A BAR2 request of one granule of HBM, and pseudo-channels that hold one. -/
def hreq (a : Nat) (d : Bytes) : HbmReq := ⟨.bar2, BitVec.ofNat 48 a, 4, 0, d⟩
def readQueued : State := run (.hbmReadRequest (hreq 60 [])) barDev
def writeQueued : State := run (.hbmWriteRequest (hreq 60 [1, 2, 3, 4])) barDev
def chan0 : Fin 768 := ⟨(barDev.place 60).2.1 % 768, Nat.mod_lt _ (by decide)⟩
theorem wit_HbmRequestsQueueAndAreServed :
    zone 60 4 = .hbm ∧ barDev.gate (barDev.agentWho .bar2 none 0) 60 4 false = .ok ∧ barDev.gate (barDev.agentWho .bar2 none 0) 60 4 true = .ok ∧ barDev.isClearing 60 = false ∧
    tagFree (barDev.tag ((barDev.place 60).1 / 3)) ((barDev.place 60).1 / 3) .bar2 1 = true ∧
    (readQueued.pchan chan0).reads.length = 1 ∧ (writeQueued.pchan chan0).writes.length = 1 ∧
    ((readQueued.hbmChoose chan0).1.map (·.write)) = some false ∧ ((writeQueued.hbmChoose chan0).1.map (·.write)) = some true ∧
    (run (.hbmAccess ⟨chan0, false⟩) writeQueued).bytes 60 4 = [1, 2, 3, 4] ∧
    ((run (.hbmAccess ⟨chan0, false⟩) readQueued).pchan chan0).served.length = 1 ∧
    ((run (.hbmResponse chan0 0) (run (.hbmAccess ⟨chan0, false⟩) readQueued)).pchan chan0).lastData = [0, 0, 0, 0] := by decide +kernel

/-- Granule 3 with one wrong symbol, queued for its rewrite. -/
def wrongSymbol : State :=
  { barDev with hbmErr := [(3, [(5, 0x40)])], written := [(3, true)], pchans := [(0, { fixQ := [3] })] }
def bounded : State :=
  { dev with active := { dev.active with classes := [⟨0, 0, 0, false, 1, 0, false, {}, ⟨0, 5, 1, 1⟩, ⟨9, 9, 9, 9⟩⟩] } }
theorem wit_HbmMaintenanceCommands :
    (wrongSymbol.pchan 0).fixQ = [3] ∧ (wrongSymbol.codeword 3 (wrongSymbol.hbmErr.look 3 [])).ecc = .single 5 0x40 ∧
    (run (.hbmRewrite 0) wrongSymbol).hbmErr = [] ∧
    (let s := dev.onCtl 0 fun h => { h with scrubOn := true, scrubPos := 2 ^ 24 - 1 }
     (s.ctl 0).scrubEn = true ∧ ((run (.hbmScrubStep 0) s).ctl 0).scrubPos = 0) ∧
    idle (.hbmScrubStep 0) (dev.onCtl 0 fun h => { h with scrubEn := false }) = true ∧
    ((run (.stackTempRead 0 85) dev).ctl 0).doubled = false ∧ ((run (.stackTempRead 0 86) dev).ctl 0).doubled = true ∧
    (run (.regionClearDone 7) { dev with clearing := [3, 7] }).clearing = [3] ∧
    ((run (.hbmWeights h0 0 0x02030401) dev).ctl 0).wNext = some ⟨0, 8, 4, 1⟩ ∧
    ((run (.hbmWeights h0 0 0x02030401) dev).ctl 0).wClamps = 4 ∧
    ((run (.hbmWeights h0 0 0x02030401) bounded).ctl 0).wNext = some ⟨1, 5, 3, 2⟩ ∧
    (let t := run (.hbmWindowBoundary 0) (run (.hbmWeights h0 0 0x02030401) bounded)
     (t.ctl 0).w = ⟨1, 5, 3, 2⟩ ∧ t.cellar.count = 0) := by decide +kernel

/-! ## Power -/

def pow (p : Power) : State := dev.setPwr 0 p
theorem wit_PowerLoopStepsWithinItsBounds :
    dev.active.bounds 1 0 = (dev.active.bounds 1 0) ∧ ((run (.qpwrCap h0 0 0xFFFF) dev).pwr 0).clamps = 1 ∧
    dev.hubUp = true ∧ (dev.pwr 0).halted = false ∧ 10 * (dev.pwr 0).cap.toNat < ([5501].sum / 1) ∧
    (dev.active.bounds 0 0).1 < (dev.pwr 0).mhz ∧ ((run (.powerLoopSample 0 5501 823 false) dev).pwr 0).mhz = 1475 ∧
    (let s := pow { mhz := (dev.active.bounds 0 0).1 }
     ((run (.powerLoopSample 0 5501 823 false) s).pwr 0).clamps = 1) ∧
    ((run (.powerLoopSample 0 0 824 false) dev).pwr 0).safety = 1 ∧ ((run (.powerLoopSample 0 0 0 true) dev).pwr 0).safety = 2 ∧
    ((run (.powerLoopSample 0 0 824 false) (pow { mhz := 500 })).pwr 0).mhz = 500 ∧
    ((run (.avsResponse 0 775) (pow { target := some (775, true) })).pwr 0).raise = some 6000 ∧
    ((run (.avsFrameFailure 0) (pow { tries := 2 })).pwr 0).tries = 3 ∧
    (run (.avsFrameFailure 0) (pow { tries := 3 })).faults.flight.map (fun a => (a.src, a.sev, a.cause)) = [(120, 4, 0x11)] ∧
    ((run (.clockRaiseDelay 0) (pow { raise := some 9, mhz := 1475 })).pwr 0).mhz = 1500 ∧
    ((run (.clockRaiseDelay 0) (pow { raise := some 9, mhz := 1500 })).pwr 0).mhz = 1500 ∧
    (pow { held := true }).hubUp = true ∧ ((run (.safetyHoldExpiry 0) (pow { held := true })).pwr 0).held = false := by decide +kernel


/-! ## Vector op words -/

/-- One op word for core 0 with the elements it reads and the elements it leaves in VD: VD is 4 (or a given number), and the registers
1, 2, 3 and 4 hold the lists; mask register 1 and 2 hold the bits of `m1` and `m2`. -/
structure Row where
  i   : Instr
  k   : Nat
  fa  : Nat
  fd  : Nat
  out : List Nat
  a   : List Nat := []
  b   : List Nat := []
  c   : List Nat := []
  va  : Nat := 1
  vb  : Nat := 0
  vc  : Nat := 0
  vd  : Nat := 4
  low : Nat := 0
  sa  : Word := 0
  sb  : Word := 0
  vl  : Nat := out.length
  m1  : List Bool := []
  m2  : List Bool := []

def Row.item (r : Row) : VqItem :=
  ⟨BitVec.ofNat 64 (r.k <<< 56 + r.vd <<< 51 + r.va <<< 46 + r.vb <<< 41 + r.vc <<< 36 + r.fa <<< 32 + r.fd <<< 28 + r.low + r.vl), r.sa, r.sb, 2⟩

def setAll (r f : Nat) (l : List Nat) (v : Vec) : Vec := putEls r f 0 (l.map (BitVec.ofNat 128)) v
def bitsOf (m : Nat) (l : List Bool) : Map Bool := (l.zipIdx).filterMap fun p => if p.1 then some (8192 * m + p.2, true) else none

/-- `dev` with every feature active and VQ of core 0 as given. -/
def vq (items : List VqItem) (f : Vec → Vec) (s : State) : State :=
  { s with parts := [(0, { st := 0, features := BitVec.allOnes 256 })] }.onVec 0 fun v =>
    f { v with items := items, pushed := items.length }

def Row.state (r : Row) : State :=
  vq [r.item] (fun v => setAll 1 r.fa r.a (setAll 2 r.fa r.b (setAll 3 r.fd r.c { v with masks := bitsOf 1 r.m1 ++ bitsOf 2 r.m2 }))) dev

/-- The oldest op word of core 0 has its form and runs. -/
def runsB (s : State) : Bool :=
  match (s.core 0).vec.items with
  | [] => false
  | i :: _ =>
    let o := parseOp i (s.core 0).vec.front
    match vecOp o.opc with
    | none => false
    | some p => s.goes 0 && !s.waitsAdds 0 o && !p.bad o (s.coreFeatures 0) && !s.faults.inj0.armed && !s.faults.inj1.armed

theorem runs_of {s : State} (h : runsB s = true) : ∃ k p o, vecOp k = some p ∧ s.VecRuns 0 k p o := by
  simp only [runsB] at h
  split at h
  · cases h
  · rename_i i l hi
    split at h
    · cases h
    · rename_i p hp
      simp only [Bool.and_eq_true, Bool.not_eq_true'] at h
      exact ⟨_, p, _, hp, i, l, hi, rfl, rfl, h.1.1.1.1, h.1.1.1.2, h.1.1.2, h.1.2, h.2⟩

/-- The op word has its form, its own command runs it, and VD then holds the expected elements. -/
def Row.good (r : Row) : Bool :=
  let t := run r.i r.state
  runsB r.state && (t.core 0).vec.items.isEmpty && (t.core 0).vec.run == [(1, 0)] &&
    ((List.range r.out.length).map fun i => ((t.core 0).vec.el r.vd r.fd i).toNat) == r.out

def intRows : List Row :=
  [{ i := .iadd 0, k := 0x20, fa := 8, fd := 8, vb := 2, a := [255, 3], b := [2, 4], out := [1, 7] },
   { i := .isub 0, k := 0x21, fa := 10, fd := 10, low := 0x80000, sb := 5, a := [3, 9], out := [65534, 4] },
   { i := .imul 0, k := 0x22, fa := 8, fd := 8, vb := 2, a := [20], b := [13], out := [4] },
   { i := .imin 0, k := 0x23, fa := 8, fd := 8, vb := 2, a := [0x80], b := [1], out := [0x80] },
   { i := .imax 0, k := 0x24, fa := 8, fd := 8, vb := 2, a := [0x80], b := [1], out := [1] },
   { i := .iminu 0, k := 0x25, fa := 8, fd := 8, vb := 2, a := [0x80], b := [1], out := [1] },
   { i := .imaxu 0, k := 0x26, fa := 8, fd := 8, vb := 2, a := [0x80], b := [1], out := [0x80] },
   { i := .and 0, k := 0x27, fa := 9, fd := 9, vb := 2, a := [12], b := [10], out := [8] },
   { i := .or 0, k := 0x28, fa := 1, fd := 1, vb := 2, a := [12], b := [10], out := [14] },
   { i := .xor 0, k := 0x29, fa := 1, fd := 1, vb := 2, a := [12], b := [10], out := [6] },
   { i := .shl 0, k := 0x2A, fa := 8, fd := 8, vb := 2, a := [0x81, 1], b := [9, 8], out := [2, 1] },
   { i := .shr 0, k := 0x2B, fa := 8, fd := 8, vb := 2, a := [0x81], b := [1], out := [0x40] },
   { i := .sra 0, k := 0x2C, fa := 8, fd := 8, vb := 2, a := [0x81], b := [1], out := [0xC0] },
   { i := .popc 0, k := 0x2E, fa := 8, fd := 8, a := [0xF1], out := [5] },
   { i := .idot4 0, k := 0x2F, fa := 8, fd := 11, vb := 2, vc := 3, a := [1, 2, 3, 4], b := [5, 6, 7, 0xF8], c := [10], vl := 4, out := [16] },
   { i := .xadd 0, k := 0x30, fa := 13, fd := 13, vb := 2, a := [2 ^ 65], b := [2 ^ 64], out := [3 * 2 ^ 64] },
   { i := .vset 0, k := 0x31, fa := 8, fd := 8, va := 0, sa := 0x1FF, out := [0xFF, 0xFF] },
   { i := .iota 0, k := 0x32, fa := 11, fd := 11, va := 0, out := [0, 1, 2] },
   { i := .vmov 0, k := 0x33, fa := 6, fd := 6, a := [63, 1], m1 := [true], low := 0x3800000, out := [63, 0] },
   { i := .iwmul 0, k := 0x34, fa := 8, fd := 10, vb := 2, a := [0xFE], b := [3], out := [0xFFFA] }]
theorem wit_IntegerOpWordsComputeEveryActiveElement : intRows.all Row.good = true := by decide +kernel

def fpRows : List Row :=
  [{ i := .fadd 0, k := 0, fa := 1, fd := 1, vb := 2, a := [0x3FC00000, 0xBF800000], b := [0x40100000, 0x3F800000], out := [0x40700000, 0] },
   { i := .fsub 0, k := 1, fa := 1, fd := 1, vb := 2, a := [0x40400000], b := [0x3F800000], out := [0x40000000] },
   { i := .fmul 0, k := 2, fa := 3, fd := 3, vb := 2, a := [0x3E00], b := [0x4000], out := [0x4200] },
   { i := .fma 0, k := 3, fa := 1, fd := 1, vb := 2, vc := 3, a := [0x40000000], b := [0x40400000], c := [0x3F800000], out := [0x40E00000] },
   { i := .fnma 0, k := 4, fa := 1, fd := 1, vb := 2, vc := 3, a := [0x40000000], b := [0x40400000], c := [0x3F800000], out := [0xC0A00000] },
   { i := .fmin 0, k := 5, fa := 1, fd := 1, vb := 2, a := [0], b := [0x80000000], out := [0x80000000] },
   { i := .fmax 0, k := 6, fa := 1, fd := 1, vb := 2, a := [0x80000000], b := [0], out := [0] },
   { i := .fneg 0, k := 7, fa := 0, fd := 0, a := [0x3FF0000000000000], out := [0xBFF0000000000000] },
   { i := .fabs 0, k := 8, fa := 1, fd := 1, a := [0xBF800000, 0xFFFFFFFF], out := [0x3F800000, 0x7FC00000] },
   { i := .cvt 0, k := 0x0A, fa := 1, fd := 3, a := [0x3FC00000], out := [0x3E00] },
   { i := .fdiv 0, k := 0x0B, fa := 1, fd := 1, vb := 2, a := [0x3F800000, 0x3F800000], b := [0x40400000, 0], out := [0x3EAAAAAB, 0x7F800000] },
   { i := .fsqrt 0, k := 0x0C, fa := 1, fd := 1, a := [0x40800000, 0x40000000], out := [0x40000000, 0x3FB504F3] },
   { i := .rcp 0, k := 0x0D, fa := 1, fd := 1, a := [0x40000000], out := [0x3F000000] },
   { i := .rsqrt 0, k := 0x0E, fa := 1, fd := 1, a := [0x40800000], out := [0x3F000000] },
   { i := .exp2 0, k := 0x0F, fa := 1, fd := 1, a := [0x40400000], out := [0x41000000] },
   { i := .log2 0, k := 0x10, fa := 1, fd := 1, a := [0x41000000], out := [0x40400000] },
   { i := .wmul 0, k := 0x11, fa := 3, fd := 1, vb := 2, a := [0x3E00], b := [0x4000], out := [0x40400000] },
   { i := .wfma 0, k := 0x12, fa := 3, fd := 1, vb := 2, vc := 3, a := [0x3E00], b := [0x4000], c := [0x3F800000], out := [0x40800000] },
   { i := .xdot 0, k := 0x13, fa := 3, fd := 13, vb := 2, vc := 3, sa := 2, a := [0x3E00, 0x3C00], b := [0x4000, 0x3C00], c := [2 ^ 64],
     vl := 2, out := [5 * 2 ^ 64] },
   { i := .mxscale 0, k := 0x14, fa := 1, fd := 8, a := [0x3F800000, 0x40800000], vl := 2, out := [129] },
   { i := .mxquant 0, k := 0x15, fa := 1, fd := 8, vb := 2, a := [0x3F800000], b := [127], out := [64] }]
theorem wit_FloatingPointOpWordsRoundOnce : fpRows.all Row.good = true := by decide +kernel

/-- A mask op word: bits of mask register 4 afterwards, and the scalar. -/
def maskOut (r : Row) : List Bool × Nat :=
  let t := run r.i r.state
  (if runsB r.state then (List.range r.vl).map fun i => (t.core 0).vec.mbit 4 i else [], (t.core 0).vec.vres.toNat)
def mrow (i : Instr) (k vd vb : Nat) : Row :=
  { i := i, k := k, fa := 0, fd := 0, vd := vd, vb := vb, out := [], vl := 4, m1 := [false, true, true, false], m2 := [false, true, false, true] }
theorem wit_CompareAndMaskOpWordsWriteMaskBits :
    maskOut { i := .fcmp 0, k := 9, fa := 1, fd := 1, vb := 2, vc := 2, a := [0x3F800000, 0x7FC00000], b := [0x40000000, 0], vl := 2, out := [] } =
      ([true, false], 0) ∧
    maskOut { i := .icmp 0, k := 0x2D, fa := 8, fd := 8, vb := 2, vc := 2, a := [0x80, 1], b := [1, 0x80], vl := 2, out := [] } =
      ([true, false], 0) ∧
    maskOut (mrow (.mand 0) 0x50 4 2) = ([false, true, false, false], 0) ∧ maskOut (mrow (.mor 0) 0x51 4 2) = ([false, true, true, true], 0) ∧
    maskOut (mrow (.mxor 0) 0x52 4 2) = ([false, false, true, true], 0) ∧ maskOut (mrow (.mandn 0) 0x53 4 2) = ([false, false, true, false], 0) ∧
    maskOut (mrow (.mnot 0) 0x54 4 0) = ([true, false, false, true], 0) ∧
    maskOut { mrow (.mset 0) 0x55 4 0 with va := 0 } = ([true, true, true, true], 0) ∧
    (maskOut (mrow (.mpopc 0) 0x56 0 0)).2 = 2 ∧ (maskOut (mrow (.mfirst 0) 0x57 0 0)).2 = 1 ∧
    runsB (mrow (.mpopc 0) 0x56 0 0).state = true ∧ runsB (mrow (.mfirst 0) 0x57 0 0).state = true := by decide +kernel

def sel : List Bool := [false, true, true]
def permRows : List Row :=
  [{ i := .compress 0, k := 0x40, fa := 8, fd := 8, a := [10, 20, 30], m1 := sel, low := 0x3800000, out := [20, 30, 0] },
   { i := .expand 0, k := 0x41, fa := 8, fd := 8, a := [10, 20, 30], m1 := sel, low := 0x3800000, out := [0, 10, 20] },
   { i := .vperm 0, k := 0x42, fa := 8, fd := 8, vb := 2, a := [10, 20, 30], b := [2, 0, 3], out := [30, 10, 0] },
   { i := .slideup 0, k := 0x43, fa := 8, fd := 8, sa := 1, vd := 1, a := [10, 20, 30], out := [10, 10, 20] },
   { i := .slidedn 0, k := 0x44, fa := 8, fd := 8, sa := 1, a := [10, 20, 30], out := [20, 30, 0] },
   { i := .transpose 0, k := 0x45, fa := 8, fd := 8, sa := 3, a := [0, 1, 2, 3, 4, 5], out := [0, 3, 1, 4, 2, 5] },
   { i := .insert 0, k := 0x47, fa := 8, fd := 8, va := 0, vd := 1, sa := 99, sb := 1, a := [10, 20, 30], out := [10, 99, 30] }]
def extracting : Row := { i := .extract 0, k := 0x46, fa := 13, fd := 13, vd := 0, sa := 1, sb := 1, a := [0, 7 * 2 ^ 64 + 3], vl := 2, out := [] }
theorem wit_PermutationOpWordsMoveElements :
    permRows.all Row.good = true ∧ runsB extracting.state = true ∧ ((run (.extract 0) extracting.state).core 0).vec.vres = 7 ∧
    runsB { i := .transpose 0, k := 0x45, fa := 8, fd := 8, sa := 3, a := [1, 2], vl := 2, out := [] : Row }.state = true := by
  decide +kernel

def redRows : List Row :=
  [{ i := .fredsum 0, k := 0x48, fa := 1, fd := 1, a := [0x3F800000, 0x40000000, 0x40400000], vl := 3, out := [0x40C00000] },
   { i := .fredmin 0, k := 0x49, fa := 1, fd := 1, a := [0x3F800000, 0x40000000], vl := 2, out := [0x3F800000] },
   { i := .fredmax 0, k := 0x4A, fa := 1, fd := 1, a := [0x3F800000, 0x40000000], vl := 2, out := [0x40000000] },
   { i := .iredsum 0, k := 0x4B, fa := 8, fd := 12, a := [0xFF, 0xFF, 1], vl := 3, out := [0xFFFFFFFFFFFFFFFF] },
   { i := .xredsum 0, k := 0x4C, fa := 13, fd := 13, a := [1, 2, 3], vl := 3, out := [6] }]
def emptySum : Row := { i := .fredmax 0, k := 0x4A, fa := 1, fd := 1, vl := 0, out := [] }
theorem wit_ReductionsCombineInAFixedPairTree :
    redRows.all Row.good = true ∧ runsB emptySum.state = true ∧ ((run (.fredmax 0) emptySum.state).core 0).vec.vres = 0xFF800000 := by
  decide +kernel

/-- The worked products of Table 3.6. -/
theorem test_table_3_6 :
    ([{ i := .xdot 0, k := 0x13, fa := 3, fd := 13, vb := 2, vc := 3, sa := 1, a := [0x7BFF, 1], b := [0x7BFF, 1], out := [0xFFC00400 * 2 ^ 64, 0x10000] },
      { i := .xdot 0, k := 0x13, fa := 2, fd := 13, vb := 2, vc := 3, sa := 1, a := [0x3081, 0x2F80, 0x7F80], b := [0x3081, 0x2F00, 0],
        out := [0x10, 0, 2 ^ 127] }] : List Row).all Row.good = true := by decide +kernel

/-! ## Vector memory op words -/

/-- Address 0x40 of context 0 is byte 0x40 of core 0's SRAM. -/
def Row.on (r : Row) (bs : Bytes) (s : State) : State :=
  withMem (vq [r.item] (fun v => setAll 1 r.fa r.a (setAll 2 r.fd r.b { v with masks := bitsOf 1 r.m1, slots := v.slots })) s) 0x40 bs

/-- Every access of the list is checked and read. -/
def reads (s : State) (acc : List Acc) (n : Nat) (l : List (Nat × Nat × Nat)) : Bool :=
  match (s.core 0).vec.items with
  | [] => false
  | i :: _ =>
    let o := parseOp i (s.core 0).vec.front
    runsB s && match s.vecCheck 0 o acc n l with
      | (_, .inr _) => false
      | (q, .inl ms) => ms.map (·.pa) == l.map (fun e => sramBase + e.2.2) && match q.vecRead 0 o n ms with
        | (_, .inl ds) => ds.map (·.1) == ms
        | _ => false

def after (r : Row) (bs : Bytes) (n : Nat) (vd fd : Nat) : List Nat :=
  let t := run r.i (r.on bs dev)
  (List.range n).map fun i => ((t.core 0).vec.el vd fd i).toNat
def bytesAt (r : Row) (bs : Bytes) (at_ n : Nat) : Bytes := (run r.i (r.on bs dev)).bytes (sramBase + at_) n

def vld : Row := { i := .vld 0, k := 0x60, fa := 8, fd := 8, va := 0, sa := 0x40, sb := 0xFFFFFFFFFFFFFFFF, low := 0x1800000, m1 := [], vl := 2, out := [] }
def vld4 : Row := { i := .vld 0, k := 0x60, fa := 7, fd := 7, va := 0, sa := 0x40, vl := 2, out := [] }
def vgather : Row := { i := .vgather 0, k := 0x62, fa := 11, fd := 10, a := [2, 0], sa := 0x40, sb := 2, vl := 2, out := [] }
def vgld : Row := { i := .gld 0, k := 0x6A, fa := 13, fd := 13, va := 0, sa := 0x40, vl := 1, out := [] }
def vldseg : Row := { i := .vldseg 0, k := 0x65, fa := 8, fd := 8, va := 0, sa := 0x40, vl := 2, out := [] }

/-- A tensor of three INT8 elements at 0x41, in a bound slot with its cursor at 1. -/
def tdesc : Bytes := leBytes 8 0x41 ++ [8, 1] ++ leBytes 2 1 ++ leBytes 4 0 ++ leBytes 4 3 ++ List.replicate 44 0
def slotted (s : State) : State := s.onVec 0 fun v => { v with slots := [(0, ⟨true, true, tdesc, 1⟩)] }
def vtld : Row := { i := .tld 0, k := 0x67, fa := 8, fd := 8, va := 0, vl := 3, out := [] }

theorem wit_VectorLoadsFillActiveElements :
    reads ({ vld with low := 0 }.on [1, 2] dev) [.rd] 1 [(0, 0, 0x40), (1, 1, 0x3F)] = true ∧ after { vld with low := 0 } [1, 2] 2 4 8 = [1, 0] ∧
    runsB (vld.on [1] dev) = true ∧ after vld [1, 2] 2 4 8 = [0, 0] ∧
    reads (vld4.on [0x21] dev) [.rd] 1 [(0, 0, 0x40)] = true ∧ after vld4 [0x21] 2 4 7 = [1, 2] ∧
    reads (vgather.on [1, 0, 2, 0, 3, 0] dev) [.rd] 2 [(0, 0, 0x44), (1, 1, 0x40)] = true ∧ after vgather [1, 0, 2, 0, 3, 0] 2 4 10 = [3, 1] ∧
    reads (vgld.on [5] dev) [.rd] 32 [(0, 0, 0x40)] = true ∧ after vgld [5] 1 4 13 = [5] ∧
    reads (vldseg.on [1, 2, 3, 4] dev) [.rd] 1 [(0, 0, 0x40), (1, 0, 0x41), (2, 1, 0x42), (3, 1, 0x43)] = true ∧
    after vldseg [1, 2, 3, 4] 2 4 8 = [1, 3] ∧ after vldseg [1, 2, 3, 4] 2 5 8 = [2, 4] ∧
    tFmt tdesc = 8 ∧ tBad tdesc = false ∧ tCount tdesc = 3 ∧ reads (slotted (vtld.on [9, 1, 2, 3] dev)) [.rd] 1 [(0, 0, 0x42), (1, 1, 0x43)] = true ∧
    (let t := run (.tld 0) (slotted (vtld.on [9, 1, 2, 3] dev))
     ((List.range 3).map fun i => ((t.core 0).vec.el 4 8 i).toNat) = [2, 3, 0] ∧ ((t.core 0).vec.slots.look 0 {}).cursor = 4) := by
  decide +kernel

def vst : Row := { i := .vst 0, k := 0x61, fa := 8, fd := 8, vd := 0, a := [7, 8], sa := 0x40, sb := 2, vl := 2, out := [] }
def vst4 : Row := { i := .vst 0, k := 0x61, fa := 7, fd := 7, vd := 0, a := [7, 8], sa := 0x40, vl := 2, low := 0x3000000, m1 := [true], out := [] }
def vscatter : Row := { i := .vscatter 0, k := 0x63, fa := 11, fd := 8, vd := 0, vb := 2, a := [2, 2], b := [7, 8], sa := 0x40, sb := 1, vl := 2, out := [] }
def vstseg : Row := { i := .vstseg 0, k := 0x66, fa := 8, fd := 8, vd := 0, a := [7, 8], sa := 0x40, vl := 2, out := [] }
def vtst : Row := { i := .tst 0, k := 0x68, fa := 8, fd := 8, vd := 0, a := [7, 8], vl := 2, out := [] }
def vscatadd : Row := { i := .vscatadd 0, k := 0x64, fa := 11, fd := 8, vd := 0, vb := 2, vc := 11, a := [1, 0], b := [0xFF, 2], sa := 0x40, sb := 4, vl := 2, out := [] }
def vatadd : Row := { i := .vatadd 0, k := 0x69, fa := 11, fd := 8, vd := 0, vb := 2, a := [1, 0], b := [0xFF, 2], sa := 0x40, sb := 32, vl := 2, out := [] }

theorem wit_VectorStoresWriteTheirAddresses :
    reads (vst.on [] dev) [.wr] 1 [(0, 0, 0x40), (1, 1, 0x42)] = true ∧ bytesAt vst [1, 1, 1] 0x40 3 = [7, 1, 8] ∧
    reads (vst4.on [] dev) [.wr] 1 [(0, 0, 0x40)] = true ∧ bytesAt vst4 [0x31] 0x40 1 = [0x37] ∧
    reads (vscatter.on [] dev) [.wr] 1 [(0, 0, 0x42), (1, 1, 0x42)] = true ∧ bytesAt vscatter [] 0x40 3 = [0, 0, 8] ∧
    reads (vstseg.on [] dev) [.wr] 1 [(0, 0, 0x40), (1, 0, 0x41), (2, 1, 0x42), (3, 1, 0x43)] = true ∧ bytesAt vstseg [] 0x40 4 = [7, 0, 8, 0] ∧
    reads (slotted (vtst.on [] dev)) [.wr] 1 [(0, 0, 0x42), (1, 1, 0x43)] = true ∧
    (run (.tst 0) (slotted (vtst.on [] dev))).bytes (sramBase + 0x41) 3 = [0, 7, 8] ∧
    reads (vscatadd.on [] dev) [.rd, .wr] 4 [(0, 0, 0x44), (1, 1, 0x40)] = true ∧ bytesAt vscatadd [5] 0x40 8 = [7, 0, 0, 0, 255, 255, 255, 255] ∧
    reads (vatadd.on [] dev) [.rd, .wr] 32 [(0, 0, 0x60), (1, 1, 0x40)] = true ∧
    ((run (.vatadd 0) (vatadd.on [] dev)).core 0).cells.map (fun q => (q.pa - sramBase, q.xa, q.item)) =
      [(0x60, BitVec.ofInt 128 (-(2 ^ 64 : Nat))  , 0), (0x40, 2 * 2 ^ 64, 0)] := by decide +kernel

def tbind (sb : Word) : Row := { i := .tbind 0, k := 0x70, fa := 0, fd := 0, vd := 1, va := 0, sa := 0x40, sb := sb, out := [] }
def tloop (vl n : Nat) : Row := { i := .tloop 0, k := 0x71, fa := 0, fd := 0, vd := 0, va := 0, sa := BitVec.ofNat 64 n, vl := vl, out := [] }
def bodyLd : Row := { vtld with vl := 0 }
/-- A loop over the tensor's remaining elements: VL at most `vl`, one TLD in its body, the cursor at `cur`. -/
def looped (vl cur : Nat) : State :=
  (vq [(tloop vl 1).item, bodyLd.item] (fun v => { v with slots := [(0, ⟨true, false, tdesc, cur⟩)] }) (withMem dev 0x40 [9, 1, 2, 3]))
def bodyOf (s : State) : List OpW :=
  match (s.core 0).vec.items with
  | [] => []
  | _ :: l => (List.range 1).zipWith (fun j i => parseOp i ((s.core 0).vec.front + 1 + j)) (l.take 1)
def rdf (sa : Word) : State :=
  vq [({ i := .rdflags 0, k := 0x72, fa := 0, fd := 0, vd := 0, va := 0, sa := sa, out := [] } : Row).item] (fun v => { v with flags := 5 }) dev
/-- A guarded cell at SRAM byte 0x40 that holds 5, and one add of 3 to it by the op word at DONE. -/
def cellAdding : State :=
  (withMem dev 0x40 [5]).onCore 0 fun x => { x with cells := [⟨sramBase + 0x40, 3, 0, 0, 0⟩], vec := { x.vec with run := [(1, 1), (1, 0)] } }

theorem wit_TensorSlotsLoopsAndCompletion :
    runsB ((tbind 1).on tdesc dev) = true ∧ good (((tbind 1).on tdesc dev).vRd { src := 0, agent := 128, ctx := 0, ring := 2 } 0x40 64).2 = true ∧
    dev.tGrant { src := 0, agent := 128, ctx := 0, ring := 2 } .rd tdesc = none ∧
    dev.tGrant { src := 0, agent := 128, ctx := 0, ring := 2 } .wr tdesc = none ∧
    ((run (.tbind 0) ((tbind 1).on tdesc dev)).core 0).vec.slots = [(1, ⟨true, true, tdesc, 0⟩)] ∧
    runsB (looped 2 0) = true ∧ ((bodyOf (looped 2 0)).map fun b => bodyBad ((looped 2 0).core 0).vec 3 b) = [false] ∧
    (let t := ((run (.tloop 0) (looped 2 0)).core 0).vec
     (List.range 3).map (fun i => (t.el 4 8 i).toNat) = [3, 2, 0] ∧ (t.slots.look 0 {}).cursor = 3 ∧ t.items = [] ∧ t.run = [(2, 0)]) ∧
    (let t := ((run (.tloop 0) (looped 3 1)).core 0).vec
     (List.range 3).map (fun i => (t.el 4 8 i).toNat) = [2, 3, 0] ∧ (t.slots.look 0 {}).cursor = 3) ∧
    (((run (.tloop 0) (looped 0 0)).core 0).vec.slots.look 0 {}).cursor = 0 ∧ ((run (.tloop 0) (looped 2 3)).core 0).vec.run = [(2, 0)] ∧
    runsB (rdf 0) = true ∧ runsB (rdf 1) = true ∧ ((run (.rdflags 0) (rdf 0)).core 0).vec.flags = 5 ∧
    (((run (.rdflags 0) (rdf 1)).core 0).vec.vres, ((run (.rdflags 0) (rdf 1)).core 0).vec.flags) = (5, 0) ∧
    (let t := run (.guardedCellAdd 0) cellAdding
     t.bytes (sramBase + 0x40) 32 = leBytes 32 8 ∧ (t.core 0).vec.run = [(1, 0), (1, 0)] ∧
     ((run (.vectorOpDone 0) t).core 0).vec.done = 1) ∧
    (cellAdding.memRd { src := 138, ctx := some 0, part := some 0 } (sramBase + 0x40) 32).2.err = false ∧
    idle (.vectorOpDone 0) cellAdding = true := by decide +kernel

/-! ## Matrix passes -/

/-- A pass over INT8 rows at 0x200 and columns at 0x300: byte 1, rows, columns, depth, and the last 36 bytes' epilogue. -/
def pdesc (op b1 rows cols depth : Nat) (f out : Nat) (c : Nat := 0) (epi : Bytes := []) : Bytes :=
  [BitVec.ofNat 8 op, BitVec.ofNat 8 b1, BitVec.ofNat 8 f, BitVec.ofNat 8 f, BitVec.ofNat 8 cols, 0, 0, 0] ++ leBytes 4 rows ++ leBytes 4 depth ++
  leBytes 8 0x200 ++ leBytes 8 2 ++ leBytes 8 0x300 ++ leBytes 4 2 ++ List.replicate 28 0 ++ leBytes 8 c ++ leBytes 8 0x400 ++ leBytes 8 16 ++
  leBytes 8 0x500 ++ [BitVec.ofNat 8 out] ++ epi ++ List.replicate (23 - epi.length) 0

/-- The descriptor at `va` waits in MQ of core 0; the operands lie in memory. -/
def queued (d : Bytes) (va : Word := 0x180) : State :=
  let s := [(0x180, d), (0x200, [1, 2, 3, 4]), (0x300, [5, 6, 7, 8]), (0x608, [10]), (0x706, [0, 0x40]), (0x802, [0x40, 0x40])].foldl
    (fun s (p : Nat × Bytes) => withMem s p.1 p.2) dev
  { s with parts := [(0, { st := 0, features := BitVec.allOnes 256 })] }.onCore 0 fun x => { x with mq := { pushed := 1, items := [⟨va, 2, 0⟩] } }
def accepted (d : Bytes) : State := run (.passAccept 0) (queued d)
def loaded (d : Bytes) : State := run (.tileCommit 0) (accepted d)

/-- A KEEP pass whose tile lies in set 0, its rows and epilogue operands in memory. -/
def computing (d : Bytes) : State :=
  { dev with
    parts := [(0, { st := 0, features := BitVec.allOnes 256 })]
    mem := [(0x200, 1), (0x201, 2), (0x202, 3), (0x203, 4), (0x608, 10), (0x706, 0), (0x707, 0x40), (0x802, 0x40), (0x803, 0x40)].filterMap
      fun (p : Nat × Byte) => if p.2 = 0 then none else some (sramBase + p.1, p.2) }.onMat 0 fun m =>
  { m with set0 := { loaded := true, fmt := 8, depth := 2, cols := [[5, 6], [7, 8]] },
           passes := [{ idx := 0, ring := 2, desc := d, set := false, loaded := true, computed := false }] }

/-- The oldest pass may start and its reads succeed. -/
def passReadsB (s : State) (op : Nat) : Bool :=
  match s.passReady 0 op with
  | none => false
  | some (q, p) =>
    let (_, bs) := tileCols ((s.core 0).mat.tile q.set) p (List.range p.cols) s
    let (r, as) := PRun.aRows ⟨s, q.badAddr, false⟩ (matEng s 0 q.ring) p (s.core 0).mat
    p.load != 2 && !s.faults.inj0.armed && !s.faults.inj1.armed && !r.err && bs.length == p.cols && as.length == p.rows

/-- Results of the pass, computed by its own command. -/
def resultsOf (i : Instr) (d : Bytes) : List Nat := ((run i (computing d)).core 0).mat.passes.flatMap fun q => q.results.map (·.toNat)
/-- SCALE_MODE 1 with an FP64 scale at 0x700, elementwise addition of the FP32 at 0x800. -/
def epi1 : Bytes := [0, 5, 1] ++ leBytes 4 0 ++ leBytes 8 0x800 ++ leBytes 8 0x700

theorem wit_MatrixPassesComputeTheirResults :
    ((List.range 6).map fun op => passReadsB (computing (pdesc op 0 2 2 2 8 11)) op) = List.replicate 6 true ∧
    resultsOf (.mac 0) (pdesc 0 0 2 2 2 8 11) = [17, 23, 39, 53] ∧ resultsOf (.minPlus 0) (pdesc 1 0 2 2 2 8 11) = [6, 8, 8, 10] ∧
    resultsOf (.maxPlus 0) (pdesc 2 0 2 2 2 8 11) = [8, 10, 10, 12] ∧ resultsOf (.l1 0) (pdesc 3 0 2 2 2 8 11) = [8, 12, 4, 8] ∧
    resultsOf (.l2sq 0) (pdesc 4 0 2 2 2 8 11) = [32, 72, 8, 32] ∧ resultsOf (.hamming 0) (pdesc 5 0 2 2 2 8 11) = [2, 4, 3, 3] ∧
    passReadsB (computing (pdesc 0 0x40 1 1 2 8 0x1B 0x600 epi1)) 0 = true ∧
    resultsOf (.mac 0) (pdesc 0 0x40 1 1 2 8 0x1B 0x600 epi1) = [57] := by
  decide +kernel

/-- On the FP32 class a fused chain in FP64: 2 × 2 + 2 × 2 = 8. -/
theorem test_mac_fp32 :
    (let s := [(0x200, [0, 0, 0, 0x40, 0, 0, 0, 0x40]), (0x300, [0, 0, 0, 0x40, 0, 0, 0, 0x40])].foldl (fun s (p : Nat × Bytes) => withMem s p.1 p.2)
       (queued ((pdesc 0 2 1 1 2 1 0).set 24 4))
     let s := run (.tileCommit 0) (run (.passAccept 0) (s.store (sramBase + 0x1A8) [4]))
     passReadsB s 0 = true ∧ ((run (.mac 0) s).core 0).mat.passes.flatMap (fun q => q.results.map (·.toNat)) = [0x4020000000000000]) := by
  decide +kernel

def d2 : Bytes := pdesc 0 2 2 2 2 8 11
def fillD : Bytes := pdesc 0 0x12 2 2 2 8 11
def done2 : State := run (.mac 0) (loaded d2)
/-- A computed KEEP pass without rows and without a status word. -/
def emptyPass : State :=
  dev.onMat 0 fun m => { m with passes := [{ idx := 0, ring := 0, desc := (pdesc 0 0 0 1 1 8 11).take 96 ++ List.replicate 32 0, set := false,
                                             loaded := true, computed := true }] }
theorem wit_PassesAreAccepted :
    (queued d2 0x181).goes 0 = true ∧ ((queued d2 0x181).core 0).nextPass = some ⟨0x181, 2, 0⟩ ∧
    (let t := run (.passAccept 0) (queued d2 0x181)
     (t.core 0).mq.err = true ∧ (t.core 0).mq.items = [] ∧ t.faults.flight.map (fun a => (a.src, a.sev, a.cause, a.ctx)) = [(0, 1, 6, some 0)]) ∧
    good ((queued d2).vRd (matEng (queued d2) 0 2) 0x180 128).2 = true ∧
    (parsePass (pdesc 6 2 2 2 2 8 11)).bad ((queued d2).coreFeatures 0) false = true ∧ ((accepted (pdesc 6 2 2 2 2 8 11)).core 0).mq.err = true ∧
    (parsePass (pdesc 0 0x22 2 2 2 8 11)).bad ((queued d2).coreFeatures 0) false = true ∧
    (let p := parsePass d2
     p.bad ((queued d2).coreFeatures 0) ((queued d2).leadCore 0) = false ∧ ((queued d2).core 0).mat.useBad p 8 = false ∧
     ((queued d2).passSpans (matEng (queued d2) 0 2) p.spans).isNone = true) ∧
    (let m := ((accepted d2).core 0).mat
     m.cur = true ∧ m.passes.map (fun q => (q.set, q.loaded, q.computed)) = [(true, false, false)]) ∧
    (let m := ((accepted fillD).core 0).mat
     (m.rbValid, m.rbRows, m.rbDepth) = (true, 2, 2)) := by decide +kernel
theorem wit_MatrixPassesAreAcceptedLoadedAndCompleted :
    (splitPass (fun q => !q.loaded) ((accepted d2).core 0).mat.passes).map (fun b => (b.1.length, b.2.set)) = some (0, true) ∧
    (let t := ((loaded d2).core 0).mat.set1
     (t.loaded, t.cols, t.fmt, t.depth) = (true, [[5, 6], [7, 8]], 8, 2)) ∧
    (done2.core 0).mat.passes.map (·.computed) = [true] ∧
    (let t := run (.passComplete 0) done2
     t.bytes (sramBase + 0x400) 8 = [17, 0, 0, 0, 23, 0, 0, 0] ∧ t.bytes (sramBase + 0x410) 8 = [39, 0, 0, 0, 53, 0, 0, 0] ∧
     t.bytes (sramBase + 0x500) 8 = [0, 0, 0, 0, 0, 0, 0, 0] ∧ (t.core 0).mat.passes = [] ∧ (t.core 0).mq.items = [] ∧ (t.core 0).mq.done = 1) ∧
    (run (.passComplete 0) emptyPass).mem = emptyPass.mem ∧ ((run (.passComplete 0) emptyPass).core 0).mat.passes = [] := by decide +kernel

/-! ## The table press -/

/-- Table 5: four rows of two INT8 elements at HBM address 0x1000, pitch 64, with its home at press `h`. -/
def rec5 (h : Nat) : TableRec := ⟨0, h, 5, 8, 0, true, true, 2, 0x1000, 4, 64, 0, 4, 1, 1⟩
def table5 (h : Nat) (banks : Map Bank) : Table := { st := 1, rc := some (rec5 h), openEpoch := 2, banks := banks }
def pressDev (h : Nat) (banks : Map Bank := []) : State :=
  let s := [(sramBase + 0x200, [1, 0, 0, 0, 3, 0, 0, 0, 9]), (sramBase + 0x304, [2, 0, 0, 0, 3]), (0x1040, [1, 2]), (0x10C0, [10, 20])].foldl
    (fun s (p : Nat × Bytes) => s.store p.1 p.2) dev
  { s with
    parts := [(0, { st := 0, features := BitVec.allOnes 256 })]
    active := { s.active with
      regions := [⟨0, 0, 0x100000, false, true, 0, 0⟩], tables := [rec5 h]
      pressQs := [⟨0, 0x80000, 0x1000, 8, 64, 3⟩] }
    tables := [(5, table5 h banks)], written := [(0x41, true), (0x43, true)] }
/-- Two bags over the indices 1, 3 and 9, summed into INT8 at 0x400, status at 0x500. -/
def lookupD : Bytes := [0, 0, 8, 0, 5, 0, 0, 0] ++ leBytes 8 2 ++ leBytes 8 0x200 ++ leBytes 8 0x300 ++ leBytes 8 0 ++ leBytes 8 0x400 ++
  leBytes 8 2 ++ leBytes 8 0x500
/-- An update of row 1 by the INT8 deltas at 0x204. -/
def updateD : Bytes := [1, 0, 8, 8, 5, 0, 0, 0] ++ leBytes 8 1 ++ leBytes 8 0x200 ++ leBytes 8 0 ++ leBytes 8 0x204 ++ leBytes 8 0 ++
  leBytes 8 2 ++ leBytes 8 0
def itemOf (d : Bytes) : BatchItem := ⟨.cmd 0 0, 0x100, 2, 0, d⟩
def onLane0 (s : State) (d : Bytes) : State := s.onLane 0 0 fun x => { x with queue := [itemOf d] }
def planned (s : State) (d : Bytes) : Bool :=
  s.frontBatch 0 0 (parseBatch d).upd == some (itemOf d) && match (s.popBatch 0 0).plan (laneEng 0 0 (itemOf d)) d with
    | (_, .inl p) => match State.readItems (laneEng 0 0 (itemOf d)) 4 4 (p.offs.getLastD 0) 0x200 (s.popBatch 0 0) with
      | (_, _, e) => !e
    | _ => false
def started (s : State) (d : Bytes) : State := run (if (parseBatch d).upd then .updateBatch 0 0 else .lookupBatch 0 0) (onLane0 s d)
/-- A lane whose run is `r`. -/
def onRun0 (s : State) (r : BatchRun) : State := s.onLane 0 0 fun x => { x with run := some r }
def bag0 : Bag := { n := 2, left := 2, sums := [{}, {}], seen := [0, 0], flags := 0, poison := false, error := false }
def bagErr : Bag := { bag0 with n := 1, left := 0, error := true }
def run0 (todo : List FetchTodo) (b : Bag := bag0) : BatchRun := ⟨0, itemOf lookupD, lookupD, [b, bagErr], todo, 0, false, 0, false⟩
def todo0 : List FetchTodo := [⟨0, 1, 0, false⟩, ⟨0, 3, 0, false⟩]
def fetch0 (src : CopySrc) (need : Bool) (j : Option (List (Nat × JEntry))) : Fetch := ⟨7, 0, 0, 0, 5, 3, 0, false, src, [10, 20] ++ List.replicate 62 0, false, need, j, false⟩
/-- A closed epoch 1 with an entry of 5 and −1 for row 3. -/
def entry3 : JEntry := ⟨3, 0, 0, [⟨5 <<< 64, .fin⟩, ⟨-(1 <<< 64), .fin⟩], [0, 0], false, false⟩
def bank1 : Bank := { epoch := 1, used := true, closed := true, entries := [entry3], marks := [] }
def withFetch (s : State) (f : Fetch) : State := s.onPress 0 fun p => { p with fetches := [f], nextFetch := 8 }

theorem wit_PressBatchesAreRead :
    planned (onLane0 (pressDev 0) lookupD) lookupD = true ∧ planned (onLane0 (pressDev 0) updateD) updateD = true ∧
    (((started (pressDev 0) lookupD).press 0).lane 0).run = some (run0 todo0) ∧
    (let t := started (pressDev 1) updateD
     ((t.press 0).lane 0).run.map (·.adds) = some 1 ∧
     (t.press 1).reqs.look 0 [] = [.jadd 5 1 [3 * 2 ^ 64, 0] false 0]) := by decide +kernel

def issuing (h : Nat) (banks : Map Bank) (cache : Map RowLine) : State :=
  (onRun0 (pressDev h banks) (run0 todo0)).onPress 0 fun p => { p with cache := cache }
theorem wit_PressRowsAreFetched :
    (issuing 1 [(1, bank1)] []).goes 64 = true ∧ (issuing 1 [(1, bank1)] []).grant 0 = some 0 ∧ (issuing 1 [(1, bank1)] []).copyOf 0 5 1 = .home ∧
    (let t := run (.rowFetchIssue 0) (issuing 1 [(1, bank1)] [])
     (t.press 0).fetches.map (fun f => (f.id, f.lane, f.row, f.need, f.copy.take 2)) = [(0, 0, 1, true, [1, 2])] ∧
     (t.press 1).reqs.look 0 [] = [.jlookup 5 1 0] ∧ (((t.press 0).lane 0).run.map (·.todo.length)) = some 1) ∧
    ((run (.rowFetchIssue 0) (issuing 0 [] [])).press 0).fetches.map (·.need) = [false] := by decide +kernel

def arriving (f : Fetch) : State := withFetch (onRun0 (pressDev 0) (run0 [])) f
/-- A run whose bag holds 11 and 22. -/
def pooled : State := onRun0 (pressDev 0) (run0 [] { bag0 with left := 0, sums := [⟨11 <<< 64, .fin⟩, ⟨22 <<< 64, .fin⟩] })
theorem wit_PressBatchesAreReadFetchedPooledAndWritten :
    (((run (.rowArrival 0 7) (arriving (fetch0 .home false none))).press 0).lane 0).run.map
      (fun r => r.bags.map fun g => (g.left, g.sums.map (·.reg))) = some [(1, [(10 : BitVec 144) <<< 64, (20 : BitVec 144) <<< 64]), (0, [0, 0])] ∧
    (((run (.rowArrival 0 7) (arriving (fetch0 .home true (some [(1, entry3)])))).press 0).lane 0).run.map
      (fun r => r.bags.map fun g => (g.left, g.sums.map (·.reg))) = some [(1, [(15 : BitVec 144) <<< 64, (19 : BitVec 144) <<< 64]), (0, [0, 0])] ∧
    idle (.rowArrival 0 7) (arriving (fetch0 .home true none)) = true ∧
    pooled.goes 64 = true ∧ (((pooled.press 0).lane 0).run.map fun r => pooled.batchOver 0 r) = some true ∧
    (let t := run (.batchComplete 0 0) pooled
     t.bytes (sramBase + 0x400) 4 = [11, 22, 0, 0] ∧ t.bytes (sramBase + 0x500) 10 = [0x40, 1, 0, 0, 0, 0, 0, 0, 0, 0x40] ∧
     ((t.press 0).lane 0).run = none) := by decide +kernel

/-! Requests and answers -/

def asked (s : State) (k : Nat) (r : PressReq) : State := s.onPress 0 fun p => { p with reqs := [(k, [r])] }
def told (s : State) (a : PressAns) : State := s.onPress 0 fun p => { p with answers := [(1, [a])] }
def ansAt (s : State) : List PressAns := (s.press 1).answers.look 0 []
def jadd : PressReq := .jadd 5 3 [2 ^ 64, 0] true 0
def cached : Map RowLine := [(0, { valid := true, table := 5, row := 3 }), (1, { valid := true, table := 5, row := 2 })]
def dir3 : Map DirEnt := [(4, ⟨2, 5, 3, 0, 6⟩)]
theorem wit_PressRequestsAreServedInOrderAndAnswered :
    ansAt (run (.journalLookup 0 1) (asked (pressDev 0 [(1, bank1)]) 1 (.jlookup 5 3 7))) = [.entries 7 [(1, entry3)]] ∧
    (let t := run (.journalAdd 0 1) (asked (pressDev 0) 1 jadd)
     ansAt t = [.added 0 false] ∧ ((t.table 5).bankAt 2).entries.map (fun j => (j.row, j.elems.map (·.reg), j.poison)) = [(3, [(1 : BitVec 144) <<< 64, 0], true)]) ∧
    (let s := asked { pressDev 0 with tables := [(5, { table5 0 [] with overflowed := true })] } 1 jadd
     ansAt (run (.journalAdd 0 1) s) = [.added 0 true]) ∧
    (let s := asked { pressDev 0 with tables := [(5, { table5 0 [(1, bank1)] with openEpoch := 5 })] } 1 jadd
     s.addWaits jadd = true ∧ (run (.journalAdd 0 1) s).press 0 = { s.press 0 with reqs := [(1, [])], parked := [(1, [jadd])] } ∧
     (let u := { run (.journalAdd 0 1) s with tables := [(5, { table5 0 [] with openEpoch := 5 })] }
      u.addWaits jadd = false ∧ ansAt (run (.journalAdd 0 1) u) = [.added 0 false])) ∧
    (let t := run (.cuttingWrite 0 1) (asked ((pressDev 0).onPress 0 fun p => { p with dir := [(4, ⟨1, 5, 3, 1, 0⟩)] }) 1 (.cutWrite 5 3 1 [7, 8] false .blend))
     ansAt t = [.cutWritten 5 1 .blend] ∧ t.bytes 0x80040 2 = [7, 8]) ∧
    (let t := run (.directoryChange 0 1) (asked (pressDev 0) 1 (.dirChange 5 3 1 2))
     ansAt t = [.dirChanged 5 1 2] ∧ ((t.press 0).dirOf 5 3).map (fun e => (e.2.st, e.2.slot)) = some (2, 1)) ∧
    (let t := run (.directoryChange 0 1) (asked ((pressDev 0).onPress 0 fun p => { p with dir := dir3 }) 1 (.dirChange 5 3 0 0))
     (t.press 0).dir = []) ∧
    (let t := run (.rowCacheInvalidate 0 1) (asked ((pressDev 0).onPress 0 fun p => { p with cache := cached }) 1 (.rcInval 5 3 .poison))
     ansAt t = [.invalidated 5 3 .poison] ∧ (t.press 0).cache.map (·.1) = [1]) ∧
    (pressDev 0).freeSlot 0 = some 0 ∧ (dev.freeSlot 0) = none ∧
    ansAt (run (.candidate 0 1) (asked dev 1 (.candidate 5 3))) = [.considered] ∧
    ansAt (run (.cuttingCount 0 1) (asked ((pressDev 0).onPress 0 fun p => { p with dir := dir3 }) 1 (.cutCount 5 3 0))) = [.count 5 3 0 6] := by
  decide +kernel

def moving (step wait : Nat) : State := (pressDev 0).onPress 0 fun p => { p with moves := [⟨5, 3, 0, step, wait, 0⟩] }
theorem wit_PressAnswersAdvanceWhatAwaitsThem :
    ((run (.pressAnswer 0 1) (told (withFetch (pressDev 0) (fetch0 .home true none)) (.entries 7 [(1, entry3)]))).press 0).fetches =
      [fetch0 .home true (some [(1, entry3)])] ∧
    (((run (.pressAnswer 0 1) (told (onRun0 (pressDev 0) { run0 [] with adds := 2 }) (.added 0 true))).press 0).lane 0).run.map
      (fun r => (r.adds, r.full)) = some (1, true) ∧
    (let s : State := { pressDev 0 with tables := [(5, { table5 0 [] with blendWait := 4 })] }
     ((run (.pressAnswer 0 1) (told s (.invalidated 5 3 .blend))).table 5).blendWait = 3 ∧
     ((run (.pressAnswer 0 1) (told s (.cutWritten 5 0 .blend))).table 5).blendWait = 3) ∧
    ((run (.pressAnswer 0 1) (told (moving 4 2) (.dirChanged 5 0 2))).press 0).moves = [⟨5, 3, 0, 4, 1, 0⟩] ∧
    ((run (.pressAnswer 0 1) (told (moving 4 1) (.dirChanged 5 0 2))).press 0).moves = [] ∧
    ((run (.pressAnswer 0 1) (told (moving 1 1) (.dirChanged 5 0 1))).press 0).moves = [⟨5, 3, 0, 2, 0, 0⟩] ∧
    (moving 2 0).grant 0 = some 8 ∧
    (let t := run (.rowFetchIssue 0) (moving 2 0)
     (t.press 0).moves = [⟨5, 3, 0, 3, 4, 0⟩] ∧ ((t.press 2).reqs.look 0 []).map (fun r => match r with
       | .cutWrite 5 3 0 d _ .create => d.take 2
       | _ => []) = [[10, 20]]) ∧
    (let t := run (.pressAnswer 0 1) (told (moving 3 1) (.cutWritten 5 0 .create))
     (t.press 0).moves = [⟨5, 3, 0, 4, 4, 0⟩] ∧ (t.press 2).reqs.look 0 [] = [.dirChange 5 3 0 2]) ∧
    ((run (.pressAnswer 0 1) (told (moving 3 1) (.cutWritten 5 0 .poison))).press 0).moves = [⟨5, 3, 0, 3, 1, 0⟩] ∧
    idle (.cuttingSlotFree 0 0) (withFetch (moving 7 0) (fetch0 (.cutting 0) false none)) = true ∧
    ((run (.cuttingSlotFree 0 0) (moving 7 0)).press 3).reqs.look 0 [] = [.dirChange 5 3 0 0] := by decide +kernel

/-- Row 3 may be promoted by its home press, whatever the bounded number of moves is. -/
theorem wit_CandidateIsPromoted :
    (asked (pressDev 0) 1 (.candidate 5 3)).freeSlot 0 = some 0 ∧ (asked (pressDev 0) 1 (.candidate 5 3)).mayPromote 0 5 3 = true := by
  refine ⟨by decide +kernel, ?_⟩
  have h : ((asked (pressDev 0) 1 (.candidate 5 3)).press 0).movesDone = 0 := by decide +kernel
  simp only [State.mayPromote, h, Nat.zero_le, decide_true, Bool.and_true]
  decide +kernel

/-- Press 0 with one fetch slot granted to blending. -/
def slotted5 (s : State) : State := s.onPress 0 fun p => { p with bgSlots := 1 }
theorem wit_BlendingAndAgeingKeepTablesCurrent :
    ((pressDev 0 [(1, bank1)]).table 5).toBlend = some (bank1, entry3) ∧ (slotted5 (pressDev 0 [(1, bank1)])).goes 64 = true ∧
    (rec5 0).slots = 1 ∧ (pressDev 0 [(1, bank1)]).grant 0 = some 8 ∧
    ((run (.rowFetchIssue 0) (pressDev 0 [(1, bank1)])).press 0).bgSlots = 1 ∧ idle (.blendEntry 5) (pressDev 0 [(1, bank1)]) = true ∧
    (let t := run (.blendEntry 5) (slotted5 (pressDev 0 [(1, bank1)]))
     t.bytes 0x10C0 2 = [15, 19] ∧ t.bytes 0x10F8 2 = [1, 0] ∧ (t.table 5).blendWait = 4 ∧ (t.press 3).reqs.look 0 [] = [.rcInval 5 3 .blend] ∧
     ((t.table 5).banks.look 1 {}).entries.map (·.blended) = [true]) ∧
    (let b := { bank1 with entries := [{ entry3 with blended := true }] }
     ((pressDev 0 [(1, b)]).freeBank 5).isSome = true ∧ ((run (.journalBankFree 5) (pressDev 0 [(1, b)])).table 5).banks = [] ∧
     ((run (.journalBankFree 5) { pressDev 0 with tables := [(5, { table5 0 [(1, b)] with st := 2 })] }).table 5).st = 3) ∧
    (pressDev 0 [(1, bank1)]).freeBank 5 = none ∧
    (let s := (pressDev 0).onPress 0 fun p => { p with ageCount := 7, sketch := [(9, 7)] }
     idle (.ageingBoundary 0) s = true ∧
     (let t := run (.ageingBoundary 0) (s.onPress 0 fun p => { p with ageCount := 8 })
      (t.press 0).sketch = [(9, 3)] ∧ (t.press 0).ageCount = 0)) ∧
    (let t := run (.serveWindow 0) { dev with cellar := { dev.cellar with count := 1001 } }
     t.cellar.count = 2000 ∧ (t.press 0).serveWin = [0]) := by decide +kernel

/-! ## DMA -/

/-- A second, pageable extent: host pages from page 0 of the host window at virtual address 0x200000. -/
def ext1 : Ext := ⟨1, 0x200000, 0x100000, hostBase, 0, 15, 15, 15, true, true⟩
def dmaDev : State := { withMem dev 0x1000 [1, 2, 3, 4] with ctxs := [(0, { ext := [ext0, ext1], xtCount := 2 })] }
/-- A transfer of one row: opcode, bytes, source, destination, pattern. -/
def xdesc (op n src dst : Nat) (pat : Nat := 0) : Bytes :=
  leBytes 8 op ++ leBytes 4 n ++ leBytes 4 1 ++ leBytes 8 src ++ leBytes 8 n ++ leBytes 8 dst ++ leBytes 8 n ++ leBytes 8 pat ++ List.replicate 8 0
def copyD : Bytes := (xdesc 0 4 0x1000 0x2FFE)
def fillD8 : Bytes := (List.range 64).map fun i => if i = 24 then 0 else (xdesc 1 8 0 0x3002 0x0807060504030201).getD i 0
def arrive (lvl : BitVec 2) (b : Option Bytes) : Arrive := ⟨.cmd 0 0 0, 0, 2, lvl, 0x180, b, false⟩
def comes (a : Arrive) (s : State) : State := s.onChan 0 fun c => { c with arrive := [a] }
def xf (b : Bytes) (lvl : BitVec 2) (i : Nat) : Xfer := { xferOf (arrive lvl none) b with src := .cmd 0 0 i }
def chanOf (xs : List Xfer) : State := dmaDev.onChan 0 fun c => { c with xfers := xs }
def running (b : Bytes) : State := chanOf [{ xf b 1 0 with st := .running }]
/-- The first chunk, the two bytes up to the 4 KiB line, in flight. -/
def inFlight : State := run (.chunkTranslate 0) (running copyD)

theorem wit_DmaTransfersAreTakenInAndStarted :
    dmaDev.running = true ∧ dmaDev.admits 72 = true ∧ (parseDma copyD).measured = false ∧ fld copyD 0 1 = 0 ∧ fld fillD8 0 1 = 1 ∧
    (((run (.copy 0) (comes (arrive 1 (some copyD)) dmaDev)).chan 0).xfers = [xferOf (arrive 1 none) copyD]) ∧
    (((run (.fill 0) (comes (arrive 1 (some fillD8)) dmaDev)).chan 0).xfers.map (·.fill)) = [true] ∧
    (match (withMem dmaDev 0x180 copyD).dmaCheck 0 2 copyD with
     | .ok rs => rs.length
     | _ => 0) = 2 ∧
    (((run (.copy 0) (comes (arrive 1 none) (withMem dmaDev 0x180 copyD))).chan 0).xfers = [xferOf (arrive 1 none) copyD]) ∧
    (let s := comes (arrive 0 (some copyD)) (running copyD)
     ((run (.copy 0) s).chan 0).xfers.map (·.st) = [.preempted, .waiting]) ∧
    ((chanOf [xf copyD 1 0]).chan 0).next = some (xf copyD 1 0) ∧ (chanOf [xf copyD 1 0]).goes 72 = true ∧
    ((run (.dmaTransferStart 0) (chanOf [xf copyD 1 0, xf copyD 0 1])).chan 0).xfers.map (·.st) = [.waiting, .running] ∧
    idle (.dmaTransferStart 0) (chanOf [{ xf copyD 1 0 with st := .parked }, { xf copyD 2 1 with st := .running }]) = true ∧
    idle (.dmaTransferStart 0) (chanOf [xf copyD 1 0, { xf copyD 0 1 with st := .running, parking := some (true, true, 0) }]) = true := by
  decide +kernel

def toHost : Bytes := xdesc 0 4 0x1000 0x200FFC
def toHostAts (a : Option (Nat × Bool × Bool)) : State :=
  run (.atsCompletion 0 5 0 a) (run (.chunkTranslate 0) (running toHost))
theorem wit_ChunksAreTranslated :
    ((running copyD).chan 0).issuer = some { xf copyD 1 0 with st := .running } ∧ (running copyD).goes 72 = true ∧
    (inFlight.chan 0).xfers.map (fun x => (x.row, x.off)) = [(0, 2)] ∧
    (inFlight.chan 0).xfers.flatMap (fun x => x.flight) = [⟨0, 0, 2, [(sramBase + 0x1000, 2)], [(sramBase + 0x2FFE, 2)], 0, 0, [0, 0], [], 0⟩] ∧
    ((run (.chunkTranslate 0) inFlight).chan 0).xfers.map (fun x => (x.row, x.off, x.flight.length)) = [(1, 0, 2)] ∧
    (run (.chunkTranslate 0) (running toHost)).xlat.atsWait = [(0, 5, 0)] := by decide +kernel
theorem wit_ChunksWaitAndFault :
    ((run (.chunkTranslate 0) (toHostAts (some (9, true, true)))).chan 0).xfers.map (fun x => x.flight.map (·.dst)) =
      [[[(hostBase + 0x9FFC, 4)]]] ∧
    (let t := run (.chunkTranslate 0) (toHostAts none)
     (t.chan 0).xfers.map (fun x => (x.st, x.faultSeq)) = [(.parked, 1)] ∧ (t.chan 0).parks = 1 ∧ t.xlat.pageReqs.map (·.group) = [0]) ∧
    (let t := run (.chunkTranslate 0) (running (xdesc 0 4 0x900000 0x2000))
     (t.chan 0).xfers.map (·.st) = [.parked] ∧ t.xlat.pageReqs = []) := by decide +kernel

theorem wit_DmaTransfersAreTakenInStartedAndMoved :
    (let t := run (.chunkComplete 0) inFlight
     t.bytes (sramBase + 0x2FFE) 4 = [1, 2, 0, 0] ∧ (t.chan 0).xfers.map (·.progress) = [1]) ∧
    (let t := run (.chunkComplete 0) (run (.chunkComplete 0) (run (.chunkTranslate 0) inFlight))
     t.bytes (sramBase + 0x2FFE) 4 = [1, 2, 3, 4] ∧ (t.chan 0).xfers = []) ∧
    (let t := run (.chunkComplete 0) (run (.chunkTranslate 0) (running fillD8))
     t.bytes (sramBase + 0x3000) 10 = [0, 0, 3, 4, 5, 6, 7, 8, 1, 2]) ∧
    (let s := (run (.chunkTranslate 0) inFlight).setPoison ((sramBase + 0x1000) / 64)
     (inFlight.setPoison ((sramBase + 0x1000) / 64)).poisoned ((sramBase + 0x1000) / 64) = true ∧
     ((run (.chunkComplete 0) s).chan 0).xfers = [] ∧ (run (.chunkComplete 0) s).bytes (sramBase + 0x2FFE) 2 = [0, 0]) := by decide +kernel

/-! ## Translation -/

def parked : State := chanOf [{ xf toHost 1 0 with st := .parked, faultSeq := 3 }]
def asking (s : State) : State := { s with xlat := { s.xlat with pageReqs := [⟨5, 0, true, 0, false⟩] } }
def atsHeld : State :=
  { inFlight with xlat := { inFlight.xlat with ats := [(0, [⟨5, 7, 9, true, true⟩, ⟨5, 8, 10, true, true⟩])], atsWait := [(0, 5, 3)], atsDrops := [[9]], nextChunk := 2 } }
theorem wit_HostAnswersReachTheTranslationState :
    (let t := run (.atsCompletion 0 5 3 (some (4, true, false))) atsHeld
     t.xlat.atsWait = [] ∧ (t.xlat.ats.look 0 []).head? = some ⟨5, 3, 4, true, false⟩) ∧
    idle (.atsCompletion 0 5 2 none) atsHeld = true ∧
    (let t := run (.prgResponse 0 .invalidRequest) (asking parked)
     (t.chan 0).hostResp = 2 ∧ t.xlat.pageReqs = []) ∧ ((run (.prgResponse 1 .success) (asking parked)).chan 1).hostResp = 1 ∧
    (let s := { parked with xlat := { parked.xlat with pageReqs := [⟨5, 0, true, 0, true⟩] } }
     ((run (.prgResponse 0 .success) s).chan 0).hostResp = 0 ∧ (run (.prgResponse 0 .success) s).xlat.pageReqs = []) ∧
    (let t := run (.atsInvalidate 5 7 1) atsHeld
     t.xlat.ats.look 0 [] = [⟨5, 8, 10, true, true⟩] ∧ t.xlat.atsDrops = [[9], []]) := by decide +kernel
theorem wit_InvalidationsCompleteAndHostMemoryComes :
    (run .atsInvalidationComplete atsHeld).xlat.atsDrops = [] ∧ (run .atsInvalidationComplete atsHeld).xlat.atsInvDone = 1 ∧
    (let s := run (.chunkTranslate 0) (toHostAts (some (9, true, true)))
     idle .atsInvalidationComplete { s with xlat := { s.xlat with atsDrops := [[0]] } } = true ∧
     (run (.atsInvalidate 5 0 1) s).xlat.atsDrops = [[0]]) ∧
    zone (hostBase + 0x100) 2 = .host ∧
    (let t := run (.pcieCompletion 0x100 [1, 2] true true) dev
     t.bytes (hostBase + 0x100) 2 = [1, 2] ∧ t.poisoned ((hostBase + 0x100) / 64) = true) ∧
    (let t := run (.pcieCompletion 0x100 [1, 2] false false) dev
     t.bytes (hostBase + 0x100) 2 = [0, 0] ∧ t.hostBad.look ((hostBase + 0x100) / 64) false = true) := by decide +kernel

def inval (count : BitVec 13) (busy : Bool) : State :=
  { inFlight with xlat := { inFlight.xlat with invCount := count, busy := busy, invWait := [0], tlb := [(292, [(0, 0), (0, 1)])] } }
def rescuing (b : Bytes) : State :=
  { dmaDev with rescues := [(0, { desc := (List.range 8).map fun i => (i, BitVec.ofNat 64 (fld b (8 * i) 8)) })] }
def rescD : Bytes := xdesc 0 4 (sramBase + 0x1000) (sramBase + 0x2FFE)
def rescOn : State := run (.rescueCmd h0 0) (rescuing rescD)
theorem wit_ResumptionInvalidationAndRescue :
    idle (.dmaResumeRetry (.ring 0 1) 0 1 3) parked = true ∧ (parked.parkedXfer 0 1 3).isSome = true ∧
    (run (.dmaResumeAbort h0 0 1 4) parked).xlat.stale = 1 ∧
    ((run (.dmaResumeRetry h0 0 1 3) parked).chan 0).xfers.map (·.st) = [.preempted] ∧
    ((run (.dmaResumeAbort h0 0 1 3) parked).chan 0).xfers = [] ∧
    (inval 1 true).invalMay h0 0 = true ∧ (run (.invalCmd h0) (inval 1 true)).xlat.invIgnored = 1 ∧
    ((run (.invalCmd h0) (inval 3 false)).xlat.invErr, (run (.invalCmd h0) (inval 3 false)).xlat.doneSeq) = (true, 1) ∧
    ((run (.invalCmd h0) (inval 1 false)).xlat.busy, (run (.invalCmd h0) (inval 1 false)).xlat.tlb) = (true, [(292, [(0, 1)])]) ∧
    idle .invalDone (inval 1 true) = true ∧ idle .invalDone (inval 1 false) = true ∧
    (let s := chanOf []
     (run .invalDone { s with xlat := { s.xlat with busy := true, invCount := 1 } }).xlat.doneSeq = 1) ∧
    idle (.rescueCmd h0 0) rescOn = true ∧ (rescOn.rescue 0).st = 1 ∧
    ((run (.rescueCmd h0 0) (rescuing (List.replicate 64 1))).rescue 0).st = 3 ∧
    (let t := run (.rescueComplete 0) rescOn
     (t.rescue 0).st = 2 ∧ t.bytes (sramBase + 0x2FFE) 4 = [1, 2, 3, 4]) := by decide +kernel

/-! ## Maruno link -/

def onP0 (st : Nat) (f : Port → Port := id) (s : State := dev) : State := s.onPort 0 fun x => f { x with st := st }
/-- Port 1 is an Ethernet port that is UP, and route 9 goes through it; an image is active and this device is number 3. -/
def form1 : PortForm := ⟨1, 2, 0, 0, 0, 0, 0, 0, 0, 0, 0⟩
def form9 : RouteForm := ⟨9, 2, 0, 0, 0, 0⟩
def ethDev (f : Route → Route := id) : State :=
  ({ dev with
    active := { dev.active with dev := 3, ports := [form1], routes := [form9] }
    trellis := { dev.trellis with gen := 1 } }.onPort 1 fun x => { x with st := 6, mode := 2 }).onRoute 9 f

theorem wit_PortsTrainAndTimeOut :
    ((run (.detectPoll 0 15) (onP0 1)).port 0).st = 2 ∧ ((run (.detectPoll 0 7) (onP0 1)).port 0).st = 1 ∧
    1000000 ≤ (run (.detectPoll 0 15) (onP0 1)).now ∧ idle (.detectPoll 0 15) (onP0 2) = true ∧
    dev.trellis.gen = 0 ∧ ((run (.trainingComplete 0 true) (onP0 2)).port 0).st = 3 ∧
    ((run (.trainingComplete 0 true) (onP0 2)).port 0).cred0 = 64 ∧
    ((run (.trainingComplete 0 false) (onP0 2 id ethDev)).port 0).st = 4 ∧
    ((run (.trainingComplete 0 false) (onP0 2 (fun x => { x with mode := 2 }) ethDev)).port 0).st = 6 ∧
    idle (.trainingComplete 0 true) (onP0 1) = true ∧
    (let t := run (.trainingTimeout 0) (onP0 2)
     ((t.port 0).st, (t.port 0).cause, (t.port 0).departs) = (8, 5, 1)) ∧
    dev.linkSt (.port 0) ≠ 4 ∧
    (let t := run (.identifyTimeout (.port 0)) (onP0 4)
     ((t.port 0).st, (t.port 0).cause) = (8, 6) ∧ 50000000 ≤ t.now) ∧
    ((run (.identifyTimeout (.route 9)) (ethDev fun x => { x with st := 4 })).route 9).cause = 6 := by decide +kernel

theorem wit_PortsAndRoutesFollowTheirStates :
    dev.broughtUp = true ∧ (dev.port 0).st = 8 ∧ ((run (.holdoffExpiry (.port 0)) dev).port 0).st = 1 ∧
    ((run (.holdoffExpiry (.port 0)) (onP0 8 fun x => { x with hold := true })).port 0).st = 0 ∧
    (let s := dev.onRoute 9 fun x => { x with st := 8 }
     (s.route 9).st = 8 ∧ ((run (.holdoffExpiry (.route 9)) s).route 9).st = 0) ∧
    ((run (.laneSignalChange 0 2 true true 9) dev).port 0).lanes.look 2 0 = 39 ∧
    ((run (.laneSignalChange 0 2 false true 9) dev).port 0).lost = [(2, 0)] ∧
    (let s := onP0 6 fun x => { x with lost := [(2, 5)] }
     (s.port 0).live = true ∧ ((run (.signalLossTimeout 0 2) s).port 0).cause = 1 ∧ (run (.signalLossTimeout 0 2) s).now = 10005) ∧
    idle (.signalLossTimeout 0 2) (onP0 2 fun x => { x with lost := [(2, 5)] }) = true ∧
    ((run (.portCtrl h0 0 1) (onP0 0)).port 0).hold = true ∧ ((run (.portCtrl h0 0 1) (onP0 6)).port 0).cause = 7 ∧
    ((run (.portCtrl h0 0 0) (onP0 0)).port 0).st = 1 ∧ ((run (.portCtrl h0 0 0) (onP0 6 fun x => { x with hold := true })).port 0).hold = false ∧
    idle (.portCtrl (.ring 0 1) 0 1) (onP0 6) = true := by decide +kernel

/-- The CRC-32 of IEEE 802.3 of the digits 1 to 9. -/
theorem test_crc32 : crc32 [0x31, 0x32, 0x33, 0x34, 0x35, 0x36, 0x37, 0x38, 0x39] = [0x26, 0x39, 0xF4, 0xCB] := by decide +kernel

/-- A data flit, and an idle one, of SEQ 5 that acknowledge SEQ 1,023 and give three LVC1 credits, their CRC and parity computed from
Tables 13.2 and 13.3 and R308 outside Lean; a flit with a bad CRC. -/
def flit5 : Bytes := [0x15, 0xF0, 0xBF, 3, 7, 8, 9] ++ List.replicate 245 0 ++ [0xF1, 0x22, 0x64, 0x35, 0xB4, 0x83, 0x89, 0xC5, 0xAC, 0x67, 0xE7, 0xFB,
  0xE5, 0xA1, 0x78, 0xD2, 0xB8, 0x1C, 0x62, 0x59]
def idle5 : Bytes := [0x14, 0xF0, 0xBF, 3, 7, 8, 9] ++ List.replicate 245 0 ++ [0x92, 0xDA, 0x9D, 0x36, 0x18, 0xAB, 0xD0, 0xAD, 0xC2, 9, 0x95, 0xDF,
  0x5F, 0x4A, 0x74, 0xA5, 0x94, 6, 0x8A, 0x2E]
def flit0 : Bytes := List.replicate 272 0
/-- The zero word of the code with errors in `n` places (four at most are corrected). -/
def hurt (n : Nat) : Bytes := (List.range n).foldl (fun f i => setAt f (30 * i + 3) 0xA5) (List.replicate 136 0)
theorem test_rs_corrects : rsDecode (hurt 1) = some (List.replicate 136 0, 1) := by decide +kernel
def rxPort (seq st : Nat) : State := onP0 st fun x => { x with rxSeq := seq }
theorem wit_FlitsAreDecoded :
    flit5.length = 272 ∧ flitDecode flit5 = (some (flit5.take 256), 0) ∧ flitDecode idle5 = (some (idle5.take 256), 0) ∧
    flitDecode flit0 = (none, 0) ∧ bit (fld flit5 0 4) 22 = false ∧ bits (fld flit5 0 4) 1 0 = 1 ∧ bits (fld flit5 0 4) 11 2 = 5 ∧
    bit (fld idle5 0 4) 22 = false ∧ bits (fld idle5 0 4) 1 0 = 0 := by decide +kernel
theorem wit_FlitsAreTakenInSequence :
    (match exec (.dataFlit 0 []) dev with
     | .fault .illFormed => true
     | _ => false) = true ∧ idle (.dataFlit 0 flit0) (rxPort 5 8) = true ∧ ((rxPort 5 6).port 0).live = true ∧
    (let t := run (.dataFlit 0 flit5) (rxPort 5 6)
     (t.port 0).rxBytes.take 3 = [7, 8, 9] ∧ (t.port 0).rxSeq = 6 ∧ (t.port 0).cred1 = 3 ∧ (t.port 0).nakSent = false) := by decide +kernel
def replaying (tries : Nat) : State := onP0 6 fun x => { x with replay := [(3, tries, [1])], txSeq := 4 }
theorem wit_FlitsAreTakenInSequenceAndReplayed :
    (let t := run (.replayTimeout 0) (replaying 15)
     (t.port 0).replay = [(3, 16, [1])] ∧ (t.port 0).flitsTx = 1 ∧ (t.port 0).flitOut.length = 272 ∧ 1000 ≤ t.now) ∧
    ((run (.replayTimeout 0) (replaying 16)).port 0).cause = 2 ∧ idle (.replayTimeout 0) dev = true := by decide +kernel

/-- AES-256-GCM of nothing under a zero key and IV (test case 13 of the GCM specification). -/
theorem test_gcm : gcmTag (List.replicate 32 0) (List.replicate 12 0) [] [] =
    [0x53, 0x0F, 0x8A, 0xFB, 0xC7, 0x45, 0x36, 0xB9, 0xA9, 0x63, 0xB4, 0xF1, 0xC4, 0xCB, 0x73, 0x8B] := by decide +kernel

def outK : OutPkt := ⟨false, 0, true, [1, 2, 3, 4, 5, 6, 7, 8], 32⟩
def protK : OutPkt := { outK with plain := false }
def sessOn (psn : Nat) : Session := { exchanged := true, ready := true, tx := { key := 5, iv := 7, psn := psn }, rx := { key := 5, iv := 7, psn := 0 } }
def sending (k : OutPkt) (psn : Nat) : State :=
  onP0 6 fun x => { x with outQ := [k], cred0 := 64, cred1 := 64, sess := if k.plain then {} else sessOn psn }
theorem wit_PortsSendPackets :
    ((sending outK 0).port 0).choose 0 = some outK ∧ ((sending protK 0).port 0).choose 0 = some protK ∧
    (let t := run (.marunoPacketSend (.port 0)) (sending outK 0)
     (t.port 0).outQ = [] ∧ (t.port 0).cred0 = 63 ∧ (t.port 0).sess.tx.psn = 0 ∧
     (t.port 0).replay.map (fun e => e.2.2.take 6) = [[8, 0, 4, 0, 0, 0]]) ∧
    ((run (.marunoPacketSend (.port 0)) (sending protK 0)).port 0).sess.tx.psn = 1 ∧
    ((sending protK (2 ^ 41)).port 0).choose 0 = some protK ∧
    ((run (.marunoPacketSend (.port 0)) (sending protK (2 ^ 41))).port 0).cause = 4 := by decide +kernel

def routeSends (k : OutPkt) : State :=
  ethDev fun x => { x with st := 6, outQ := [k], cred0 := 64, cred1 := 64, sess := if k.plain then {} else sessOn 0 }
theorem wit_RoutesSendPackets :
    ((routeSends outK).route 9).choose 0 = some outK ∧ ((routeSends protK).route 9).choose 0 = some protK ∧
    (routeSends outK).routeForm 9 = some form9 ∧ (routeSends outK).routePort form9 = some 1 ∧
    ((run (.marunoPacketSend (.route 9)) (routeSends outK)).route 9).unacked = [] ∧
    ((run (.marunoPacketSend (.route 9)) (routeSends protK)).route 9).unacked.map (fun e => (e.1, e.2.1)) = [(0, 1)] ∧
    ((run (.marunoPacketSend (.route 9)) (routeSends protK)).route 9).cred0 = 63 := by decide +kernel

/-- A plain control packet of eight bytes, and protected packets of one byte under the session of `sessOn`. -/
def plainPkt : Bytes := [8, 0, 4, 0, 9, 0, 3, 0, 0, 0, 0, 0, 0, 0, 0, 0] ++ [1, 2, 3, 4, 5, 6, 7, 8]
def badPkt : Bytes := [1, 0, 0, 0, 9, 0, 3, 0, 1, 0, 0, 0, 0, 0, 0, 0] ++ List.replicate 17 0
def collPkt : Bytes := [1, 0, 1, 0, 9, 0, 3, 0, 0, 0, 0, 0, 0, 0, 0, 0] ++ [55, 237, 204, 186, 94, 159, 111, 188, 169, 142, 211, 157, 146, 99, 7, 101, 19]
def ackPkt : Bytes := [1, 0, 2, 0, 9, 0, 3, 0, 0, 0, 0, 0, 0, 0, 0, 0] ++ [55, 177, 39, 250, 233, 126, 197, 254, 59, 86, 159, 43, 110, 4, 137, 225, 180]
def receiving (b : Bytes) (sess : Session) : State := onP0 6 fun x => { x with rxBytes := b, sess := sess }
theorem wit_ControlPackets :
    ((receiving plainPkt {}).port 0).nextPacket = some (plainPkt, []) ∧ ((receiving plainPkt {}).port 0).live = true ∧ packetType plainPkt = 0 ∧
    packetPlain plainPkt = true ∧ ((run (.controlPacket (.native 0)) (receiving plainPkt {})).port 0).owe0 = 1 ∧
    ((receiving plainPkt {}).packetIn (.native 0) (fun t => t = 0)).2 = some (.port 0, 0, [1, 2, 3, 4, 5, 6, 7, 8]) ∧
    (dev.packetIn (.native 0) (fun t => t = 0)).2 = none ∧ (dev.packetIn (.native 0) (fun t => t = 1)).2 = none ∧
    ((receiving badPkt (sessOn 0)).port 0).nextPacket = some (badPkt, []) ∧ packetType badPkt = 0 ∧ packetPlain badPkt = false ∧
    openPacket (sessOn 0).rx badPkt = none ∧ ((run (.controlPacket (.native 0)) (receiving badPkt (sessOn 0))).port 0).authFail = 1 := by
  decide +kernel
theorem wit_CollectivePacket :
    ((receiving collPkt (sessOn 0)).packetIn (.native 0) (fun t => t = 1)).2 = some (.port 0, 0, [0x41]) := by decide +kernel
theorem wit_TransportAck :
    ((ethDev fun x => { x with st := 6, sess := sessOn 0 }).packetIn (.frame 1 false ackPkt) (fun t => 2 ≤ t)).2 = some (.route 9, 0, [0x41]) ∧
    packetType ackPkt = 2 := by decide +kernel

def owing (f : Route → Route) : State := ethDev fun x => f { x with st := 6, sess := sessOn 0, owe0 := 3 }
theorem wit_PacketsAreSentCheckedAndAcknowledged :
    idle (.ackTimer (.route 9)) dev = true ∧ idle (.retransmitTimeout (.route 9)) dev = true ∧
    ((owing id).routeForm 9).bind (owing id).routePort = some 1 ∧
    (let t := run (.ackTimer (.route 9)) (owing fun x => { x with ackDue := true })
     (t.route 9).owe0 = 0 ∧ (t.route 9).ackDue = false ∧ (t.route 9).unacked.map (·.1) = [0]) ∧
    (let t := run (.retransmitTimeout (.route 9)) (owing fun x => { x with unacked := [(4, 1, [1])], timeouts := 6 })
     (t.route 9).timeouts = 7 ∧ (t.route 9).unacked = [(4, 1, [1])] ∧ 16000 ≤ t.now) ∧
    (let t := run (.retransmitTimeout (.route 9)) (owing fun x => { x with unacked := [(4, 1, [1])], timeouts := 7 })
     (t.route 9).st = 8 ∧ (t.route 9).cause = 2) := by decide +kernel

/-! ## Collectives -/

/-- Group 7 of two members: device 3, quarter 0 (this one), and device 9, quarter 1. -/
def rec7 : GroupRec := ⟨0, 7, false, 4, 2, 1000, 10, 1, [(3, 0), (9, 1)], 0xAB⟩
def cdesc (op count : Nat) (root : Nat := 0) (start : Nat := 0) (src : Nat := 0x200) (dst : Nat := 0x400) : Bytes :=
  [BitVec.ofNat 8 op, 8, 7, 0, BitVec.ofNat 8 root, 0, 0, 0] ++ leBytes 8 count ++ leBytes 8 src ++ leBytes 8 dst ++ leBytes 8 start ++
  [if op ≤ 2 then 8 else 0, 0, 0, 0, 0, 0, 0, 0] ++ leBytes 8 0 ++ leBytes 8 0x500
def itemC (d : Bytes) : CollItem := ⟨some (0, 0), none, 0, 2, d, false, false⟩
def collDev (g : Group) : State :=
  { withMem dev 0x200 [1, 2] with active := { dev.active with dev := 3, groups := [rec7] }, groups := [(7, g)] }
def waiting7 (d : Bytes) : State := collDev { queue := [itemC d] }
/-- The check passes, and the contribution reads. -/
def checkedC (d : Bytes) : Bool :=
  let s := waiting7 d
  match s.collCheck rec7 (itemC d) with
  | (s1, none, _) =>
    let n := (parseColl d).srcN 0
    s.running && s.admits (s.collSrc rec7) && (s.group 7).early.isEmpty && (n = 0 || (s1.collRead (s1.collEng rec7 (itemC d)) (parseColl d).src n).2.2.isNone)
  | _ => false
def ranC (i : Instr) (d : Bytes) : Option (List Nat) × BitVec 32 × Nat :=
  let g := (run i (waiting7 d)).group 7
  (g.running.map fun u => u.own.map (·.toNat), g.nextSeq, g.aborts)
theorem wit_CollectivesStartAndRun :
    ([cdesc 0 2, cdesc 1 2, cdesc 2 2, cdesc 3 2, cdesc 4 2, cdesc 5 0 0 0 0 0].map checkedC) = List.replicate 6 true ∧
    ranC (.reduce 7) (cdesc 0 2) = (some [1, 2], 1, 0) ∧ ranC (.allReduce 7) (cdesc 1 2) = (some [1, 2], 1, 0) ∧
    ranC (.reduceScatter 7) (cdesc 2 2) = (some [1, 2], 1, 0) ∧ ranC (.allGather 7) (cdesc 3 2) = (some [1, 2], 1, 0) ∧
    ranC (.broadcast 7) (cdesc 4 2) = (some [1, 2], 1, 0) ∧ ranC (.barrier 7) (cdesc 5 0 0 0 0 0) = (some [], 1, 0) ∧
    ((waiting7 (cdesc 0 3 1)).collCheck rec7 (itemC (cdesc 0 3 1))).2.1 = some (3, 1) ∧
    ((waiting7 (cdesc 1 2 0 0 0x900000)).collCheck rec7 (itemC (cdesc 1 2 0 0 0x900000))).2.1 = some (2, 2) ∧
    ranC (.allReduce 7) (cdesc 1 2 0 0 0x900000) = (none, 1, 1) ∧
    (let t := run (.startAtReached 7) (waiting7 (cdesc 1 2 0 40))
     t.cellar.count = 40 ∧ (t.group 7).queue.map (·.due) = [true]) ∧
    (let s := (collDev { lateAbort := true }).onColl 0 fun u => { u with sel := 7 }
     (s.member rec7).2 = 0 ∧ ((run (.groupSel h0 0 3) s).group 7).lateAbort = false ∧ ((run (.groupSel h0 0 3) s).coll 0).sel = 3) := by
  decide +kernel

/-- An ALL_REDUCE that has run since time 0, with what rank 1 has sent. -/
def running7 (ps : List Piece) (core : Option (Nat × Nat)) (cmd : Option (Nat × Nat)) : State :=
  collDev { nextSeq := 1, running := some { item := { itemC (cdesc 1 2) with core := core, cmd := cmd }, began := 0, start := 0, own := [1, 2], pieces := ps } }
def piece1 : Piece := ⟨1, 0, 0, 0, 1, 8, 2, 0, 2, 0, [5, 0xFF], 3⟩
def timedOut (core : Option (Nat × Nat)) (cmd : Option (Nat × Nat)) : Bool :=
  let t := run (.collectiveTimeout 7) (running7 [] core cmd)
  (t.group 7).running.isNone && (t.group 7).aborts = 1 && (t.group 7).cause = 1 && 10000 ≤ t.now
theorem wit_CollectivesCompleteOrAbort :
    (running7 [piece1] none none).goes ((running7 [piece1] none none).collSrc rec7) = true ∧
    collAlg rec7 (parseColl (cdesc 1 2)) = .direct ∧ (parseColl (cdesc 1 2)).epi.smode = 0 ∧
    idle (.collectiveComplete 7) (running7 [] none none) = true ∧
    segCount rec7 (parseColl (cdesc 1 2)) = 1 ∧ segCount rec7 (parseColl (cdesc 1 60)) = 2 ∧ segOf rec7 (parseColl (cdesc 1 60)) 1 = (53, 7) ∧
    idle (.collectiveComplete 7) (collDev { running := some { item := itemC (cdesc 1 60), began := 0, start := 0, own := [] } }) = true ∧
    (let t := run (.collectiveComplete 7) (running7 [piece1] (some (0, 0)) none)
     t.bytes (sramBase + 0x400) 3 = [6, 1, 0] ∧ t.bytes (sramBase + 0x500) 8 = List.replicate 8 0 ∧ (t.group 7).running.isNone = true ∧
     (t.group 7).ended.find 0 = some 0 ∧ (t.group 7).lastLag = some (1, 3)) ∧
    idle (.collectiveComplete 7) { running7 [piece1] none none with faults := { dev.faults with fatal := true } } = true ∧
    timedOut none none = true ∧ timedOut (some (0, 0)) none = true ∧ timedOut none (some (0, 0)) = true := by decide +kernel

/-! ## The cellar count -/

def cel (c : Cellar) : State := { dev with cellar := c }
theorem wit_TheCellarCountIsSlewedAndLoaded :
    idle .cellarSlew dev = true ∧ (run .cellarSlew (cel { count := 9, slew := 2 })).cellar.count = 10 ∧
    (let t := run .cellarSlew (cel { count := 9, slew := -2 })
     t.cellar.count = 9 ∧ t.cellar.slew = -1 ∧ t.now = 1) ∧
    (let t := run (.cellarSyncEdge 0) (cel { count := 9, armed := true, load := 10 })
     t.cellar.count = 10 ∧ t.cellar.refused = false) ∧
    (let t := run (.cellarSyncEdge 0) (cel { count := 9, armed := true, load := 9 })
     t.cellar.count = 9 ∧ t.cellar.refused = true) ∧ (cel { ctrl := 1 }).cellar.source = 1 ∧
    (let t := run (.cellarSyncEdge 3) (cel { count := 1999998, ctrl := 1 })
     t.cellar.offset = -29 ∧ t.cellar.slew = 1 ∧ t.cellar.locked = false) ∧
    (run (.cellarSyncEdge 15) (cel { count := 2000000, ctrl := 1 })).cellar.locked = true ∧
    (run (.loadCmd h0 1) dev).cellar.armed = true ∧ idle (.loadCmd h0 2) dev = true ∧
    (run (.cellarCtrl h0 0xFFFFFFFF) dev).cellar.ctrl = 0x1FFF01FF := by decide +kernel

/-- Time comes over port 0. -/
def linked (c : Cellar) : State := { onP0 6 with cellar := { c with ctrl := 2, period := 100 } }
theorem wit_TheCellarCountIsKept :
    (linked {}).cellar.link = some (.port 0) ∧ ((linked {}).port 0).st = 6 ∧
    (let s := { linked { replied := false } with now := 100 }
     let t := run .timeExchange s
     s.cellar.edgeAt + s.cellar.period.toNat ≤ s.now ∧ t.cellar.missed = 1 ∧ (t.port 0).outQ.map (·.payload.take 4) = [[3, 0, 1, 0]]) ∧
    (dev.cellar.link = none ∧ idle .timeExchange dev = true) ∧ idle .syncLossTimeout (cel { holdover := true }) = true ∧
    (let t := run .syncLossTimeout (cel { ctrl := 1, period := 100 })
     t.cellar.holdover = true ∧ t.now = 300 ∧ t.faults.flight.map (fun a => (a.src, a.sev, a.cause)) = [(134, 0, 0x12)]) ∧
    (run .syncLossTimeout (linked { missed := 3 })).cellar.holdover = true ∧
    (run .cellarRefLoss dev).cellar.refLost = true ∧ idle .cellarRefReturn dev = true ∧
    (run .cellarRefReturn (cel { refLost := true })).cellar.refLost = false ∧ idle .cellarRefLoss (cel { refLost := true }) = true := by
  decide +kernel

/-! ## Management -/

/-- `dev` with a management plane: I3C address 0x11, sensor 1 at 40 with levels 50 and 60. -/
def mgr (f : Mgmt → Mgmt := id) (s : State := dev) : State :=
  { s with mgmt := f { s.mgmt with i3cAddr := some 0x11, sensors := [(1, 40)], limits := [(1, some (50, 60))] } }
def warm (old : Int) : State := mgr fun m => { m with sensors := [(1, old)] }

theorem wit_ManagementAnswers :
    dev.hubUp = true ∧ dev.mgmt.i3cAddr = none ∧ State.reset.hubUp = false ∧ mgr.mgmt.i3cAddr ≠ none ∧
    (run (.entdaa 0x55) dev).mgmt.i3cAddr = some 0x55 ∧ idle (.entdaa 0x55) mgr = true ∧ idle (.setdasa 0x3B 1) dev = true ∧
    (run (.setdasa 0x3A 1) dev).mgmt.i3cAddr = some 1 ∧ mgr.mayAnswer .i3c false = true ∧ mgr.mayAnswer .vdm true = true ∧
    dev.mayAnswer .i3c false = false ∧
    (run .i3cBusFault mgr).mgmt.i3cFault = 1 ∧ (run .i3cBusFault mgr).mayAnswer .i3c true = false ∧
    (run .i3cRecovery (mgr fun m => { m with i3cDown := true, i3cAddr := none })).mgmt.i3cDown = true ∧
    (run .i3cRecovery (mgr fun m => { m with i3cDown := true })).mgmt.i3cDown = false ∧
    (run (.setEndpointId .vdm 9) dev).mgmt.eid = 9 ∧ (run (.pldmBaseRequest .i3c 2) mgr).mgmt.answer = .base 2 ∧
    sensorExists 1 = true ∧ sensorExists 47 = true ∧ sensorExists 0 = false ∧ sensorExists 49 = false ∧
    (run (.pldmSensorReading .i3c 1) mgr).mgmt.answer = .sensor 1 40 ∧ (run (.pldmSensorReading .i3c 37) mgr).mgmt.answer = .refused ∧
    (run (.setSensorThresholds .vdm 2 7 8) dev).mgmt.limits.look 2 none = some (7, 8) := by decide +kernel

theorem wit_ManagementUpdatesAndSensors :
    dev.mgmt.signing = none ∧ dev.mgmt.others.any SignReq.verifies = false ∧ dev.otherSlot = 0 ∧
    (let t := run (.pldmFirmwareUpdate .vdm 0x7FFFFF [5]) { dev with boot := { dev.boot with fwSlot := 1 } }
     t.mgmt.flash.look 0xFFFFFF 0xFF = 5 ∧ t.mgmt.flash.look 0xFFFFFE 0xFF = 0xFF ∧ t.mgmt.signing = some (.firmware .vdm)) ∧
    mgr.mgmt.limits.look 1 none = some (50, 60) ∧ (run (.sensorUpdate 1 50) mgr).mgmt.events = [.crossing 1 false true] ∧
    (run (.sensorUpdate 1 60) mgr).mgmt.events = [.crossing 1 false true, .crossing 1 true true] ∧
    (run (.sensorUpdate 1 49) (warm 50)).mgmt.events = [.crossing 1 false false] ∧ (run (.sensorUpdate 1 49) mgr).mgmt.events = [] := by
  decide +kernel

theorem wit_UnitsChangeUnderGen :
    dev.boot.phase ≠ 5 ∧ (dev.unit 119).gen ≠ 1 ∧ (run (.unitStateEffecter 119 1 1) dev).unitRefused = 1 ∧
    (run (.unitStateEffecter 119 3 0) dev).unitRefused = 1 ∧ idle (.unitStateEffecter 119 0 0) dev = true ∧
    (run (.unitStateEffecter 119 1 0) dev).unit 119 = ⟨1, 0, 1⟩ ∧
    (run (.unitStateEffecter 0 2 0) dev).faults.flight.map (fun a => (a.src, a.sev, a.part)) = [(0, 3, some 0)] ∧
    (run (.operAliasWrite (.ring 3 0) 119 0x300) dev).unit 119 = ⟨1, 3, 0⟩ ∧ (0x300 : Word).toNat / 1024 % 2 ^ 22 = 0 ∧
    (run (.operAliasWrite (.ring 3 0) 119 0x200) dev).unitRefused = 1 ∧
    (run (.operAliasWrite (.ring 3 0) 119 0x100000100) dev).unitRefused = 1 := by decide +kernel

def peer (ok : Bool) : PeerId := ⟨3, 0, 1, 2, true, true, ok⟩
def exchd (ready : Bool) : Session := { sessOn 7 with ready := ready, who := some (peer true) }
def spdm (sess : Session) (f : Mgmt → Mgmt := id) : State := mgr fun m => f { m with sess := [(1, sess)] }

theorem wit_SpdmAnswers :
    (run (.getVersion .i3c) mgr).mgmt.answer = .version ∧ (run (.getDigests .vdm) mgr).mgmt.answer = .digests 1 ∧
    (run (.getCertificate .i3c 0) mgr).mgmt.answer = .certificate false ∧ (run (.getCertificate .i3c 7) mgr).mgmt.answer = .emptySlot ∧
    (run (.challenge .i3c 0 1) mgr).mgmt.signing = some (.challenge .i3c) ∧ (run (.challenge .i3c 7 1) mgr).mgmt.answer = .emptySlot ∧
    (run (.challenge .vdm 0 1) (mgr fun m => { m with signing := some (.firmware .i3c) })).mgmt.others = [.challenge .vdm] ∧
    (run (.keyExchange (.mgmt .vdm) (peer true)) mgr).mgmt.signing = some (.session (.mgmt .vdm)) ∧
    (run (.keyExchange (.mgmt .vdm) (peer false)) mgr).mgmt.answer = .refused := by decide +kernel

theorem wit_SpdmSessions :
    ((spdm (exchd false)).mgmtSess .vdm).exchanged = true ∧ ((spdm (exchd false)).mgmtSess .vdm).ready = false ∧
    ((spdm (exchd true)).mgmtSess .vdm).ready = true ∧
    ((run (.finish (.mgmt .vdm) true) (spdm (exchd false))).mgmtSess .vdm).ready = true ∧
    (run (.finish (.mgmt .vdm) false) (spdm (exchd false))).mgmtSess .vdm = {} ∧
    ((run (.keyUpdate (.mgmt .vdm) true) (spdm (exchd true))).mgmtSess .vdm).tx.psn = 0 ∧
    ((run (.keyUpdate (.mgmt .vdm) false) (spdm (exchd true))).mgmtSess .vdm).tx.psn = 7 ∧
    (run (.spdmHeartbeat (.mgmt .vdm)) (spdm (exchd true))).mgmt.answer = .heartbeat ∧
    (run (.endSession (.mgmt .vdm)) (spdm (exchd true))).mgmtSess .vdm = {} := by decide +kernel

theorem wit_SpdmOnLinks :
    (onP0 4).linkSt (.port 0) = 4 ∧ ((run (.keyExchange (.link (.port 0)) (peer true)) (onP0 4)).sessOf (.port 0)).who = some (peer true) ∧
    (run (.keyExchange (.link (.port 0)) (peer false)) (onP0 4)).linkSt (.port 0) = 8 ∧
    ((run (.keyExchange (.link (.port 0)) (peer false)) (onP0 4)).port 0).cause = 6 := by decide +kernel

/-- The signing engine holds a request, with others behind it. -/
def signs (r : SignReq) (prov others : List SignReq) : State :=
  spdm { who := some (peer true) } fun m => { m with signing := some r, prov := prov, others := others }
theorem wit_Signatures :
    (signs (.challenge .i3c) [] []).mgmt.signing = some (.challenge .i3c) ∧
    ((signs (.session (.mgmt .vdm)) [] []).mgmtSess .vdm).who = some (peer true) ∧
    ((run .signatureComplete (signs (.session (.mgmt .vdm)) [] [])).mgmtSess .vdm).exchanged = true ∧
    (run .signatureComplete (signs (.session (.mgmt .vdm)) [.provenance 0 0 0 0 0 none] [.challenge .i3c])).mgmt.signing =
      some (.provenance 0 0 0 0 0 none) ∧
    (run .signatureComplete (signs (.session (.mgmt .vdm)) [] [.challenge .i3c])).mgmt.signing = some (.challenge .i3c) ∧
    mgr.mgmt.signing = none := by decide +kernel

/-- A session whose requester chains to the owner's key: the value of that key is no one's to know here, so no evaluation is shown. -/
def ownerSess (keys : Map (Option Digest)) : State :=
  { mgr (fun m => { m with sess := [(1, { exchd true with who := some { peer true with rootHash := Config.ownerKey } })] }) with
    trellis := { dev.trellis with keys := keys } }
theorem wit_OwnerSession (keys : Map (Option Digest)) :
    (ownerSess keys).mayAnswer .vdm true = true ∧ ((ownerSess keys).mgmtSess .vdm).ready = true ∧ ∃ w, ((ownerSess keys).mgmtSess .vdm).who = some w ∧ w.rootHash = Config.ownerKey :=
  ⟨rfl, rfl, _, rfl, rfl⟩
theorem wit_TrellisKeySlots :
    (ownerSess []).trellis.keys.look 3 none = none ∧ (ownerSess []).trellis.keysNext.look 3 none = none ∧
    (ownerSess [(3, some 9)]).trellis.keys.look 3 none ≠ none ∧ mgr.mgmtSess .i3c = {} ∧ mgr.mgmtSess .vdm = {} ∧
    idle (.trellisKeyLoad ⟨.i3c, 3⟩ (some 9)) mgr = true := ⟨rfl, rfl, by decide, rfl, rfl, by decide +kernel⟩

def hostSess (f : Mgmt → Mgmt := id) : State := spdm (exchd true) f
theorem wit_HbmKeys :
    (hostSess.mgmtSess .vdm).ready = true ∧ hostSess.mayAnswer .vdm false = true ∧ hostSess.slotParts 1023 = [] ∧
    (∀ p ∈ hostSess.mgmt.keyPend, p.slot ≠ 1023) ∧ (hostSess.mgmt.newest 1023).gen.toNat = 0 ∧
    (run (.hbmKeyLoad 1023 2 5 1) hostSess).mgmt.keys.look 1023 {} = ⟨2, 1, 5⟩ ∧
    (run (.hbmKeyLoad 1023 3 0 1) hostSess).mgmt.answer = .refused ∧ (run (.hbmKeyLoad 1023 1 5 1) hostSess).mgmt.answer = .refused ∧
    (run (.hbmKeyLoad 1023 2 5 0) hostSess).mgmt.answer = .refused ∧
    (run (.hbmKeyLoad 0 2 5 1) hostSess).mgmt.keyPend = [⟨0, ⟨2, 1, 5⟩, [0]⟩] := by decide +kernel

/-- A nonce open at the first nanosecond at which a response may be judged. Which way the check goes, the statement leaves open. -/
def unlocking (t : Nat) : State := { dev with now := t, jtag := { nonce := some 5, nextTry := 100 } }
theorem wit_TestPortUnlocksOnlyByChallenge :
    (unlocking 100).jtag.nonce = some 5 ∧ (unlocking 100).jtag.nextTry ≤ (unlocking 100).now ∧
    (unlocking 99).now < (unlocking 99).jtag.nextTry ∧ idle (.unlockResponse [1]) (unlocking 99) = true ∧
    dev.jtag.nonce = none ∧ idle (.unlockResponse [1]) dev = true ∧ (run .idcode dev).jtag.ir = 1 ∧
    (run .testReset { dev with jtag := { dev.jtag with ir := 3 } }).jtag.ir = 0 := by decide +kernel

/-! ## Faults -/

def alarm (src sev : Nat) (cause : Byte := 0x15) (ctx part : Option Nat := none) : Alarm := { src := src, sev := sev, cause := cause, ctx := ctx, part := part }
def flying (l : List Alarm) (slots : Map FSlot := []) (f : Collector → Collector := id) : State :=
  { dev with faults := f { dev.faults with flight := l, slots := slots } }
def heldSlot (sev : Nat) (cause : Byte) (ctx : Option Nat := none) : FSlot := { valid := true, sev := sev, cause := cause, ctx := ctx, seq := 9, rep := 255 }

theorem wit_AlarmsAreRecorded :
    ((flying [alarm 138 4]).faults.inj0.armed, (flying [alarm 138 4]).faults.inj1.armed) = (false, false) ∧
    (flying [alarm 138 4]).faults.stErr.look (4 * 138) {} = {} ∧ ((flying [alarm 138 4]).faults.slots.look 138 {}).valid = false ∧
    (run (.alarm ⟨0, none⟩) (flying [alarm 5 0])).faults.sev0.look 5 0 = 1 ∧
    (let t := run (.alarm ⟨0, none⟩) (flying [alarm 5 1])
     (t.faults.slots.look 5 {}).sev = 1 ∧ (t.faults.slots.look 5 {}).seq = 1 ∧ t.faults.seq = 2 ∧ t.faults.firstWait = some 5 ∧
     t.faults.details.look 5 none = some (0, 0) ∧ t.faults.first.valid = true) := by decide +kernel
/-- An alarm whose source held no credit for its detail: the slot is free when it arrives, and the detail is lost. -/
theorem wit_AlarmsWithoutDetail :
    ((dev.raise (alarm 5 1)).raise (alarm 5 1)).faults.flight.map (·.dry) = [false, true] ∧
    (let t := run (.alarm ⟨0, none⟩) (flying [{ alarm 5 1 with dry := true }])
     (t.faults.slots.look 5 {}).wait = false ∧ t.faults.details.look 5 none = none ∧ t.faults.dropped.look 5 0 = 1 ∧ t.faults.firstWait = none) := by
  decide +kernel
theorem wit_AlarmsStopContextsAndPartitions :
    (dev.ctxRec 0).isSome = true ∧ (dev.partRec 0).isSome = true ∧ (dev.part 0).st = 0 ∧ dev.trellis.staged = none ∧ dev.faults.fatal = false ∧
    ((run (.alarm ⟨0, none⟩) (flying [alarm 5 2 0x15 (some 0)])).queue 0).failed = true ∧
    (let t := run (.alarm ⟨0, none⟩) (flying [alarm 5 3 0x0C none (some 0)])
     (t.part 0).hold = [(5, 1)] ∧ (t.part 0).forced = true ∧ (t.part 0).st = 1 ∧ t.mgmt.events = [.fault 5 0x0C 3]) := by decide +kernel
theorem wit_AlarmsStopTheDevice :
    (let t := run (.alarm ⟨0, none⟩) (flying [alarm 138 4])
     t.faults.fatal = true ∧ t.host.aer = true ∧ (t.port 31).hold = true ∧ (t.port 31).st = 8) ∧
    (run (.alarm ⟨0, none⟩) (flying [alarm 138 4] [] fun f => { f with fatal := true })).faults.fatal = true := by decide +kernel
theorem wit_AlarmsRepeat :
    ((flying [alarm 5 2 7 (some 0)] [(5, heldSlot 2 7 (some 0))]).faults.slots.look 5 {}).sev < 8 ∧
    (let t := run (.alarm ⟨0, none⟩) (flying [alarm 5 2 7 (some 0)] [(5, heldSlot 2 7 (some 0))])
     (t.faults.slots.look 5 {}).maxSev = 3 ∧ (t.faults.slots.look 5 {}).rep = 255 ∧ t.faults.escN = 1 ∧ t.faults.dropped.look 5 0 = 1) ∧
    (let t := run (.alarm ⟨0, none⟩) (flying [alarm 5 3 7 (some 0)] [(5, heldSlot 2 7 (some 0))])
     (t.faults.slots.look 5 {}).maxSev = 4 ∧ t.faults.fatal = true) ∧
    (let t := run (.alarm ⟨0, none⟩) (flying [alarm 5 2 8 (some 0)] [(5, heldSlot 2 7 (some 0))])
     (t.faults.slots.look 5 {}).maxSev = 2 ∧ t.faults.escN = 0) := by decide +kernel
theorem wit_AlarmsTogether :
    (flying [alarm 4 1, alarm 5 2]).faults.first.valid = false ∧ (run (.alarm ⟨1, none⟩) (flying [alarm 4 1, alarm 5 2])).faults.first.src = 5 ∧
    (run (.alarm ⟨1, none⟩) (flying [alarm 4 2, alarm 138 2])).faults.first.src = 4 ∧
    (run (.alarm ⟨1, none⟩) (flying [alarm 4 2, alarm 138 2])).faults.concur = 1 <<< 138 := by decide +kernel
theorem wit_DetailsAndAcknowledgement :
    dev.faults.details.look 138 none = none ∧ idle (.faultDetail 138) dev = true ∧
    (let t := run (.faultDetail 138) (flying [] [(138, { heldSlot 1 7 with wait := true })] fun f => { f with details := [(138, some (64, 3))], firstWait := some 138 })
     (t.faults.slots.look 138 {}).addr = 64 ∧ t.faults.first.info = 3) ∧ writesBlock h0 = true ∧ writesBlock (.ring 0 1) = false ∧
    (0x9_00000005 : Word).toNat / 256 % 2 ^ 24 = 0 ∧
    ((run (.faultAck h0 0x9_00000005) (flying [] [(5, heldSlot 1 7)])).faults.slots.look 5 {}).valid = false ∧
    (run (.faultAck h0 0x9_00000105) (flying [] [(5, heldSlot 1 7)])).faults.ackStale = 1 ∧
    (run (.faultAck h0 0x8_00000005) (flying [] [(5, heldSlot 1 7)])).faults.ackStale = 1 ∧
    (run (.firstClr h0) (run (.alarm ⟨0, none⟩) (flying [alarm 5 1]))).faults.first.valid = false := by decide +kernel
def halts (d : Option Nat) : State := dev.onSeq 0 fun q => { q with run := .running, haltDue := d }
theorem wit_StorageAndHalt :
    ((flying [] [(138, heldSlot 1 7)]).faults.stErr.look (4 * 138) {} = {}) ∧
    (run (.collectorStorageRead 138 0) (flying [] [(138, heldSlot 1 7)])).faults.readOut = 0x0000_0000_FF07_0041 ∧
    (let s := flying [] [] fun f => { f with stErr := [(4 * 139 + 3, { data := 3 })] }
     (s.faults.stErr.look (4 * 139 + 3) {}).count = 2 ∧
     (run (.collectorStorageRead 139 3) s).faults.flight.map (fun a => (a.src, a.sev, a.cause)) = [(138, 4, 0x18)]) ∧
    (dev.core 63).seq.haltDue = none ∧ idle (.contextHaltTimeout 63) dev = true ∧
    ((halts (some 500)).core 0).seq.haltDue = some 500 ∧ (run (.contextHaltTimeout 0) (halts (some 500))).now = 500 ∧
    ((run (.contextHaltTimeout 0) (halts (some 500))).core 0).seq.run = .halting := by decide +kernel

def beats (now : Nat) (f : Collector → Collector := id) : State :=
  { dev with now := now, faults := f { dev.faults with hbAt := some 5, aliveOn := true, alive := true, edge := 5 } }
def arming (t : BitVec 32) : State := { dev with faults := { dev.faults with inj0 := { target := t }, inj1 := { target := t } } }
theorem wit_HeartbeatAndInjection :
    dev.hubUp = true ∧ idle .heartbeat State.reset = true ∧ (run .heartbeat dev).faults.alive = true ∧
    (run .heartbeat (flying [] [] fun f => { f with fatal := true })).faults.alive = false ∧
    (run .aliveToggle (beats 10000005)).faults.alive = false ∧ idle .aliveToggle (beats 10000006) = true ∧
    (run .aliveToggle (beats 6)).faults.edge = 500005 ∧ (run .heartbeatLoss (beats 6)).now = 10500005 ∧
    (run .heartbeatLoss (beats 6 fun f => { f with aliveOn := false })).now = 10000006 ∧
    (run .heartbeatLoss (beats 5)).faults.flight.map (fun a => (a.src, a.sev, a.cause)) = [(137, 2, 0x17)] ∧
    idle .heartbeatLoss (beats 5 fun f => { f with hbLost := true }) = true ∧ idle .heartbeatLoss dev = true := by decide +kernel
theorem wit_Injection :
    injAllowed 63 0 1 = true ∧ injAllowed 64 0 1 = false ∧ injAllowed 71 5 2 = true ∧ injAllowed 138 9 0 = true ∧ injAllowed 138 9 1 = false ∧
    (run (.injArm (.ring 2 0) 0) (arming 0x00010000)).faults.inj0.armed = true ∧
    (run (.injArm .controller 1) (arming 0xFFFF0000)).faults.inj1.remain = 65535 ∧
    (run (.injArm .controller 1) (arming 0x0000003F)).faults.inj1.refused = true ∧
    (run (.injArm .controller 1) (arming 0x00010040)).faults.inj1.refused = true ∧
    idle (.injArm (.ring 2 1) 0) (arming 0x00010000) = true ∧ idle (.injArm .controller 0) (arming 0x00010000) = true := by decide +kernel

/-! ## Reset and bring-up -/

def booting (ph : BitVec 4) (f : Boot → Boot := id) : State := { dev with boot := f { dev.boot with phase := ph } }
def used : State := { dev with trellis := { dev.trellis with keysNext := [(2, some (some 4))], keys := [(1, some 8), (2, some 3)] },
                               mem := [(5, 9), (sramBase, 7)], units := [(3, ⟨6, 2, 1⟩)] }
theorem wit_WarmResets :
    dev.broughtUp = true ∧ dev.faults.flight = [] ∧ dev.boot.perstLow = false ∧ dev.boot.refclk = true ∧ (booting 5).broughtUp = false ∧
    (booting 4 fun b => { b with perstLow := true }).broughtUp = true ∧
    (let t := run .hotReset used
     t.boot.phase = 3 ∧ t.boot.last = 1 ∧ t.boot.linkUp = false ∧ t.mem = [(5, 9)] ∧ t.unit 3 = ⟨7, 0, 1⟩ ∧ t.queues = [] ∧
     t.trellis.keysNext = [(2, some (some 4))]) ∧
    (run .functionLevelReset dev).boot.last = 2 ∧ (run .functionLevelReset dev).boot.linkUp = true ∧
    (run .hotReset (booting 4 fun b => { b with refclk := false })).boot.phase = 2 := by decide +kernel
theorem wit_DevReset :
    (run (.devReset h0 0xB2A0) dev).boot.last = 2 ∧ idle (.devReset h0 0xB2A1) dev = true ∧ idle (.devReset (.ring 0 0) 0xB2A0) dev = true ∧
    idle .deviceResetEffecter (booting 2) = true ∧ (run .deviceResetEffecter (booting 3)).boot.phase = 3 := by decide +kernel
theorem wit_PinsReset :
    (run .perstN dev).boot.phase = 2 ∧ (run .perstN dev).boot.last = 1 ∧ (run .perstN (booting 1)).boot.perstLow = true ∧
    (run .perstN (booting 1)).queues = dev.queues ∧ (run .sysRefclkLoss dev).boot.phase = 2 ∧ (run .sysRefclkLoss dev).boot.last = 0 ∧
    (let t := run .resetN used
     t.boot.phase = 0 ∧ t.trellis.keys.look 2 none = some 4 ∧ t.trellis.keys.look 1 none = some 8 ∧ t.trellis.keysNext = [] ∧
     t.mem = [(5, 9)]) := by decide +kernel
theorem wit_RailFaults :
    (run (.railFault .vio18) dev).boot.phase = 0 ∧ (run (.railFault .hubVdd) dev).boot.rails = false ∧ Rail.qvdd 3 ≠ .hubVdd ∧
    (run (.railFault (.qvdd 3)) dev).faults.flight.map (fun a => (a.src, a.sev, a.cause)) = [(123, 4, 0x11)] ∧
    (run (.railFault (.qvdd 3)) (booting 0)).faults.flight = [] := by decide +kernel

theorem wit_BootStarts :
    (booting 0).boot.rails = true ∧ (run .resetNRelease (booting 0)).boot.phase = 1 ∧ (run .resetNRelease (booting 2)).boot.phase = 2 ∧
    (booting 0 fun b => { b with rails := false }).boot.rails = false ∧ (run .railsGood (booting 0)).boot.phase = 1 ∧
    (run .railsGood (booting 0 fun b => { b with resetLow := true })).boot.phase = 0 ∧
    (run .perstNRelease (booting 2 fun b => { b with perstLow := true })).boot.phase = 3 ∧
    (run .perstNRelease (booting 2 fun b => { b with refclk := false })).boot.phase = 2 ∧
    (run .sysRefclkReturn (booting 2 fun b => { b with refclk := false })).boot.phase = 3 ∧
    (run .sysRefclkReturn (booting 2 fun b => { b with perstLow := true })).boot.phase = 2 ∧ idle .firmwareVerify dev = true := by decide +kernel
/-- The ROM's state; which of the slots verifies is the image's, which the statement leaves open. -/
theorem wit_FirmwareVerify : (booting 1).boot.phase = 1 ∧ (booting 1).boot.perstLow = false ∧
    (booting 1 fun b => { b with perstLow := true }).boot.perstLow = true := by
  decide +kernel
theorem wit_BringUp :
    (run .d2dTrainingDone (booting 3)).boot.d2d = true ∧ idle .d2dTrainingDone (booting 2) = true ∧ idle .pcieLinkUp (booting 2) = true ∧
    (run .pcieLinkUp (booting 3)).boot.linkUp = true ∧ (booting 3).boot.cores.getLsbD 63 = false ∧
    (let t := run (.coreBringupDone 63) { booting 3 with mem := [(sramBase + 63 * 0x2000000 - 1, 7), (sramBase + 64 * 0x2000000 - 1, 7)] }
     t.boot.cores.getLsbD 63 = true ∧ t.mem = [(sramBase + 63 * 0x2000000 - 1, 7)]) ∧
    idle (.coreBringupDone 63) (booting 3 fun b => { b with cores := 1 <<< 63 }) = true ∧ (booting 3).boot.hbmDone.getLsbD 11 = false ∧
    (booting 3).boot.trained.getLsbD 11 = false ∧ idle (.hbmTrainingDone 11 .full) (booting 4) = true ∧
    (let t := run (.hbmTrainingDone 11 .failed) (booting 3 fun b => { b with hbmDone := 0x7FF })
     t.boot.phase = 4 ∧ t.boot.failed = 0x800 ∧ (t.ctl 11).scrubOn = false) ∧
    (run (.hbmTrainingDone 11 .failed) (booting 3 fun b => { b with trained := 0x800 })).boot.failed = 0 ∧
    (run (.hbmTrainingDone 0 .fallback) (booting 3)).boot.fallback = 1 := by decide +kernel
theorem wit_Thermtrip :
    (run (.thermtrip 4) dev).faults.flight.map (fun a => (a.src, a.sev)) = [(138, 4)] ∧ (run (.thermtrip 3) dev).faults.flight.map (·.src) = [123] ∧
    (run (.thermtrip 0) (booting 0)).faults.flight = [] ∧ ((run (.thermtrip 0) (booting 0)).pwr 3).halted = true := by decide +kernel

/-! ## Rules over the whole machine -/

theorem wit_PhaseStarts : (dev.queue 8).enable = false ∧ (1 : Word).getLsbD 0 = true := by decide +kernel
theorem wit_FixedOrderAdditionSaturates :
    xaClass (BitVec.ofInt 128 (2 ^ 127 - 2)) = .fin ∧ xaClass (BitVec.ofInt 128 (-(2 ^ 127 - 2))) = .fin ∧ xaClass 1 = .fin ∧
    xaAdd (BitVec.ofInt 128 (2 ^ 127 - 2)) 1 = (BitVec.ofInt 128 (2 ^ 127 - 2), fOverflow) ∧
    xaAdd (BitVec.ofInt 128 (-(2 ^ 127 - 2))) (-1) = (BitVec.ofInt 128 (-(2 ^ 127 - 2)), fOverflow) ∧
    xaAdd (BitVec.ofInt 128 (2 ^ 127 - 3)) 1 = (BitVec.ofInt 128 (2 ^ 127 - 2), 0) := by decide +kernel
theorem wit_ArrivalOrderDoesNotMatter :
    [1, 2, (3 : BitVec 128)].Perm [3, 1, 2] ∧ (⟨BitVec.ofInt 144 (2 ^ 127 - 3), .fin⟩ : Guarded).narrow.2 = 0 ∧
    (⟨BitVec.ofInt 144 (2 ^ 127 - 3), .fin⟩ : Guarded).cls = .fin ∧ xaClass (2 : BitVec 128) = .fin ∧
    ((⟨BitVec.ofInt 144 (2 ^ 127 - 3), .fin⟩ : Guarded).add 1).1.narrow = (xaMax, 0) ∧
    ((⟨BitVec.ofInt 144 (2 ^ 127 - 3), .fin⟩ : Guarded).add 2).1.narrow = (xaMax, fOverflow) ∧
    ((⟨BitVec.ofInt 144 (3 - 2 ^ 127), .fin⟩ : Guarded).add (-2)).1.narrow = (xaMin, fOverflow) := by decide +kernel
theorem wit_MemoryStaysCanonical : Memory.wf dev.mem = true ∧ Memory.wf [(3, (1 : Byte)), (9, 2)] = true ∧ step State.reset = .next State.reset.tick :=
  ⟨by decide, by decide, rfl⟩

/-! ## Clauses that wait, stop or are turned away -/

def heldPart : State := { dev with parts := [(0, { st := 2 })] }
theorem wit_HeldPartitionsAndRequesters :
    heldPart.partSt 0 = 2 ∧ ((run (.qtailDb 0 0 63) heldPart).queue 0).dbWait = some 63 ∧
    byHost (.ring 0 0) = false ∧ idle (.partRack (.ring 0 0) 0) dev = true ∧ dev.endsNormally 0 = false ∧ idle (.vintageNormalEnd 0) dev = true ∧
    writesBlock (.ring 0 1) = false ∧ idle (.hbmWeights (.ring 0 1) 0 5) dev = true ∧ idle (.cachePwr (.ring 0 1) 0 5) dev = true ∧
    idle (.qpwrCap (.ring 0 1) 0 5) dev = true ∧ idle (.groupSel (.ring 0 1) 0 5) dev = true ∧ idle (.loadCmd (.ring 0 1) 1) dev = true ∧
    idle (.rescueCmd .controller 0) dev = true ∧ idle (.operAliasWrite (.ring 3 0) 119 1) dev = true ∧
    idle (.operAliasWrite .controller 119 0x300) dev = true ∧ idle (.firstClr (.ring 0 1)) dev = true ∧ idle (.faultAck (.ring 0 1) 5) dev = true ∧
    idle (.avsFrameFailure 0) State.reset = true ∧ idle (.queueEnable 0 1) dev = true ∧ idle (.queueDisable 0 1) dev = true := by decide +kernel

/-- The word of `units` poisoned. -/
def poisonedWord : State := (units 1 2).setPoison ((sramBase + 0x40) / 64)
theorem wit_PoisonStopsAMemoryAdd :
    (((poisonedWord.onCore 0 fun x => { x with adds := [] }).memRd { src := 0, ctx := some 0, part := some 0 } (sramBase + 0x40) 4).2.bad).isSome = true ∧
    (run (.memoryAtomicAdd 0) poisonedWord).faults.flight.map (fun a => (a.src, a.sev, a.cause)) = [(0, 1, 0x15)] ∧
    (run (.memoryAtomicAdd 0) poisonedWord).bytes (sramBase + 0x40) 4 = [250, 255, 255, 255] := by decide +kernel

def clearingHbm : State := { barDev with clearing := [0] }
def parityOnce : State := run (.hbmAccess ⟨chan0, true⟩) readQueued
theorem wit_HbmRequestsWaitAndRetry :
    clearingHbm.isClearing 60 = true ∧ (run (.hbmWriteRequest (hreq 60 [1, 2, 3, 4])) clearingHbm).pchans = [] ∧
    ((run (.hbmWriteRequest (hreq 60 [1, 2, 3, 4])) clearingHbm).tag ((barDev.place 60).1 / 3)).wait = [(hreq 60 [1, 2, 3, 4], true)] ∧
    ((run (.regionClearDone 0) (run (.hbmWriteRequest (hreq 60 [1, 2, 3, 4])) clearingHbm)).pchan chan0).writes.length = 1 ∧
    (dev.hbmNext 0).1 = none ∧ ((readQueued.hbmNext chan0).1.map (·.write)) = some false ∧
    (parityOnce.pchan chan0).parErr = true ∧ (parityOnce.pchan chan0).reads.length = 1 ∧ (parityOnce.ctl (chan0.val / 64)).parRetry = 1 ∧
    (dev.pchan chan0).parErr = false ∧ ((run (.refresh ⟨chan0, true⟩ ⟨0, 3⟩) dev).ctl (chan0.val / 64)).parRetry = 1 ∧
    ((run (.refresh ⟨chan0, false⟩ ⟨0, 3⟩) dev).pchan chan0).refBank = some (0, 3) ∧
    ((run (.hbmAccess ⟨chan0, false⟩) parityOnce).pchan chan0).served.length = 1 ∧
    (run (.hbmAccess ⟨chan0, true⟩) parityOnce).faults.flight.map (fun a => (a.src, a.sev, a.cause)) = [(76 + chan0.val / 64, 4, 0x0F)] ∧
    (let s := writeQueued.onPchan chan0 fun x => { x with fixQ := [0] }
     ((run (.hbmRewrite chan0) s).pchan chan0).fixQ = []) := by decide +kernel

/-- A core of another partition asks for core 0's bytes. -/
def otherCore : State := { dev with active := { dev.active with parts := [⟨0, 1, 1, 1, true, 50⟩, ⟨1, 2, 2, 2, true, 50⟩] } }
theorem wit_SramRefuses :
    otherCore.sramMay 0 (otherCore.sramWho 0 (.fabric (.core 1))) false 8 8 = false ∧
    otherCore.sramMay 0 (otherCore.sramWho 0 (.fabric (.core 1))) true 8 8 = false ∧
    (run (.sramWriteRequest 0 (.fabric (.core 1)) 8 [1, 2, 3, 4, 5, 6, 7, 8]) otherCore).mem = [] := by decide +kernel

/-- A tensor loop without iterations over a body whose one op word has an opcode that Table 6.4 does not list. -/
def badBody : State :=
  vq [(tloop 2 1).item, ⟨BitVec.ofNat 64 (0xFF <<< 56), 0, 0, 2⟩] (fun v => { v with slots := [(0, ⟨true, false, tdesc, 3⟩)] }) dev
theorem wit_TloopBodyForms :
    ((bodyOf badBody).map fun b => bodyBad (badBody.core 0).vec 0 b) = [false] ∧ badBody.bodyForm 0 (bodyOf badBody) = some 1 ∧
    (looped 0 0).bodyForm 0 (bodyOf (looped 0 0)) = none ∧
    (run (.tloop 0) badBody).faults.flight.map (fun a => (a.src, a.sev, a.cause)) = [(0, 1, 6)] := by decide +kernel

/-- An add to a poisoned cell is dropped; an op word that may touch memory waits for the adds before it. -/
def poisonedCell : State := cellAdding.setPoison ((sramBase + 0x40) / 64)
theorem wit_CellAddsInOrder :
    (run (.guardedCellAdd 0) poisonedCell).bytes (sramBase + 0x40) 32 = leBytes 32 5 ∧ ((run (.guardedCellAdd 0) poisonedCell).core 0).cells = [] ∧
    (let s := (vld.on [1, 2] dev).onCore 0 fun x => { x with cells := [⟨sramBase + 0x40, 3, 0, 0, 0⟩] }
     s.waitsAdds 0 (parseOp vld.item 0) = true) := by decide +kernel

/-- Results at an address that no extent covers. -/
def awayD : Bytes := (d2.take 80) ++ leBytes 8 0x900000 ++ d2.drop 88
theorem wit_PassSpansRefuse :
    (let p := parsePass awayD
     p.bad ((queued awayD).coreFeatures 0) ((queued awayD).leadCore 0) = false ∧ ((queued awayD).core 0).mat.useBad p 8 = false ∧
     ((queued awayD).passSpans (matEng (queued awayD) 0 2) p.spans).isSome = true) ∧
    ((accepted awayD).core 0).mq.err = true ∧ (accepted awayD).faults.flight.map (fun a => (a.src, a.sev, a.cause)) = [(0, 1, 8)] := by decide +kernel

/-- A DQ descriptor in the host window, whose page is not translated yet. -/
def hostDesc : State := comes { arrive 1 none with va := 0x200000, src := .dq 0 0 } dmaDev
theorem wit_DescriptorsWaitForTheHost :
    (match hostDesc.arriving 0 with
     | some (_, _, .wait p) => p == 0
     | _ => false) = true ∧
    (run (.copy 0) hostDesc).xlat.atsWait = [(0, 5, 0)] ∧ ((run (.copy 0) hostDesc).chan 0).arrive.length = 1 ∧
    (run (.fill 0) hostDesc).xlat.atsWait = [(0, 5, 0)] := by decide +kernel

/-- Three bytes of a packet still to be sent, and no packet behind them. -/
def flushing : State := onP0 6 fun x => { x with txBytes := [1, 2, 3] }
def fullFabric : State :=
  { receiving plainPkt {} with fabric := { packets := [⟨0, 0, portsOf 0, linkUnit false 0, 64, attachHop (portsOf 0), attachInput (portsOf 0), true,
      yetToCross (attachHop (portsOf 0)) (linkUnit false 0)⟩, ⟨1, 0, portsOf 0, linkUnit false 0, 64, attachHop (portsOf 0), attachInput (portsOf 0), true,
      yetToCross (attachHop (portsOf 0)) (linkUnit false 0)⟩], next := 2 } }
theorem wit_PortsFlushAndWaitForRoom :
    (flushing.port 0).choose flushing.now = none ∧ ((run (.marunoPacketSend (.port 0)) flushing).port 0).txBytes = [] ∧
    ((run (.marunoPacketSend (.port 0)) flushing).port 0).replay.map (fun e => (e.1, e.2.1, e.2.2.take 4)) = [(0, 0, [1, 2, 3])] ∧
    idle (.marunoPacketSend (.port 0)) (onP0 6) = true ∧
    fullFabric.linkRoom false 0 plainPkt.length = false ∧ idle (.controlPacket (.native 0)) fullFabric = true ∧
    (receiving plainPkt {}).linkRoom false 0 plainPkt.length = true ∧
    idle (.dataFlit 0 flit5) (onP0 6 fun x => { x with mode := 2, rxSeq := 5 }) = true := by decide +kernel

/-- An acknowledgement that arrives with an alarm: the held record is dropped and the new one kept without its detail. -/
theorem wit_AlarmsWithAnAcknowledgement :
    (let s := flying [alarm 5 1] [(5, heldSlot 2 7 (some 0))]
     let t := run (.alarm ⟨0, some (h0, 0x900000005)⟩) s
     (0x900000005 : Word).extractLsb' 32 32 = ((s.faults.slots.look 5 {}).seq) ∧
     (t.faults.slots.look 5 {}).cause = 0x15 ∧ (t.faults.slots.look 5 {}).seq = s.faults.seq ∧ (t.faults.slots.look 5 {}).wait = false ∧
     t.faults.dropped.look 5 0 = 1) := by decide +kernel

end Sys2Proof.Tests
end

/-!
# The canonical form of memory (O59, O60)

Every command is a composition of functions on the state. The functions that never write memory each have a lemma `_mem`, that
memory is as before; the others have a lemma `_wf`, that they keep the canonical form, down to the memory operations of
`Sys2Proof/Laws/Memory.lean`. Both are `simp` lemmas, in the order of the model, so that the proof about a function follows from
the lemmas about the functions it calls.
-/

section
namespace Sys2Proof.Machine

/-! ## Memory through conditionals, folds and the part setters -/

@[simp] theorem State.ite_mem (c : Prop) [Decidable c] (s t : State) : (if c then s else t).mem = if c then s.mem else t.mem :=
  apply_ite State.mem c s t

@[simp] theorem ite_fst {α β : Type} (c : Prop) [Decidable c] (p q : α × β) : (if c then p else q).1 = if c then p.1 else q.1 :=
  apply_ite Prod.fst c p q

@[simp] theorem ite_snd {α β : Type} (c : Prop) [Decidable c] (p q : α × β) : (if c then p else q).2 = if c then p.2 else q.2 :=
  apply_ite Prod.snd c p q

/-- A step of a fold that leaves memory as it is. -/
def LeavesMem {α : Type} (f : State → α → State) : Prop := ∀ s a, (f s a).mem = s.mem

@[simp] theorem leavesMem_iff {α : Type} (f : State → α → State) : LeavesMem f ↔ ∀ s a, (f s a).mem = s.mem := ⟨id, id⟩

@[simp] theorem foldl_mem {α : Type} {f : State → α → State} (hf : LeavesMem f) (l : List α) (s : State) :
    (l.foldl f s).mem = s.mem := by
  induction l generalizing s with
  | nil => rfl
  | cons a l ih => rw [List.foldl_cons, ih, hf]

theorem foldl_fst_mem {α β : Type} {f : State × β → α → State × β} (hf : ∀ p a, (f p a).1.mem = p.1.mem) (l : List α) (p : State × β) :
    (l.foldl f p).1.mem = p.1.mem := by
  induction l generalizing p with
  | nil => rfl
  | cons a l ih => rw [List.foldl_cons, ih, hf]

theorem State.onCore_mem (s : State) (k : _) (f : CoreSt → CoreSt) : (s.onCore k f).mem = s.mem := rfl

theorem State.onPart_mem (s : State) (k : _) (f : Part → Part) : (s.onPart k f).mem = s.mem := rfl

theorem State.onQueue_mem (s : State) (k : _) (f : Queue → Queue) : (s.onQueue k f).mem = s.mem := rfl

theorem State.onPress_mem (s : State) (k : _) (f : Press → Press) : (s.onPress k f).mem = s.mem := rfl

theorem State.onPort_mem (s : State) (k : _) (f : Port → Port) : (s.onPort k f).mem = s.mem := rfl

theorem State.onRoute_mem (s : State) (k : _) (f : Route → Route) : (s.onRoute k f).mem = s.mem := rfl

theorem State.onGroup_mem (s : State) (k : _) (f : Group → Group) : (s.onGroup k f).mem = s.mem := rfl

theorem State.onPwr_mem (s : State) (k : _) (f : Power → Power) : (s.onPwr k f).mem = s.mem := rfl

/-! ## The canonical form -/

/-- A state whose memory is in canonical form. -/
structure Canonical where
  state : State
  wf    : Memory.wf state.mem = true

@[simp] theorem Canonical.mem_wf (s : Canonical) : Memory.wf s.state.mem = true := s.wf

@[simp] theorem wf_ite (c : Prop) [Decidable c] {m n : List Host.Cell} (hm : Memory.wf m = true) (hn : Memory.wf n = true) :
    Memory.wf (if c then m else n) = true := by
  split <;> assumption

/-- A step of a fold that keeps memory in canonical form. -/
def KeepsWf {α : Type} (f : State → α → State) : Prop := ∀ (s : Canonical) (a : α), Memory.wf (f s.state a).mem = true

@[simp] theorem keepsWf_iff {α : Type} (f : State → α → State) :
    KeepsWf f ↔ ∀ (s : Canonical) (a : α), Memory.wf (f s.state a).mem = true := ⟨id, id⟩

@[simp] theorem foldl_wf {α : Type} {f : State → α → State} (hf : KeepsWf f) (l : List α) {s : State} (h : Memory.wf s.mem = true) :
    Memory.wf (l.foldl f s).mem = true := by
  induction l generalizing s with
  | nil => exact h
  | cons a l ih => exact ih (hf ⟨s, h⟩ a)

/-- A step of a fold over a state and a result that keeps memory in canonical form. -/
def PairKeepsWf {α β : Type} (f : State × β → α → State × β) : Prop :=
  ∀ (s : Canonical) (b : β) (a : α), Memory.wf (f (s.state, b) a).1.mem = true

@[simp] theorem pairKeepsWf_iff {α β : Type} (f : State × β → α → State × β) :
    PairKeepsWf f ↔ ∀ (s : Canonical) (b : β) (a : α), Memory.wf (f (s.state, b) a).1.mem = true := ⟨id, id⟩

@[simp] theorem foldl_fst_wf {α β : Type} {f : State × β → α → State × β} (hf : PairKeepsWf f) (l : List α) {p : State × β}
    (h : Memory.wf p.1.mem = true) : Memory.wf (l.foldl f p).1.mem = true := by
  induction l generalizing p with
  | nil => exact h
  | cons a l ih => exact ih (hf ⟨p.1, h⟩ p.2 a)

/-- The state of a pair that a computation answered. -/
theorem fst_wf {β : Type} {p : State × β} {t : State} {b : β} (hp : p = (t, b)) (h : Memory.wf p.1.mem = true) :
    Memory.wf t.mem = true := by
  subst hp
  exact h

/-- Every next state that a meaning answers has its memory in canonical form. -/
def AnswersWf (r : Res) : Prop := ∀ t, r = .next t → Memory.wf t.mem = true

@[simp] theorem answersWf_next (t : State) : AnswersWf (.next t) ↔ Memory.wf t.mem = true :=
  ⟨fun h => h t rfl, fun h _ e => by cases e; exact h⟩

@[simp] theorem answersWf_fault (r : Fault) : AnswersWf (.fault r) := fun _ e => by cases e

@[simp] theorem answersWf_ite (c : Prop) [Decidable c] {r q : Res} (hr : AnswersWf r) (hq : AnswersWf q) :
    AnswersWf (if c then r else q) := by
  split <;> assumption

@[simp] theorem Res.get_wf {r : Res} {s : State} (hr : AnswersWf r) (h : Memory.wf s.mem = true) : Memory.wf (r.get s).mem = true := by
  cases r with
  | next t => exact hr t rfl
  | _ => exact h

@[simp] theorem State.memRd_wf {s : State} (w : Who) (a n : Nat) (h : Memory.wf s.mem = true) : Memory.wf (s.memRd w a n).1.mem = true :=
  (s.memRd_memStep w a n).wf h

@[simp] theorem State.memWr_wf {s : State} (w : Who) (a : Nat) (bs : Bytes) (m : Bool) (h : Memory.wf s.mem = true) :
    Memory.wf (s.memWr w a bs m).1.mem = true :=
  (s.memWr_memStep w a bs m).wf h

@[simp] theorem State.hbmGran_wf {s : State} (g : Nat) (ctx own : Option Nat) (rescue : Bool) (h : Memory.wf s.mem = true) :
    Memory.wf (s.hbmGran g ctx own rescue).1.mem = true :=
  (s.hbmGran_memStep g ctx own rescue).wf h

@[simp] theorem State.vRd_mem_wf {s : State} (e : Eng) (va n : Nat)
    (h : Memory.wf s.mem = true) : Memory.wf (s.vRd e va n).1.mem = true :=
  s.vRd_wf e va n h

@[simp] theorem State.vWr_mem_wf {s : State} (e : Eng) (va : Nat) (bs : Bytes) (m : Bool) (h : Memory.wf s.mem = true) :
    Memory.wf (s.vWr e va bs m).1.mem = true :=
  s.vWr_wf e va bs m h

@[simp] theorem State.store_mem_wf {s : State} (a : Nat) (bs : Bytes)
    (h : Memory.wf s.mem = true) : Memory.wf (s.store a bs).mem = true :=
  State.store_wf a bs h

@[simp] theorem State.zero_mem_wf {s : State} (lo hi : Nat) (h : Memory.wf s.mem = true) : Memory.wf (s.zero lo hi).mem = true :=
  State.zero_wf lo hi h

@[simp] theorem State.rdGran_wf {s : State} (w : Who) (a n : Nat)
    (h : Memory.wf s.mem = true) : Memory.wf (s.rdGran w a n).1.mem = true :=
  (s.rdGran_memStep w a n).wf h

@[simp] theorem State.wrGran_wf {s : State} (w : Who) (a : Nat) (bs : Bytes) (m : Bool) (h : Memory.wf s.mem = true) :
    Memory.wf (s.wrGran w a bs m).mem = true :=
  (s.wrGran_memStep w a bs m).wf h

/-! ## Functions that leave memory as it is -/

/-! ### Shared operations -/

@[simp] theorem State.onSeq_mem (s : State) (c : Nat) (f : Seq → Seq) : (s.onSeq c f).mem = s.mem := rfl

@[simp] theorem State.onVec_mem (s : State) (c : Nat) (f : Vec → Vec) : (s.onVec c f).mem = s.mem := rfl

@[simp] theorem State.onMat_mem (s : State) (c : Nat) (f : Mat → Mat) : (s.onMat c f).mem = s.mem := rfl

@[simp] theorem State.setOper_mem (s : State) (u : Nat) (v : BitVec 2) : (s.setOper u v).mem = s.mem := rfl

@[simp] theorem State.fresh_mem (s : State) : (s.fresh).2.mem = s.mem := rfl

@[simp] theorem freshBytes_mem (n : Nat) (s : State) : (freshBytes n s).2.mem = s.mem := by
  induction n generalizing s with
  | zero => rfl
  | succ n ih => exact ih _

@[simp] theorem State.msix_mem (s : State) (v : Nat) : (s.msix v).mem = s.mem := by simp [State.msix]

@[simp] theorem State.devIrq_mem (s : State) : (s.devIrq).mem = s.mem := by simp [State.devIrq]

@[simp] theorem State.raise_mem (s : State) (a : Alarm) : (s.raise a).mem = s.mem := by
  simp only [State.raise]
  (repeat' split) <;> simp

@[simp] theorem State.sev_mem (s : State) (src sev : Nat) (cause : Byte) (ctx : Option Nat) (addr : Nat) (info : (BitVec 32))
    (inj : Bool) : (s.sev src sev cause ctx addr info inj).mem = s.mem := by simp [State.sev]

@[simp] theorem State.inject_mem (s : State) (src code n : Nat) : (s.inject src code n).2.mem = s.mem := rfl

@[simp] theorem State.setPoison_mem (s : State) (g : Nat) : (s.setPoison g).mem = s.mem := rfl

@[simp] theorem State.freshIf_mem (s : State) (b : Bool) : (s.freshIf b).2.mem = s.mem := by simp [State.freshIf]

@[simp] theorem State.fixLater_mem (s : State) (w : Nat) (f : WordErr) : (s.fixLater w f).mem = s.mem := by simp [State.fixLater]

@[simp] theorem State.sramWord_mem (s : State) (w : Nat) (ctx : Option Nat) (rescue : Bool) :
    (s.sramWord w ctx rescue).1.mem = s.mem := by
  simp only [State.sramWord]
  (repeat' split) <;> simp

@[simp] theorem State.refuse_mem (s : State) (w : Who) (g : Gate) (a : Nat) : (s.refuse w g a).mem = s.mem := by
  simp only [State.refuse]
  (repeat' split) <;> simp

@[simp] theorem State.touch_mem (s : State) (agent k idx : Nat) : (s.touch agent k idx).mem = s.mem := rfl

/-! ### Time -/

@[simp] theorem State.tick_mem (s : State) : (s.tick).mem = s.mem := rfl

@[simp] theorem State.advance_mem (s : State) (n : Nat) : (s.advance n).mem = s.mem := by
  unfold State.advance
  rfl

@[simp] theorem State.toCount_mem (s : State) (t : Nat) : (s.toCount t).mem = s.mem := by
  unfold State.toCount
  rfl

@[simp] theorem State.toNow_mem (s : State) (t : Nat) : (s.toNow t).mem = s.mem := s.advance_mem _

/-! ### HBM -/

@[simp] theorem State.takeTag_mem (s : State) (q : Nat) (a : MemAgent) (cls : BitVec 2) : (s.takeTag q a cls).mem = s.mem := rfl

@[simp] theorem State.dropTag_mem (s : State) (q : Nat) (a : MemAgent) (cls : BitVec 2) : (s.dropTag q a cls).mem = s.mem := rfl

theorem State.hbmEnter_mem {s t : State} {before : List (HbmReq × Bool)} {r : HbmReq} {write : Bool}
    (h : s.hbmEnter before r write = some t) : t.mem = s.mem := by
  simp only [State.hbmEnter] at h
  split at h
  · split at h <;> simp_all
    subst h
    simp
  · cases h
    simp

@[simp] theorem hbmWaiting_mem (l left : List (HbmReq × Bool)) (s : State) : (hbmWaiting l s left).1.mem = s.mem := by
  induction l generalizing s left with
  | nil => rfl
  | cons e l ih =>
    simp only [hbmWaiting]
    split
    · rename_i hs
      rw [ih, State.hbmEnter_mem hs]
    · exact ih ..

@[simp] theorem State.hbmAdmit_mem (s : State) (q : Nat) : (s.hbmAdmit q).mem = s.mem := by simp [State.hbmAdmit]

@[simp] theorem State.hbmArrive_mem (s : State) (r : HbmReq) (write : Bool) :
    (s.hbmArrive r write).mem = s.mem := by simp [State.hbmArrive]

@[simp] theorem State.finishReq_mem (s : State) (pc : Nat) (r : HReq) : (s.finishReq pc r).mem = s.mem := by simp [State.finishReq]

@[simp] theorem State.parityError_mem (s : State) (pc : Nat) (r : Option HReq) :
    (s.parityError pc r).mem = s.mem := by simp [State.parityError]

/-! ### Queues -/

@[simp] theorem State.onCmd_mem (s : State) (n serial : Nat) (f : Cmd → Cmd) : (s.onCmd n serial f).mem = s.mem := rfl

@[simp] theorem State.endCmd_mem (s : State) (n serial : Nat) (status : Byte) : (s.endCmd n serial status).mem = s.mem := by
  simp only [State.endCmd]
  (repeat' split) <;> simp

@[simp] theorem State.malform_mem (s : State) (n serial : Nat) : (s.malform n serial).mem = s.mem := by simp [State.malform]

@[simp] theorem State.accessFail_mem (s : State) (n serial : Nat) (cause : Byte) :
    (s.accessFail n serial cause).mem = s.mem := by simp [State.accessFail]

@[simp] theorem State.timedLaunch_mem (s : State) (timed : Bool) : (s.timedLaunch timed).mem = s.mem := by simp [State.timedLaunch]

@[simp] theorem State.start_mem (s : State) (n : Nat) (c : Cmd) : (s.start n c).mem = s.mem := by
  simp only [State.start]
  split <;> simp

@[simp] theorem State.dbError_mem (s : State) (k : Nat) : (s.dbError k).mem = s.mem := rfl

@[simp] theorem State.fetched_mem (s : State) (n : Nat) (c : Cmd) : (s.fetched n c).mem = s.mem := by
  simp only [State.fetched]
  (repeat' split) <;> simp

@[simp] theorem State.workDone_mem (s : State) (n serial : Nat) (status : Byte) : (s.workDone n serial status).mem = s.mem := by
  simp only [State.workDone]
  split <;> simp

/-! ### Units -/

@[simp] theorem State.irq_mem (s : State) (c v : Nat) : (s.irq c v).mem = s.mem := rfl

@[simp] theorem State.itemDone_mem (s : State) (c : Nat) (n : QName) (idx : Nat) : (s.itemDone c n idx).mem = s.mem := rfl

@[simp] theorem State.itemError_mem (s : State) (c : Nat) (n : QName) (idx src : Nat) (cause : Byte) (addr info : Nat) :
    (s.itemError c n idx src cause addr info).mem = s.mem := by simp [State.itemError]

@[simp] theorem State.gather_mem (s : State) (ctx : Nat) (f : Flags) : (s.gather ctx f).mem = s.mem := by
  simp only [State.gather]
  (repeat' split) <;> simp

@[simp] theorem State.declare_mem (s : State) (n serial : Nat) (rs : List Range) : (s.declare n serial rs).1.mem = s.mem := by
  simp only [State.declare]
  (repeat' split) <;> simp

/-! ### PCIe port -/

@[simp] theorem State.unusable_mem (s : State) (mask : BitVec 32) (dest : Option Nat) : (s.unusable mask dest).mem = s.mem := rfl

@[simp] theorem State.holdover_mem (s : State) : (s.holdover).mem = s.mem := by simp [State.holdover]

@[simp] theorem State.portDown_mem (s : State) (p cause : Nat) : (s.portDown p cause).mem = s.mem := by
  simp only [State.portDown]
  (repeat' split) <;> simp

@[simp] theorem State.routeDown_mem (s : State) (d cause : Nat) : (s.routeDown d cause).mem = s.mem := by
  simp only [State.routeDown]
  (repeat' split) <;> simp

@[simp] theorem State.linkDown_mem (s : State) (l : LinkId) (cause : Nat) : (s.linkDown l cause).mem = s.mem := by
  simp only [State.linkDown]
  split <;> simp

@[simp] theorem State.onSess_mem (s : State) (l : LinkId) (f : Session → Session) : (s.onSess l f).mem = s.mem := by
  simp only [State.onSess]
  split <;> simp

@[simp] theorem State.linkTraffic_mem (s : State) (vc inbound : Bool) (q bytes : Nat) :
    (s.linkTraffic vc inbound q bytes).mem = s.mem := rfl

@[simp] theorem State.sendOn_mem (s : State) (l : LinkId) (k : OutPkt) : (s.sendOn l k).mem = s.mem := by
  simp only [State.sendOn]
  split <;> simp

@[simp] theorem State.flit_mem (s : State) (p : Nat) (data : Bool) (seq : Nat) (payload : Bytes) (nak : Bool) :
    (s.flit p data seq payload nak).1.mem = s.mem := by simp [State.flit]

@[simp] theorem State.idle_mem (s : State) (p : Nat) (nak : Bool) : (s.idle p nak).1.mem = s.mem := by simp [State.idle]

@[simp] theorem dataFlits_mem (p : Nat) (l : List Bytes) (s : State) : (dataFlits p l s).1.mem = s.mem := by
  induction l generalizing s with
  | nil => rfl
  | cons b l ih => simp [dataFlits, ih]

@[simp] theorem replayFlits_mem (p : Nat) (l : List (Nat × Nat × Bytes)) (s : State) : (replayFlits p l s).1.mem = s.mem := by
  induction l generalizing s with
  | nil => rfl
  | cons e l ih => simp [replayFlits, ih]

@[simp] theorem State.flitsOut_mem (s : State) (p : Nat) (fs : Bytes) : (s.flitsOut p fs).mem = s.mem := rfl

@[simp] theorem State.replayNow_mem (s : State) (p : Nat) : (s.replayNow p).mem = s.mem := by simp [State.replayNow]

@[simp] theorem State.flitIn_mem (s : State) (p : Nat) (f : Bytes) : (s.flitIn p f).mem = s.mem := by
  simp only [State.flitIn]
  (repeat' split) <;> simp

@[simp] theorem State.frame_mem (s : State) (f : PortForm) (r : RouteForm) (pkt : Bytes) : (s.frame f r pkt).1.mem = s.mem := rfl

/-! ### Cellar -/

@[simp] theorem State.onCellar_mem (s : State) (f : Cellar → Cellar) : (s.onCellar f).mem = s.mem := rfl

@[simp] theorem State.endHoldover_mem (s : State) : (s.endHoldover).mem = s.mem := by simp [State.endHoldover]

@[simp] theorem State.timeIn_mem (s : State) (l : LinkId) (b : Bytes) : (s.timeIn l b).mem = s.mem := by
  simp only [State.timeIn]
  (repeat' split) <;> simp

/-! ### DMA -/

@[simp] theorem State.atsAsk_mem (s : State) (q : Nat) (pasid : BitVec 20) (page : Nat) :
    (s.atsAsk q pasid page).mem = s.mem := by simp [State.atsAsk]

@[simp] theorem State.dmaFail_mem (s : State) (n serial q : Nat) (malformed : Bool) (cause : Byte) (va : Nat) :
    (s.dmaFail n serial q malformed cause va).mem = s.mem := by simp [State.dmaFail]

@[simp] theorem State.reserve_mem (s : State) (k : Nat) (measured : Bool) :
    (s.reserve k measured).1.mem = s.mem := by simp [State.reserve]

@[simp] theorem State.dmaArrive_mem (s : State) (n serial k list : Nat) (bs : List Bytes) (i : Nat) :
    (s.dmaArrive n serial k list bs i).1.mem = s.mem := by
  induction bs generalizing s i with
  | nil => rfl
  | cons b bs ih => simp [State.dmaArrive, ih]

@[simp] theorem State.dqPush_mem (s : State) (c : Nat) (va : Word) (ring : BitVec 2) : (s.dqPush c va ring).mem = s.mem := by
  simp only [State.dqPush]
  split <;> simp

@[simp] theorem State.unreserve_mem (s : State) (k : Nat) (measured : Bool) : (s.unreserve k measured).mem = s.mem := by
  simp only [State.unreserve]
  (repeat' split) <;> simp

@[simp] theorem State.dropXfers_mem (s : State) (ch : Nat) (p : XferSrc → Nat → Bool) :
    (s.dropXfers ch p).mem = s.mem := by simp [State.dropXfers]

@[simp] theorem State.xferFail_mem (s : State) (ch : Nat) (src : XferSrc) (ctx : Nat) (malformed : Bool) (cause : Byte) (va : Nat) :
    (s.xferFail ch src ctx malformed cause va).mem = s.mem := by
  simp only [State.xferFail]
  split <;> simp

@[simp] theorem State.fqConsume_mem (s : State) (k : Nat) (v : BitVec 12) : (s.fqConsume k v).mem = s.mem := rfl

@[simp] theorem State.staleResume_mem (s : State) : (s.staleResume).mem = s.mem := rfl

@[simp] theorem State.invalEnd_mem (s : State) : (s.invalEnd).mem = s.mem := by simp [State.invalEnd]

/-! ### Vector operations -/

@[simp] theorem State.vecFlags_mem (s : State) (c : Nat) (f : Flags) : (s.vecFlags c f).mem = s.mem := by simp [State.vecFlags]

@[simp] theorem State.residue_mem (s : State) (c n : Nat) : (s.residue c n).1.mem = s.mem := by simp [State.residue]

@[simp] theorem mapGo_mem (c : Nat) (o : OpW) (v : Vec) (wr : Nat → BitVec 128 → Vec → Vec) (f : Nat → El) (k i : Nat) (s : State) :
    (mapGo c o v wr f k i s).1.mem = s.mem := by
  induction k generalizing i s with
  | zero => rfl
  | succ k ih => simp [mapGo, ih]

@[simp] theorem mapVec_mem (f : Vec → OpW → Nat → El) (n : OpW → Nat) (c : Nat) (o : OpW) (s : State) :
    (mapVec f n c o s).1.mem = s.mem := by
  simp [mapVec]

@[simp] theorem mapMask_mem (s : State) (f : Vec → OpW → Nat → Bool × Flags) (c : Nat) (o : OpW) :
    (mapMask f c o s).1.mem = s.mem := by simp [mapMask]

@[simp] theorem State.vres_mem (s : State) (c : Nat) (o : OpW) (x : Nat) : (s.vres c o x).mem = s.mem := by simp [State.vres]

@[simp] theorem freeGo_mem (c : Nat) (o : OpW) (v : Vec) (k i : Nat) (s : State) : (freeGo c o v k i s).mem = s.mem := by
  induction k generalizing i s with
  | zero => rfl
  | succ k ih => simp [freeGo, ih]

@[simp] theorem pairUp_mem (c : Nat) (f : BitVec 128 → BitVec 128 → El) (l : List (Option (BitVec 128))) (s : State) :
    (pairUp c f l s).1.mem = s.mem := by
  induction l, s using pairUp.induct c f with
  | case1 s => rfl
  | case2 s x => rfl
  | case3 x y l s t hr =>
    have := hr
    grind [pairUp, State.residue_mem, State.vecFlags_mem]
  | case4 s x y l t r hr zs u hz ih => 
    grind [pairUp, State.residue_mem, State.vecFlags_mem]
  | case5 s x y l t hr => 
    grind [pairUp, State.residue_mem, State.vecFlags_mem]

@[simp] theorem tree_mem (c : Nat) (f : BitVec 128 → BitVec 128 → El) (k : Nat) (l : List (Option (BitVec 128))) (s : State) :
    (tree c f k l s).1.mem = s.mem := by
  induction k generalizing l s with
  | zero => rfl
  | succ k ih =>
    have hp := pairUp_mem c f l s
    simp only [tree]
    split <;> simp_all

/-! ### Vector engine -/

@[simp] theorem State.vecCheck_mem (c : Nat) (o : OpW) (accs : List Acc) (n : Nat) (l : List (Nat × Nat × Nat)) (s : State) :
    (State.vecCheck c o accs n l s).1.mem = s.mem := by
  induction l generalizing s with
  | nil => rfl
  | cons e l ih =>
    simp only [State.vecCheck]
    split
    · simp
    · rfl
    · rename_i pa key idx ps _
      have hl := ih (ps.foldl (fun t p => t.touch (s.vecEng c o).agent (s.vecEng c o).ctx p.2.2)
        (s.touch (s.vecEng c o).agent (s.vecEng c o).ctx idx))
      split <;> simp_all

@[simp] theorem vatGo_mem (c : Nat) (o : OpW) (v : Vec) (l : List MAcc) (s : State) : (vatGo c o v l s).mem = s.mem := by
  induction l generalizing s with
  | nil => rfl
  | cons m l ih => simp [vatGo, ih]

@[simp] theorem State.cursor_mem (s : State) (c k n : Nat) : (s.cursor c k n).mem = s.mem := rfl

@[simp] theorem vecEcc_mem (c n : Nat) (s : State) : (vecEcc c n s).1.mem = s.mem := by
  induction n generalizing s with
  | zero => rfl
  | succ n ih =>
    simp only [vecEcc]
    split <;> simp [ih]

@[simp] theorem State.vecFail_mem (s : State) (c idx : Nat) (e : VErr) : (s.vecFail c idx e).mem = s.mem := by simp [State.vecFail]

@[simp] theorem State.vecRan_mem (s : State) (c idx n : Nat) : (s.vecRan c idx n).mem = s.mem := rfl

@[simp] theorem State.addStatus_mem (s : State) (owner : Nat) (f : Flags) : (s.addStatus owner f).mem = s.mem := by simp [State.addStatus]

/-! ### Matrix engine -/

@[simp] theorem State.mqFail_mem (s : State) (c idx : Nat) (fill : Bool) (e : VErr) :
    (s.mqFail c idx fill e).mem = s.mem := by simp [State.mqFail]

@[simp] theorem State.onPass_mem (s : State) (c idx : Nat) (f : Pass → Pass) : (s.onPass c idx f).mem = s.mem := rfl

@[simp] theorem freshWords_mem (n : Nat) (s : State) : (freshWords n s).2.mem = s.mem := by
  induction n generalizing s with
  | zero => rfl
  | succ n ih => exact ih _

@[simp] theorem State.tileCol_mem (s : State) (t : Tile) (p : PassD) (c : Nat) :
    (s.tileCol t p c).1.mem = s.mem := by simp [State.tileCol]

@[simp] theorem tileCols_mem (t : Tile) (p : PassD) (l : List Nat) (s : State) : (tileCols t p l s).1.mem = s.mem := by
  induction l generalizing s with
  | nil => rfl
  | cons c l ih => simp [tileCols, ih]

@[simp] theorem matEcc_mem (c n : Nat) (s : State) : (matEcc c n s).1.mem = s.mem := by
  induction n generalizing s with
  | zero => rfl
  | succ n ih =>
    simp only [matEcc]
    split <;> simp [ih]

@[simp] theorem State.passPoison_mem (s : State) (c : Nat) (q : Pass) : (s.passPoison c q).mem = s.mem := by
  simp only [State.passPoison]
  split <;> simp

/-! ### Collectives -/

@[simp] theorem State.sendPieces_mem (s : State) (r : GroupRec) (seq : Nat) (d : CollD) (dest : Nat) (xs : List SendPiece) :
    (s.sendPieces r seq d dest xs).mem = s.mem := by simp [State.sendPieces]

@[simp] theorem State.sendPiecesAll_mem (s : State) (r : GroupRec) (seq : Nat) (d : CollD) (xs : List SendPiece) :
    (s.sendPiecesAll r seq d xs).mem = s.mem := by simp [State.sendPiecesAll]

@[simp] theorem State.collResidue_mem (s : State) (r : GroupRec) (n : Nat) :
    (s.collResidue r n).1.mem = s.mem := by simp [State.collResidue]

@[simp] theorem State.collClose_mem (s : State) (r : GroupRec) (u : CollRun) : (s.collClose r u).mem = s.mem := rfl

@[simp] theorem State.dropCq_mem (s : State) (c idx : Nat) : (s.dropCq c idx).mem = s.mem := rfl

@[simp] theorem State.collFirst_mem (s : State) (r : GroupRec) (d : CollD) (u : CollRun) (seq : Nat) :
    (s.collFirst r d u seq).1.mem = s.mem := by
  simp only [State.collFirst]
  split <;> simp

@[simp] theorem State.collCheck_mem (s : State) (r : GroupRec) (i : CollItem) : (s.collCheck r i).1.mem = s.mem := by
  simp only [State.collCheck]
  split
  · rfl
  · refine foldl_fst_mem (fun a x => ?_) ..
    split
    · rfl
    · split <;> simp

@[simp] theorem State.tagDiscard_mem (s : State) (q : Nat) : (s.tagDiscard q).mem = s.mem := rfl

/-! ### Links -/

@[simp] theorem State.identify_mem (s : State) (l : LinkId) : (s.identify l).mem = s.mem := by
  simp only [State.identify]
  split <;> simp

@[simp] theorem State.wakeRoutes_mem (s : State) : (s.wakeRoutes).mem = s.mem := by simp [State.wakeRoutes]

@[simp] theorem State.trainedOn_mem (s : State) (p : Fin 32) : (s.trainedOn p).mem = s.mem := by simp [State.trainedOn]

@[simp] theorem State.portRestart_mem (s : State) (p : Nat) : (s.portRestart p).mem = s.mem := rfl

@[simp] theorem State.admitPeer_mem (s : State) (l : LinkId) (w : PeerId) : (s.admitPeer l w).mem = s.mem := by
  simp only [State.admitPeer]
  split <;> simp

@[simp] theorem State.freshKey_mem (s : State) : (s.freshKey).2.mem = s.mem := rfl

@[simp] theorem State.linkExchange_mem (s : State) (l : LinkId) (w : PeerId) :
    (s.linkExchange l w).mem = s.mem := by simp [State.linkExchange]

@[simp] theorem State.linkFinish_mem (s : State) (l : LinkId) (ok : Bool) : (s.linkFinish l ok).mem = s.mem := by
  simp only [State.linkFinish]
  split <;> simp

@[simp] theorem State.linkUpdate_mem (s : State) (l : LinkId) (outbound : Bool) :
    (s.linkUpdate l outbound).mem = s.mem := by simp [State.linkUpdate]

@[simp] theorem State.linkEnd_mem (s : State) (l : LinkId) : (s.linkEnd l).mem = s.mem := by simp [State.linkEnd]

@[simp] theorem State.flitsSend_mem (s : State) (p : Fin 32) (all : Bytes) : (s.flitsSend p all).mem = s.mem := by simp [State.flitsSend]

@[simp] theorem State.nativeSend_mem (s : State) (p : Fin 32) : (s.nativeSend p).mem = s.mem := by
  simp only [State.nativeSend]
  split <;> simp

@[simp] theorem State.frameSend_mem (s : State) (d p : Nat) (pkt : Bytes) : (s.frameSend d p pkt).1.mem = s.mem := by
  simp only [State.frameSend]
  split <;> simp

@[simp] theorem State.routeOut_mem (s : State) (d : Fin 8192) (p : Nat) (typ : BitVec 2) (plain : Bool) (payload : Bytes) :
    (s.routeOut d p typ plain payload).mem = s.mem := by simp [State.routeOut]

@[simp] theorem State.routeSend_mem (s : State) (d : Fin 8192) : (s.routeSend d).mem = s.mem := by
  simp only [State.routeSend]
  (repeat' split) <;> simp

@[simp] theorem State.sendAck_mem (s : State) (d : Fin 8192) (nak : Bool) : (s.sendAck d nak).mem = s.mem := by
  simp only [State.sendAck]
  split <;> simp

@[simp] theorem resendAll_mem (d : Nat) (l : List (Nat × Nat × Bytes)) (s : State) : (resendAll d l s).1.mem = s.mem := by
  induction l generalizing s with
  | nil => rfl
  | cons e l ih => simp [resendAll, ih]

@[simp] theorem State.retransmit_mem (s : State) (d : Nat) : (s.retransmit d).mem = s.mem := by
  simp only [State.retransmit]
  split <;> simp

@[simp] theorem State.ackIn_mem (s : State) (d : Nat) (b : Bytes) : (s.ackIn d b).mem = s.mem := by simp [State.ackIn]

@[simp] theorem State.owe_mem (s : State) (l : LinkId) (typ n : Nat) : (s.owe l typ n).mem = s.mem := by
  simp only [State.owe]
  split <;> simp

@[simp] theorem State.authBad_mem (s : State) (l : LinkId) (p : Nat) : (s.authBad l p).mem = s.mem := by simp [State.authBad]

@[simp] theorem State.check_mem (s : State) (l : LinkId) (p : Nat) (pkt : Bytes) : (s.check l p pkt).1.mem = s.mem := by
  simp only [State.check]
  (repeat' split) <;> simp

@[simp] theorem State.nativeIn_mem (s : State) (p : Fin 32) (want : Nat → Bool) : (s.nativeIn p want).1.mem = s.mem := by
  simp only [State.nativeIn]
  split
  · rfl
  · rename_i pkt rest _
    split
    · rfl
    · split <;> rename_i hc <;> simpa using congrArg (·.1.mem) hc.symm

@[simp] theorem State.frameIn_mem (s : State) (p : Fin 32) (ce : Bool) (pkt : Bytes) (want : Nat → Bool) :
    (s.frameIn p ce pkt want).1.mem = s.mem := by
  simp only [State.frameIn]
  repeat' split
  all_goals simp
  all_goals
    rename_i hc
    simpa using congrArg (·.1.mem) hc.symm

@[simp] theorem State.packetIn_mem (s : State) (rx : LinkRx) (want : Nat → Bool) : (s.packetIn rx want).1.mem = s.mem := by
  simp only [State.packetIn]
  split <;> simp

/-! ### Management -/

@[simp] theorem State.onMgmt_mem (s : State) (f : Mgmt → Mgmt) : (s.onMgmt f).mem = s.mem := rfl

@[simp] theorem State.answer_mem (s : State) (b : Binding) (a : Answer) : (s.answer b a).mem = s.mem := rfl

@[simp] theorem State.reply_mem (s : State) (b : Binding) (recovery : Bool) (a : Answer) :
    (s.reply b recovery a).mem = s.mem := by simp [State.reply]

@[simp] theorem State.askSign_mem (s : State) (r : SignReq) : (s.askSign r).mem = s.mem := rfl

@[simp] theorem State.stopNow_mem (s : State) (u : Nat) : (s.stopNow u).mem = s.mem := by simp [State.stopNow]

@[simp] theorem State.setMgmtSess_mem (s : State) (b : Binding) (x : Session) : (s.setMgmtSess b x).mem = s.mem := rfl

@[simp] theorem State.sessionSigned_mem (s : State) (peer : SpdmPeer) : (s.sessionSigned peer).mem = s.mem := by
  simp only [State.sessionSigned]
  (repeat' split) <;> simp

@[simp] theorem State.setKey_mem (s : State) (k : Nat) (v : KeySlot) : (s.setKey k v).mem = s.mem := rfl

@[simp] theorem State.destroyKeys_mem (s : State) : (s.destroyKeys).mem = s.mem := rfl

/-! ### Fault collector -/

@[simp] theorem State.slotRead_mem (s : State) (i w : Nat) : (s.slotRead i w).1.mem = s.mem := by
  simp only [State.slotRead]
  split <;> simp

@[simp] theorem State.unhold_mem (s : State) (src seq : Nat) : (s.unhold src seq).mem = s.mem := rfl

@[simp] theorem State.ackWrite_mem (s : State) (v : Word) : (s.ackWrite v).mem = s.mem := by
  simp only [State.ackWrite]
  split <;> simp

@[simp] theorem State.collectorClear_mem (s : State) (o : Nat) : (s.collectorClear o).mem = s.mem := rfl

@[simp] theorem State.collectorWrite_mem (s : State) (r : Requester) (o : Nat) (v : Word) : (s.collectorWrite r o v).mem = s.mem := by
  simp only [State.collectorWrite]
  (repeat' split) <;> simp

/-! ### Press -/

@[simp] theorem State.onLane_mem (s : State) (q l : Nat) (f : Lane → Lane) : (s.onLane q l f).mem = s.mem := rfl

@[simp] theorem State.onRun_mem (s : State) (q l : Nat) (f : BatchRun → BatchRun) : (s.onRun q l f).mem = s.mem := rfl

@[simp] theorem State.onRunId_mem (s : State) (q id : Nat) (f : BatchRun → BatchRun) : (s.onRunId q id f).mem = s.mem := rfl

@[simp] theorem State.dropBatches_mem (s : State) (q : Nat) (f : Nat → BatchItem → Bool) :
    (s.dropBatches q f).mem = s.mem := by simp [State.dropBatches]

@[simp] theorem State.batchFail_mem (s : State) (q : Nat) (src : BatchSrc) (ctx va : Nat) (f : PlanFail) :
    (s.batchFail q src ctx va f).mem = s.mem := by
  simp only [State.batchFail]
  split <;> simp

@[simp] theorem State.send_mem (s : State) (home sender : Nat) (r : PressReq) : (s.send home sender r).mem = s.mem := rfl

@[simp] theorem State.sendAll_mem (s : State) (sender : Nat) (r : PressReq) : (s.sendAll sender r).mem = s.mem := rfl

@[simp] theorem State.pressAnswer_mem (s : State) (q sender : Nat) (a : PressAns) : (s.pressAnswer q sender a).mem = s.mem := rfl

@[simp] theorem State.popBatch_mem (s : State) (q l : Nat) : (s.popBatch q l).mem = s.mem := rfl

@[simp] theorem State.runBatch_mem (s : State) (q l : Nat) (r : BatchRun) : (s.runBatch q l r).mem = s.mem := rfl

@[simp] theorem State.rcOffer_mem (s : State) (q : Nat) (t : TableRec) (i : Nat) (data : Bytes) :
    (s.rcOffer q t i data).mem = s.mem := by simp [State.rcOffer]

@[simp] theorem State.sizeLoop_mem (s : State) (q : Nat) : (s.sizeLoop q).mem = s.mem := rfl

@[simp] theorem State.cutLoop_mem (s : State) (q : Nat) : (s.cutLoop q).mem = s.mem := by simp [State.cutLoop]

@[simp] theorem State.markHot_mem (s : State) (q : Nat) : (s.markHot q).mem = s.mem := by
  simp only [State.markHot]
  rw [foldl_mem fun t e => by split <;> simp]
  simp

@[simp] theorem State.askCounts_mem (s : State) (q : Nat) : (s.askCounts q).mem = s.mem := by simp [State.askCounts]

@[simp] theorem State.staleRow_mem (s : State) (q t row : Nat) : (s.staleRow q t row).mem = s.mem := by simp [State.staleRow]

@[simp] theorem State.copiesFollow_mem (s : State) (q t row : Nat) (data : Bytes) (bad : Bool) (why : CutWhy) :
    (s.copiesFollow q t row data bad why).1.mem = s.mem := by
  simp only [State.copiesFollow]
  split <;> simp

@[simp] theorem State.onMove_mem (s : State) (q slot : Nat) (f : CutMove → CutMove) : (s.onMove q slot f).mem = s.mem := rfl

@[simp] theorem State.dropMove_mem (s : State) (q slot : Nat) : (s.dropMove q slot).mem = s.mem := rfl

@[simp] theorem State.moveNext_mem (s : State) (q : Nat) (m : CutMove) : (s.moveNext q m).mem = s.mem := by
  simp only [State.moveNext]
  split <;> simp

@[simp] theorem State.moveAnswer_mem (s : State) (q t slot below : Nat) : (s.moveAnswer q t slot below).mem = s.mem := by
  simp only [State.moveAnswer]
  split <;> simp

@[simp] theorem State.blendAnswer_mem (s : State) (t : Nat) : (s.blendAnswer t).mem = s.mem := rfl

@[simp] theorem State.closeEpochs_mem (s : State) (p : Nat) (forced : Bool) : (s.closeEpochs p forced).mem = s.mem := rfl

@[simp] theorem State.dropCuttings_mem (s : State) (f : Nat → Bool) : (s.dropCuttings f).mem = s.mem := rfl

@[simp] theorem State.dropCopies_mem (s : State) (t : Nat) : (s.dropCopies t).mem = s.mem := by simp [State.dropCopies]

@[simp] theorem State.applyTables_mem (s : State) (p : Nat) (recs : List TableRec) :
    (s.applyTables p recs).mem = s.mem := by simp [State.applyTables]

/-! ### Caches -/

@[simp] theorem State.dropAt_mem (s : State) (c i : Nat) : (s.dropAt c i).mem = s.mem := rfl

@[simp] theorem State.iFill_mem (s : State) (c line : Nat) (key : BitVec 10) (data : Bytes) : (s.iFill c line key data).mem = s.mem := rfl

/-! ### SRAM -/

@[simp] theorem State.sramRefuse_mem (s : State) (c : Nat) (a : SramAgent) (w : Who) (off : Nat) :
    (s.sramRefuse c a w off).mem = s.mem := by
  simp only [State.sramRefuse]
  split <;> simp

@[simp] theorem State.wayTargets_mem (s : State) (c : Nat) (dc ic : BitVec 8) : (s.wayTargets c dc ic).mem = s.mem := rfl

@[simp] theorem State.restoreWays_mem (s : State) (c : Nat) : (s.restoreWays c).mem = s.mem := by simp [State.restoreWays]

/-! ### Registers -/

@[simp] theorem State.mmioClear_mem (s : State) (a : Nat) : (s.mmioClear a).mem = s.mem := by
  simp only [State.mmioClear]
  (repeat' split) <;> simp

@[simp] theorem State.mmioRd_mem (s : State) (a : Nat) : (s.mmioRd a).1.mem = s.mem := by
  simp only [State.mmioRd]
  (repeat' split) <;> simp

@[simp] theorem State.irqRaise_mem (s : State) (c : Nat) (v : Word) : (s.irqRaise c v).mem = s.mem := by simp [State.irqRaise]

@[simp] theorem State.barClear_mem (s : State) (a : Nat) : (s.barClear a).mem = s.mem := by simp [State.barClear]

@[simp] theorem State.msixWrite_mem (s : State) (i : Nat) (v : Word) : (s.msixWrite i v).mem = s.mem := by simp [State.msixWrite]

@[simp] theorem State.regRd_mem (s : State) (sp : RegSpace) (a : Nat) : (s.regRd sp a).1.mem = s.mem := by
  simp only [State.regRd]
  split <;> simp

@[simp] theorem State.latch_mem (s : State) (r : Requester) (sp : RegSpace) (a : Nat) (hi : BitVec 32) :
    (s.latch r sp a hi).mem = s.mem := rfl

@[simp] theorem State.read32_mem (s : State) (r : Requester) (sp : RegSpace) (a : Nat) : (s.read32 r sp a).1.mem = s.mem := by
  simp only [State.read32]
  (repeat' split) <;> simp

@[simp] theorem State.hostData_mem (s : State) (r : Requester) (v : Word) : (s.hostData r v).mem = s.mem := by
  simp only [State.hostData]
  split <;> simp

/-! ### Load and store unit -/

@[simp] theorem State.ownSev_mem (s : State) (c sev : Nat) (cause : Byte) (ctx : Option Nat) (addr : Nat) (inj : Bool) :
    (s.ownSev c sev cause ctx addr inj).mem = s.mem := by simp [State.ownSev]

@[simp] theorem State.lsuPost_mem (s : State) (c port : Nat) (v : Word) (deliver miss : Bool) :
    (s.lsuPost c port v deliver miss).mem = s.mem := rfl

/-! ### Sequencer -/

@[simp] theorem State.coreHalt_mem (s : State) (c : Nat) : (s.coreHalt c).mem = s.mem := by simp [State.coreHalt]

@[simp] theorem State.dropDiv_mem (s : State) (c : Nat) : (s.dropDiv c).mem = s.mem := rfl

@[simp] theorem State.missTrap_mem (s : State) (c v : Nat) : (s.missTrap c v).mem = s.mem := by
  simp only [State.missTrap]
  (repeat' split) <;> simp

@[simp] theorem State.fetch_mem (s : State) (c : Nat) : (s.fetch c).1.mem = s.mem := by
  simp only [State.fetch]
  (repeat' split) <;> simp

@[simp] theorem State.scalars_mem (s : State) (c : Nat) (vals : List (Nat × Word)) : (s.scalars c vals).mem = s.mem := by
  simp only [State.scalars]
  exact foldl_mem (fun t e => by split <;> simp) ..

/-! ### Applying an image -/

@[simp] theorem State.emptyCore_mem (s : State) (c : Nat) : (s.emptyCore c).mem = s.mem := rfl

@[simp] theorem State.dropCtxs_mem (s : State) (old : Active) : (s.dropCtxs old).mem = s.mem := by simp [State.dropCtxs]

@[simp] theorem State.applyGroups_mem (s : State) : (s.applyGroups).mem = s.mem := by simp [State.applyGroups]

@[simp] theorem State.applyQuarter_mem (s : State) (q : Nat) : (s.applyQuarter q).mem = s.mem := by simp [State.applyQuarter]

@[simp] theorem State.applyPort_mem (s : State) (old : Active) (first : Bool) (p : Fin 32) :
    (s.applyPort old first p).mem = s.mem := by simp [State.applyPort]

@[simp] theorem State.applyRoutes_mem (s : State) (old : Active) : (s.applyRoutes old).mem = s.mem := by
  simp only [State.applyRoutes, State.wakeRoutes_mem]
  rw [foldl_mem fun t r => by split <;> simp]
  simp

/-! ### Provenance -/

@[simp] theorem State.signedDone_mem (s : State) (n serial : Nat) : (s.signedDone n serial).mem = s.mem := by
  simp only [State.signedDone]
  split <;> simp

/-! ### Racking -/

@[simp] theorem State.stopLanes_mem (s : State) (p q : Nat) : (s.stopLanes p q).mem = s.mem := by simp [State.stopLanes]

@[simp] theorem State.stopGroups_mem (s : State) (p : Nat) : (s.stopGroups p).mem = s.mem := by simp [State.stopGroups]

@[simp] theorem State.emptyCtxs_mem (s : State) (p : Nat) : (s.emptyCtxs p).mem = s.mem := by simp [State.emptyCtxs]

@[simp] theorem State.applyKeys_mem (s : State) (p : Nat) : (s.applyKeys p).mem = s.mem := rfl

@[simp] theorem State.xtFail_mem (s : State) (k : Nat) : (s.xtFail k).mem = s.mem := by simp [State.xtFail]

@[simp] theorem State.fixUsable_mem (s : State) (A : Active) (p : Nat) : (s.fixUsable A p).mem = s.mem := rfl

@[simp] theorem State.checkUnits_mem (s : State) (p : Nat) : (s.checkUnits p).mem = s.mem := by simp [State.checkUnits]

@[simp] theorem State.takeImage_mem (s : State) (p : Nat) (img : Image) (joint : List Nat) : (s.takeImage p img joint).mem = s.mem := rfl

@[simp] theorem State.openQueue_mem (s : State) (n : Nat) : (s.openQueue n).mem = s.mem := rfl

@[simp] theorem State.openVintage_mem (s : State) (p : Nat) : (s.openVintage p).mem = s.mem := by simp [State.openVintage]

@[simp] theorem State.endQueues_mem (s : State) (ns : List Nat) : (State.endQueues ns s).mem = s.mem := by simp [State.endQueues]

/-! ### Alarms -/

@[simp] theorem State.trimCmd_mem (s : State) (n : Nat) (c : Cmd) : (s.trimCmd n c).mem = s.mem := by simp [State.trimCmd]

@[simp] theorem State.dropItems_mem (s : State) (c : Nat) : (s.dropItems c).mem = s.mem := rfl

@[simp] theorem State.failChan_mem (s : State) (k ch : Nat) : (s.failChan k ch).mem = s.mem := by simp [State.failChan]

@[simp] theorem State.dropWork_mem (s : State) (k : Nat) : (s.dropWork k).mem = s.mem := by simp [State.dropWork]

@[simp] theorem State.warnCores_mem (s : State) (k : Nat) (own : Option Nat) :
    (s.warnCores k own).mem = s.mem := by simp [State.warnCores]

@[simp] theorem State.failCtx_mem (s : State) (k : Nat) (own : Option Nat) : (s.failCtx k own).mem = s.mem := by
  simp only [State.failCtx]
  (repeat' split) <;> simp

@[simp] theorem State.fatal_mem (s : State) : (s.fatal).mem = s.mem := by simp [State.fatal]

@[simp] theorem State.count0_mem (s : State) (a : Alarm) : (s.count0 a).mem = s.mem := rfl

/-! ### Resets -/

@[simp] theorem State.bringUp_mem (s : State) : (s.bringUp).mem = s.mem := by simp [State.bringUp]

@[simp] theorem State.romStart_mem (s : State) : (s.romStart).mem = s.mem := by simp [State.romStart]

@[simp] theorem State.onBoot_mem (s : State) (f : Boot → Boot) : (s.onBoot f).mem = s.mem := rfl

@[simp] theorem markGrans_mem (poisoned ok : Bool) (n g : Nat) (s : State) : (markGrans poisoned ok n g s).mem = s.mem := by
  induction n generalizing g s with
  | zero => rfl
  | succ n ih => simp [markGrans, ih]

/-! ### Trellis -/

@[simp] theorem State.onTrellis_mem (s : State) (f : Trellis → Trellis) : (s.onTrellis f).mem = s.mem := rfl

@[simp] theorem State.reject_mem (s : State) (code : Nat) : (s.reject code).mem = s.mem := by simp [State.reject]

/-! ## Functions that keep memory in canonical form -/

/-! ### Shared operations -/

@[simp] theorem rdGrans_wf (w : Who) (l : List (Nat × Nat)) {s : State} (h : Memory.wf s.mem = true) :
    Memory.wf (rdGrans w l s).1.mem = true :=
  (rdGrans_memStep w l s).wf h

@[simp] theorem wrGrans_wf (w : Who) (m : Bool) (l : List (Nat × Nat)) (bs : Bytes) {s : State} (h : Memory.wf s.mem = true) :
    Memory.wf (wrGrans w m l bs s).mem = true :=
  (wrGrans_memStep w m l bs s).wf h

/-! ### Trellis image -/

@[simp] theorem State.readTable_wf {s : State} (A : Active) (r : CtxRec) (h : Memory.wf s.mem = true) :
    Memory.wf (s.readTable A r).1.mem = true := by
  simp only [State.readTable]
  repeat' split
  all_goals simp [h]

@[simp] theorem State.readTables_wf (A : Active) (l : List CtxRec) {s : State} (h : Memory.wf s.mem = true) :
    Memory.wf (s.readTables A l).1.mem = true := by
  induction l generalizing s with
  | nil => exact h
  | cons r l ih => exact ih (s.readTable_wf A r h)

@[simp] theorem State.checkTables_wf {s : State} (A : Active)
    (h : Memory.wf s.mem = true) : Memory.wf (s.checkTables A).1.mem = true := by
  simp [State.checkTables, h]

/-! ### HBM -/

@[simp] theorem execHbmReadRequest_wf (req : HbmReq) {s : State} (h : Memory.wf s.mem = true) : AnswersWf (execHbmReadRequest req s) := by
  simp [execHbmReadRequest, h]

@[simp] theorem execHbmWriteRequest_wf (req : HbmReq) {s : State}
    (h : Memory.wf s.mem = true) : AnswersWf (execHbmWriteRequest req s) := by
  simp [execHbmWriteRequest, h]

@[simp] theorem execHbmAccess_wf (cmd : HbmCmd) {s : State} (h : Memory.wf s.mem = true) : AnswersWf (execHbmAccess cmd s) := by
  simp only [execHbmAccess]
  repeat' split
  all_goals simp [h]

@[simp] theorem execHbmResponse_wf (pc : Fin 768) (k : Nat) {s : State} (h : Memory.wf s.mem = true) :
    AnswersWf (execHbmResponse pc k s) := by
  simp only [execHbmResponse]
  repeat' split
  all_goals simp [h]

@[simp] theorem execHbmWindowBoundary_wf (st : Fin 12) {s : State} (h : Memory.wf s.mem = true) :
    AnswersWf (execHbmWindowBoundary st s) := by
  simp [execHbmWindowBoundary, h]

@[simp] theorem State.hbmFix_wf {s : State} (g : Nat) (r : Gran) (h : Memory.wf s.mem = true) : Memory.wf (s.hbmFix g r).mem = true := by
  simp [State.hbmFix, h]

@[simp] theorem execHbmRewrite_wf (pc : Fin 768) {s : State} (h : Memory.wf s.mem = true) : AnswersWf (execHbmRewrite pc s) := by
  simp only [execHbmRewrite]
  repeat' split
  all_goals simp [h]

@[simp] theorem State.scrubGran_wf {s : State} (pc p j : Nat)
    (h : Memory.wf s.mem = true) : Memory.wf (s.scrubGran pc p j).mem = true := by
  simp only [State.scrubGran]
  repeat' split
  all_goals simp [h]

@[simp] theorem execHbmScrubStep_wf (st : Fin 12) {s : State} (h : Memory.wf s.mem = true) : AnswersWf (execHbmScrubStep st s) := by
  simp only [execHbmScrubStep]
  split <;> simp [h]

@[simp] theorem execRefresh_wf (cmd : HbmCmd) (b : HbmBank) {s : State}
    (h : Memory.wf s.mem = true) : AnswersWf (execRefresh cmd b s) := by
  simp [execRefresh, h]

@[simp] theorem execStackTempRead_wf (st : Fin 12) (temp : Byte) {s : State} (h : Memory.wf s.mem = true) :
    AnswersWf (execStackTempRead st temp s) := by
  simp [execStackTempRead, h]

@[simp] theorem execRegionClearDone_wf (base : BitVec 48) {s : State} (h : Memory.wf s.mem = true) :
    AnswersWf (execRegionClearDone base s) := by
  simp [execRegionClearDone, h]

@[simp] theorem execHbmWeights_wf (r : Requester) (st : Fin 12) (v : Word) {s : State} (h : Memory.wf s.mem = true) :
    AnswersWf (execHbmWeights r st v s) := by
  simp [execHbmWeights, h]

/-! ### Fabric -/

@[simp] theorem execFabricPacketSend_wf (sel : FabricSel) {s : State} (h : Memory.wf s.mem = true) :
    AnswersWf (execFabricPacketSend sel s) := by
  simp only [execFabricPacketSend]
  repeat' split
  all_goals simp [h]

@[simp] theorem execFabricPacketArrival_wf (id : Nat) {s : State} (h : Memory.wf s.mem = true) :
    AnswersWf (execFabricPacketArrival id s) := by
  simp only [execFabricPacketArrival]
  split <;> simp [h]

@[simp] theorem execD2dLinkFailure_wf (d : Fin 10) {s : State} (h : Memory.wf s.mem = true) : AnswersWf (execD2dLinkFailure d s) := by
  simp [execD2dLinkFailure, h]

/-! ### Queues -/

@[simp] theorem State.record_wf {s : State} (n : Nat) (h : Memory.wf s.mem = true) : Memory.wf (s.record n).mem = true := by
  simp only [State.record]
  repeat' split
  all_goals simp [h]

@[simp] theorem State.recordAll_wf (f n : Nat) {s : State}
    (h : Memory.wf s.mem = true) : Memory.wf (State.recordAll f s n).mem = true := by
  induction f generalizing s with
  | zero => exact h
  | succ f ih =>
    simp only [State.recordAll]
    split
    · exact h
    · split
      · exact ih (s.record_wf n h)
      · exact h

@[simp] theorem execQueueEnable_wf (n : Fin 8192) (v : Word) {s : State} (h : Memory.wf s.mem = true) :
    AnswersWf (execQueueEnable n v s) := by
  simp [execQueueEnable, h]

@[simp] theorem execQueueDisable_wf (n : Fin 8192) (v : Word) {s : State} (h : Memory.wf s.mem = true) :
    AnswersWf (execQueueDisable n v s) := by
  simp [execQueueDisable, h]

@[simp] theorem execQtailDb_wf (k : Fin 1024) (j : Fin 8) (v : Word) {s : State} (h : Memory.wf s.mem = true) :
    AnswersWf (execQtailDb k j v s) := by
  simp [execQtailDb, h]

@[simp] theorem execCqheadDb_wf (k : Fin 1024) (j : Fin 8) (v : Word) {s : State} (h : Memory.wf s.mem = true) :
    AnswersWf (execCqheadDb k j v s) := by
  simp [execCqheadDb, h]

@[simp] theorem execCommandFetch_wf (n : Fin 8192) {s : State} (h : Memory.wf s.mem = true) : AnswersWf (execCommandFetch n s) := by
  simp only [execCommandFetch]
  repeat' split
  all_goals try simp [h]
  all_goals exact fst_wf ‹_› (by simp [h])

@[simp] theorem execLaunchCountReached_wf (n : Fin 8192) {s : State} (h : Memory.wf s.mem = true) :
    AnswersWf (execLaunchCountReached n s) := by
  simp only [execLaunchCountReached]
  split <;> simp [h]

@[simp] theorem execNop_wf (n : Fin 8192) {s : State} (h : Memory.wf s.mem = true) : AnswersWf (execNop n s) := by
  simp only [execNop]
  split <;> simp [h]

@[simp] theorem execVintageEnd_wf (n : Fin 8192) {s : State} (h : Memory.wf s.mem = true) : AnswersWf (execVintageEnd n s) := by
  simp only [execVintageEnd]
  split <;> simp [h]

@[simp] theorem execWriteValue_wf (n : Fin 8192) {s : State} (h : Memory.wf s.mem = true) : AnswersWf (execWriteValue n s) := by
  simp only [execWriteValue]
  repeat' split
  all_goals simp [h]

@[simp] theorem execDispatch_wf (n : Fin 8192) {s : State} (h : Memory.wf s.mem = true) : AnswersWf (execDispatch n s) := by
  simp only [execDispatch]
  repeat' split
  all_goals try simp [h]
  all_goals exact fst_wf ‹_› (by simp [h])

@[simp] theorem execCompletionWrite_wf (n : Fin 8192) {s : State} (h : Memory.wf s.mem = true) : AnswersWf (execCompletionWrite n s) := by
  simp only [execCompletionWrite]
  split <;> simp [h]

/-! ### Cellar -/

@[simp] theorem execCellarSlew_wf {s : State} (h : Memory.wf s.mem = true) : AnswersWf (execCellarSlew s) := by
  simp only [execCellarSlew]
  repeat' split
  all_goals simp [h]

@[simp] theorem execCellarSyncEdge_wf (frac : BitVec 4) {s : State} (h : Memory.wf s.mem = true) :
    AnswersWf (execCellarSyncEdge frac s) := by
  simp [execCellarSyncEdge, h]

@[simp] theorem execLoadCmd_wf (r : Requester) (v : Word) {s : State} (h : Memory.wf s.mem = true) : AnswersWf (execLoadCmd r v s) := by
  simp [execLoadCmd, h]

@[simp] theorem execCellarCtrl_wf (r : Requester) (v : Word) {s : State} (h : Memory.wf s.mem = true) :
    AnswersWf (execCellarCtrl r v s) := by
  simp [execCellarCtrl, h]

@[simp] theorem execTimeExchange_wf {s : State} (h : Memory.wf s.mem = true) : AnswersWf (execTimeExchange s) := by
  simp only [execTimeExchange]
  split <;> simp [h]

@[simp] theorem execSyncLossTimeout_wf {s : State} (h : Memory.wf s.mem = true) : AnswersWf (execSyncLossTimeout s) := by
  simp only [execSyncLossTimeout]
  repeat' split
  all_goals simp [h]

@[simp] theorem execCellarRefLoss_wf {s : State} (h : Memory.wf s.mem = true) : AnswersWf (execCellarRefLoss s) := by
  simp [execCellarRefLoss, h]

@[simp] theorem execCellarRefReturn_wf {s : State} (h : Memory.wf s.mem = true) : AnswersWf (execCellarRefReturn s) := by
  simp [execCellarRefReturn, h]

/-! ### DMA -/

@[simp] theorem State.descRd_wf {s : State} (ch : Nat) (e : Eng) (va : Nat) (h : Memory.wf s.mem = true) :
    Memory.wf (s.descRd ch e va).1.mem = true := by
  simp only [State.descRd]
  repeat' split
  all_goals simp [h]

@[simp] theorem dmaList_wf (ch k : Nat) (e : Eng) (n va : Nat) {s : State} (h : Memory.wf s.mem = true) :
    Memory.wf (dmaList ch k e n va s).1.mem = true := by
  induction n generalizing s va with
  | zero => exact h
  | succ n ih =>
    unfold dmaList
    grind [!State.descRd_wf]

@[simp] theorem execDma_wf (n : Fin 8192) {s : State} (h : Memory.wf s.mem = true) : AnswersWf (execDma n s) := by
  simp only [execDma]
  split
  · simp [h]
  · split
    · simp [h]
    · split
      · simp [h]
      · split
        · simp [h]
        · split <;> rename_i hd
          · simp [h]
          · simp [fst_wf hd (by simp [h])]
          · have hl := fst_wf hd (by simp [h])
            split <;> rename_i hr
            · exact (answersWf_next _).2 (fst_wf hr (by simp [hl]))
            · have hm := fst_wf hr (by simp [hl])
              simp [hm]

theorem State.arriving_wf {s t : State} {ch : Nat} {a : Arrive} {r : DescRd} (ha : s.arriving ch = some (a, t, r))
    (h : Memory.wf s.mem = true) : Memory.wf t.mem = true := by
  simp only [State.arriving] at ha
  repeat' split at ha
  all_goals cases ha
  all_goals simp [h]

@[simp] theorem State.takeIn_wf {s : State} (ch : Nat) (fill : Bool)
    (h : Memory.wf s.mem = true) : Memory.wf (s.takeIn ch fill).mem = true := by
  simp only [State.takeIn]
  repeat' split
  all_goals try simp [h]
  all_goals exact State.arriving_wf ‹_› h

@[simp] theorem execCopy_wf (ch : Fin 256) {s : State} (h : Memory.wf s.mem = true) : AnswersWf (execCopy ch s) := by
  simp [execCopy, h]

@[simp] theorem execFill_wf (ch : Fin 256) {s : State} (h : Memory.wf s.mem = true) : AnswersWf (execFill ch s) := by
  simp [execFill, h]

@[simp] theorem execDmaTransferStart_wf (ch : Fin 256) {s : State} (h : Memory.wf s.mem = true) :
    AnswersWf (execDmaTransferStart ch s) := by
  simp only [execDmaTransferStart]
  split <;> simp [h]

@[simp] theorem State.faultRecord_wf {s : State} (k : Nat) (rec : Bool → Bytes) (h : Memory.wf s.mem = true) :
    Memory.wf (s.faultRecord k rec).mem = true := by
  simp only [State.faultRecord]
  split <;> simp [h]

@[simp] theorem State.park_wf {s : State} (ch : Nat) (src : XferSrc) (h : Memory.wf s.mem = true) :
    Memory.wf (s.park ch src).mem = true := by
  simp only [State.park]
  repeat' split
  all_goals simp [h]

@[simp] theorem State.chunkFault_wf {s : State} (ch : Nat) (x : Xfer) (host dst : Bool) (va page : Nat) (h : Memory.wf s.mem = true) :
    Memory.wf (s.chunkFault ch x host dst va page).mem = true := by
  simp [State.chunkFault, h]

@[simp] theorem execChunkTranslate_wf (ch : Fin 256) {s : State} (h : Memory.wf s.mem = true) : AnswersWf (execChunkTranslate ch s) := by
  simp only [execChunkTranslate]
  repeat' split
  all_goals simp [h]

@[simp] theorem readPieces_wf (w : Who) (l : List (Nat × Nat)) {s : State} (h : Memory.wf s.mem = true) :
    Memory.wf (readPieces w l s).1.mem = true := by
  induction l generalizing s with
  | nil => exact h
  | cons c l ih =>
    simp only [readPieces]
    exact ih (by simp [h])

@[simp] theorem writePieces_wf (w : Who) (l : List (Nat × Nat)) (bs : List (Byte × Bool)) {s : State} (h : Memory.wf s.mem = true) :
    Memory.wf (writePieces w l bs s).1.mem = true := by
  induction l generalizing s bs with
  | nil => exact h
  | cons c l ih =>
    simp only [writePieces]
    exact ih _ (by simp [h])

@[simp] theorem State.moveChunk_wf {s : State} (w : Who) (x : Xfer) (k : Chunk) (h : Memory.wf s.mem = true) :
    Memory.wf (s.moveChunk w x k).1.mem = true := by
  simp only [State.moveChunk]
  repeat' split
  all_goals try simp [h]
  all_goals exact fst_wf ‹_› (by simp [h])

@[simp] theorem State.logEntry_wf {s : State} (x : Xfer) (h : Memory.wf s.mem = true) : Memory.wf (s.logEntry x).mem = true := by
  simp only [State.logEntry]
  split <;> simp [h]

@[simp] theorem State.xferDone_wf {s : State} (ch : Nat) (x : Xfer) (h : Memory.wf s.mem = true) :
    Memory.wf (s.xferDone ch x).mem = true := by
  simp only [State.xferDone]
  split <;> simp [h]

@[simp] theorem State.finishChunk_wf {s : State} (ch : Nat) (x : Xfer) (k : Chunk) (rest : List Chunk) (h : Memory.wf s.mem = true) :
    Memory.wf (s.finishChunk ch x k rest).mem = true := by
  simp only [State.finishChunk]
  repeat' split
  all_goals simp [h]

@[simp] theorem execChunkComplete_wf (ch : Fin 256) {s : State} (h : Memory.wf s.mem = true) : AnswersWf (execChunkComplete ch s) := by
  simp only [execChunkComplete]
  repeat' split
  all_goals simp [h]

@[simp] theorem execAtsCompletion_wf (q : Fin 4) (pasid : BitVec 20) (page : Nat) (answer : Option
    (Nat × Bool × Bool)) {s : State} (h : Memory.wf s.mem = true) : AnswersWf (execAtsCompletion q pasid page answer s) := by
  simp [execAtsCompletion, h]

@[simp] theorem execPrgResponse_wf (ch : Fin 256) (code : PrgCode) {s : State} (h : Memory.wf s.mem = true) :
    AnswersWf (execPrgResponse ch code s) := by
  simp [execPrgResponse, h]

@[simp] theorem execAtsInvalidate_wf (pasid : BitVec 20) (page pages : Nat) {s : State} (h : Memory.wf s.mem = true) :
    AnswersWf (execAtsInvalidate pasid page pages s) := by
  simp [execAtsInvalidate, h]

@[simp] theorem execAtsInvalidationComplete_wf {s : State} (h : Memory.wf s.mem = true) : AnswersWf (execAtsInvalidationComplete s) := by
  simp only [execAtsInvalidationComplete]
  split <;> simp [h]

@[simp] theorem execDmaResumeRetry_wf (r : Requester) (ch : Fin 256) (level : BitVec 2) (seq : BitVec 32) {s : State}
    (h : Memory.wf s.mem = true) : AnswersWf (execDmaResumeRetry r ch level seq s) := by
  simp only [execDmaResumeRetry]
  repeat' split
  all_goals simp [h]

@[simp] theorem execDmaResumeAbort_wf (r : Requester) (ch : Fin 256) (level : BitVec 2) (seq : BitVec 32) {s : State}
    (h : Memory.wf s.mem = true) : AnswersWf (execDmaResumeAbort r ch level seq s) := by
  simp only [execDmaResumeAbort]
  repeat' split
  all_goals simp [h]

@[simp] theorem execRescueCmd_wf (r : Requester) (q : Fin 4) {s : State} (h : Memory.wf s.mem = true) :
    AnswersWf (execRescueCmd r q s) := by
  simp [execRescueCmd, h]

@[simp] theorem rescueRun_wf (w : Who) (x : Xfer) (l : List Chunk) {s : State} (h : Memory.wf s.mem = true) :
    Memory.wf (rescueRun w x l s).1.mem = true := by
  induction l generalizing s with
  | nil => exact h
  | cons k l ih =>
    have hm := s.moveChunk_wf w x k h
    simp only [rescueRun]
    grind

@[simp] theorem execRescueComplete_wf (q : Fin 4) {s : State} (h : Memory.wf s.mem = true) : AnswersWf (execRescueComplete q s) := by
  simp only [execRescueComplete]
  repeat' split
  all_goals try simp [h]
  all_goals exact fst_wf ‹_› (by simp [h])

@[simp] theorem State.invalEntry_wf {s : State} (r : CtxRec) (i : Nat) (h : Memory.wf s.mem = true) :
    Memory.wf (s.invalEntry r i).1.mem = true := by
  simp only [State.invalEntry]
  repeat' split
  all_goals simp [h]

@[simp] theorem execInvalCmd_wf (r : Requester) {s : State} (h : Memory.wf s.mem = true) : AnswersWf (execInvalCmd r s) := by
  simp only [execInvalCmd]
  repeat' split
  all_goals simp [h]

@[simp] theorem execInvalDone_wf {s : State} (h : Memory.wf s.mem = true) : AnswersWf (execInvalDone s) := by
  simp [execInvalDone, h]

/-! ### Vector operations -/

/-- An operation of the vector engine that keeps memory in canonical form. -/
def VOp.KeepsWf (p : VOp) : Prop := ∀ (c : Nat) (o : OpW) (s : State), Memory.wf s.mem = true → Memory.wf (p.run c o s).1.mem = true

theorem reduceOp_keepsWf (fmt : Nat → Nat → Bool) (rnd scalar : Bool) (leaf : OpW → BitVec 128 → BitVec 128 × Flags)
    (f : OpW → BitVec 128 → BitVec 128 → El) (ident : OpW → BitVec 128) : (reduceOp fmt rnd scalar leaf f ident).KeepsWf := by
  intro c o s h
  simp only [reduceOp]
  split
  · simp [h]
  · split
    · exact fst_wf ‹_› (by simp [h])
    · simp [fst_wf ‹_› (show Memory.wf (tree ..).1.mem = true by simp [h])]

/-! ### Vector engine -/

@[simp] theorem State.accRd_wf {s : State} (c : Nat) (o : OpW) (m : MAcc) (n : Nat) (h : Memory.wf s.mem = true) :
    Memory.wf (s.accRd c o m n).1.mem = true := by
  simp [State.accRd, h]

@[simp] theorem State.vecRead_wf (c : Nat) (o : OpW) (n : Nat) (l : List MAcc) {s : State} (h : Memory.wf s.mem = true) :
    Memory.wf (State.vecRead c o n l s).1.mem = true := by
  induction l generalizing s with
  | nil => exact h
  | cons m l ih =>
    have hr := s.accRd_wf c o m n h
    simp only [State.vecRead]
    grind

@[simp] theorem State.accWr_wf {s : State} (c : Nat) (o : OpW) (m : MAcc) (bs : Bytes) (h : Memory.wf s.mem = true) :
    Memory.wf (s.accWr c o m bs).mem = true := by
  simp [State.accWr, h]

@[simp] theorem State.vecWrite_wf (c : Nat) (o : OpW) (l : List (MAcc × Bytes)) {s : State} (h : Memory.wf s.mem = true) :
    Memory.wf (State.vecWrite c o l s).mem = true := by
  induction l generalizing s with
  | nil => exact h
  | cons m l ih => exact ih (s.accWr_wf c o m.1 m.2 h)

@[simp] theorem loadEls_wf (f n : Nat) (addr : Nat → Nat) (c : Nat) (o : OpW) {s : State} (h : Memory.wf s.mem = true) :
    Memory.wf (loadEls f n addr c o s).1.mem = true := by
  simp only [loadEls]
  grind [!State.vecCheck_mem, !State.vecRead_wf, mapGo_mem]

@[simp] theorem storeData_wf (f c : Nat) (o : OpW) (v : Vec) (l : List MAcc) {s : State} (h : Memory.wf s.mem = true) :
    Memory.wf (storeData f c o v l s).1.mem = true := by
  induction l generalizing s with
  | nil => exact h
  | cons m l ih =>
    simp only [storeData]
    grind [!State.vecRead_wf]

@[simp] theorem storeEls_wf (f n : Nat) (addr : Nat → Nat) (c : Nat) (o : OpW) {s : State} (h : Memory.wf s.mem = true) :
    Memory.wf (storeEls f n addr c o s).1.mem = true := by
  simp only [storeEls]
  grind [!State.vecCheck_mem, !storeData_wf, !State.vecWrite_wf]

@[simp] theorem scatGo_wf (c : Nat) (o : OpW) (v : Vec) (l : List MAcc) (cur : Map (BitVec 128)) {s : State}
    (h : Memory.wf s.mem = true) : Memory.wf (scatGo c o v l cur s).1.mem = true := by
  induction l generalizing s cur with
  | nil => exact h
  | cons m l ih =>
    simp only [scatGo]
    split
    · simp [h]
    · exact ih _ (by simp [h])

@[simp] theorem tensorRun_wf (wr : Bool) (c : Nat) (o : OpW) {s : State} (h : Memory.wf s.mem = true) :
    Memory.wf (tensorRun wr c o s).1.mem = true := by
  simp only [tensorRun]
  split
  · exact h
  · split
    · exact fst_wf ‹_› (by simp [h])
    · simp [fst_wf ‹_› (by simp [h])]

theorem vVscatter_keepsWf : vVscatter.KeepsWf := by
  intro c o s h
  simp only [vVscatter]
  split <;> rename_i hc
  · exact fst_wf hc (by simp [h])
  · simp [fst_wf hc (by simp [h])]

theorem vVscatadd_keepsWf : vVscatadd.KeepsWf := by
  intro c o s h
  simp only [vVscatadd]
  grind [!State.vecCheck_mem, !State.vecRead_wf, !scatGo_wf]

theorem vVatadd_keepsWf : vVatadd.KeepsWf := by
  intro c o s h
  simp only [vVatadd]
  grind [!State.vecCheck_mem, vatGo_mem]

theorem vGld_keepsWf : vGld.KeepsWf := by
  intro c o s h
  simp only [vGld]
  grind [!State.vecCheck_mem, !State.vecRead_wf, mapGo_mem]

theorem vVldseg_keepsWf : vVldseg.KeepsWf := by
  intro c o s h
  simp only [vVldseg]
  split <;> rename_i hc
  · exact fst_wf hc (by simp [h])
  · split <;> rename_i hr
    · exact fst_wf hr (by simp [fst_wf hc (by simp [h])])
    · simp [fst_wf hr (by simp [fst_wf hc (by simp [h])])]

theorem vVstseg_keepsWf : vVstseg.KeepsWf := by
  intro c o s h
  simp only [vVstseg]
  split <;> rename_i hc
  · exact fst_wf hc (by simp [h])
  · simp [fst_wf hc (by simp [h])]

theorem vTbind_keepsWf : vTbind.KeepsWf := by
  intro c o s h
  simp only [vTbind]
  grind [!State.vRd_wf, State.onVec_mem]

theorem vFredsum_keepsWf : vFredsum.KeepsWf := reduceOp_keepsWf _ _ _ _ _ _

theorem vFredmin_keepsWf : vFredmin.KeepsWf := reduceOp_keepsWf _ _ _ _ _ _

theorem vFredmax_keepsWf : vFredmax.KeepsWf := reduceOp_keepsWf _ _ _ _ _ _

theorem vIredsum_keepsWf : vIredsum.KeepsWf := reduceOp_keepsWf _ _ _ _ _ _

theorem vXredsum_keepsWf : vXredsum.KeepsWf := reduceOp_keepsWf _ _ _ _ _ _

theorem vecOp_keepsWf {k : Nat} {p : VOp} (hp : vecOp k = some p) : p.KeepsWf := by
  unfold vecOp at hp
  split at hp <;> cases hp
  all_goals intro c o s h
  all_goals simp [vFadd, vFsub, vFmul, vFma, vFnma, vFmin, vFmax, vFneg, vFabs, vFcmp, vCvt, vFdiv, vFsqrt, vRcp, vRsqrt, vExp2, vLog2,
    vWmul, vWfma, vXdot, vMxscale, vMxquant, vIadd, vIsub, vImul, vImin, vImax, vIminu, vImaxu, vAnd, vOr, vXor, vShl, vShr, vSra,
    vIcmp, vPopc, vIdot4, vXadd, vVset, vIota, vVmov, vIwmul, vCompress, vExpand, vVperm, vSlideup, vSlidedn, vTranspose, vExtract,
    vInsert, vMand, vMor, vMxor, vMandn, vMnot, vMset, vMpopc, vMfirst, vVld, vVst, vVgather, vTld, vTst, vTloop, vRdflags, fpBin,
    fpFma, fpMm, fpSign, refOp, intBin, maskBin, h, vVscatter_keepsWf c o s h, vVscatadd_keepsWf c o s h, vVatadd_keepsWf c o s h,
    vGld_keepsWf c o s h, vVldseg_keepsWf c o s h, vVstseg_keepsWf c o s h, vTbind_keepsWf c o s h, vFredsum_keepsWf c o s h,
    vFredmin_keepsWf c o s h, vFredmax_keepsWf c o s h, vIredsum_keepsWf c o s h, vXredsum_keepsWf c o s h]

@[simp] theorem State.vecRun_wf {s : State} (c : Nat) {p : VOp} (o : OpW) (hp : p.KeepsWf) (h : Memory.wf s.mem = true) :
    Memory.wf (s.vecRun c p o).1.mem = true := by
  simp only [State.vecRun]
  split
  · exact h
  · split
    · exact fst_wf ‹_› (by simp [h])
    · exact hp c o _ (fst_wf ‹_› (by simp [h]))

@[simp] theorem State.vecStep_wf {s : State} (c k : Nat) {p : VOp} (hp : p.KeepsWf) (h : Memory.wf s.mem = true) :
    Memory.wf (s.vecStep c k p).mem = true := by
  simp only [State.vecStep]
  split
  · exact h
  · split
    · exact h
    · split <;> rename_i hr
      · simp [fst_wf hr (State.vecRun_wf c _ hp h)]
      · simp [fst_wf hr (State.vecRun_wf c _ hp h)]

theorem vecStep_wf_of_vecOp {s : State} (c : Nat) {k : Nat} {p : VOp} (hp : vecOp k = some p) (h : Memory.wf s.mem = true) :
    AnswersWf (.next (s.vecStep c k p)) :=
  (answersWf_next _).2 (State.vecStep_wf c k (vecOp_keepsWf hp) h)

@[simp] theorem State.cellAdd_wf {s : State} (q : CellAdd) (h : Memory.wf s.mem = true) : Memory.wf (s.cellAdd q).mem = true := by
  simp only [State.cellAdd]
  repeat' split
  all_goals simp [h]

@[simp] theorem State.cellPop_wf {s : State} (c : Nat) (h : Memory.wf s.mem = true) : Memory.wf (s.cellPop c).mem = true := by
  simp only [State.cellPop]
  split <;> simp [h]

@[simp] theorem State.cellAll_wf {s : State} (c : Nat) (h : Memory.wf s.mem = true) : Memory.wf (s.cellAll c).mem = true := by
  simp [State.cellAll, h]

@[simp] theorem State.bodyOp_wf {s : State} (c vl : Nat) (o : OpW) (h : Memory.wf s.mem = true) :
    Memory.wf (s.bodyOp c vl o).1.mem = true := by
  simp only [State.bodyOp]
  split
  · exact h
  · refine State.vecRun_wf c _ (vecOp_keepsWf ‹_›) ?_
    split <;> simp [h]

@[simp] theorem bodyRun_wf (c vl : Nat) (l : List OpW) {s : State} (h : Memory.wf s.mem = true) :
    Memory.wf (bodyRun c vl l s).1.mem = true := by
  induction l generalizing s with
  | nil => exact h
  | cons o l ih =>
    have ho := s.bodyOp_wf c vl o h
    simp only [bodyRun]
    split
    · exact ho
    · exact ih ho

@[simp] theorem loopGo_wf (c chunk : Nat) (body : List OpW) (slots : List Nat) (k left : Nat) {s : State} (h : Memory.wf s.mem = true) :
    Memory.wf (loopGo c chunk body slots k left s).1.mem = true := by
  induction k generalizing s left with
  | zero => exact h
  | succ k ih =>
    simp only [loopGo]
    split
    · exact fst_wf ‹_› (by simp [h])
    · exact ih _ (by simp [fst_wf ‹_› (bodyRun_wf _ _ _ h)])

@[simp] theorem State.tloop_wf {s : State} (c : Nat) (h : Memory.wf s.mem = true) : Memory.wf (s.tloop c).mem = true := by
  simp only [State.tloop]
  repeat' split
  all_goals try simp [h]
  all_goals exact fst_wf ‹_› (by simp [h])

@[simp] theorem execTloop_wf (c : Fin 64) {s : State} (h : Memory.wf s.mem = true) : AnswersWf (execTloop c s) := by
  simp [execTloop, h]

@[simp] theorem execVectorOpDone_wf (c : Fin 64) {s : State} (h : Memory.wf s.mem = true) : AnswersWf (execVectorOpDone c s) := by
  simp only [execVectorOpDone]
  split <;> simp [h]

@[simp] theorem execGuardedCellAdd_wf (c : Fin 64) {s : State} (h : Memory.wf s.mem = true) : AnswersWf (execGuardedCellAdd c s) := by
  simp [execGuardedCellAdd, h]

/-! ### Matrix engine -/

@[simp] theorem execPassAccept_wf (c : Fin 64) {s : State} (h : Memory.wf s.mem = true) : AnswersWf (execPassAccept c s) := by
  simp only [execPassAccept]
  repeat' split
  all_goals try simp [h]
  all_goals exact fst_wf ‹_› (by simp [h])

@[simp] theorem PRun.rd_wf {r : PRun} (e : Eng) (va : Int) (n : Nat) (h : Memory.wf r.s.mem = true) :
    Memory.wf (r.rd e va n).1.s.mem = true := by
  simp only [PRun.rd]
  split <;> exact fst_wf ‹_› (by simp [h])

@[simp] theorem PRun.line_wf {r : PRun} (e : Eng) (f depth : Nat) (mx : Bool) (va sva : Int) (h : Memory.wf r.s.mem = true) :
    Memory.wf (r.line e f depth mx va sva).1.s.mem = true := by
  simp only [PRun.line]
  split <;> simp [h]

@[simp] theorem PRun.lines_wf (e : Eng) (f depth : Nat) (mx : Bool) (base str sbase sstr : Int) (n m : Nat) {r : PRun}
    (h : Memory.wf r.s.mem = true) : Memory.wf (PRun.lines e f depth mx base str sbase sstr n m r).1.s.mem = true := by
  induction n generalizing r m with
  | zero => exact h
  | succ n ih =>
    simp only [PRun.lines]
    exact ih _ (by simp [h])

@[simp] theorem PRun.tile_wf {r : PRun} (e : Eng) (p : PassD) (h : Memory.wf r.s.mem = true) : Memory.wf (r.tile e p).1.s.mem = true := by
  simp [PRun.tile, h]

@[simp] theorem passGo_wf (c : Nat) (e : Eng) (p : PassD) (as bs : List Vecs) (l : List (Nat × Nat)) (o : POut) {r : PRun}
    (h : Memory.wf r.s.mem = true) : Memory.wf (passGo c e p as bs l r o).1.s.mem = true := by
  induction l generalizing r o with
  | nil => exact h
  | cons mj l ih =>
    simp only [passGo]
    grind [!PRun.rd_wf, State.residue_mem]

@[simp] theorem passWrite_wf (e : Eng) (p : PassD) (q : Pass) (l : List Nat) {s : State} (h : Memory.wf s.mem = true) :
    Memory.wf (passWrite e p q l s).mem = true := by
  induction l generalizing s with
  | nil => exact h
  | cons m l ih =>
    simp only [passWrite]
    split
    · exact ih (by simp [h])
    · exact ih h

@[simp] theorem PRun.aRows_wf {r : PRun} (e : Eng) (p : PassD) (m : Mat) (h : Memory.wf r.s.mem = true) :
    Memory.wf (r.aRows e p m).1.s.mem = true := by
  simp only [PRun.aRows]
  split <;> simp [h]

@[simp] theorem State.passRun_wf {s : State} (c op : Nat) (h : Memory.wf s.mem = true) : Memory.wf (s.passRun c op).mem = true := by
  simp only [State.passRun]
  split
  · exact h
  · split <;> rename_i hm
    · simp [fst_wf hm (by simp [h])]
    · have hs := fst_wf hm (by simp [h])
      grind [!passGo_wf, !PRun.aRows_wf, !PRun.tile_wf, !passWrite_wf, tileCols_mem, State.onMat_mem, State.onPass_mem,
        State.gather_mem, State.mqFail_mem, State.passPoison_mem]

@[simp] theorem execMac_wf (c : Fin 64) {s : State} (h : Memory.wf s.mem = true) : AnswersWf (execMac c s) := by
  simp [execMac, h]

@[simp] theorem execMinPlus_wf (c : Fin 64) {s : State} (h : Memory.wf s.mem = true) : AnswersWf (execMinPlus c s) := by
  simp [execMinPlus, h]

@[simp] theorem execMaxPlus_wf (c : Fin 64) {s : State} (h : Memory.wf s.mem = true) : AnswersWf (execMaxPlus c s) := by
  simp [execMaxPlus, h]

@[simp] theorem execL1_wf (c : Fin 64) {s : State} (h : Memory.wf s.mem = true) : AnswersWf (execL1 c s) := by
  simp [execL1, h]

@[simp] theorem execL2sq_wf (c : Fin 64) {s : State} (h : Memory.wf s.mem = true) : AnswersWf (execL2sq c s) := by
  simp [execL2sq, h]

@[simp] theorem execHamming_wf (c : Fin 64) {s : State} (h : Memory.wf s.mem = true) : AnswersWf (execHamming c s) := by
  simp [execHamming, h]

@[simp] theorem execTileCommit_wf {s : State} (c : Fin 64) (h : Memory.wf s.mem = true) : AnswersWf (execTileCommit c s) := by
  simp only [execTileCommit]
  repeat' split
  all_goals simp [h]

@[simp] theorem execPassComplete_wf (c : Fin 64) {s : State} (h : Memory.wf s.mem = true) : AnswersWf (execPassComplete c s) := by
  simp only [execPassComplete]
  repeat' split
  all_goals simp [h]

/-! ### Collectives -/

@[simp] theorem State.collRead_wf {s : State} (e : Eng) (va n : Nat) (h : Memory.wf s.mem = true) :
    Memory.wf (s.collRead e va n).1.mem = true := by
  simp only [State.collRead]
  repeat' split
  all_goals try simp
  all_goals exact fst_wf ‹_› (by simp [h])

@[simp] theorem State.collFinish_wf {s : State} (e : Eng) (d : CollD) (lo : Nat) (xs : List (BitVec 128 × Flags))
    (h : Memory.wf s.mem = true) : Memory.wf (s.collFinish e d lo xs).1.mem = true := by
  simp only [State.collFinish]
  split <;> simp [h]

@[simp] theorem State.collBlock_wf {s : State} (r : GroupRec) (e : Eng) (d : CollD) (u : CollRun) (lo n : Nat)
    (h : Memory.wf s.mem = true) : Memory.wf (s.collBlock r e d u lo n).1.mem = true := by
  simp only [State.collBlock]
  split <;> simp [h]

@[simp] theorem State.collStatus_wf {s : State} (e : Eng) (d : CollD) (v : Nat) (h : Memory.wf s.mem = true) :
    Memory.wf (s.collStatus e d v).mem = true := by
  simp only [State.collStatus]
  repeat' split
  all_goals simp [h]

@[simp] theorem State.collAbort_wf {s : State} (r : GroupRec) (u : CollRun) (cause : Nat) (remote : Bool) (own : Option Byte)
    (h : Memory.wf s.mem = true) : Memory.wf (s.collAbort r u cause remote own).mem = true := by
  simp only [State.collAbort]
  split
  all_goals grind [!State.vWr_mem_wf, !State.collStatus_wf, State.sendPiecesAll_mem, State.collClose_mem, State.gather_mem,
    State.onGroup_mem, State.raise_mem, State.endCmd_mem, State.onQueue_mem, State.onCore_mem, State.irq_mem, State.dropCq_mem,
    freshBytes_mem]

@[simp] theorem State.collEnd_wf {s : State} (r : GroupRec) (u : CollRun) (fl : Flags) (h : Memory.wf s.mem = true) :
    Memory.wf (s.collEnd r u fl).mem = true := by
  simp only [State.collEnd]
  split <;> simp [h]

@[simp] theorem State.collRound_wf {s : State} (r : GroupRec) (d : CollD) (u : CollRun) (seq : Nat) (h : Memory.wf s.mem = true) :
    Memory.wf (s.collRound r d u seq).1.1.mem = true := by
  simp only [State.collRound]
  grind [!State.collBlock_wf, State.sendPieces_mem, State.collResidue_mem]

@[simp] theorem State.collMove_wf {s : State} (r : GroupRec) (d : CollD) (u : CollRun) (seq : Nat) (h : Memory.wf s.mem = true) :
    Memory.wf (s.collMove r d u seq).1.1.mem = true := by
  simp only [State.collMove]
  split
  · exact h
  · exact s.collRound_wf r d u seq h
  · grind [!State.collBlock_wf, State.sendPieces_mem, State.sendPiecesAll_mem]
  · split
    · exact h
    · split
      · exact h
      · simp [h]
  · grind [State.sendPieces_mem]

@[simp] theorem State.collResult_wf {s : State} (r : GroupRec) (d : CollD) (u : CollRun) (h : Memory.wf s.mem = true) :
    Memory.wf (s.collResult r d u).1.mem = true := by
  simp only [State.collResult]
  repeat' split
  all_goals simp [h]

@[simp] theorem State.collWrite_wf (e : Eng) (d : CollD) (l : List DstRun) {s : State} (h : Memory.wf s.mem = true) :
    Memory.wf (State.collWrite e d l s).1.mem = true := by
  induction l generalizing s with
  | nil => exact h
  | cons k l ih =>
    simp only [State.collWrite]
    grind [!State.vWr_mem_wf]

@[simp] theorem State.collNext_wf {s : State} (r : GroupRec) (d : CollD) (u : CollRun) (seq : Nat) (h : Memory.wf s.mem = true) :
    Memory.wf (s.collNext r d u seq).1.1.mem = true := by
  simp only [State.collNext]
  grind [!State.collResult_wf, !State.collWrite_wf, State.collFirst_mem]

@[simp] theorem collPump_wf (r : GroupRec) (d : CollD) (seq f : Nat) (u : CollRun) {s : State} (h : Memory.wf s.mem = true) :
    Memory.wf (collPump r d seq f s u).1.mem = true := by
  induction f generalizing s u with
  | zero => exact h
  | succ f ih =>
    simp only [collPump]
    grind [!State.collMove_wf, !State.collNext_wf]

@[simp] theorem State.collTry_wf {s : State} (r : GroupRec) (u : CollRun) (h : Memory.wf s.mem = true) :
    Memory.wf (s.collTry r u).mem = true := by
  simp only [State.collTry]
  grind [!State.collResult_wf, !State.collWrite_wf, !State.collAbort_wf, !State.collEnd_wf]

@[simp] theorem execCollectiveComplete_wf (g : Fin 4096) {s : State} (h : Memory.wf s.mem = true) :
    AnswersWf (execCollectiveComplete g s) := by
  simp only [execCollectiveComplete]
  split <;> simp [h]

@[simp] theorem State.collRun_wf {s : State} (r : GroupRec) (u : CollRun) (seq : Nat) (h : Memory.wf s.mem = true) :
    Memory.wf (s.collRun r u seq).mem = true := by
  simp only [State.collRun]
  grind [!collPump_wf, !State.collAbort_wf, State.onGroup_mem]

@[simp] theorem State.collBegin_wf {s : State} (r : GroupRec) (i : CollItem) (rest : List CollItem) (h : Memory.wf s.mem = true) :
    Memory.wf (s.collBegin r i rest).mem = true := by
  unfold State.collBegin
  extract_lets d timed i s₁ size
  have h₁ : Memory.wf (s₁.collCheck r i).1.mem = true := by simp [s₁, h]
  clear_value i s₁ d timed size
  generalize s₁.collCheck r i = p at h₁ ⊢
  obtain ⟨s₂, bad, x⟩ := p
  dsimp only at h₁ ⊢
  generalize  s₂.group r.group = grp
  split
  · simp [h₁]
  · simp [h₁]
  · generalize hp : (if d.srcN _ = 0 then _ else _) = p
    have : Memory.wf p.1.mem = true := by
      rw [← hp]; split <;> simp [h₁]
    obtain ⟨s₃, b, bd⟩ := p
    dsimp only at this ⊢
    split
    · simp [this]
    · split <;> simp [this]

@[simp] theorem State.collStart_wf {s : State} (g op : Nat) (h : Memory.wf s.mem = true) : Memory.wf (s.collStart g op).mem = true := by
  simp only [State.collStart]
  split <;> simp [h]

@[simp] theorem execReduce_wf (g : Fin 4096) {s : State} (h : Memory.wf s.mem = true) : AnswersWf (execReduce g s) := by
  simp [execReduce, h]

@[simp] theorem execAllReduce_wf (g : Fin 4096) {s : State} (h : Memory.wf s.mem = true) : AnswersWf (execAllReduce g s) := by
  simp [execAllReduce, h]

@[simp] theorem execReduceScatter_wf (g : Fin 4096) {s : State} (h : Memory.wf s.mem = true) : AnswersWf (execReduceScatter g s) := by
  simp [execReduceScatter, h]

@[simp] theorem execAllGather_wf (g : Fin 4096) {s : State} (h : Memory.wf s.mem = true) : AnswersWf (execAllGather g s) := by
  simp [execAllGather, h]

@[simp] theorem execBroadcast_wf (g : Fin 4096) {s : State} (h : Memory.wf s.mem = true) : AnswersWf (execBroadcast g s) := by
  simp [execBroadcast, h]

@[simp] theorem execBarrier_wf (g : Fin 4096) {s : State} (h : Memory.wf s.mem = true) : AnswersWf (execBarrier g s) := by
  simp [execBarrier, h]

@[simp] theorem execCollective_wf (n : Fin 8192) {s : State} (h : Memory.wf s.mem = true) : AnswersWf (execCollective n s) := by
  unfold execCollective
  split
  · simp [h]
  · extract_lets u k va
    have hu : Memory.wf u.mem = true := by simp [u, h]
    clear_value u
    split
    · simp [hu]
    · have hv := State.vRd_mem_wf (cmdEng n) va 64 hu
      split <;> rename_i hr
      · have hr := fst_wf hr hv
        split
        · simp [hr]
        · split
          · simp [hr]
          · split
            · simp [hr]
            · split
              · simp [hr]
              · extract_lets grp i put
                split
                · simp [hr]
                · split <;> rename_i hc
                  · have hc := fst_wf hc (by simp [hr])
                    split <;> rename_i hd
                    · simp [put, fst_wf hd (by simp [hc])]
                    · simp [fst_wf hd (by simp [hc])]
                  · simp [put, hr]
      · simp [fst_wf hr hv]

@[simp] theorem State.cqPush_wf {s : State} (c : Nat) (va : Word) (ring : BitVec 2) (h : Memory.wf s.mem = true) :
    Memory.wf (s.cqPush c va ring).mem = true := by
  simp only [State.cqPush]
  repeat' split
  all_goals try simp [h]
  all_goals exact fst_wf ‹_› (by simp [h])

@[simp] theorem execStartAtReached_wf (g : Fin 4096) {s : State} (h : Memory.wf s.mem = true) : AnswersWf (execStartAtReached g s) := by
  simp only [execStartAtReached]
  split <;> simp [h]

@[simp] theorem execCollectiveTimeout_wf (g : Fin 4096) {s : State} (h : Memory.wf s.mem = true) :
    AnswersWf (execCollectiveTimeout g s) := by
  simp only [execCollectiveTimeout]
  split <;> simp [h]

@[simp] theorem State.collPiece_wf {s : State} (r : GroupRec) (u : CollRun) (seq : Nat) (p : Piece) (h : Memory.wf s.mem = true) :
    Memory.wf (s.collPiece r u seq p).mem = true := by
  simp only [State.collPiece]
  split <;> simp [h]

@[simp] theorem State.collPacket_wf {s : State} (q : Nat) (b : Bytes) (h : Memory.wf s.mem = true) :
    Memory.wf (s.collPacket q b).mem = true := by
  simp only [State.collPacket]
  grind [!State.collBegin_wf, !State.collPiece_wf, State.onGroup_mem, State.sev_mem, State.tagDiscard_mem]

@[simp] theorem execGroupSel_wf (r : Requester) (q : Fin 4) (v : Word) {s : State} (h : Memory.wf s.mem = true) :
    AnswersWf (execGroupSel r q v s) := by
  simp [execGroupSel, h]

/-! ### Links -/

@[simp] theorem execDetectPoll_wf (p : Fin 32) (lanes : BitVec 4) {s : State} (h : Memory.wf s.mem = true) :
    AnswersWf (execDetectPoll p lanes s) := by
  simp only [execDetectPoll]
  refine answersWf_ite _ ((answersWf_next s).2 h) ?_
  rw [answersWf_next, State.onPort_mem, State.toNow_mem]
  exact h

@[simp] theorem execTrainingComplete_wf (p : Fin 32) (reversed : Bool) {s : State} (h : Memory.wf s.mem = true) :
    AnswersWf (execTrainingComplete p reversed s) := by
  simp [execTrainingComplete, h]

@[simp] theorem execTrainingTimeout_wf (p : Fin 32) {s : State} (h : Memory.wf s.mem = true) : AnswersWf (execTrainingTimeout p s) := by
  simp [execTrainingTimeout, h]

@[simp] theorem execIdentifyTimeout_wf (l : LinkId) {s : State} (h : Memory.wf s.mem = true) : AnswersWf (execIdentifyTimeout l s) := by
  simp [execIdentifyTimeout, h]

@[simp] theorem execHoldoffExpiry_wf (l : LinkId) {s : State} (h : Memory.wf s.mem = true) : AnswersWf (execHoldoffExpiry l s) := by
  unfold execHoldoffExpiry
  split
  · simp [h]
  · generalize s.linkSince l + 10000000 = t
    cases l with
    | port p =>
      dsimp only
      rw [answersWf_next, State.portRestart_mem, State.toNow_mem]
      exact h
    | route d =>
      dsimp only
      rw [answersWf_next, State.wakeRoutes_mem, State.onRoute_mem, State.toNow_mem]
      exact h

@[simp] theorem execMarunoPacketSend_wf (l : LinkId) {s : State} (h : Memory.wf s.mem = true) : AnswersWf (execMarunoPacketSend l s) := by
  simp only [execMarunoPacketSend]
  split <;> simp [h]

@[simp] theorem execDataFlit_wf (p : Fin 32) (f : Bytes) {s : State} (h : Memory.wf s.mem = true) : AnswersWf (execDataFlit p f s) := by
  simp [execDataFlit, h]

@[simp] theorem execIdleFlit_wf (p : Fin 32) (f : Bytes) {s : State} (h : Memory.wf s.mem = true) : AnswersWf (execIdleFlit p f s) := by
  simp [execIdleFlit, h]

@[simp] theorem execReplayTimeout_wf (p : Fin 32) {s : State} (h : Memory.wf s.mem = true) : AnswersWf (execReplayTimeout p s) := by
  simp [execReplayTimeout, h]

@[simp] theorem execAckTimer_wf (l : LinkId) {s : State} (h : Memory.wf s.mem = true) : AnswersWf (execAckTimer l s) := by
  simp only [execAckTimer]
  split <;> simp [h]

@[simp] theorem execRetransmitTimeout_wf (l : LinkId) {s : State}
    (h : Memory.wf s.mem = true) : AnswersWf (execRetransmitTimeout l s) := by
  simp only [execRetransmitTimeout]
  split <;> simp [h]

@[simp] theorem execControlPacket_wf (rx : LinkRx) {s : State} (h : Memory.wf s.mem = true) : AnswersWf (execControlPacket rx s) := by
  simp only [execControlPacket]
  repeat' split
  all_goals try simp
  all_goals exact fst_wf ‹_› (by simp [h])

@[simp] theorem execCollectivePacket_wf (rx : LinkRx) {s : State}
    (h : Memory.wf s.mem = true) : AnswersWf (execCollectivePacket rx s) := by
  simp only [execCollectivePacket]
  grind [!State.collPacket_wf, answersWf_next, State.packetIn_mem]

@[simp] theorem execTransportAck_wf (rx : LinkRx) {s : State} (h : Memory.wf s.mem = true) : AnswersWf (execTransportAck rx s) := by
  simp only [execTransportAck]
  repeat' split
  all_goals try simp
  all_goals exact fst_wf ‹_› (by simp [h])

@[simp] theorem execLaneSignalChange_wf (p : Fin 32) (lane : Fin 4) (signal lock : Bool) (snr : BitVec 6) {s : State}
    (h : Memory.wf s.mem = true) : AnswersWf (execLaneSignalChange p lane signal lock snr s) := by
  simp [execLaneSignalChange, h]

@[simp] theorem execSignalLossTimeout_wf (p : Fin 32) (lane : Fin 4) {s : State} (h : Memory.wf s.mem = true) :
    AnswersWf (execSignalLossTimeout p lane s) := by
  simp only [execSignalLossTimeout]
  split <;> simp [h]

@[simp] theorem execPortCtrl_wf (r : Requester) (p : Fin 32) (v : Word) {s : State} (h : Memory.wf s.mem = true) :
    AnswersWf (execPortCtrl r p v s) := by
  simp only [execPortCtrl]
  split <;> simp [h]

/-! ### Power -/

@[simp] theorem execPowerLoopSample_wf (q : Fin 4) (power junction : Nat) (overCurrent : Bool) {s : State} (h : Memory.wf s.mem = true) :
    AnswersWf (execPowerLoopSample q power junction overCurrent s) := by
  simp [execPowerLoopSample, h]

@[simp] theorem execQpwrCap_wf (r : Requester) (q : Fin 4) (v : Word) {s : State} (h : Memory.wf s.mem = true) :
    AnswersWf (execQpwrCap r q v s) := by
  simp [execQpwrCap, h]

@[simp] theorem execSafetyHoldExpiry_wf (q : Fin 4) {s : State} (h : Memory.wf s.mem = true) : AnswersWf (execSafetyHoldExpiry q s) := by
  simp only [execSafetyHoldExpiry]
  refine answersWf_ite _ ((answersWf_next s).2 h) ?_
  rw [answersWf_next, State.onPwr_mem, State.toNow_mem]
  exact h

@[simp] theorem execAvsResponse_wf (q : Fin 4) (mv : Nat) {s : State} (h : Memory.wf s.mem = true) :
    AnswersWf (execAvsResponse q mv s) := by
  simp [execAvsResponse, h]

@[simp] theorem execAvsFrameFailure_wf (q : Fin 4) {s : State} (h : Memory.wf s.mem = true) : AnswersWf (execAvsFrameFailure q s) := by
  simp [execAvsFrameFailure, h]

@[simp] theorem execClockRaiseDelay_wf (q : Fin 4) {s : State} (h : Memory.wf s.mem = true) : AnswersWf (execClockRaiseDelay q s) := by
  simp only [execClockRaiseDelay]
  split <;> simp [h]

/-! ### Management -/

@[simp] theorem execEntdaa_wf (addr : BitVec 7) {s : State} (h : Memory.wf s.mem = true) : AnswersWf (execEntdaa addr s) := by
  simp [execEntdaa, h]

@[simp] theorem execSetdasa_wf (static addr : BitVec 7) {s : State} (h : Memory.wf s.mem = true) :
    AnswersWf (execSetdasa static addr s) := by
  simp [execSetdasa, h]

@[simp] theorem execSetEndpointId_wf (b : Binding) (eid : Byte) {s : State} (h : Memory.wf s.mem = true) :
    AnswersWf (execSetEndpointId b eid s) := by
  simp [execSetEndpointId, h]

@[simp] theorem execI3cBusFault_wf {s : State} (h : Memory.wf s.mem = true) : AnswersWf (execI3cBusFault s) := by
  simp [execI3cBusFault, h]

@[simp] theorem execI3cRecovery_wf {s : State} (h : Memory.wf s.mem = true) : AnswersWf (execI3cRecovery s) := by
  simp [execI3cRecovery, h]

@[simp] theorem execPldmBaseRequest_wf (b : Binding) (code : Byte) {s : State} (h : Memory.wf s.mem = true) :
    AnswersWf (execPldmBaseRequest b code s) := by
  simp [execPldmBaseRequest, h]

@[simp] theorem execPldmSensorReading_wf (b : Binding) (id : Nat) {s : State} (h : Memory.wf s.mem = true) :
    AnswersWf (execPldmSensorReading b id s) := by
  simp [execPldmSensorReading, h]

@[simp] theorem execSetSensorThresholds_wf (b : Binding) (id : Nat) (warn crit : Int) {s : State} (h : Memory.wf s.mem = true) :
    AnswersWf (execSetSensorThresholds b id warn crit s) := by
  simp [execSetSensorThresholds, h]

@[simp] theorem execSensorUpdate_wf (id : Nat) (value : Int) {s : State} (h : Memory.wf s.mem = true) :
    AnswersWf (execSensorUpdate id value s) := by
  simp [execSensorUpdate, h]

@[simp] theorem execPldmFirmwareUpdate_wf (b : Binding) (off : Nat) (data : Bytes) {s : State} (h : Memory.wf s.mem = true) :
    AnswersWf (execPldmFirmwareUpdate b off data s) := by
  simp [execPldmFirmwareUpdate, h]

@[simp] theorem execUnitStateEffecter_wf (u : Fin 120) (value : BitVec 2) (gen : BitVec 32) {s : State} (h : Memory.wf s.mem = true) :
    AnswersWf (execUnitStateEffecter u value gen s) := by
  simp [execUnitStateEffecter, h]

@[simp] theorem execOperAliasWrite_wf (r : Requester) (u : Fin 120) (v : Word) {s : State} (h : Memory.wf s.mem = true) :
    AnswersWf (execOperAliasWrite r u v s) := by
  simp only [execOperAliasWrite]
  split <;> simp [h]

@[simp] theorem execGetVersion_wf (b : Binding) {s : State} (h : Memory.wf s.mem = true) : AnswersWf (execGetVersion b s) := by
  simp [execGetVersion, h]

@[simp] theorem execGetCapabilities_wf (b : Binding) {s : State} (h : Memory.wf s.mem = true) : AnswersWf (execGetCapabilities b s) := by
  simp [execGetCapabilities, h]

@[simp] theorem execNegotiateAlgorithms_wf (b : Binding) {s : State} (h : Memory.wf s.mem = true) :
    AnswersWf (execNegotiateAlgorithms b s) := by
  simp [execNegotiateAlgorithms, h]

@[simp] theorem execGetDigests_wf (b : Binding) {s : State} (h : Memory.wf s.mem = true) : AnswersWf (execGetDigests b s) := by
  simp [execGetDigests, h]

@[simp] theorem execGetMeasurements_wf (b : Binding) {s : State} (h : Memory.wf s.mem = true) : AnswersWf (execGetMeasurements b s) := by
  simp [execGetMeasurements, h]

@[simp] theorem execGetCertificate_wf (b : Binding) (slot : BitVec 3) {s : State} (h : Memory.wf s.mem = true) :
    AnswersWf (execGetCertificate b slot s) := by
  simp [execGetCertificate, h]

@[simp] theorem execChallenge_wf (b : Binding) (slot : BitVec 3) (_nonce : BitVec 256) {s : State} (h : Memory.wf s.mem = true) :
    AnswersWf (execChallenge b slot _nonce s) := by
  simp [execChallenge, h]

@[simp] theorem execKeyExchange_wf (peer : SpdmPeer) (w : PeerId) {s : State} (h : Memory.wf s.mem = true) :
    AnswersWf (execKeyExchange peer w s) := by
  simp only [execKeyExchange]
  split <;> simp [h]

@[simp] theorem execFinish_wf (peer : SpdmPeer) (ok : Bool) {s : State} (h : Memory.wf s.mem = true) :
    AnswersWf (execFinish peer ok s) := by
  simp only [execFinish]
  split <;> simp [h]

@[simp] theorem execKeyUpdate_wf (peer : SpdmPeer) (outbound : Bool) {s : State} (h : Memory.wf s.mem = true) :
    AnswersWf (execKeyUpdate peer outbound s) := by
  simp only [execKeyUpdate]
  split <;> simp [h]

@[simp] theorem execSpdmHeartbeat_wf (peer : SpdmPeer) {s : State}
    (h : Memory.wf s.mem = true) : AnswersWf (execSpdmHeartbeat peer s) := by
  simp only [execSpdmHeartbeat]
  split <;> simp [h]

@[simp] theorem execEndSession_wf (peer : SpdmPeer) {s : State} (h : Memory.wf s.mem = true) : AnswersWf (execEndSession peer s) := by
  simp only [execEndSession]
  split <;> simp [h]

@[simp] theorem execTrellisKeyLoad_wf (load : KeyLoad) (hash : Option Digest) {s : State} (h : Memory.wf s.mem = true) :
    AnswersWf (execTrellisKeyLoad load hash s) := by
  simp [execTrellisKeyLoad, h]

@[simp] theorem execHbmKeyLoad_wf (slot : Fin 1024) (st : BitVec 2) (key : BitVec 512) (gen : BitVec 16) {s : State}
    (h : Memory.wf s.mem = true) : AnswersWf (execHbmKeyLoad slot st key gen s) := by
  simp only [execHbmKeyLoad]
  repeat' split
  all_goals simp [h]

@[simp] theorem execIdcode_wf {s : State} (h : Memory.wf s.mem = true) : AnswersWf (execIdcode s) := by
  simp [execIdcode, h]

@[simp] theorem execBypass_wf {s : State} (h : Memory.wf s.mem = true) : AnswersWf (execBypass s) := by
  simp [execBypass, h]

@[simp] theorem execUnlockChallenge_wf {s : State} (h : Memory.wf s.mem = true) : AnswersWf (execUnlockChallenge s) := by
  simp [execUnlockChallenge, h]

@[simp] theorem execUnlockResponse_wf (sig : Bytes) {s : State} (h : Memory.wf s.mem = true) : AnswersWf (execUnlockResponse sig s) := by
  simp only [execUnlockResponse]
  split <;> simp [h]

@[simp] theorem execTestReset_wf {s : State} (h : Memory.wf s.mem = true) : AnswersWf (execTestReset s) := by
  simp [execTestReset, h]

/-! ### Fault collector -/

@[simp] theorem execCollectorStorageRead_wf (slot : Fin 140) (w : Fin 4) {s : State} (h : Memory.wf s.mem = true) :
    AnswersWf (execCollectorStorageRead slot w s) := by
  simp [execCollectorStorageRead, h]

@[simp] theorem execFaultDetail_wf (src : Fin 139) {s : State} (h : Memory.wf s.mem = true) : AnswersWf (execFaultDetail src s) := by
  simp only [execFaultDetail]
  split <;> simp [h]

@[simp] theorem execFaultAck_wf (r : Requester) (v : Word) {s : State} (h : Memory.wf s.mem = true) : AnswersWf (execFaultAck r v s) := by
  simp [execFaultAck, h]

@[simp] theorem execFirstClr_wf (r : Requester) {s : State} (h : Memory.wf s.mem = true) : AnswersWf (execFirstClr r s) := by
  simp [execFirstClr, h]

@[simp] theorem execHeartbeat_wf {s : State} (h : Memory.wf s.mem = true) : AnswersWf (execHeartbeat s) := by
  simp [execHeartbeat, h]

@[simp] theorem execHeartbeatLoss_wf {s : State} (h : Memory.wf s.mem = true) : AnswersWf (execHeartbeatLoss s) := by
  simp only [execHeartbeatLoss]
  split <;> simp [h]

@[simp] theorem execAliveToggle_wf {s : State} (h : Memory.wf s.mem = true) : AnswersWf (execAliveToggle s) := by
  simp only [execAliveToggle]
  refine answersWf_ite _ ?_ ((answersWf_next s).2 h)
  rw [answersWf_next, State.onFaults_mem, State.toNow_mem]
  exact h

@[simp] theorem execInjArm_wf (r : Requester) (n : Fin 2) {s : State} (h : Memory.wf s.mem = true) : AnswersWf (execInjArm r n s) := by
  simp [execInjArm, h]

/-! ### Press -/

@[simp] theorem State.plan_wf {s : State} (e : Eng) (d : Bytes) (h : Memory.wf s.mem = true) : Memory.wf (s.plan e d).1.mem = true := by
  simp only [State.plan]
  repeat' split
  all_goals try simp [h]
  all_goals exact fst_wf ‹_› (by simp [h])

@[simp] theorem State.sendBatch_wf {s : State} (q num : Nat) (src : BatchSrc) (ctx : Nat) (ring : BitVec 2) (va : Nat)
    (h : Memory.wf s.mem = true) : Memory.wf (s.sendBatch q num src ctx ring va).mem = true := by
  simp only [State.sendBatch]
  repeat' split
  all_goals try simp [h]
  all_goals exact fst_wf ‹_› (by simp [h])

@[simp] theorem State.pqPush_wf {s : State} (c : Nat) (va : Word) (ring : BitVec 2) (h : Memory.wf s.mem = true) :
    Memory.wf (s.pqPush c va ring).mem = true := by
  simp [State.pqPush, h]

@[simp] theorem batchRanges_wf (e : Eng) (n va : Nat) {s : State} (h : Memory.wf s.mem = true) :
    Memory.wf (batchRanges e n va s).1.mem = true := by
  induction n generalizing s va with
  | zero => exact h
  | succ n ih =>
    unfold batchRanges
    grind [!State.vRd_mem_wf, !State.plan_wf]

@[simp] theorem execPress_wf (n : Fin 8192) {s : State} (h : Memory.wf s.mem = true) : AnswersWf (execPress n s) := by
  simp only [execPress]
  repeat' split
  all_goals try simp [h]
  all_goals rename_i hp
  all_goals simp [fst_wf hp (by simp [h])]

@[simp] theorem State.readItems_wf (e : Eng) (size stride n va : Nat) {s : State} (h : Memory.wf s.mem = true) :
    Memory.wf (State.readItems e size stride n va s).1.mem = true := by
  induction n generalizing s va with
  | zero => exact h
  | succ n ih =>
    unfold State.readItems
    grind [!State.vRd_mem_wf]

@[simp] theorem execLookupBatch_wf (q : Fin 4) (lane : Fin 8) {s : State} (h : Memory.wf s.mem = true) :
    AnswersWf (execLookupBatch q lane s) := by
  simp only [execLookupBatch]
  repeat' split
  all_goals try simp [h]
  all_goals grind [!State.plan_wf, State.popBatch_mem, State.batchFail_mem, !State.readItems_wf]

@[simp] theorem execUpdateBatch_wf (q : Fin 4) (lane : Fin 8) {s : State} (h : Memory.wf s.mem = true) :
    AnswersWf (execUpdateBatch q lane s) := by
  unfold execUpdateBatch
  split
  · simp [h]
  · extract_lets u e b
    have hu (d : Bytes) : Memory.wf (u.plan e d).1.mem = true := State.plan_wf e d (by simp [u, h])
    split <;> rename_i hp
    · simp [fst_wf hp (hu _)]
    · have hs := fst_wf hp (hu _)
      split
      · simp [hs]
      · split
        rename_i hi
        have hi := fst_wf hi (State.readItems_wf _ _ _ _ _ hs)
        split
        rename_i hd
        have hd := fst_wf hd (State.readItems_wf _ _ _ _ _ hi)
        (repeat' split) <;> simp [hd]

@[simp] theorem State.storeRd_wf {s : State} (w : Who) (q o n : Nat) (h : Memory.wf s.mem = true) :
    Memory.wf (s.storeRd w q o n).1.mem = true := by
  simp [State.storeRd, h]

@[simp] theorem State.storeWr_wf {s : State} (w : Who) (q o : Nat) (bs : Bytes) (h : Memory.wf s.mem = true) :
    Memory.wf (s.storeWr w q o bs).mem = true := by
  simp [State.storeWr, h]

@[simp] theorem State.rcFill_wf {s : State} (q : Nat) (h : Memory.wf s.mem = true) : Memory.wf (s.rcFill q).mem = true := by
  simp only [State.rcFill]
  repeat' split
  all_goals simp [h]

@[simp] theorem State.issueFetch_wf {s : State} (q l : Nat) (h : Memory.wf s.mem = true) : Memory.wf (s.issueFetch q l).mem = true := by
  unfold State.issueFetch
  split
  · exact h
  · split
    · exact h
    · extract_lets b u
      split
      · exact h
      · extract_lets src
        have hu : Memory.wf u.mem = true := by simp [u, h]
        clear_value u src b
        split
        rename_i hp
        have hw := fst_wf hp (by
          cases src with
          | cache k => dsimp only; split <;> simp [hu]
          | cutting slot => simp [hu]
          | home => simp [hu])
        dsimp only
        split
        · rw [State.send_mem, State.setPress_mem]
          exact hw
        · rw [State.setPress_mem]
          exact hw

@[simp] theorem State.copyOut_wf {s : State} (q : Nat) (m : CutMove) (h : Memory.wf s.mem = true) :
    Memory.wf (s.copyOut q m).mem = true := by
  simp only [State.copyOut]
  split <;> simp [h]

@[simp] theorem State.bgSlot_wf {s : State} (q : Nat) (h : Memory.wf s.mem = true) : Memory.wf (s.bgSlot q).mem = true := by
  simp only [State.bgSlot]
  split <;> simp [h]

@[simp] theorem execRowFetchIssue_wf (q : Fin 4) {s : State} (h : Memory.wf s.mem = true) : AnswersWf (execRowFetchIssue q s) := by
  simp only [execRowFetchIssue]
  repeat' split
  all_goals simp [h]

@[simp] theorem execRowArrival_wf (q : Fin 4) (k : Nat) {s : State} (h : Memory.wf s.mem = true) : AnswersWf (execRowArrival q k s) := by
  simp only [execRowArrival]
  repeat' split
  all_goals simp [h]

@[simp] theorem State.writeBag_wf {s : State} (q : Nat) (e : Eng) (run : BatchRun) (b : Batch) (i : Nat) (bag : Bag)
    (h : Memory.wf s.mem = true) : Memory.wf (s.writeBag q e run b i bag).1.mem = true := by
  simp only [State.writeBag]
  repeat' split
  all_goals simp [h]

@[simp] theorem writeBags_wf (q : Nat) (e : Eng) (run : BatchRun) (b : Batch) (i : Nat) (l : List Bag) {s : State}
    (h : Memory.wf s.mem = true) : Memory.wf (writeBags q e run b i l s).1.mem = true := by
  induction l generalizing s i with
  | nil => exact h
  | cons g l ih =>
    simp only [writeBags]
    exact ih _ (by simp [h])

@[simp] theorem execBatchComplete_wf (q : Fin 4) (lane : Fin 8) {s : State} (h : Memory.wf s.mem = true) :
    AnswersWf (execBatchComplete q lane s) := by
  simp only [execBatchComplete]
  repeat' split
  all_goals simp [h]

@[simp] theorem execAgeingBoundary_wf (q : Fin 4) {s : State} (h : Memory.wf s.mem = true) : AnswersWf (execAgeingBoundary q s) := by
  simp only [execAgeingBoundary]
  split <;> simp [h]

@[simp] theorem execServeWindow_wf (q : Fin 4) {s : State} (h : Memory.wf s.mem = true) : AnswersWf (execServeWindow q s) := by
  simp [execServeWindow, h]

@[simp] theorem State.slotBad_wf {s : State} (r : TableRec) (e : Nat) (j : JEntry) (h : Memory.wf s.mem = true) :
    Memory.wf (s.slotBad r e j).1.mem = true := by
  simp only [State.slotBad]
  split <;> simp [h]

@[simp] theorem State.slotWrite_wf {s : State} (r : TableRec) (e : Nat) (j : JEntry) (h : Memory.wf s.mem = true) :
    Memory.wf (s.slotWrite r e j).mem = true := by
  simp only [State.slotWrite]
  split <;> simp [h]

@[simp] theorem readEntries_wf (r : TableRec) (row : Nat) (l : List Bank) {s : State} (h : Memory.wf s.mem = true) :
    Memory.wf (readEntries r row l s).1.mem = true := by
  induction l generalizing s with
  | nil => exact h
  | cons b l ih =>
    simp only [readEntries]
    split
    · exact ih h
    · exact ih (by simp [h])

@[simp] theorem execJournalLookup_wf (q sender : Fin 4) {s : State} (h : Memory.wf s.mem = true) :
    AnswersWf (execJournalLookup q sender s) := by
  simp only [execJournalLookup]
  repeat' split
  all_goals simp [h]

@[simp] theorem State.poisonRow_wf {s : State} (t : TableRec) (row : Nat) (cause : Byte) (inj : Bool) (h : Memory.wf s.mem = true) :
    Memory.wf (s.poisonRow t row cause inj).mem = true := by
  simp [State.poisonRow, h]

@[simp] theorem State.journalAdd_wf {s : State} (t row : Nat) (xs : List (BitVec 128)) (poison : Bool) (h : Memory.wf s.mem = true) :
    Memory.wf (s.journalAdd t row xs poison).1.mem = true := by
  simp only [State.journalAdd]
  split
  · exact h
  · grind [!State.slotBad_wf, State.inject_mem, !State.slotWrite_wf, State.setTable_mem, State.onPress_mem, !State.poisonRow_wf]

@[simp] theorem State.addAnswer_wf {s : State} (q sender : Nat) (r : PressReq) (h : Memory.wf s.mem = true) :
    Memory.wf (s.addAnswer q sender r).mem = true := by
  simp only [State.addAnswer]
  split <;> simp [h]

@[simp] theorem execJournalAdd_wf (q sender : Fin 4) {s : State}
    (h : Memory.wf s.mem = true) : AnswersWf (execJournalAdd q sender s) := by
  simp only [execJournalAdd]
  repeat' split
  all_goals simp [h]

@[simp] theorem execCuttingWrite_wf (q sender : Fin 4) {s : State} (h : Memory.wf s.mem = true) :
    AnswersWf (execCuttingWrite q sender s) := by
  simp only [execCuttingWrite]
  repeat' split
  all_goals simp [h]

@[simp] theorem execDirectoryChange_wf (q sender : Fin 4) {s : State} (h : Memory.wf s.mem = true) :
    AnswersWf (execDirectoryChange q sender s) := by
  simp only [execDirectoryChange]
  split <;> simp [h]

@[simp] theorem execRowCacheInvalidate_wf (q sender : Fin 4) {s : State} (h : Memory.wf s.mem = true) :
    AnswersWf (execRowCacheInvalidate q sender s) := by
  simp only [execRowCacheInvalidate]
  split <;> simp [h]

@[simp] theorem execCandidate_wf (q sender : Fin 4) {s : State} (h : Memory.wf s.mem = true) : AnswersWf (execCandidate q sender s) := by
  simp only [execCandidate]
  repeat' split
  all_goals simp [h]

@[simp] theorem execCuttingCount_wf (q sender : Fin 4) {s : State} (h : Memory.wf s.mem = true) :
    AnswersWf (execCuttingCount q sender s) := by
  simp only [execCuttingCount]
  split <;> simp [h]

@[simp] theorem execPressAnswer_wf (q sender : Fin 4) {s : State} (h : Memory.wf s.mem = true) :
    AnswersWf (execPressAnswer q sender s) := by
  simp only [execPressAnswer]
  repeat' split
  all_goals simp [h]

@[simp] theorem execCuttingSlotFree_wf (q : Fin 4) (slot : Nat) {s : State} (h : Memory.wf s.mem = true) :
    AnswersWf (execCuttingSlotFree q slot s) := by
  simp only [execCuttingSlotFree]
  split <;> simp [h]

@[simp] theorem execBlendEntry_wf (t : Fin 4096) {s : State} (h : Memory.wf s.mem = true) : AnswersWf (execBlendEntry t s) := by
  simp only [execBlendEntry]
  split
  · split
    · exact (answersWf_next s).2 h
    · rw [answersWf_next, State.setTable_mem, State.onPress_mem, State.copiesFollow_mem]
      split
      · rw [State.raise_mem]
        exact State.memWr_wf _ _ _ _ (by simp [h])
      · exact State.memWr_wf _ _ _ _ (by simp [h])
  · exact (answersWf_next s).2 h

@[simp] theorem execJournalBankFree_wf (t : Fin 4096) {s : State} (h : Memory.wf s.mem = true) : AnswersWf (execJournalBankFree t s) := by
  simp only [execJournalBankFree]
  split <;> simp [h]

@[simp] theorem State.placeJournals_wf {s : State} (q : Nat) (h : Memory.wf s.mem = true) : Memory.wf (s.placeJournals q).mem = true := by
  refine foldl_wf (fun s e => ?_) _ h
  split
  · split
    · refine foldl_wf (fun u b => ?_) _ s.wf
      refine foldl_wf (fun v j => ?_) _ u.wf
      simp
    · exact s.wf
  · exact s.wf

/-! ### Caches -/

@[simp] theorem State.writeBack_wf {s : State} (c : Nat) (l : CLine) (h : Memory.wf s.mem = true) :
    Memory.wf (s.writeBack c l).1.mem = true := by
  simp [State.writeBack, h]

@[simp] theorem State.cleanAt_wf {s : State} (c i : Nat) (h : Memory.wf s.mem = true) : Memory.wf (s.cleanAt c i).mem = true := by
  simp [State.cleanAt, h]

@[simp] theorem State.cleanAll_wf {s : State} (c : Nat) (h : Memory.wf s.mem = true) : Memory.wf (s.cleanAll c).mem = true := by
  simp [State.cleanAll, h]

@[simp] theorem State.emptyData_wf {s : State} (c : Nat) (h : Memory.wf s.mem = true) : Memory.wf (s.emptyData c).mem = true := by
  rw [State.emptyData, State.onCore_mem]
  exact s.cleanAll_wf c h

@[simp] theorem State.flushCaches_wf {s : State} (c : Nat) (h : Memory.wf s.mem = true) : Memory.wf (s.flushCaches c).mem = true := by
  rw [State.flushCaches, State.onCore_mem]
  exact s.emptyData_wf c h

@[simp] theorem State.dFill_wf {s : State} (c line : Nat) (key : BitVec 10) (stream : Bool) (h : Memory.wf s.mem = true) :
    Memory.wf (s.dFill c line key stream).1.mem = true := by
  simp only [State.dFill]
  repeat' split
  all_goals simp [h]

/-! ### SRAM -/

@[simp] theorem execSramReadRequest_wf (c : Fin 64) (a : SramAgent) (off : BitVec 25) (len : Nat) {s : State}
    (h : Memory.wf s.mem = true) : AnswersWf (execSramReadRequest c a off len s) := by
  simp only [execSramReadRequest]
  split <;> simp [h]

@[simp] theorem execSramWriteRequest_wf (c : Fin 64) (a : SramAgent) (off : BitVec 25) (data : Bytes) {s : State}
    (h : Memory.wf s.mem = true) : AnswersWf (execSramWriteRequest c a off data s) := by
  simp only [execSramWriteRequest]
  split <;> simp [h]

@[simp] theorem State.sramFixWord_wf {s : State} (w : Nat) (f : WordErr) (h : Memory.wf s.mem = true) :
    Memory.wf (s.sramFixWord w f).mem = true := by
  simp only [State.sramFixWord]
  repeat' split
  all_goals simp [h]

@[simp] theorem execSramCorrectionRewrite_wf (c : Fin 64) {s : State} (h : Memory.wf s.mem = true) :
    AnswersWf (execSramCorrectionRewrite c s) := by
  simp only [execSramCorrectionRewrite]
  split <;> simp [h]

@[simp] theorem State.scrubWord_wf {s : State} (w : Nat) (h : Memory.wf s.mem = true) : Memory.wf (s.scrubWord w).mem = true := by
  simp only [State.scrubWord]
  repeat' split
  all_goals simp [h]

@[simp] theorem execSramScrub_wf (c : Fin 64) {s : State} (h : Memory.wf s.mem = true) : AnswersWf (execSramScrub c s) := by
  simp only [execSramScrub]
  split <;> simp [h]

@[simp] theorem execCachePwr_wf (r : Requester) (c : Fin 64) (v : Word) {s : State} (h : Memory.wf s.mem = true) :
    AnswersWf (execCachePwr r c v s) := by
  simp [execCachePwr, h]

@[simp] theorem execCacheWayPoweredOff_wf (c : Fin 64) {s : State} (h : Memory.wf s.mem = true) :
    AnswersWf (execCacheWayPoweredOff c s) := by
  simp only [execCacheWayPoweredOff]
  repeat' split
  all_goals simp [h]

@[simp] theorem execCacheWayPoweredOn_wf (c : Fin 64) {s : State}
    (h : Memory.wf s.mem = true) : AnswersWf (execCacheWayPoweredOn c s) := by
  simp only [execCacheWayPoweredOn]
  split <;> simp [h]

@[simp] theorem execIdleCoreWayPowerdown_wf (c : Fin 64) {s : State} (h : Memory.wf s.mem = true) :
    AnswersWf (execIdleCoreWayPowerdown c s) := by
  simp only [execIdleCoreWayPowerdown]
  refine answersWf_ite _ ((answersWf_next s).2 h) ?_
  rw [answersWf_next, State.wayTargets_mem, State.onCore_mem, State.toNow_mem]
  exact h

/-! ### Registers -/

@[simp] theorem execIrqRaise_wf (r : Requester) (c : Fin 64) (v : Word) {s : State} (h : Memory.wf s.mem = true) :
    AnswersWf (execIrqRaise r c v s) := by
  simp [execIrqRaise, h]

@[simp] theorem State.xlatWrite_wf {s : State} (r : Requester) (o : Nat) (v : Word) (h : Memory.wf s.mem = true) :
    Memory.wf (s.xlatWrite r o v).mem = true := by
  simp only [State.xlatWrite]
  repeat' split
  all_goals simp [h]

@[simp] theorem State.mmioWr_wf {s : State} (r : Requester) (a : Nat) (v : Word) (h : Memory.wf s.mem = true) :
    Memory.wf (s.mmioWr r a v).mem = true := by
  simp only [State.mmioWr]
  repeat' split
  all_goals simp [h]

@[simp] theorem State.queueWrite_wf {s : State} (n o : Nat) (v : Word) (h : Memory.wf s.mem = true) :
    Memory.wf (s.queueWrite n o v).mem = true := by
  simp only [State.queueWrite]
  repeat' split
  all_goals simp [h]

@[simp] theorem State.barWr_wf {s : State} (a : Nat) (v : Word) (h : Memory.wf s.mem = true) : Memory.wf (s.barWr a v).mem = true := by
  simp only [State.barWr]
  repeat' split
  all_goals simp [h]

@[simp] theorem State.regWr_wf {s : State} (r : Requester) (sp : RegSpace) (a : Nat) (v : Word) (h : Memory.wf s.mem = true) :
    Memory.wf (s.regWr r sp a v).mem = true := by
  simp only [State.regWr]
  split <;> simp [h]

@[simp] theorem execRegisterWrite_wf (r : Requester) (sp : RegSpace) (addr : Nat) (w32 : Bool) (v : Word) {s : State}
    (h : Memory.wf s.mem = true) : AnswersWf (execRegisterWrite r sp addr w32 v s) := by
  simp [execRegisterWrite, h]

@[simp] theorem execReadClear_wf (r : Requester) (sp : RegSpace) (addr : Nat) (w32 : Bool) {s : State} (h : Memory.wf s.mem = true) :
    AnswersWf (execReadClear r sp addr w32 s) := by
  simp [execReadClear, h]

@[simp] theorem execLowHalfRead_wf (r : Requester) (sp : RegSpace) (addr : Nat) {s : State} (h : Memory.wf s.mem = true) :
    AnswersWf (execLowHalfRead r sp addr s) := by
  simp [execLowHalfRead, h]

@[simp] theorem execPcieConfigRequest_wf (req : CfgReq) {s : State} (h : Memory.wf s.mem = true) :
    AnswersWf (execPcieConfigRequest req s) := by
  simp only [execPcieConfigRequest]
  split <;> simp [h]

@[simp] theorem execBar2Access_wf (off : Nat) (op : Bar2Op) {s : State} (h : Memory.wf s.mem = true) :
    AnswersWf (execBar2Access off op s) := by
  simp only [execBar2Access]
  repeat' split
  all_goals simp [h]

/-! ### Load and store unit -/

@[simp] theorem State.dMiss_wf {s : State} (c line : Nat) (key : BitVec 10) (stream : Bool) (h : Memory.wf s.mem = true) :
    Memory.wf (s.dMiss c line key stream).1.mem = true := by
  simp only [State.dMiss]
  repeat' split
  all_goals try simp
  all_goals exact fst_wf ‹_› (by simp [h])

@[simp] theorem State.dLine_wf {s : State} (c line : Nat) (key : BitVec 10) (stream : Bool) (h : Memory.wf s.mem = true) :
    Memory.wf (s.dLine c line key stream).1.mem = true := by
  simp only [State.dLine]
  repeat' split
  all_goals simp [h]

@[simp] theorem State.linePut_wf {s : State} (c i off : Nat) (bs : Bytes) (h : Memory.wf s.mem = true) :
    Memory.wf (s.linePut c i off bs).mem = true := by
  simp [State.linePut, h]

@[simp] theorem coreRds_wf (c : Nat) (key : BitVec 10) (l : List (Nat × Nat)) {s : State} (h : Memory.wf s.mem = true) :
    Memory.wf (coreRds c key l s).1.mem = true := by
  induction l generalizing s with
  | nil => exact h
  | cons a l ih =>
    simp only [coreRds]
    exact ih (by simp [h])

@[simp] theorem State.coreRd_wf {s : State} (c k : Nat) (ring : BitVec 2) (va n : Nat) (h : Memory.wf s.mem = true) :
    Memory.wf (s.coreRd c k ring va n).1.mem = true := by
  simp only [State.coreRd]
  split <;> simp [h]

@[simp] theorem coreWrs_wf (c : Nat) (key : BitVec 10) (l : List (Nat × Nat)) (bs : Bytes) {s : State} (h : Memory.wf s.mem = true) :
    Memory.wf (coreWrs c key l bs s).mem = true := by
  induction l generalizing s bs with
  | nil => exact h
  | cons a l ih =>
    simp only [coreWrs]
    split
    all_goals exact ih _ (by simp [h])

@[simp] theorem State.coreWr_wf {s : State} (c : Nat) (ring : BitVec 2) (va : Nat) (bs : Bytes) (h : Memory.wf s.mem = true) :
    Memory.wf (s.coreWr c ring va bs).mem = true := by
  simp only [State.coreWr]
  split <;> simp [h]

@[simp] theorem State.addOldest_wf {s : State} (c : Nat) (h : Memory.wf s.mem = true) : Memory.wf (s.addOldest c).mem = true := by
  simp only [State.addOldest]
  repeat' split
  all_goals simp [h]

@[simp] theorem State.addAll_wf {s : State} (c : Nat) (h : Memory.wf s.mem = true) : Memory.wf (s.addAll c).mem = true := by
  simp [State.addAll, h]

@[simp] theorem State.lsuDo_wf {s : State} (c off : Nat) (mode data : Word) (k : LsuChk) (h : Memory.wf s.mem = true) :
    Memory.wf (s.lsuDo c off mode data k).1.mem = true := by
  cases k with
  | trap => exact h
  | nothing =>
    simp only [State.lsuDo]
    rw [State.onSeq_mem]
    split
    · exact State.cleanAll_wf c h
    · exact h
  | io a =>
    simp only [State.lsuDo]
    split
    · split <;> simp [h]
    · simp [h]
  | mem pa key idx =>
    simp only [State.lsuDo]
    grind [!State.addAll_wf, State.touch_mem, !State.dLine_wf, State.lsuPost_mem, !State.linePut_wf, !State.memWr_wf,
      State.ownSev_mem, !State.cleanAt_wf, State.dropAt_mem, State.onCore_mem, State.onSeq_mem]

@[simp] theorem execMulComplete_wf (c : Fin 64) (m : Fin 4) {s : State} (h : Memory.wf s.mem = true) :
    AnswersWf (execMulComplete c m s) := by
  simp [execMulComplete, h]

@[simp] theorem execLsuLoadComplete_wf (c : Fin 64) (m : Fin 4) {s : State} (h : Memory.wf s.mem = true) :
    AnswersWf (execLsuLoadComplete c m s) := by
  simp [execLsuLoadComplete, h]

@[simp] theorem execLsuMaintenanceComplete_wf (c : Fin 64) {s : State} (h : Memory.wf s.mem = true) :
    AnswersWf (execLsuMaintenanceComplete c s) := by
  simp [execLsuMaintenanceComplete, h]

@[simp] theorem execDivComplete_wf (c : Fin 64) {s : State} (h : Memory.wf s.mem = true) : AnswersWf (execDivComplete c s) := by
  simp [execDivComplete, h]

@[simp] theorem execMemoryAtomicAdd_wf (c : Fin 64) {s : State} (h : Memory.wf s.mem = true) : AnswersWf (execMemoryAtomicAdd c s) := by
  simp [execMemoryAtomicAdd, h]

/-! ### Sequencer -/

@[simp] theorem State.codeRd_wf {s : State} (c k : Nat) (ring : BitVec 2) (va : Nat) (h : Memory.wf s.mem = true) :
    Memory.wf (s.codeRd c k ring va).1.mem = true := by
  simp only [State.codeRd]
  split <;> simp [h]

@[simp] theorem shadowEntry_wf {s : State} (c k n : Nat) (tab : Bytes) (v : Nat) (h : Memory.wf s.mem = true) :
    Memory.wf (shadowEntry c k n tab s v).mem = true := by
  simp [shadowEntry, h]

@[simp] theorem State.reloadShadow_wf {s : State} (c k n : Nat) (h : Memory.wf s.mem = true) :
    Memory.wf (s.reloadShadow c k n).mem = true := by
  simp only [State.reloadShadow]
  split <;> simp [h]

@[simp] theorem State.sync_wf {s : State} (c : Nat) (h : Memory.wf s.mem = true) : Memory.wf (s.sync c).mem = true := by
  simp [State.sync, h]

@[simp] theorem State.overflow_wf {s : State} (c t : Nat) (frame : Bytes) (info : Word) (h : Memory.wf s.mem = true) :
    Memory.wf (s.overflow c t frame info).mem = true := by
  simp [State.overflow, h]

@[simp] theorem State.enter_wf {s : State} (c v : Nat) (ret : Word) (lpend : Bool) (addr : Word) (arg : Nat)
    (h : Memory.wf s.mem = true) : Memory.wf (s.enter c v ret lpend addr arg).mem = true := by
  simp only [State.enter]
  split <;> simp [h]

@[simp] theorem State.gateCheck_wf {s : State} (c : Nat) (idx : Word) (h : Memory.wf s.mem = true) :
    Memory.wf (s.gateCheck c idx).1.mem = true := by
  simp only [State.gateCheck]
  repeat' split
  all_goals try simp [h]
  all_goals exact fst_wf ‹_› (by simp [h])

@[simp] theorem State.retCheck_wf {s : State} (c : Nat) (h : Memory.wf s.mem = true) : Memory.wf (s.retCheck c).1.mem = true := by
  simp only [State.retCheck]
  repeat' split
  all_goals try simp
  all_goals exact fst_wf ‹_› (by simp [h])

@[simp] theorem State.chk_wf {s : State} (c b : Nat) (h : Memory.wf s.mem = true) : Memory.wf (s.chk c b).1.mem = true := by
  simp only [State.chk]
  repeat' split
  all_goals simp [h]

@[simp] theorem State.pushes_wf {s : State} (c : Nat) (ring : BitVec 2) (vals : List (Nat × Word)) (h : Memory.wf s.mem = true) :
    Memory.wf (s.pushes c ring vals).mem = true := by
  simp only [State.pushes]
  repeat' split
  all_goals simp [h]

@[simp] theorem State.doGate_wf {s : State} (c : Nat) (g : GateGo)
    (h : Memory.wf s.mem = true) : Memory.wf (s.doGate c g).mem = true := by
  simp [State.doGate, h]

@[simp] theorem State.halt_wf {s : State} (c : Nat) (h : Memory.wf s.mem = true) : Memory.wf (s.halt c).mem = true := by
  simp [State.halt, h]

@[simp] theorem State.onward_wf {s : State} (c : Nat) (g : Go) (jump : Option Word) (h : Memory.wf s.mem = true) :
    Memory.wf (s.onward c g jump).mem = true := by
  simp only [State.onward]
  split <;> simp [h]

@[simp] theorem State.flow_wf {s : State} (c : Nat) (g : Go) (h : Memory.wf s.mem = true) : Memory.wf (s.flow c g).mem = true := by
  simp only [State.flow]
  split
  · refine State.halt_wf _ (State.onward_wf _ _ _ ?_)
    split <;> simp [h]
  · refine State.onward_wf _ _ _ ?_
    split <;> simp [h]

@[simp] theorem State.issue_wf {s : State} (c : Nat) (g : Go) (h : Memory.wf s.mem = true) : Memory.wf (s.issue c g).mem = true := by
  simp only [State.issue]
  grind [!State.lsuDo_wf, !State.enter_wf, !State.flow_wf, !State.pushes_wf, State.onCore_mem, State.onSeq_mem, State.scalars_mem]

@[simp] theorem State.look_wf {s : State} (c : Nat) (h : Memory.wf s.mem = true) : Memory.wf (s.look c).1.mem = true := by
  simp only [State.look]
  repeat' split
  all_goals try simp
  all_goals rename_i hp
  all_goals simp [fst_wf hp (by simp [h])]

@[simp] theorem State.gateOverflow_wf {s : State} (c t : Nat)
    (h : Memory.wf s.mem = true) : Memory.wf (s.gateOverflow c t).mem = true := by
  simp [State.gateOverflow, h]

@[simp] theorem execBundleIssue_wf (c : Fin 64) {s : State} (h : Memory.wf s.mem = true) : AnswersWf (execBundleIssue c s) := by
  simp only [execBundleIssue]
  repeat' split
  all_goals try simp [h]
  all_goals rename_i hp
  all_goals simp [fst_wf hp (by simp [h])]

@[simp] theorem execInterruptEntry_wf (c : Fin 64) {s : State} (h : Memory.wf s.mem = true) : AnswersWf (execInterruptEntry c s) := by
  simp only [execInterruptEntry]
  repeat' split
  all_goals try simp [h]
  all_goals rename_i hp
  all_goals simp [fst_wf hp (by simp [h])]

@[simp] theorem execInstructionCacheFill_wf (c : Fin 64) {s : State} (h : Memory.wf s.mem = true) :
    AnswersWf (execInstructionCacheFill c s) := by
  simp only [execInstructionCacheFill]
  repeat' split
  all_goals simp [h]

@[simp] theorem execKernelStart_wf (c : Fin 64) {s : State} (h : Memory.wf s.mem = true) : AnswersWf (execKernelStart c s) := by
  simp only [execKernelStart]
  repeat' split
  all_goals simp [h]

@[simp] theorem execCoreIdle_wf (c : Fin 64) {s : State} (h : Memory.wf s.mem = true) : AnswersWf (execCoreIdle c s) := by
  simp [execCoreIdle, h]

/-! ### Applying an image -/

@[simp] theorem State.clearRegion_wf {s : State} (r : RegionRec) (h : Memory.wf s.mem = true) : Memory.wf (s.clearRegion r).mem = true :=
  Memory.wf_cut _ _ h

@[simp] theorem State.zeroUnit_wf {s : State} (c i : Nat) (h : Memory.wf s.mem = true) : Memory.wf (s.zeroUnit c i).mem = true := by
  simp [State.zeroUnit, h]

@[simp] theorem State.zeroMoved_wf {s : State} (old new : Active) (c : Nat) (h : Memory.wf s.mem = true) :
    Memory.wf (s.zeroMoved old new c).mem = true := by
  simp only [State.zeroMoved]
  split <;> simp [h]

@[simp] theorem State.zeroScratch_wf {s : State} (c : Nat) (h : Memory.wf s.mem = true) : Memory.wf (s.zeroScratch c).mem = true := by
  simp [State.zeroScratch, h]

@[simp] theorem State.zeroCores_wf {s : State} (old new img : Active) (once : Bool) (h : Memory.wf s.mem = true) :
    Memory.wf (s.zeroCores old new img once).mem = true := by
  refine foldl_wf (fun u c => ?_) _ h
  dsimp only
  split <;> simp

@[simp] theorem State.loadRing_wf {s : State} (c k : Nat) (h : Memory.wf s.mem = true) : Memory.wf (s.loadRing c k).mem = true := by
  simp [State.loadRing, h]

@[simp] theorem State.gainCores_wf {s : State} (old : Active) (h : Memory.wf s.mem = true) : Memory.wf (s.gainCores old).mem = true := by
  refine foldl_wf (fun u c => ?_) _ h
  dsimp only
  split
  · split <;> simp
  · exact u.wf

@[simp] theorem State.applyPress_wf {s : State} (old : Active) (q : Nat) (h : Memory.wf s.mem = true) :
    Memory.wf (s.applyPress old q).mem = true := by
  simp [State.applyPress, h]

@[simp] theorem State.applyImage_wf {s : State} (img : Image) (pend : List Nat) (h : Memory.wf s.mem = true) :
    Memory.wf (s.applyImage img pend).mem = true := by
  simp only [State.applyImage, State.ite_mem, State.applyRoutes_mem]
  rw [foldl_mem (fun u p => by simp), ite_self]
  refine State.gainCores_wf _ (foldl_wf (fun u q => ?_) _ ?_)
  · split <;> simp
  · rw [apply_ite State.mem, State.dropCuttings_mem, ite_self, State.applyGroups_mem, foldl_mem (fun u p => by split <;> simp),
      State.dropCtxs_mem]
    exact State.zeroCores_wf _ _ _ _ (foldl_wf (fun u r => by simp) _ h)

/-! ### Provenance -/

@[simp] theorem State.readLog_wf (k base : Nat) (l : List Nat) {s : State} (h : Memory.wf s.mem = true) :
    Memory.wf (State.readLog k base l s).1.mem = true := by
  induction l generalizing s with
  | nil => exact h
  | cons i l ih =>
    simp only [State.readLog]
    exact ih (by simp [h])

@[simp] theorem State.readLogs_wf (ks : List Nat) {s : State}
    (h : Memory.wf s.mem = true) : Memory.wf (State.readLogs ks s).1.mem = true := by
  induction ks generalizing s with
  | nil => exact h
  | cons k ks ih =>
    simp only [State.readLogs]
    exact ih (by simp [h])

@[simp] theorem State.formRecord_wf {s : State} (p : Nat) (forced signed : Bool) (h : Memory.wf s.mem = true) :
    Memory.wf (s.formRecord p forced signed).1.mem = true := by
  simp [State.formRecord, h]

@[simp] theorem execProvenance_wf (n : Fin 8192) {s : State} (h : Memory.wf s.mem = true) : AnswersWf (execProvenance n s) := by
  simp only [execProvenance]
  repeat' split
  all_goals simp [h]

@[simp] theorem State.served_wf {s : State} (r : SignReq) (h : Memory.wf s.mem = true) : Memory.wf (s.served r).mem = true := by
  simp only [State.served]
  repeat' split
  all_goals simp [h]

@[simp] theorem execSignatureComplete_wf {s : State} (h : Memory.wf s.mem = true) : AnswersWf (execSignatureComplete s) := by
  simp only [execSignatureComplete]
  split <;> simp [h]

/-! ### Racking -/

@[simp] theorem State.abortRecord_wf {s : State} (n p : Nat) (c : Cmd) (h : Memory.wf s.mem = true) :
    Memory.wf (s.abortRecord n p c).mem = true := by
  simp only [State.abortRecord]
  repeat' split
  all_goals simp [h]

@[simp] theorem State.abortQueue_wf {s : State} (p n : Nat) (h : Memory.wf s.mem = true) : Memory.wf (s.abortQueue p n).mem = true := by
  simp [State.abortQueue, h]

@[simp] theorem State.stopChan_wf {s : State} (p ch : Nat) (h : Memory.wf s.mem = true) : Memory.wf (s.stopChan p ch).mem = true := by
  simp only [State.stopChan, State.dropXfers_mem]
  refine foldl_wf (fun u x => ?_) _ h
  refine foldl_wf (fun v k => ?_) _ u.wf
  simp

@[simp] theorem State.drainAdds_wf {s : State} (c : Nat) (h : Memory.wf s.mem = true) : Memory.wf (s.drainAdds c).mem = true := by
  refine foldl_wf (fun u i => ?_) _ (State.addAll_wf c h)
  simp

@[simp] theorem State.stopAll_wf {s : State} (p : Nat) (h : Memory.wf s.mem = true) : Memory.wf (s.stopAll p).mem = true := by
  simp only [State.stopAll]
  refine foldl_wf (fun u n => by simp) _ ?_
  rw [State.stopGroups_mem, foldl_mem (fun u q => by simp)]
  refine foldl_wf (fun u ch => by simp) _ ?_
  refine foldl_wf (fun u c => by simp) _ ?_
  exact foldl_wf (fun u n => by simp) _ h

@[simp] theorem State.empty_wf {s : State} (p : Nat) (forced : Bool) (h : Memory.wf s.mem = true) :
    Memory.wf (s.empty p forced).mem = true := by
  simp only [State.empty, State.closeEpochs_mem]
  refine foldl_wf (fun u c => by simp) _ ?_
  rw [State.emptyCtxs_mem, foldl_mem (fun u q => by simp)]
  exact foldl_wf (fun u c => by simp) _ h

@[simp] theorem State.loadExts_wf {s : State} (p : Nat) (h : Memory.wf s.mem = true) : Memory.wf (s.loadExts p).mem = true := by
  simp only [State.loadExts]
  rw [foldl_mem (fun u r => by split <;> simp)]
  simp [h]

@[simp] theorem State.settle_wf {s : State} (p : Nat) (h : Memory.wf s.mem = true) : Memory.wf (s.settle p).mem = true := by
  simp only [State.settle, State.checkUnits_mem, State.fixUsable_mem]
  refine foldl_wf (fun u c => by simp) _ ?_
  rw [apply_ite State.mem, State.invalEnd_mem, ite_self]
  refine State.loadExts_wf _ ?_
  rw [State.applyKeys_mem]
  split
  · split
    · exact h
    · simp [h]
  · exact h

@[simp] theorem State.rack_wf {s : State} (p : Nat) (forced : Bool)
    (h : Memory.wf s.mem = true) : Memory.wf (s.rack p forced).mem = true := by
  simp only [State.rack]
  generalize hu : (if forced = true then _ else _ : State) = u
  have hw : Memory.wf u.mem = true := by
    rw [← hu]
    split
    · refine State.stopAll_wf _ ?_
      rw [State.onPart_mem]
      exact h
    · rw [State.onPart_mem]
      exact h
  have ht : Memory.wf ((u.empty p forced).settle p).mem = true := State.settle_wf p (State.empty_wf p forced hw)
  generalize (u.empty p forced).settle p = t at ht
  split <;> simp [ht]

@[simp] theorem State.recordQueues_wf {s : State} (ns : List Nat) (h : Memory.wf s.mem = true) :
    Memory.wf (State.recordQueues ns s).mem = true := by
  simp [State.recordQueues, h]

@[simp] theorem execVintageNormalEnd_wf (p : Fin 64) {s : State} (h : Memory.wf s.mem = true) : AnswersWf (execVintageNormalEnd p s) := by
  simp only [execVintageNormalEnd]
  split <;> simp [h]

@[simp] theorem execBudgetExpiry_wf (p : Fin 64) {s : State} (h : Memory.wf s.mem = true) : AnswersWf (execBudgetExpiry p s) := by
  simp only [execBudgetExpiry]
  split <;> simp [h]

@[simp] theorem execRackingComplete_wf (p : Fin 64) {s : State} (h : Memory.wf s.mem = true) : AnswersWf (execRackingComplete p s) := by
  simp [execRackingComplete, h]

@[simp] theorem execPartRack_wf (r : Requester) (p : Fin 64) {s : State}
    (h : Memory.wf s.mem = true) : AnswersWf (execPartRack r p s) := by
  simp only [execPartRack]
  split <;> simp [h]

/-! ### Alarms -/

@[simp] theorem execContextHaltTimeout_wf (c : Fin 64) {s : State} (h : Memory.wf s.mem = true) :
    AnswersWf (execContextHaltTimeout c s) := by
  simp only [execContextHaltTimeout]
  split <;> simp [h]

@[simp] theorem State.stopPart_wf {s : State} (p : Nat) (k : Nat × Nat) (h : Memory.wf s.mem = true) :
    Memory.wf (s.stopPart p k).mem = true := by
  simp only [State.stopPart]
  split <;> simp [h]

@[simp] theorem State.record1_wf {s : State} (a : Alarm) (acked : Bool) (h : Memory.wf s.mem = true) :
    Memory.wf (s.record1 a acked).1.mem = true := by
  simp [State.record1, h]

@[simp] theorem recordAlarms_wf (acked : Option Nat) (l : List Alarm) {s : State} (h : Memory.wf s.mem = true) :
    Memory.wf (recordAlarms acked l s).1.mem = true := by
  induction l generalizing s with
  | nil => exact h
  | cons a l ih =>
    simp only [recordAlarms]
    split
    · exact ih (by simp [h])
    · exact ih (by simp [h])

@[simp] theorem State.contest_wf {s : State} (js : List Judged) (h : Memory.wf s.mem = true) : Memory.wf (s.contest js).mem = true := by
  simp only [State.contest]
  repeat' split
  all_goals simp [h]

@[simp] theorem State.react_wf {s : State} (j : Judged) (h : Memory.wf s.mem = true) : Memory.wf (s.react j).mem = true := by
  simp only [State.react]
  repeat' split
  all_goals simp [h]

@[simp] theorem State.alarms_wf {s : State} (n : Nat) (ack : Option Word) (h : Memory.wf s.mem = true) :
    Memory.wf (s.alarms n ack).mem = true := by
  simp only [State.alarms]
  refine foldl_wf (fun u j => by simp) _ (State.contest_wf _ ?_)
  split <;> simp [h]

@[simp] theorem execAlarm_wf (n : AlarmTurn) {s : State} (h : Memory.wf s.mem = true) : AnswersWf (execAlarm n s) := by
  simp [execAlarm, h]

/-! ### Resets -/

@[simp] theorem State.clearSram_wf {s : State} (h : Memory.wf s.mem = true) : Memory.wf (s.clearSram).mem = true := by
  simp [State.clearSram, h]

@[simp] theorem State.resetDomain_wf {s : State} (k : Reach) (h : Memory.wf s.mem = true) : Memory.wf (s.resetDomain k).mem = true := by
  simp [State.resetDomain, h]

@[simp] theorem State.warmReset_wf {s : State} (k : Reach) (h : Memory.wf s.mem = true) : Memory.wf (s.warmReset k).mem = true := by
  simp only [State.warmReset]
  split <;> simp [h]

@[simp] theorem State.coldReset_wf {s : State} (brownOut : Bool) (h : Memory.wf s.mem = true) :
    Memory.wf (s.coldReset brownOut).mem = true := by
  simp [State.coldReset, h]

@[simp] theorem execResetN_wf {s : State} (h : Memory.wf s.mem = true) : AnswersWf (execResetN s) := by
  simp [execResetN, h]

@[simp] theorem execResetNRelease_wf {s : State} (h : Memory.wf s.mem = true) : AnswersWf (execResetNRelease s) := by
  simp [execResetNRelease, h]

@[simp] theorem execPerstN_wf {s : State} (h : Memory.wf s.mem = true) : AnswersWf (execPerstN s) := by
  simp [execPerstN, h]

@[simp] theorem execPerstNRelease_wf {s : State} (h : Memory.wf s.mem = true) : AnswersWf (execPerstNRelease s) := by
  simp [execPerstNRelease, h]

@[simp] theorem execHotReset_wf {s : State} (h : Memory.wf s.mem = true) : AnswersWf (execHotReset s) := by
  simp [execHotReset, h]

@[simp] theorem execLinkDisable_wf {s : State} (h : Memory.wf s.mem = true) : AnswersWf (execLinkDisable s) := by
  simp [execLinkDisable, h]

@[simp] theorem execFunctionLevelReset_wf {s : State} (h : Memory.wf s.mem = true) : AnswersWf (execFunctionLevelReset s) := by
  simp [execFunctionLevelReset, h]

@[simp] theorem execDevReset_wf (r : Requester) (v : Word) {s : State} (h : Memory.wf s.mem = true) : AnswersWf (execDevReset r v s) := by
  simp only [execDevReset]
  split <;> simp [h]

@[simp] theorem execDeviceResetEffecter_wf {s : State} (h : Memory.wf s.mem = true) : AnswersWf (execDeviceResetEffecter s) := by
  simp [execDeviceResetEffecter, h]

@[simp] theorem execRailsGood_wf {s : State} (h : Memory.wf s.mem = true) : AnswersWf (execRailsGood s) := by
  simp [execRailsGood, h]

@[simp] theorem execRailFault_wf (rail : Rail) {s : State} (h : Memory.wf s.mem = true) : AnswersWf (execRailFault rail s) := by
  simp [execRailFault, h]

@[simp] theorem execThermtrip_wf (d : Fin 5) {s : State} (h : Memory.wf s.mem = true) : AnswersWf (execThermtrip d s) := by
  simp only [execThermtrip]
  split <;> simp [h]

@[simp] theorem execSysRefclkLoss_wf {s : State} (h : Memory.wf s.mem = true) : AnswersWf (execSysRefclkLoss s) := by
  simp [execSysRefclkLoss, h]

@[simp] theorem execSysRefclkReturn_wf {s : State} (h : Memory.wf s.mem = true) : AnswersWf (execSysRefclkReturn s) := by
  simp [execSysRefclkReturn, h]

@[simp] theorem execFirmwareVerify_wf {s : State} (h : Memory.wf s.mem = true) : AnswersWf (execFirmwareVerify s) := by
  simp only [execFirmwareVerify]
  split <;> simp [h]

@[simp] theorem execD2dTrainingDone_wf {s : State} (h : Memory.wf s.mem = true) : AnswersWf (execD2dTrainingDone s) := by
  simp [execD2dTrainingDone, h]

@[simp] theorem execCoreBringupDone_wf (c : Fin 64) {s : State} (h : Memory.wf s.mem = true) : AnswersWf (execCoreBringupDone c s) := by
  simp only [execCoreBringupDone]
  repeat' split
  all_goals simp [h]

@[simp] theorem execHbmTrainingDone_wf (st : Fin 12) (res : Training) {s : State} (h : Memory.wf s.mem = true) :
    AnswersWf (execHbmTrainingDone st res s) := by
  simp [execHbmTrainingDone, h]

@[simp] theorem execPcieLinkUp_wf {s : State} (h : Memory.wf s.mem = true) : AnswersWf (execPcieLinkUp s) := by
  simp [execPcieLinkUp, h]

@[simp] theorem execPcieCompletion_wf (addr : BitVec 48) (data : Bytes) (poisoned ok : Bool) {s : State} (h : Memory.wf s.mem = true) :
    AnswersWf (execPcieCompletion addr data poisoned ok s) := by
  simp only [execPcieCompletion]
  repeat' split
  all_goals simp [h]

/-! ### Trellis -/

@[simp] theorem execTrellisStage_wf (r : Requester) {s : State} (h : Memory.wf s.mem = true) : AnswersWf (execTrellisStage r s) := by
  simp [execTrellisStage, h]

@[simp] theorem execTrellisCancel_wf (r : Requester) {s : State} (h : Memory.wf s.mem = true) : AnswersWf (execTrellisCancel r s) := by
  simp [execTrellisCancel, h]

@[simp] theorem readImage_wf (l : List (Nat × Nat)) {s : State}
    (h : Memory.wf s.mem = true) : Memory.wf (readImage l s).1.mem = true := by
  induction l generalizing s with
  | nil => exact h
  | cons a l ih =>
    simp only [readImage]
    split
    · simp [h]
    · exact ih (by simp [h])

@[simp] theorem State.fetchImage_wf {s : State} (h : Memory.wf s.mem = true) : Memory.wf (s.fetchImage).1.mem = true := by
  simp [State.fetchImage, h]

@[simp] theorem State.createPart_wf {s : State} (img : Image) (p : Nat) (joint : List Nat) (h : Memory.wf s.mem = true) :
    Memory.wf (s.createPart img p joint).mem = true := by
  simp only [State.createPart]
  generalize hu : (s.setPart p _).takeImage p img joint = u
  have hw : Memory.wf u.mem = true := by rw [← hu, State.takeImage_mem, State.setPart_mem]; exact h
  have hz : Memory.wf ((u.coresOf p).foldl State.zeroScratch u).mem = true := foldl_wf (fun v c => by simp) _ hw
  generalize (u.coresOf p).foldl State.zeroScratch u = v at hz
  have hl := State.loadExts_wf p hz
  generalize v.loadExts p = w at hl
  have hr : Memory.wf ((w.coresOf p).foldl (fun s c => s.loadRing c (s.firstCtx p)) w).mem = true := foldl_wf (fun v c => by simp) _ hl
  split <;> simp [hr]

@[simp] theorem State.stageImage_wf {s : State} (img : Image) (h : Memory.wf s.mem = true) : Memory.wf (s.stageImage img).mem = true := by
  simp only [State.stageImage]
  split <;> simp [h]

@[simp] theorem execTrellisVerifyDone_wf {s : State} (h : Memory.wf s.mem = true) : AnswersWf (execTrellisVerifyDone s) := by
  simp only [execTrellisVerifyDone]
  grind [!State.fetchImage_wf, answersWf_next, State.reject_mem, !State.checkTables_wf, !State.stageImage_wf, State.devIrq_mem]

/-! ## Every step -/

/-- Every command keeps memory in canonical form. -/
theorem exec_wf {s : State} (i : Instr) (h : Memory.wf s.mem = true) : AnswersWf (exec i s) := by
  cases i
  case fadd c | fsub c | fmul c | fma c | fnma c | fmin c | fmax c | fneg c | fabs c | fcmp c | cvt c | fdiv c | fsqrt c | rcp c |
      rsqrt c | exp2 c | log2 c | wmul c | wfma c | xdot c | mxscale c | mxquant c | iadd c | isub c | imul c | imin c | imax c |
      iminu c | imaxu c | and c | or c | xor c | shl c | shr c | sra c | icmp c | popc c | idot4 c | xadd c | vset c | iota c |
      vmov c | iwmul c | compress c | expand c | vperm c | slideup c | slidedn c | transpose c | extract c | insert c |
      fredsum c | fredmin c | fredmax c | iredsum c | xredsum c | mand c | mor c | mxor c | mandn c | mnot c | mset c | mpopc c |
      mfirst c | vld c | vst c | vgather c | vscatter c | vscatadd c | vldseg c | vstseg c | tld c | tst c | vatadd c | gld c |
      tbind c | rdflags c =>
    exact vecStep_wf_of_vecOp c rfl h
  case registerWrite r sp addr w32 v => exact execRegisterWrite_wf r sp addr w32 v h
  case readClear r sp addr w32 => exact execReadClear_wf r sp addr w32 h
  case lowHalfRead r sp addr => exact execLowHalfRead_wf r sp addr h
  case pcieConfigRequest req => exact execPcieConfigRequest_wf req h
  case bar2Access off op => exact execBar2Access_wf off op h
  case trellisStage r => exact execTrellisStage_wf r h
  case trellisCancel r => exact execTrellisCancel_wf r h
  case trellisVerifyDone => exact execTrellisVerifyDone_wf h
  case partRack r p => exact execPartRack_wf r p h
  case queueEnable n v => exact execQueueEnable_wf n v h
  case queueDisable n v => exact execQueueDisable_wf n v h
  case qtailDb k j v => exact execQtailDb_wf k j v h
  case cqheadDb k j v => exact execCqheadDb_wf k j v h
  case commandFetch n => exact execCommandFetch_wf n h
  case launchCountReached n => exact execLaunchCountReached_wf n h
  case nop n => exact execNop_wf n h
  case dispatch n => exact execDispatch_wf n h
  case dma n => exact execDma_wf n h
  case press n => exact execPress_wf n h
  case collective n => exact execCollective_wf n h
  case vintageEnd n => exact execVintageEnd_wf n h
  case provenance n => exact execProvenance_wf n h
  case writeValue n => exact execWriteValue_wf n h
  case completionWrite n => exact execCompletionWrite_wf n h
  case vintageNormalEnd p => exact execVintageNormalEnd_wf p h
  case budgetExpiry p => exact execBudgetExpiry_wf p h
  case rackingComplete p => exact execRackingComplete_wf p h
  case bundleIssue c => exact execBundleIssue_wf c h
  case interruptEntry c => exact execInterruptEntry_wf c h
  case mulComplete c m => exact execMulComplete_wf c m h
  case divComplete c => exact execDivComplete_wf c h
  case lsuLoadComplete c m => exact execLsuLoadComplete_wf c m h
  case lsuMaintenanceComplete c => exact execLsuMaintenanceComplete_wf c h
  case memoryAtomicAdd c => exact execMemoryAtomicAdd_wf c h
  case kernelStart c => exact execKernelStart_wf c h
  case coreIdle c => exact execCoreIdle_wf c h
  case irqRaise r c v => exact execIrqRaise_wf r c v h
  case cachePwr r c v => exact execCachePwr_wf r c v h
  case cacheWayPoweredOff c => exact execCacheWayPoweredOff_wf c h
  case cacheWayPoweredOn c => exact execCacheWayPoweredOn_wf c h
  case idleCoreWayPowerdown c => exact execIdleCoreWayPowerdown_wf c h
  case tloop c => exact execTloop_wf c h
  case vectorOpDone c => exact execVectorOpDone_wf c h
  case guardedCellAdd c => exact execGuardedCellAdd_wf c h
  case passAccept c => exact execPassAccept_wf c h
  case mac c => exact execMac_wf c h
  case minPlus c => exact execMinPlus_wf c h
  case maxPlus c => exact execMaxPlus_wf c h
  case l1 c => exact execL1_wf c h
  case l2sq c => exact execL2sq_wf c h
  case hamming c => exact execHamming_wf c h
  case tileCommit c => exact execTileCommit_wf c h
  case passComplete c => exact execPassComplete_wf c h
  case lookupBatch q lane => exact execLookupBatch_wf q lane h
  case updateBatch q lane => exact execUpdateBatch_wf q lane h
  case rowFetchIssue q => exact execRowFetchIssue_wf q h
  case rowArrival q k => exact execRowArrival_wf q k h
  case batchComplete q lane => exact execBatchComplete_wf q lane h
  case ageingBoundary q => exact execAgeingBoundary_wf q h
  case serveWindow q => exact execServeWindow_wf q h
  case journalLookup q sender => exact execJournalLookup_wf q sender h
  case journalAdd q sender => exact execJournalAdd_wf q sender h
  case cuttingWrite q sender => exact execCuttingWrite_wf q sender h
  case directoryChange q sender => exact execDirectoryChange_wf q sender h
  case rowCacheInvalidate q sender => exact execRowCacheInvalidate_wf q sender h
  case candidate q sender => exact execCandidate_wf q sender h
  case cuttingCount q sender => exact execCuttingCount_wf q sender h
  case pressAnswer q sender => exact execPressAnswer_wf q sender h
  case cuttingSlotFree q slot => exact execCuttingSlotFree_wf q slot h
  case blendEntry t => exact execBlendEntry_wf t h
  case journalBankFree t => exact execJournalBankFree_wf t h
  case hbmReadRequest req => exact execHbmReadRequest_wf req h
  case hbmWriteRequest req => exact execHbmWriteRequest_wf req h
  case hbmAccess pc => exact execHbmAccess_wf pc h
  case hbmResponse pc k => exact execHbmResponse_wf pc k h
  case hbmWindowBoundary st => exact execHbmWindowBoundary_wf st h
  case hbmRewrite pc => exact execHbmRewrite_wf pc h
  case refresh pc bank => exact execRefresh_wf pc bank h
  case stackTempRead st temp => exact execStackTempRead_wf st temp h
  case hbmScrubStep st => exact execHbmScrubStep_wf st h
  case regionClearDone base => exact execRegionClearDone_wf base h
  case hbmWeights r st v => exact execHbmWeights_wf r st v h
  case sramReadRequest c a off len => exact execSramReadRequest_wf c a off len h
  case sramWriteRequest c a off data => exact execSramWriteRequest_wf c a off data h
  case sramCorrectionRewrite c => exact execSramCorrectionRewrite_wf c h
  case sramScrub c => exact execSramScrub_wf c h
  case fabricPacketSend sel => exact execFabricPacketSend_wf sel h
  case fabricPacketArrival id => exact execFabricPacketArrival_wf id h
  case d2dLinkFailure d => exact execD2dLinkFailure_wf d h
  case copy ch => exact execCopy_wf ch h
  case fill ch => exact execFill_wf ch h
  case dmaTransferStart ch => exact execDmaTransferStart_wf ch h
  case chunkTranslate ch => exact execChunkTranslate_wf ch h
  case atsCompletion q pasid page answer => exact execAtsCompletion_wf q pasid page answer h
  case chunkComplete ch => exact execChunkComplete_wf ch h
  case prgResponse ch code => exact execPrgResponse_wf ch code h
  case atsInvalidate pasid page pages => exact execAtsInvalidate_wf pasid page pages h
  case atsInvalidationComplete => exact execAtsInvalidationComplete_wf h
  case dmaResumeRetry r ch level seq => exact execDmaResumeRetry_wf r ch level seq h
  case dmaResumeAbort r ch level seq => exact execDmaResumeAbort_wf r ch level seq h
  case invalCmd r => exact execInvalCmd_wf r h
  case invalDone => exact execInvalDone_wf h
  case rescueCmd r q => exact execRescueCmd_wf r q h
  case rescueComplete q => exact execRescueComplete_wf q h
  case dataFlit p flit => exact execDataFlit_wf p flit h
  case idleFlit p flit => exact execIdleFlit_wf p flit h
  case replayTimeout p => exact execReplayTimeout_wf p h
  case marunoPacketSend l => exact execMarunoPacketSend_wf l h
  case controlPacket rx => exact execControlPacket_wf rx h
  case collectivePacket rx => exact execCollectivePacket_wf rx h
  case transportAck rx => exact execTransportAck_wf rx h
  case ackTimer l => exact execAckTimer_wf l h
  case retransmitTimeout l => exact execRetransmitTimeout_wf l h
  case detectPoll p lanes => exact execDetectPoll_wf p lanes h
  case trainingComplete p reversed => exact execTrainingComplete_wf p reversed h
  case trainingTimeout p => exact execTrainingTimeout_wf p h
  case identifyTimeout l => exact execIdentifyTimeout_wf l h
  case holdoffExpiry l => exact execHoldoffExpiry_wf l h
  case laneSignalChange p lane signal lock snr => exact execLaneSignalChange_wf p lane signal lock snr h
  case signalLossTimeout p lane => exact execSignalLossTimeout_wf p lane h
  case portCtrl r p v => exact execPortCtrl_wf r p v h
  case reduce g => exact execReduce_wf g h
  case allReduce g => exact execAllReduce_wf g h
  case reduceScatter g => exact execReduceScatter_wf g h
  case allGather g => exact execAllGather_wf g h
  case broadcast g => exact execBroadcast_wf g h
  case barrier g => exact execBarrier_wf g h
  case startAtReached g => exact execStartAtReached_wf g h
  case collectiveComplete g => exact execCollectiveComplete_wf g h
  case collectiveTimeout g => exact execCollectiveTimeout_wf g h
  case groupSel r q v => exact execGroupSel_wf r q v h
  case cellarSlew => exact execCellarSlew_wf h
  case cellarSyncEdge frac => exact execCellarSyncEdge_wf frac h
  case loadCmd r v => exact execLoadCmd_wf r v h
  case cellarCtrl r v => exact execCellarCtrl_wf r v h
  case timeExchange => exact execTimeExchange_wf h
  case syncLossTimeout => exact execSyncLossTimeout_wf h
  case cellarRefLoss => exact execCellarRefLoss_wf h
  case cellarRefReturn => exact execCellarRefReturn_wf h
  case entdaa addr => exact execEntdaa_wf addr h
  case setdasa static addr => exact execSetdasa_wf static addr h
  case setEndpointId b eid => exact execSetEndpointId_wf b eid h
  case i3cBusFault => exact execI3cBusFault_wf h
  case i3cRecovery => exact execI3cRecovery_wf h
  case pldmBaseRequest b code => exact execPldmBaseRequest_wf b code h
  case pldmSensorReading b id => exact execPldmSensorReading_wf b id h
  case setSensorThresholds b id warn crit => exact execSetSensorThresholds_wf b id warn crit h
  case pldmFirmwareUpdate b off data => exact execPldmFirmwareUpdate_wf b off data h
  case unitStateEffecter u value gen => exact execUnitStateEffecter_wf u value gen h
  case deviceResetEffecter => exact execDeviceResetEffecter_wf h
  case getVersion b => exact execGetVersion_wf b h
  case getCapabilities b => exact execGetCapabilities_wf b h
  case negotiateAlgorithms b => exact execNegotiateAlgorithms_wf b h
  case getDigests b => exact execGetDigests_wf b h
  case getCertificate b slot => exact execGetCertificate_wf b slot h
  case challenge b slot nonce => exact execChallenge_wf b slot nonce h
  case getMeasurements b => exact execGetMeasurements_wf b h
  case keyExchange peer who => exact execKeyExchange_wf peer who h
  case finish peer ok => exact execFinish_wf peer ok h
  case keyUpdate peer outbound => exact execKeyUpdate_wf peer outbound h
  case spdmHeartbeat peer => exact execSpdmHeartbeat_wf peer h
  case endSession peer => exact execEndSession_wf peer h
  case trellisKeyLoad slot hash => exact execTrellisKeyLoad_wf slot hash h
  case hbmKeyLoad slot st key gen => exact execHbmKeyLoad_wf slot st key gen h
  case signatureComplete => exact execSignatureComplete_wf h
  case idcode => exact execIdcode_wf h
  case bypass => exact execBypass_wf h
  case unlockChallenge => exact execUnlockChallenge_wf h
  case unlockResponse sig => exact execUnlockResponse_wf sig h
  case testReset => exact execTestReset_wf h
  case sensorUpdate id value => exact execSensorUpdate_wf id value h
  case powerLoopSample q power junction overCurrent => exact execPowerLoopSample_wf q power junction overCurrent h
  case qpwrCap r q v => exact execQpwrCap_wf r q v h
  case safetyHoldExpiry q => exact execSafetyHoldExpiry_wf q h
  case avsResponse q mv => exact execAvsResponse_wf q mv h
  case avsFrameFailure q => exact execAvsFrameFailure_wf q h
  case clockRaiseDelay q => exact execClockRaiseDelay_wf q h
  case operAliasWrite r u v => exact execOperAliasWrite_wf r u v h
  case alarm n => exact execAlarm_wf n h
  case faultDetail src => exact execFaultDetail_wf src h
  case contextHaltTimeout c => exact execContextHaltTimeout_wf c h
  case faultAck r v => exact execFaultAck_wf r v h
  case firstClr r => exact execFirstClr_wf r h
  case heartbeat => exact execHeartbeat_wf h
  case heartbeatLoss => exact execHeartbeatLoss_wf h
  case aliveToggle => exact execAliveToggle_wf h
  case injArm r n => exact execInjArm_wf r n h
  case resetN => exact execResetN_wf h
  case perstN => exact execPerstN_wf h
  case hotReset => exact execHotReset_wf h
  case linkDisable => exact execLinkDisable_wf h
  case functionLevelReset => exact execFunctionLevelReset_wf h
  case devReset r v => exact execDevReset_wf r v h
  case railsGood => exact execRailsGood_wf h
  case railFault rail => exact execRailFault_wf rail h
  case firmwareVerify => exact execFirmwareVerify_wf h
  case d2dTrainingDone => exact execD2dTrainingDone_wf h
  case coreBringupDone c => exact execCoreBringupDone_wf c h
  case hbmTrainingDone st res => exact execHbmTrainingDone_wf st res h
  case pcieLinkUp => exact execPcieLinkUp_wf h
  case thermtrip d => exact execThermtrip_wf d h
  case resetNRelease => exact execResetNRelease_wf h
  case perstNRelease => exact execPerstNRelease_wf h
  case sysRefclkLoss => exact execSysRefclkLoss_wf h
  case sysRefclkReturn => exact execSysRefclkReturn_wf h
  case instructionCacheFill c => exact execInstructionCacheFill_wf c h
  case pcieCompletion addr data poisoned ok => exact execPcieCompletion_wf addr data poisoned ok h
  case collectorStorageRead slot w => exact execCollectorStorageRead_wf slot w h

/-- A step keeps memory in canonical form: the tick of an empty queue leaves it as it is, and a command is `exec_wf`. -/
theorem step_wf {s : State} (h : Memory.wf s.mem = true) : AnswersWf (step s) := by
  unfold step
  split
  · rw [answersWf_next, State.tick_mem]
    exact h
  · exact exec_wf _ h

/-- Settles O60: memory changes only through operations that keep the canonical form. -/
theorem memoryStaysCanonical : Obligations.MemoryStaysCanonical := by
  unfold Obligations.MemoryStaysCanonical
  intro s t h hst
  exact step_wf h t hst

/-- Settles O59: memory is empty after reset. -/
theorem memoryIsCanonicalAtReset : Obligations.MemoryIsCanonicalAtReset := by
  unfold Obligations.MemoryIsCanonicalAtReset
  rfl

end Sys2Proof.Machine
end

/-!
# Register accesses (O13)

An aligned 64-bit access of the host is the write or the read of the register itself, and a 32-bit read is `State.read32`. Each
clause then follows from what the register's own write or read does.
-/

section
namespace Sys2Proof.Machine

/-! ## The rows on an aligned address -/

theorem aligned8 {a : Nat} (h : a % 8 = 0) : a / 8 * 8 = a := Nat.div_mul_cancel (Nat.dvd_of_mod_eq_zero h)

theorem State.locate_bar0 (s : State) {a : Nat} (h : a < 0x1000000) : s.locate .bar0 a = (.bar0, a) := by
  simp only [State.locate, State.bar0]
  rw [if_neg (by omega), if_neg (by simp; omega)]

theorem registerWrite_bar0 (id : BitVec 16) (s : State) (v : Word) {a : Nat} (h : a < 0x1000000) (h8 : a % 8 = 0) :
    exec (.registerWrite (.host id) .bar0 a false v) s = .next (s.barWr a v) := by
  change execRegisterWrite (.host id) .bar0 a false v s = _
  simp [execRegisterWrite, s.locate_bar0 h, aligned8 h8, State.regMay, State.regWr]

theorem registerWrite_mmio (id : BitVec 16) (s : State) (v : Word) {a : Nat} (h8 : a % 8 = 0) :
    exec (.registerWrite (.host id) .mmio a false v) s = .next (s.mmioWr (.host id) a v) := by
  change execRegisterWrite (.host id) .mmio a false v s = _
  simp [execRegisterWrite, State.locate, aligned8 h8, State.regMay, State.mmioMay, State.regWr]

theorem readClear_bar0 (id : BitVec 16) (s : State) {a : Nat} (h : a < 0x1000000) (h8 : a % 8 = 0) (hrc : barRc a = true) :
    exec (.readClear (.host id) .bar0 a false) s = .next ((s.barClear a).hostData (.host id) (s.barPeek a)) := by
  change execReadClear (.host id) .bar0 a false s = _
  simp [execReadClear, s.locate_bar0 h, aligned8 h8, State.regMay, regRc, hrc, State.regRd]

theorem readClear_mmio (id : BitVec 16) (s : State) {a : Nat} (h8 : a % 8 = 0) (hrc : mmioRc a = true) :
    exec (.readClear (.host id) .mmio a false) s = .next ((s.mmioRd a).1.hostData (.host id) (s.mmioRd a).2) := by
  change execReadClear (.host id) .mmio a false s = _
  simp [execReadClear, State.locate, aligned8 h8, State.regMay, State.mmioMay, regRc, hrc, State.regRd]

theorem lowHalfRead_bar0 (id : BitVec 16) (s : State) {a : Nat} (h : a < 0x1000000) (h4 : a % 4 = 0) :
    exec (.lowHalfRead (.host id) .bar0 a) s =
      .next ((s.read32 (.host id) .bar0 a).1.hostData (.host id) ((s.read32 (.host id) .bar0 a).2.setWidth 64)) := by
  change execLowHalfRead (.host id) .bar0 a s = _
  simp [execLowHalfRead, s.locate_bar0 h, State.regMay, Nat.div_mul_cancel (Nat.dvd_of_mod_eq_zero h4)]

/-! ## Writes -/

theorem State.barWr_free (s : State) (v : Word) {a : Nat} (h : a < 0x200 ∨ 0xA0000 ≤ a) : s.barWr a v = s := by
  simp only [State.barWr]
  rw [if_neg (by simp; omega), if_neg (by simp; omega)]
  split
  case h_6 => rfl
  all_goals omega

theorem State.barWr_queueBase (s : State) (v : Word) (n : Fin 8192) :
    s.barWr (0x20000 + 64 * n.val) v = if (s.queue n).enable then s else s.setQueue n { s.queue n with base := v.setWidth 56 } := by
  have hn : (0x20000 + 64 * n.val - 0x20000) / 64 = n.val := by omega
  have ho : (0x20000 + 64 * n.val - 0x20000) % 64 = 0 := by omega
  simp only [State.barWr, hn, ho]
  rw [if_neg (by simp; omega), if_pos (by simp; omega)]
  rfl

theorem mreg_trapBase (c : Fin 64) : mreg (0x10000 + 256 * c.val) = .ring c 0 := by
  have hc : (0x10000 + 256 * c.val - 0x10000) / 256 = c.val := by omega
  have ho : (0x10000 + 256 * c.val - 0x10000) % 256 = 0 := by omega
  simp only [mreg, hc, ho]
  rw [if_pos (by simp; omega)]

theorem mreg_eccCorr (c : Fin 64) : mreg (0x20010 + 256 * c.val) = .store c 0x10 := by
  have hc : (0x20010 + 256 * c.val - 0x20000) / 256 = c.val := by omega
  have ho : (0x20010 + 256 * c.val - 0x20000) % 256 = 0x10 := by omega
  simp only [mreg, hc, ho]
  rw [if_neg (by simp; omega), if_pos (by simp; omega)]

theorem State.mmioMay_ring (s : State) (c : Fin 64) {r : BitVec 2} (a : Nat) (w : Bool) (v : Word) (hr : 2 ≤ r.toNat) :
    s.mmioMay (.ring c r) a w v = false := by
  have h0 : (r = 0) = False := eq_false (by rintro rfl; simp at hr)
  have h1 : (r = 1) = False := eq_false (by rintro rfl; simp at hr)
  simp only [State.mmioMay, h0, h1]
  rfl

/-! ## The clauses -/

theorem queueBase_write (id : BitVec 16) (s : State) (v : Word) (n : Fin 8192) :
    ∃ t, exec (.registerWrite (.host id) .bar0 (0x20000 + 64 * n.val) false v) s = .next t ∧
      t.queue n = (if (s.queue n).enable = true then s.queue n else { s.queue n with base := v.setWidth 56 }) ∧
      (∀ m : Nat, m ≠ n.val → t.queue m = s.queue m) ∧ t = { s with queues := t.queues } := by
  refine ⟨_, registerWrite_bar0 id s v (by omega) (by omega), ?_⟩
  rw [State.barWr_queueBase]
  split
  · exact ⟨rfl, fun _ _ => rfl, rfl⟩
  · exact ⟨State.setQueue_queue_at .., fun m hm => by rw [State.setQueue_queue, if_neg hm], rfl⟩

theorem trapBase_write (id : BitVec 16) (s : State) (v : Word) (c : Fin 64) :
    ∃ t, exec (.registerWrite (.host id) .mmio (0x10000 + 256 * c.val) false v) s = .next t ∧
      t.core c = { s.core c with rb := { (s.core c).rb with trapBase := v } } ∧
      (∀ d : Nat, d ≠ c.val → t.core d = s.core d) ∧ t = { s with cores := t.cores } := by
  refine ⟨_, registerWrite_mmio id s v (by omega), ?_⟩
  have hw : s.mmioWr (.host id) (0x10000 + 256 * c.val) v = s.setCore c { s.core c with rb := { (s.core c).rb with trapBase := v } } := by
    simp only [State.mmioWr, mreg_trapBase]
    rfl
  rw [hw]
  exact ⟨State.setCore_core_at .., fun d hd => by rw [State.setCore_core, if_neg hd], rfl⟩

theorem userRing_write (s : State) (v : Word) (c : Fin 64) (r : BitVec 2) (a : Nat) (b : Bool) (hr : 2 ≤ r.toNat) :
    exec (.registerWrite (.ring c r) .mmio a b v) s = .next s := by
  change execRegisterWrite (.ring c r) .mmio a b v s = _
  simp [execRegisterWrite, State.locate, State.regMay, s.mmioMay_ring c _ _ _ hr]

theorem eccCorr_readClear (id : BitVec 16) (s : State) (c : Fin 64) :
    ∃ t, exec (.readClear (.host id) .mmio (0x20010 + 256 * c.val) false) s = .next t ∧
      t.host.rdata = BitVec.ofNat 64 (s.core c).store.eccCorr ∧ t.host.rstatus = .ok ∧
      t.core c = { s.core c with store := { (s.core c).store with eccCorr := 0 } } ∧
      (∀ d : Nat, d ≠ c.val → t.core d = s.core d) ∧
      t = { s with cores := t.cores, host := { s.host with rdata := t.host.rdata, rstatus := .ok } } := by
  have hrc : mmioRc (0x20010 + 256 * c.val) = true := by simp [mmioRc, mreg_eccCorr]
  refine ⟨_, readClear_mmio id s (by omega) hrc, ?_⟩
  have hr : s.mmioRd (0x20010 + 256 * c.val) =
      (s.setCore c { s.core c with store := { (s.core c).store with eccCorr := 0 } }, BitVec.ofNat 64 (s.core c).store.eccCorr) := by
    simp [State.mmioRd, State.mmioClear, State.mmioPeek, hrc, mreg_eccCorr, State.storeReg, w64]
  rw [hr]
  exact ⟨rfl, rfl, State.setCore_core_at .., fun d hd => (State.setCore_core ..).trans (if_neg hd), rfl⟩

theorem dbErrors_readClear (id : BitVec 16) (s : State) (k : Fin 1024) :
    ∃ t, exec (.readClear (.host id) .bar0 (0x400080 + 4096 * k.val) false) s = .next t ∧
      t.host.rdata = (s.ctx k).dbErrors.setWidth 64 ∧ t.ctx k = { s.ctx k with dbErrors := 0 } ∧
      (∀ j : Nat, j ≠ k.val → t.ctx j = s.ctx j) ∧ t = { s with ctxs := t.ctxs, host := t.host } := by
  have hrc : barRc (0x400080 + 4096 * k.val) = true := by simp [barRc]; omega
  have hk : (0x400080 + 4096 * k.val - 0x400000) / 4096 = k.val := by omega
  have hc : s.barClear (0x400080 + 4096 * k.val) = s.setCtx k { s.ctx k with dbErrors := 0 } := by
    simp only [State.barClear, hrc, hk]
    rfl
  have hp : s.barPeek (0x400080 + 4096 * k.val) = (s.ctx k).dbErrors.setWidth 64 := by
    simp only [State.barPeek, hk]
    rw [if_neg (by omega), if_neg (by omega), if_neg (by omega), if_neg (by simp; omega), if_neg (by simp; omega), if_pos (by simp; omega)]
  refine ⟨_, readClear_bar0 id s (by omega) (by omega) hrc, ?_⟩
  rw [hc, hp]
  exact ⟨rfl, State.setCtx_ctx_at .., fun j hj => (State.setCtx_ctx ..).trans (if_neg hj), rfl⟩

/-! ## 32-bit reads of a partition's status -/

theorem State.regRd_status (s : State) (p : Fin 64) : s.regRd .bar0 (0x600 + 16 * p.val) = (s, s.devReg (0x600 + 16 * p.val)) := by
  have hrc : barRc (0x600 + 16 * p.val) = false := by simp [barRc]; omega
  have hc : s.barClear (0x600 + 16 * p.val) = s := by simp [State.barClear, hrc]
  have hp : s.barPeek (0x600 + 16 * p.val) = s.devReg (0x600 + 16 * p.val) := by rw [State.barPeek, if_pos (by omega)]
  rw [State.regRd, hc, hp]

theorem State.devReg_status (s : State) (p : Fin 64) :
    s.devReg (0x600 + 16 * p.val) =
      w64 ((s.part p).st.toNat + 4 * b2n (s.part p).invalidLast + 2 ^ 32 * (s.part p).lastInvalid.toNat) := by
  have hp : (0x600 + 16 * p.val - 0x600) / 16 = p.val := by omega
  simp only [State.devReg, hp]
  rw [if_neg (by simp; omega), if_neg (by simp; omega), if_pos (by simp; omega), if_pos (by omega)]

/-- The high half of a partition's status is LAST_INVALID: STATE and the invalid flag lie in bits 2:0. -/
theorem State.devReg_status_high (s : State) (p : Fin 64) : (s.devReg (0x600 + 16 * p.val)).extractLsb' 32 32 = (s.part p).lastInvalid := by
  rw [s.devReg_status]
  have hst := (s.part p).st.isLt
  have hin : b2n (s.part p).invalidLast ≤ 1 := by cases (s.part p).invalidLast <;> decide
  have hla := (s.part p).lastInvalid.isLt
  apply BitVec.eq_of_toNat_eq
  simp only [w64, BitVec.extractLsb'_toNat, BitVec.toNat_ofNat, Nat.shiftRight_eq_div_pow]
  omega

theorem State.read32_statusLow (s : State) (id : BitVec 16) (p : Fin 64) :
    s.read32 (.host id) .bar0 (0x600 + 16 * p.val) =
      (s.latch (.host id) .bar0 (0x600 + 16 * p.val) (s.part p).lastInvalid, (s.devReg (0x600 + 16 * p.val)).setWidth 32) := by
  simp only [State.read32, aligned8 (show (0x600 + 16 * p.val) % 8 = 0 by omega), s.regRd_status, s.devReg_status_high]
  rw [if_pos (by omega)]

theorem statusLow_read (id : BitVec 16) (s : State) (p : Fin 64) :
    ∃ t, exec (.lowHalfRead (.host id) .bar0 (0x600 + 16 * p.val)) s = .next t ∧
      t.host.rdata = ((s.devReg (0x600 + 16 * p.val)).setWidth 32).setWidth 64 ∧
      (⟨.host id, .bar0, 0x600 + 16 * p.val, (s.part p).lastInvalid⟩ : Latch) ∈ t.host.latches ∧
      t = { s with host := { s.host with rdata := t.host.rdata, rstatus := .ok, latches := t.host.latches } } := by
  refine ⟨_, lowHalfRead_bar0 id s (by omega) (by omega), ?_⟩
  rw [s.read32_statusLow]
  exact ⟨rfl, List.mem_append_right _ (List.mem_singleton_self _), rfl⟩

/-- The latch that a 32-bit read of a high half takes. -/
def State.pendingLatch (s : State) (r : Requester) (sp : RegSpace) (b : Nat) : Option Latch :=
  s.host.latches.find? fun x => sameReq x.req r && x.sp = sp && x.addr = b

theorem State.read32_statusHigh_latched (s : State) (id : BitVec 16) (p : Fin 64) {x : Latch}
    (hx : s.pendingLatch (.host id) .bar0 (0x600 + 16 * p.val) = some x) :
    s.read32 (.host id) .bar0 (0x604 + 16 * p.val) =
      ({ s with host := { s.host with latches := s.host.latches.filter fun y => y != x } }, x.hi) := by
  have hb : (0x604 + 16 * p.val) / 8 * 8 = 0x600 + 16 * p.val := by omega
  rw [State.pendingLatch] at hx
  simp only [State.read32, hb, hx]
  rw [if_neg (by omega)]

theorem State.read32_statusHigh_free (s : State) (id : BitVec 16) (p : Fin 64)
    (hx : s.pendingLatch (.host id) .bar0 (0x600 + 16 * p.val) = none) :
    s.read32 (.host id) .bar0 (0x604 + 16 * p.val) = (s, (s.devReg (0x600 + 16 * p.val)).extractLsb' 32 32) := by
  have hb : (0x604 + 16 * p.val) / 8 * 8 = 0x600 + 16 * p.val := by omega
  rw [State.pendingLatch] at hx
  simp only [State.read32, hb, hx, s.regRd_status]
  rw [if_neg (by omega)]

theorem statusHigh_read (id : BitVec 16) (s : State) (p : Fin 64) :
    let pending := s.pendingLatch (.host id) .bar0 (0x600 + 16 * p.val)
    ∃ t, exec (.lowHalfRead (.host id) .bar0 (0x604 + 16 * p.val)) s = .next t ∧
      t.host.rdata = ((pending.map (·.hi)).getD ((s.devReg (0x600 + 16 * p.val)).extractLsb' 32 32)).setWidth 64 ∧
      (∀ x, pending = some x → x ∉ t.host.latches) ∧
      t = { s with host := { s.host with rdata := t.host.rdata, rstatus := .ok, latches := t.host.latches } } := by
  refine ⟨_, lowHalfRead_bar0 id s (by omega) (by omega), ?_⟩
  cases hx : s.pendingLatch (.host id) .bar0 (0x600 + 16 * p.val) with
  | none =>
    rw [s.read32_statusHigh_free id p hx]
    exact ⟨rfl, by simp, rfl⟩
  | some x =>
    rw [s.read32_statusHigh_latched id p hx]
    refine ⟨rfl, ?_, rfl⟩
    rintro y ⟨rfl⟩
    simp [State.hostData]

/-! ## Configuration space -/

theorem config_write (s : State) (off : Nat) (x : BitVec 32) :
    ∃ t, exec (.pcieConfigRequest (.write off x)) s = .next t ∧ t.host.cfg.look (off / 4) 0 = x ∧
      (∀ j : Nat, j ≠ off / 4 → t.host.cfg.look j 0 = s.host.cfg.look j 0) ∧
      t = { s with host := { s.host with cfg := t.host.cfg, rstatus := .ok } } :=
  ⟨_, rfl, Map.look_set_same .., fun _ hj => Map.look_set_other _ _ _ _ _ hj, rfl⟩

theorem config_resizeBar2 (s : State) (n : Nat) :
    exec (.pcieConfigRequest (.resizeBar2 n)) s = .next { s with host := { s.host with
      bar2Log2 := (if 30 ≤ n ∧ n ≤ 40 then n else s.host.bar2Log2), rstatus := .ok } } := by
  change execPcieConfigRequest (.resizeBar2 n) s = _
  simp [execPcieConfigRequest]

/-- Settles O13: each clause is the register's own write or read. -/
theorem registerAccesses : Obligations.RegisterAccesses := by
  unfold Obligations.RegisterAccesses
  intro id s v h W
  have hW {a : Nat} (ha : a < 0x1000000) (h8 : a % 8 = 0) : W a = .next (s.barWr a v) := registerWrite_bar0 id s v ha h8
  exact ⟨hW (by decide) rfl, hW (by decide) rfl, hW (by decide) rfl, hW (by decide) rfl, hW (by decide) rfl,
    queueBase_write id s v,
    fun a ha h8 => by rw [hW (by omega) h8, s.barWr_free v (.inl ha)],
    fun a ha hlt h8 => by rw [hW hlt h8, s.barWr_free v (.inr ha)],
    trapBase_write id s v, userRing_write s v, eccCorr_readClear id s, dbErrors_readClear id s, statusLow_read id s,
    statusHigh_read id s, fun off => ⟨_, rfl, rfl, rfl, rfl⟩, config_write s, config_resizeBar2 s⟩

end Sys2Proof.Machine
end

/-!
# Adds in arrival order (O57)

One add keeps three things apart: the register takes the operand modulo 2^144, the class follows R76, and the flag is that of two
opposite infinities alone. The first two are right commutative, so a fold of adds forgets the order; saturation is `xaSat` of the
final register.
-/

section
namespace Sys2Proof.Machine

/-! ## One add (R78) -/

theorem classAdd_right_comm (c d e : XClass) :
    (classAdd (classAdd c d).1 e).1 = (classAdd (classAdd c e).1 d).1 := by
  cases c <;> cases d <;> cases e <;> rfl

/-- What an operand adds to the register. -/
def xaFinite (x : BitVec 128) : Int := if xaClass x = .fin then x.toInt else 0

@[simp] theorem Guarded.add_reg (g : Guarded) (x : BitVec 128) : (g.add x).1.reg = g.reg + BitVec.ofInt 144 (xaFinite x) := by
  by_cases hx : xaClass x = .fin <;> simp [Guarded.add, xaFinite, hx, BitVec.signExtend]

@[simp] theorem Guarded.add_cls (g : Guarded) (x : BitVec 128) : (g.add x).1.cls = (classAdd g.cls (xaClass x)).1 := rfl

theorem Guarded.add_flags_of_fin {g : Guarded} {x : BitVec 128} (hg : g.cls = .fin) (hx : xaClass x = .fin) : (g.add x).2 = 0 := by
  simp [Guarded.add, hg, hx, classAdd, flagIf]

theorem Guarded.eq_of_reg_cls : ∀ {g h : Guarded}, g.reg = h.reg → g.cls = h.cls → g = h
  | ⟨_, _⟩, ⟨_, _⟩, rfl, rfl => rfl

theorem Guarded.add_right_comm (g : Guarded) (x y : BitVec 128) : ((g.add x).1.add y).1 = ((g.add y).1.add x).1 := by
  have hreg : ((g.add x).1.add y).1.reg = ((g.add y).1.add x).1.reg := by
    simp only [add_reg, BitVec.add_assoc, BitVec.add_comm (BitVec.ofInt 144 (xaFinite x))]
  have hcls : ((g.add x).1.add y).1.cls = ((g.add y).1.add x).1.cls := classAdd_right_comm ..
  exact eq_of_reg_cls hreg hcls

/-! ## A list of adds (R54) -/

/-- The guarded value after adding the operands of a list in its order. -/
def Guarded.addAll (g : Guarded) (xs : List (BitVec 128)) : Guarded := xs.foldl (fun h x => (h.add x).1) g

@[simp] theorem Guarded.addAll_nil (g : Guarded) : g.addAll [] = g := rfl

@[simp] theorem Guarded.addAll_cons (g : Guarded) (x : BitVec 128) (xs : List (BitVec 128)) :
    g.addAll (x :: xs) = (g.add x).1.addAll xs := rfl

theorem Guarded.addAll_perm (g : Guarded) {xs ys : List (BitVec 128)} (h : xs.Perm ys) : g.addAll xs = g.addAll ys :=
  h.foldl_eq' (fun x _ y _ g => g.add_right_comm x y) g

/-- The exact sum of the finite operands of a list. -/
def xaFiniteSum (xs : List (BitVec 128)) : Int := ((xs.filter fun x => decide (xaClass x = .fin)).map BitVec.toInt).sum

@[simp] theorem xaFiniteSum_cons (x : BitVec 128) (xs : List (BitVec 128)) :
    xaFiniteSum (x :: xs) = xaFinite x + xaFiniteSum xs := by
  by_cases hx : xaClass x = .fin <;> simp [xaFiniteSum, xaFinite, hx]

theorem Guarded.addAll_reg (g : Guarded) (xs : List (BitVec 128)) :
    (g.addAll xs).reg = g.reg + BitVec.ofInt 144 (xaFiniteSum xs) := by
  induction xs generalizing g with
  | nil => simp [xaFiniteSum]
  | cons x xs ih => rw [addAll_cons, ih, add_reg, xaFiniteSum_cons, BitVec.ofInt_add, BitVec.add_assoc]

theorem Guarded.addAll_cls_of_fin {g : Guarded} {xs : List (BitVec 128)} (hg : g.cls = .fin) (hxs : ∀ x ∈ xs, xaClass x = .fin) :
    (g.addAll xs).cls = .fin := by
  induction xs generalizing g with
  | nil => exact hg
  | cons x xs ih =>
    obtain ⟨hx, hxs⟩ := List.forall_mem_cons.mp hxs
    exact ih (by rw [add_cls, hg, hx]; rfl) hxs

/-! ## Narrowing (R78) -/

theorem xaMax_toInt : xaMax.toInt = 2 ^ 127 - 2 := by decide

theorem xaMin_toInt : xaMin.toInt = -(2 ^ 127 - 2) := by decide

theorem xaSat_above {i : Int} (h : 2 ^ 127 - 2 < i) : xaSat i = (xaMax, fOverflow) := by
  rw [xaSat, xaMax_toInt, if_pos h]

theorem xaSat_below {i : Int} (h : i < -(2 ^ 127 - 2)) : xaSat i = (xaMin, fOverflow) := by
  rw [xaSat, xaMax_toInt, xaMin_toInt, if_neg (by omega), if_pos h]

theorem xaSat_within {i : Int} (hlo : -(2 ^ 127 - 2) ≤ i) (hhi : i ≤ 2 ^ 127 - 2) : xaSat i = (BitVec.ofInt 128 i, 0) := by
  rw [xaSat, xaMax_toInt, xaMin_toInt, if_neg (by omega), if_neg (by omega)]

theorem Guarded.narrow_of_fin {g : Guarded} (hg : g.cls = .fin) : g.narrow = xaSat g.reg.toInt := if_pos hg

/-- Settles O57: adds commute, and narrowing saturates the final register. -/
theorem arrivalOrderDoesNotMatter : Obligations.ArrivalOrderDoesNotMatter := by
  unfold Obligations.ArrivalOrderDoesNotMatter
  intro g xs ys sum
  refine ⟨g.addAll_perm, g.addAll_reg xs, fun hg hxs => ?_⟩
  have hcls : (sum xs).cls = .fin := Guarded.addAll_cls_of_fin hg hxs
  rw [Guarded.narrow_of_fin hcls]
  refine ⟨hcls, fun h x hh hx => Guarded.add_flags_of_fin hh (hxs x hx), xaSat_above, xaSat_below, fun hlo hhi => ?_⟩
  rw [xaSat_within hlo hhi]
  exact ⟨BitVec.toInt_ofInt_eq_self (by decide) (by omega) (by omega), rfl⟩

end Sys2Proof.Machine
end

/-!
# Fixed-order adds (O56)

The special encodings of Table 3.4 are the three integers outside the finite range, so a result within that range is finite,
and `xaSat` gives no other.
-/

section
namespace Sys2Proof.Machine

theorem xaClass_fin_of_bounds {x : BitVec 128} (hlo : -(2 ^ 127 - 2) ≤ x.toInt) (hhi : x.toInt ≤ 2 ^ 127 - 2) : xaClass x = .fin := by
  have hnan : x ≠ xaNan := by rintro rfl; exact absurd hlo (by decide)
  have hninf : x ≠ xaNinf := by rintro rfl; exact absurd hlo (by decide)
  have hpinf : x ≠ xaPinf := by rintro rfl; exact absurd hhi (by decide)
  rw [xaClass, if_neg hnan, if_neg hninf, if_neg hpinf]

theorem xaSat_within_toInt {i : Int} (hlo : -(2 ^ 127 - 2) ≤ i) (hhi : i ≤ 2 ^ 127 - 2) : (xaSat i).1.toInt = i := by
  rw [xaSat_within hlo hhi]
  exact BitVec.toInt_ofInt_eq_self (by decide) (by omega) (by omega)

/-- A saturated value is finite, so later additions start from it (R77). -/
theorem xaSat_class (i : Int) : xaClass (xaSat i).1 = .fin := by
  rcases Int.lt_or_le (2 ^ 127 - 2) i with habove | hhi
  · rw [xaSat_above habove]; decide
  rcases Int.lt_or_le i (-(2 ^ 127 - 2)) with hbelow | hlo
  · rw [xaSat_below hbelow]; decide
  have hval : (xaSat i).1.toInt = i := xaSat_within_toInt hlo hhi
  exact xaClass_fin_of_bounds (by rwa [hval]) (by rwa [hval])

theorem xaAdd_of_fin {a b : BitVec 128} (ha : xaClass a = .fin) (hb : xaClass b = .fin) : xaAdd a b = xaSat (a.toInt + b.toInt) := by
  rw [xaAdd, ha, hb]; rfl

/-- Settles O56: the sum of finite operands is their exact sum, saturated. -/
theorem fixedOrderAdditionSaturates : Obligations.FixedOrderAdditionSaturates := by
  unfold Obligations.FixedOrderAdditionSaturates
  intro a b ha hb n r
  have hr : r = xaSat n := xaAdd_of_fin ha hb
  rw [hr]
  exact ⟨xaSat_above, xaSat_below, fun hlo hhi => ⟨xaSat_within_toInt hlo hhi, by rw [xaSat_within hlo hhi]⟩, xaSat_class n⟩

end Sys2Proof.Machine
end

/-!
# What memory and cache accesses leave of a core

An access to memory changes, of the cores, only store blocks (error counters) and, through a data cache, that cache. `enginesOf`
is what is left: each operation has a `simp` lemma that the engines are as before, in the order of the model.
-/

section
namespace Sys2Proof.Machine

/-- A core apart from its store block and data cache. -/
def CoreSt.engines (x : CoreSt) : CoreSt := { x with store := {}, dcache := [] }

/-- The cores apart from their store blocks and data caches. -/
def enginesOf (m : Map CoreSt) (d : Nat) : CoreSt := (m.look d {}).engines

/-- A field outside the store block and the data cache is one of the engines. -/
theorem core_of_enginesOf {s t : State} (h : enginesOf t.cores = enginesOf s.cores) (d : Nat) : (t.core d).engines = (s.core d).engines :=
  congrFun h d

theorem core_seq_of_enginesOf {s t : State} (h : enginesOf t.cores = enginesOf s.cores) (d : Nat) : (t.core d).seq = (s.core d).seq := by
  change (t.core d).engines.seq = (s.core d).engines.seq
  rw [core_of_enginesOf h d]

/-- A core set to one with the same engines. -/
theorem State.setCore_engines (s : State) (k : Nat) {x : CoreSt} (h : x.engines = (s.core k).engines) :
    enginesOf (s.setCore k x).cores = enginesOf s.cores := by
  funext d
  change ((s.setCore k x).core d).engines = (s.core d).engines
  rw [State.setCore_core]
  split
  · rename_i hd
    rw [hd, h]
  · rfl

/-! ## Operations that leave the cores -/

@[simp] theorem State.ite_cores (c : Prop) [Decidable c] (s t : State) :
    (if c then s else t).cores = if c then s.cores else t.cores := apply_ite State.cores c s t

@[simp] theorem State.setOper_cores (s : State) (u : Nat) (v : BitVec 2) : (s.setOper u v).cores = s.cores := rfl

@[simp] theorem State.fresh_cores (s : State) : s.fresh.2.cores = s.cores := rfl

@[simp] theorem State.freshIf_cores (s : State) (b : Bool) : (s.freshIf b).2.cores = s.cores := by simp [State.freshIf]

@[simp] theorem State.raise_cores (s : State) (a : Alarm) : (s.raise a).cores = s.cores := by
  simp only [State.raise]
  (repeat' split) <;> simp

@[simp] theorem State.sev_cores (s : State) (src sev : Nat) (cause : Byte) (ctx : Option Nat) (addr : Nat) (info : BitVec 32)
    (inj : Bool) : (s.sev src sev cause ctx addr info inj).cores = s.cores := by simp [State.sev]

@[simp] theorem State.ownSev_cores (s : State) (c sev : Nat) (cause : Byte) (ctx : Option Nat) (addr : Nat) (inj : Bool) :
    (s.ownSev c sev cause ctx addr inj).cores = s.cores := by simp [State.ownSev]

@[simp] theorem State.inject_cores (s : State) (src code n : Nat) : (s.inject src code n).2.cores = s.cores := rfl

@[simp] theorem State.setPoison_cores (s : State) (g : Nat) : (s.setPoison g).cores = s.cores := rfl

@[simp] theorem State.unPoison_cores (s : State) (g : Nat) : (s.unPoison g).cores = s.cores := rfl

@[simp] theorem State.store_cores (s : State) (a : Nat) (bs : Bytes) : (s.store a bs).cores = s.cores := rfl

@[simp] theorem State.fixLater_cores (s : State) (w : Nat) (f : WordErr) : (s.fixLater w f).cores = s.cores := by simp [State.fixLater]

@[simp] theorem State.refuse_cores (s : State) (w : Who) (g : Gate) (a : Nat) : (s.refuse w g a).cores = s.cores := by
  simp only [State.refuse]
  (repeat' split) <;> simp

@[simp] theorem State.hbmEvent_cores (s : State) (stack kind g : Nat) : (s.hbmEvent stack kind g).cores = s.cores := rfl

@[simp] theorem State.hbmGran_cores (s : State) (g : Nat) (ctx own : Option Nat) (rescue : Bool) :
    (s.hbmGran g ctx own rescue).1.cores = s.cores := by
  simp only [State.hbmGran]
  (repeat' split) <;> simp

/-! ## Memory -/

@[simp] theorem State.onStore_engines (s : State) (c : Nat) (f : Store → Store) :
    enginesOf (s.onStore c f).cores = enginesOf s.cores := s.setCore_engines c rfl

@[simp] theorem State.sramWord_engines (s : State) (w : Nat) (ctx : Option Nat) (rescue : Bool) :
    enginesOf (s.sramWord w ctx rescue).1.cores = enginesOf s.cores := by
  simp only [State.sramWord]
  (repeat' split) <;> simp [-State.onStore_eq]

@[simp] theorem State.sramPut_engines (s : State) (w off : Nat) (bs : Bytes) (ctx : Option Nat) :
    enginesOf (s.sramPut w off bs ctx).cores = enginesOf s.cores := by
  simp only [State.sramPut]
  split <;> simp

@[simp] theorem sramWords_engines (ctx : Option Nat) (rescue : Bool) (n : Nat) (s : State) (w : Nat) :
    enginesOf (sramWords ctx rescue n s w).1.cores = enginesOf s.cores := by
  induction n generalizing s w with
  | zero => rfl
  | succ n ih => exact (ih ..).trans (s.sramWord_engines w ctx rescue)

@[simp] theorem sramPuts_engines (f : Nat) (s : State) (o : Nat) (bs : Bytes) (ctx : Option Nat) :
    enginesOf (sramPuts f s o bs ctx).cores = enginesOf s.cores := by
  induction f generalizing s o bs with
  | zero => rfl
  | succ f ih =>
    simp only [sramPuts]
    split
    · rfl
    · exact (ih ..).trans (State.sramPut_engines ..)

@[simp] theorem State.rdGran_engines (s : State) (w : Who) (a n : Nat) : enginesOf (s.rdGran w a n).1.cores = enginesOf s.cores := by
  simp only [State.rdGran]
  split <;> simp

@[simp] theorem rdGrans_engines (w : Who) (l : List (Nat × Nat)) (s : State) : enginesOf (rdGrans w l s).1.cores = enginesOf s.cores := by
  induction l generalizing s with
  | nil => rfl
  | cons e l ih => exact (ih _).trans (s.rdGran_engines w e.1 e.2)

@[simp] theorem State.memRd_engines (s : State) (w : Who) (a n : Nat) : enginesOf (s.memRd w a n).1.cores = enginesOf s.cores := by
  simp only [State.memRd]
  (repeat' split) <;> simp

@[simp] theorem State.wrGran_engines (s : State) (w : Who) (a : Nat) (bs : Bytes) (mark : Bool) :
    enginesOf (s.wrGran w a bs mark).cores = enginesOf s.cores := by
  simp only [State.wrGran]
  (repeat' split) <;> simp

@[simp] theorem wrGrans_engines (w : Who) (mark : Bool) (l : List (Nat × Nat)) (bs : Bytes) (s : State) :
    enginesOf (wrGrans w mark l bs s).cores = enginesOf s.cores := by
  induction l generalizing s bs with
  | nil => rfl
  | cons e l ih => exact (ih ..).trans (State.wrGran_engines ..)

@[simp] theorem State.memWr_engines (s : State) (w : Who) (a : Nat) (bs : Bytes) (mark : Bool) :
    enginesOf (s.memWr w a bs mark).1.cores = enginesOf s.cores := by
  simp only [State.memWr]
  (repeat' split) <;> simp

/-! ## The data cache -/

theorem State.setDcache_engines (s : State) (c : Nat) (m : Map CLine) :
    enginesOf (s.setCore c { s.core c with dcache := m }).cores = enginesOf s.cores := s.setCore_engines c rfl

@[simp] theorem State.onDcache_engines (s : State) (c : Nat) (f : CoreSt → Map CLine) :
    enginesOf (s.onCore c fun x => { x with dcache := f x }).cores = enginesOf s.cores := s.setDcache_engines c _

@[simp] theorem State.dropAt_engines (s : State) (c i : Nat) : enginesOf (s.dropAt c i).cores = enginesOf s.cores :=
  s.setCore_engines c rfl

@[simp] theorem State.writeBack_engines (s : State) (c : Nat) (l : CLine) : enginesOf (s.writeBack c l).1.cores = enginesOf s.cores := by
  simp only [State.writeBack]
  split <;> simp

@[simp] theorem State.cleanAt_engines (s : State) (c i : Nat) : enginesOf (s.cleanAt c i).cores = enginesOf s.cores := by
  simp only [State.cleanAt]
  split <;> simp [-State.onCore_eq]

@[simp] theorem State.dFill_engines (s : State) (c line : Nat) (key : BitVec 10) (stream : Bool) :
    enginesOf (s.dFill c line key stream).1.cores = enginesOf s.cores := by
  simp only [State.dFill]
  split
  · simp
  · split
    · simp
    · rw [State.onDcache_engines, State.cleanAt_engines, State.setDcache_engines, State.memRd_engines]

@[simp] theorem State.dMiss_engines (s : State) (c line : Nat) (key : BitVec 10) (stream : Bool) :
    enginesOf (s.dMiss c line key stream).1.cores = enginesOf s.cores := by
  rw [← s.dFill_engines c line key stream, State.dMiss]
  split <;> rename_i h <;> rw [h]

@[simp] theorem State.dLine_engines (s : State) (c line : Nat) (key : BitVec 10) (stream : Bool) :
    enginesOf (s.dLine c line key stream).1.cores = enginesOf s.cores := by
  simp only [State.dLine]
  (repeat' split) <;> simp [-State.onCore_eq]

@[simp] theorem State.linePut_engines (s : State) (c i off : Nat) (bs : Bytes) :
    enginesOf (s.linePut c i off bs).cores = enginesOf s.cores := by
  simp only [State.linePut]
  split <;> simp [-State.onCore_eq]

@[simp] theorem coreRds_engines (c : Nat) (key : BitVec 10) (l : List (Nat × Nat)) (s : State) :
    enginesOf (coreRds c key l s).1.cores = enginesOf s.cores := by
  induction l generalizing s with
  | nil => rfl
  | cons e l ih => exact (ih _).trans (State.dLine_engines ..)

@[simp] theorem State.coreRd_engines (s : State) (c k : Nat) (ring : BitVec 2) (va n : Nat) :
    enginesOf (s.coreRd c k ring va n).1.cores = enginesOf s.cores := by
  simp only [State.coreRd]
  split <;> simp

@[simp] theorem coreWrs_engines (c : Nat) (key : BitVec 10) (l : List (Nat × Nat)) (bs : Bytes) (s : State) :
    enginesOf (coreWrs c key l bs s).cores = enginesOf s.cores := by
  induction l generalizing s bs with
  | nil => rfl
  | cons e l ih =>
    simp only [coreWrs]
    rw [ih]
    split <;> simp

@[simp] theorem State.coreWr_engines (s : State) (c : Nat) (ring : BitVec 2) (va : Nat) (bs : Bytes) :
    enginesOf (s.coreWr c ring va bs).cores = enginesOf s.cores := by
  simp only [State.coreWr]
  split <;> simp

@[simp] theorem State.codeRd_engines (s : State) (c k : Nat) (ring : BitVec 2) (va : Nat) :
    enginesOf (s.codeRd c k ring va).1.cores = enginesOf s.cores := by
  simp only [State.codeRd]
  split <;> simp

end Sys2Proof.Machine
end

/-!
# The scalar units' results (O15)

A completion writes the sequencer of its core alone. The oldest operation of a result port, with nothing behind it, leaves its
value in that port; a divide leaves the quotient or the remainder of R100.
-/

section
namespace Sys2Proof.Machine

/-! ## One core's sequencer -/

@[simp] theorem State.onSeq_core_at (s : State) (c : Nat) (f : Seq → Seq) :
    (s.onSeq c f).core c = { s.core c with seq := f (s.core c).seq } := State.setCore_core_at ..

theorem State.onSeq_core_other (s : State) (c : Nat) (f : Seq → Seq) {d : Nat} (h : d ≠ c) : (s.onSeq c f).core d = s.core d :=
  (State.setCore_core ..).trans (if_neg h)

/-- What a change of one core's sequencer leaves: the other cores, the rest of the state, and the rest of the core. -/
theorem State.onSeq_frame (s : State) (c : Nat) (f : Seq → Seq) :
    (∀ d : Nat, d ≠ c → (s.onSeq c f).core d = s.core d) ∧ s.onSeq c f = { s with cores := (s.onSeq c f).cores } ∧
      (s.onSeq c f).core c = { s.core c with seq := ((s.onSeq c f).core c).seq } :=
  ⟨fun _ hd => s.onSeq_core_other c f hd, rfl, by rw [State.onSeq_core_at]⟩

/-! ## Result ports (R95) -/

theorem find?_port_none {port : Nat} {l : List PortPend} (h : ∀ x ∈ l, x.port ≠ port) :
    l.find? (fun x => x.port = port) = none := by
  simpa [List.find?_eq_none] using h

theorem restores_of_no_pending {port : Nat} {l : List PortPend} (h : ∀ x ∈ l, x.port ≠ port) (n : Nat) (m : Map Word) :
    restores port n l m = (l, m) := by
  cases n with
  | zero => rfl
  | succ n => rw [restores, find?_port_none h]

/-- The only operation of a port, oldest in its unit, completes. -/
theorem complete_only {port : Nat} {l : List PortPend} (h : ∀ x ∈ l, x.port ≠ port) (v : Word) (miss : Bool) (m : Map Word) :
    complete port (⟨port, false, v, true, miss⟩ :: l) m = (l, m.set port v) := by
  simp [complete, dropFirst, restores_of_no_pending h]

/-! ## Divide (R100) -/

theorem divide_zero_quotient {op : Nat} (h : op = 1 ∨ op = 2) (a : Word) : divide op a 0 = BitVec.allOnes 64 := by
  rcases h with rfl | rfl <;> rfl

theorem divide_zero_remainder {op : Nat} (h : op = 3 ∨ op = 4) (a : Word) : divide op a 0 = a := by
  rcases h with rfl | rfl <;> rfl

theorem divide_divs {a b : Word} (hb : b ≠ 0) : divide 1 a b = a.sdiv b := by
  rw [divide, if_neg hb]
  exact BitVec.eq_of_toInt_eq (by rw [BitVec.toInt_ofInt, BitVec.toInt_sdiv])

theorem divide_divu {a b : Word} (hb : b ≠ 0) : divide 2 a b = a / b := by
  rw [divide, if_neg hb]
  exact BitVec.eq_of_toNat_eq (by simp [Nat.mod_eq_of_lt (Nat.lt_of_le_of_lt (Nat.div_le_self ..) a.isLt)])

theorem divide_rems {a b : Word} (hb : b ≠ 0) : divide 3 a b = a.srem b := by
  change (if b = 0 then _ else BitVec.ofInt 64 (a.toInt.tmod b.toInt)) = _
  rw [if_neg hb, ← BitVec.toInt_srem, BitVec.ofInt_toInt]

theorem divide_remu {a b : Word} (hb : b ≠ 0) : divide 4 a b = a % b := by
  change (if b = 0 then _ else BitVec.ofNat 64 (a.toNat % b.toNat)) = _
  rw [if_neg hb, ← BitVec.toNat_umod, BitVec.ofNat_toNat, BitVec.setWidth_eq]

/-- The sequencer after its divide completes with nothing behind it. -/
def Seq.divided (q : Seq) : Seq :=
  { q with divBusy := false, divRes := divide q.divOp q.divA q.divB, divZero := q.divB == 0 }

theorem divComplete_next {c : Fin 64} {s : State} (hb : (s.core c).seq.divBusy = true) (ha : (s.core c).seq.divAfter = none) :
    exec (.divComplete c) s = .next (s.onSeq c fun _ => (s.core c).seq.divided) := by
  change execDivComplete c s = _
  simp [execDivComplete, State.onSeq, hb, ha, Seq.divided]

/-! ## Adds at memory (R101) -/

theorem leBytes_mod (n x : Nat) : leBytes n (x % 2 ^ (8 * n)) = leBytes n x := by
  induction n generalizing x with
  | zero => rfl
  | succ n ih =>
    have hp : 2 ^ (8 * (n + 1)) = 256 * 2 ^ (8 * n) := by rw [Nat.mul_succ, Nat.pow_add, Nat.mul_comm]
    have hlow : BitVec.ofNat 8 (x % 2 ^ (8 * (n + 1))) = BitVec.ofNat 8 x :=
      BitVec.eq_of_toNat_eq (by rw [hp]; exact Nat.mod_mod_of_dvd x (Nat.dvd_mul_right ..))
    rw [leBytes, leBytes, hlow, hp, Nat.mod_mul_right_div_self, ih]

theorem State.setCore_partOfCtx (s : State) (c k : Nat) (x : CoreSt) : (s.setCore c x).partOfCtx k = s.partOfCtx k := rfl

/-- The access that performs an add request: its context's, in its partition. -/
def State.addWho (s : State) (c : Nat) (a : MemAdd) : Who :=
  { src := c, ctx := some a.ctx, part := some ((s.partOfCtx a.ctx).getD 64), key := a.key }

theorem State.addOldest_of_read {s u : State} {c : Nat} {a : MemAdd} {rest : List MemAdd} {r : Rd} (ha : (s.core c).adds = a :: rest)
    (hr : (s.onCore c fun x => { x with adds := rest }).memRd (s.addWho c a) a.pa a.size = (u, r)) (he : r.err = false) :
    s.addOldest c = if r.bad.isSome then u.sev c 1 0x15 (some a.ctx) a.pa
      else (u.memWr (s.addWho c a) a.pa (leBytes a.size (leNat r.data + a.data.toNat))).1 := by
  simp only [State.addWho, State.onCore_eq] at hr
  simp [State.addOldest, ha, State.setCore_partOfCtx, hr, he, State.addWho]

/-! ## The clauses -/

theorem mulComplete_only {c : Fin 64} {s : State} {m : Fin 4} {v : Word} {rest : List PortPend}
    (hp : (s.core c).seq.mulPend = ⟨m, false, v, true, false⟩ :: rest) (hr : ∀ x ∈ rest, x.port ≠ m.val) :
    exec (.mulComplete c m) s = .next (s.onSeq c fun q => { q with mulPend := rest, mulRes := q.mulRes.set m v }) := by
  change execMulComplete c m s = _
  simp [execMulComplete, State.onSeq, hp, complete_only hr]

theorem lsuLoadComplete_only {c : Fin 64} {s : State} {m : Fin 4} {v : Word} {b : Bool} {rest : List PortPend}
    (hp : (s.core c).seq.lsuPend = ⟨m, false, v, true, b⟩ :: rest) (hr : ∀ x ∈ rest, x.port ≠ m.val) :
    exec (.lsuLoadComplete c m) s = .next (s.onSeq c fun q => { q with lsuPend := rest, lsuRes := q.lsuRes.set m v }) := by
  change execLsuLoadComplete c m s = _
  simp [execLsuLoadComplete, State.onSeq, hp, complete_only hr]

/-- Settles O15: each completion is a change of its core's sequencer, and an add is its read followed by its write. -/
theorem scalarUnitsDeliverTheirResults : Obligations.ScalarUnitsDeliverTheirResults := by
  unfold Obligations.ScalarUnitsDeliverTheirResults
  intro c s q only
  refine ⟨fun m v rest hp hr => ?_, fun m v b rest hp hr => ?_, fun hb ha => ?_, ?_, fun a rest u r ha he hr _ => ?_⟩
  · refine ⟨_, mulComplete_only hp hr, s.onSeq_frame .., ?_⟩
    simp only [State.onSeq_core_at]
    exact ⟨rfl, Map.look_set_same .., fun j hj => Map.look_set_other _ _ _ _ _ hj⟩
  · refine ⟨_, lsuLoadComplete_only hp hr, s.onSeq_frame .., ?_⟩
    simp only [State.onSeq_core_at]
    exact ⟨rfl, Map.look_set_same .., fun j hj => Map.look_set_other _ _ _ _ _ hj⟩
  · refine ⟨_, divComplete_next hb ha, s.onSeq_frame .., ?_⟩
    simp only [State.onSeq_core_at, Seq.divided]
    refine ⟨rfl, beq_iff_eq, fun h0 hop => ?_, fun h0 hop => ?_, fun h0 hop => ?_, fun h0 hop => ?_, fun h0 hop => ?_, fun h0 hop => ?_⟩
    · exact (congrArg _ h0).trans (divide_zero_quotient hop _)
    · exact (congrArg _ h0).trans (divide_zero_remainder hop _)
    · exact (congrArg (divide · _ _) hop).trans (divide_divs h0)
    · exact (congrArg (divide · _ _) hop).trans (divide_divu h0)
    · exact (congrArg (divide · _ _) hop).trans (divide_rems h0)
    · exact (congrArg (divide · _ _) hop).trans (divide_remu h0)
  · refine ⟨_, rfl, s.onSeq_frame .., ?_⟩
    rw [State.onSeq_core_at]
  · have hadd := State.addOldest_of_read ha hr he
    refine ⟨fun hn => ?_, fun hn => ?_⟩
    · rw [leBytes_mod]
      exact congrArg _ (hadd.trans (by rw [hn]; rfl))
    · exact congrArg _ (hadd.trans (if_pos hn))

end Sys2Proof.Machine
end

/-!
# Issuing a bundle (O16)

A bundle of moves to general registers and ALU0 changes only the sequencer of its core: `State.issue_plain` gives that core. A bundle
of one RET does too: `State.issue_ret`. The other outcomes of a boundary are the branches of BUNDLE_ISSUE themselves.
-/

section
namespace Sys2Proof.Machine

/-! ## One core set more than once -/

@[simp] theorem Map.set_set {α : Type} (m : Map α) (k : Nat) (v w : α) : (m.set k v).set k w = m.set k w := by
  induction m with
  | nil => simp [Map.set]
  | cons e m ih =>
    obtain ⟨j, u⟩ := e
    by_cases hlt : k < j
    · simp [Map.set, hlt]
    · by_cases heq : k = j
      · simp [Map.set, heq]
      · simp [Map.set, hlt, heq, ih]

@[simp] theorem State.setCore_setCore (s : State) (c : Nat) (x y : CoreSt) : (s.setCore c x).setCore c y = s.setCore c y := by
  simp [State.setCore]

/-! ## Ports (Tables 4.3, 4.5) -/

/-- A destination of the first clause: a general register but g63, the operand of ALU0, or a trigger of ALU0. -/
def PlainPort (p : Nat) : Prop := p < 63 ∨ p = 0x80 ∨ ∃ k, 0 < k ∧ k ≤ 0x14 ∧ p = 0x80 + k

theorem dstOf_g {p : Nat} (h : p < 63) : dstOf p = .g p := by
  rw [dstOf, if_pos (by omega)]

theorem dstOf_alu0A : dstOf 0x80 = .op 0 0 := rfl

theorem dstOf_alu0 {k : Nat} (h0 : 0 < k) (h : k ≤ 0x14) : dstOf (0x80 + k) = .trig 0 k := by
  have all : ∀ j : Fin 0x15, 0 < j.val → dstOf (0x80 + j.val) = .trig 0 j.val := by decide
  exact all ⟨k, by omega⟩ h0

theorem dstOf_ret : dstOf 0x221 = .trig 13 1 := rfl

/-- What a move to such a port names. -/
theorem PlainPort.dst {p : Nat} (h : PlainPort p) :
    (p < 63 ∧ dstOf p = .g p) ∨ (p = 0x80 ∧ dstOf p = .op 0 0) ∨ (0x80 < p ∧ ∃ k, dstOf p = .trig 0 k) := by
  obtain h | rfl | ⟨k, h0, h1, rfl⟩ := h
  · exact .inl ⟨h, dstOf_g h⟩
  · exact .inr (.inl ⟨rfl, dstOf_alu0A⟩)
  · exact .inr (.inr ⟨by omega, k, dstOf_alu0 h0 h1⟩)

theorem PlainPort.not_restore {p : Nat} (h : PlainPort p) : isRestore p = false := by
  obtain ⟨-, h⟩ | ⟨-, h⟩ | ⟨-, k, h⟩ := h.dst <;> rw [isRestore, h]

theorem trigIn_eq_none {vals : List (Nat × Word)} {u : Nat} (h : ∀ e ∈ vals, ∀ off, dstOf e.1 ≠ .trig u off) : trigIn vals u = none := by
  rw [trigIn, List.findSome?_eq_none_iff]
  intro e he
  split
  · rename_i v off hd
    rw [if_neg]
    rintro rfl
    exact h e he off hd
  · rfl

theorem trigIn_plain {vals : List (Nat × Word)} (h : ∀ e ∈ vals, PlainPort e.1) {u : Nat} (hu : u ≠ 0) : trigIn vals u = none := by
  refine trigIn_eq_none fun e he off hd => ?_
  obtain ⟨-, hp⟩ | ⟨-, hp⟩ | ⟨-, k, hp⟩ := (h e he).dst
  · exact absurd (hp ▸ hd) nofun
  · exact absurd (hp ▸ hd) nofun
  · exact hu (Dst.trig.inj (hp ▸ hd)).1.symm

/-! ## Moves (R92) -/

theorem CoreSt.move_g (x : CoreSt) {p : Nat} (v : Word) (h : dstOf p = .g p) :
    x.move p v = { x with seq := { x.seq with g := x.seq.g.put p v 0 } } := by
  simp only [CoreSt.move, h]

theorem CoreSt.move_alu0A (x : CoreSt) {p : Nat} (v : Word) (h : dstOf p = .op 0 0) :
    x.move p v = { x with seq := { x.seq with alu0A := v } } := by
  simp only [CoreSt.move, h]

theorem CoreSt.move_trig (x : CoreSt) {p u off : Nat} (v : Word) (h : dstOf p = .trig u off) : x.move p v = x := by
  simp only [CoreSt.move, h]

/-- The core after a list of moves. -/
def CoreSt.moves (x : CoreSt) (vals : List (Nat × Word)) : CoreSt := vals.foldl (fun x e => x.move e.1 e.2) x

@[simp] theorem CoreSt.moves_cons (x : CoreSt) (e : Nat × Word) (vals : List (Nat × Word)) :
    x.moves (e :: vals) = (x.move e.1 e.2).moves vals := rfl

/-- The value that a bundle moves to a port, or the one held. -/
theorem opIn_cons (e : Nat × Word) (vals : List (Nat × Word)) (p : Nat) (held : Word) :
    opIn (e :: vals) p held = if e.1 = p then e.2 else opIn vals p held := by
  by_cases h : e.1 = p <;> simp [opIn, h]

theorem opIn_of_notMem {vals : List (Nat × Word)} {p : Nat} (h : p ∉ vals.map (·.1)) (held : Word) : opIn vals p held = held := by
  have hn : vals.find? (fun e => e.1 = p) = none := by
    rw [List.find?_eq_none]
    exact fun e he hp => h (List.mem_map.2 ⟨e, he, of_decide_eq_true hp⟩)
  rw [opIn, hn]
  rfl

/-- One such move, as the registers and the operand of ALU0 see it. -/
theorem CoreSt.move_plain (x : CoreSt) {p : Nat} (v : Word) (h : PlainPort p) :
    x.move p v = { x with seq := { x.seq with g := (x.move p v).seq.g, alu0A := (x.move p v).seq.alu0A } } ∧
      (∀ n : Nat, n < 63 → (x.move p v).seq.g.look n 0 = if p = n then v else x.seq.g.look n 0) ∧
      (x.move p v).seq.alu0A = if p = 0x80 then v else x.seq.alu0A := by
  obtain ⟨hp, hd⟩ | ⟨hp, hd⟩ | ⟨hp, k, hd⟩ := h.dst
  · rw [x.move_g v hd]
    exact ⟨rfl, fun n _ => by simp only [Map.look_put, eq_comm], by rw [if_neg (by omega)]⟩
  · rw [x.move_alu0A v hd]
    exact ⟨rfl, fun n hn => by rw [if_neg (by omega)], by rw [if_pos hp]⟩
  · rw [x.move_trig v hd]
    exact ⟨rfl, fun n hn => by rw [if_neg (by omega)], by rw [if_neg (by omega)]⟩

/-- The moves of a bundle that names each port once, as the registers and the operand of ALU0 see them. -/
theorem CoreSt.moves_plain {vals : List (Nat × Word)} (hv : ∀ e ∈ vals, PlainPort e.1) (hd : (vals.map (·.1)).Nodup) (x : CoreSt) :
    x.moves vals = { x with seq := { x.seq with g := (x.moves vals).seq.g, alu0A := (x.moves vals).seq.alu0A } } ∧
      (∀ n : Nat, n < 63 → (x.moves vals).seq.g.look n 0 = opIn vals n (x.seq.g.look n 0)) ∧
      (x.moves vals).seq.alu0A = opIn vals 0x80 x.seq.alu0A := by
  induction vals generalizing x with
  | nil => exact ⟨rfl, fun _ _ => rfl, rfl⟩
  | cons e vals ih =>
    obtain ⟨hnew, hd⟩ := List.nodup_cons.1 hd
    obtain ⟨hframe, hg, ha⟩ := x.move_plain e.2 (hv e (List.mem_cons_self ..))
    obtain ⟨ihframe, ihg, iha⟩ := ih (fun e he => hv e (List.mem_cons_of_mem _ he)) hd (x.move e.1 e.2)
    have hlast (p : Nat) (held : Word) : opIn vals p (if e.1 = p then e.2 else held) = opIn (e :: vals) p held := by
      rw [opIn_cons]
      split
      · rename_i hp
        exact opIn_of_notMem (hp ▸ hnew) _
      · rfl
    simp only [CoreSt.moves_cons]
    refine ⟨?_, fun n hn => ?_, ?_⟩
    · rw [ihframe, hframe]
    · rw [ihg n hn, hg n hn, hlast]
    · rw [iha, ha, hlast]

/-! ## Issue (R92, R95) -/

/-- The core of a bundle that issued without its load or store, its restores and its pushes. -/
def CoreSt.issued (x : CoreSt) (now : Nat) (vals : List (Nat × Word)) : CoreSt :=
  let y := x.moves vals
  { y with seq := { y.seq with mute := 0, first := none, lastIssue := now } }

/-- ALU0 computes on its operand as the bundle leaves it (R98). -/
def CoreSt.alu0Then (x : CoreSt) (vals : List (Nat × Word)) : CoreSt :=
  match trigIn vals 0 with
  | some (off, t) => { x with seq := { x.seq with alu0Res := alu off x.seq.alu0A t } }
  | none => x

/-- The next bundle follows, and a loop's end is marked (R105, R109). -/
def CoreSt.advanced (x : CoreSt) : CoreSt :=
  { x with seq := { x.seq with
      pc := x.seq.pc + 16, loopPend := 0 < x.seq.depth && x.seq.gov (0x417 + x.seq.depth) = x.seq.pc } }

/-- A bundle with no restore, and no trigger beyond ALU0's and RET's: its moves, then ALU0, then the next bundle. -/
theorem State.issue_onward (u : State) (c : Nat) {g : Go} (hr : ∀ e ∈ g.vals, isRestore e.1 = false)
    (ht : ∀ k, k ≠ 0 → k ≠ 13 → trigIn g.vals k = none) :
    u.issue c g = (u.setCore c (((u.core c).issued u.now g.vals).alu0Then g.vals)).onward c g none := by
  have hpart : g.vals.partition (fun e => isRestore e.1) = ([], g.vals) := by
    rw [List.partition_eq_filter_filter, List.filter_eq_nil_iff.2 (by simpa using hr), List.filter_eq_self.2 (by simpa using hr)]
  have hlsu : trigIn g.vals 4 = none := ht 4 (by decide) (by decide)
  simp only [State.issue, hlsu, hpart, State.scalars, List.range, List.range.loop, List.foldl, State.pushes, State.flow]
  simp (disch := decide) only [ht]
  cases h0 : trigIn g.vals 0 <;> simp [CoreSt.issued, CoreSt.moves, CoreSt.alu0Then, h0, Seq.scalar, Seq.loopTrig, Seq.link]

/-- A bundle of moves to registers and ALU0 changes its core alone. -/
theorem State.issue_plain (u : State) (c : Nat) {g : Go} (hv : ∀ e ∈ g.vals, PlainPort e.1) (hret : g.ret = none) (hgate : g.gate = none) :
    u.issue c g = u.setCore c (((u.core c).issued u.now g.vals).alu0Then g.vals).advanced := by
  have hbr : trigIn g.vals 5 = none := trigIn_plain hv (by decide)
  rw [u.issue_onward c (fun e he => (hv e he).not_restore) fun k hk _ => trigIn_plain hv hk]
  simp only [State.onward, hret, hgate, hbr, State.onSeq_eq, State.setCore_core_at, State.setCore_setCore]
  rfl

theorem CoreSt.alu0Then_frame (x : CoreSt) (vals : List (Nat × Word)) :
    x.alu0Then vals = { x with seq := { x.seq with alu0Res := (x.alu0Then vals).seq.alu0Res } } := by
  rw [CoreSt.alu0Then]
  split <;> rfl

theorem CoreSt.alu0Then_result (x : CoreSt) {vals : List (Nat × Word)} {k : Nat} {v : Word} (h : trigIn vals 0 = some (k, v)) :
    (x.alu0Then vals).seq.alu0Res = alu k x.seq.alu0A v := by
  rw [CoreSt.alu0Then, h]

/-- The core that `State.issue_plain` gives. -/
theorem CoreSt.issued_plain {vals : List (Nat × Word)} (hv : ∀ e ∈ vals, PlainPort e.1) (hd : (vals.map (·.1)).Nodup) (x : CoreSt)
    (now : Nat) :
    let q := ((x.issued now vals).alu0Then vals).advanced.seq
    q.pc = x.seq.pc + 16 ∧ (∀ n : Nat, n < 63 → q.g.look n 0 = opIn vals n (x.seq.g.look n 0)) ∧
      q.alu0A = opIn vals 0x80 x.seq.alu0A ∧ (∀ k v, trigIn vals 0 = some (k, v) → q.alu0Res = alu k q.alu0A v) ∧
      q.preds = x.seq.preds ∧ q.ring = x.seq.ring := by
  obtain ⟨hmoves, hg, ha⟩ := CoreSt.moves_plain hv hd x
  have halu := (x.issued now vals).alu0Then_frame vals
  rw [CoreSt.advanced]
  refine ⟨?_, fun n hn => ?_, ?_, fun k v ht => ?_, ?_, ?_⟩
  · exact congrArg (· + 16) ((congrArg (·.seq.pc) halu).trans (congrArg (·.seq.pc) hmoves))
  · exact (congrArg (·.seq.g.look n 0) halu).trans (hg n hn)
  · exact (congrArg (·.seq.alu0A) halu).trans ha
  · exact ((x.issued now vals).alu0Then_result ht).trans (congrArg (alu k · v) (congrArg (·.seq.alu0A) halu).symm)
  · exact (congrArg (·.seq.preds) halu).trans (congrArg (·.seq.preds) hmoves)
  · exact (congrArg (·.seq.ring) halu).trans (congrArg (·.seq.ring) hmoves)

/-- A bundle of one RET that found its frame changes its core alone. -/
theorem State.issue_ret (u : State) (c : Nat) {g : Go} {v ret saved : Word} (hv : g.vals = [(0x221, v)]) (hret : g.ret = some (ret, saved)) :
    u.issue c g = u.setCore c
      { (u.core c) with seq := { (u.core c).seq with mute := 0, first := none, lastIssue := u.now }.doRet ret saved } := by
  have hdst : ∀ e ∈ g.vals, dstOf e.1 = .trig 13 1 := by
    rw [hv]
    rintro e he
    rw [List.mem_singleton.1 he, dstOf_ret]
  have hn {k : Nat} (hk : k ≠ 13) : trigIn g.vals k = none :=
    trigIn_eq_none fun e he off hd => hk (Dst.trig.inj ((hdst e he).symm.trans hd)).1.symm
  have hr : ∀ e ∈ g.vals, isRestore e.1 = false := fun e he => by rw [isRestore, hdst e he]
  have halu : ((u.core c).issued u.now g.vals).alu0Then g.vals = (u.core c).issued u.now [] := by
    rw [CoreSt.alu0Then, hn (show 0 ≠ 13 by decide), CoreSt.issued, hv, CoreSt.moves_cons, CoreSt.move_trig _ _ dstOf_ret]
    rfl
  rw [u.issue_onward c hr fun k _ hk => hn hk, halu]
  simp only [State.onward, hret, State.onSeq_eq, State.setCore_core_at, State.setCore_setCore]
  rfl

/-! ## RET (R136) -/

theorem Seq.gov_setGov (q : Seq) (p : Nat) (v : Word) : (q.setGov p v).gov p = v := by
  rw [Seq.gov, Seq.setGov, Map.look_put, if_pos rfl]

/-- Outside a loop body a RET continues at its return address. -/
theorem Seq.doRet_of_no_loop (q : Seq) (ret : Word) {saved : Word} (h : saved.getLsbD 7 = false) :
    (q.doRet ret saved).pc = ret ∧ (q.doRet ret saved).ring = saved.setWidth 2 ∧
      (q.doRet ret saved).preds = (saved.extractLsb' 16 8 ||| 1) ∧
      (q.doRet ret saved).gov (0x408 + q.ring.toNat) = q.gov (0x408 + q.ring.toNat) + 16 := by
  simp only [Seq.doRet, h, Bool.false_and, Bool.false_eq_true, if_false, true_and]
  split
  · exact ⟨rfl, rfl, Seq.gov_setGov ..⟩
  · exact ⟨rfl, rfl, Seq.gov_setGov ..⟩

/-! ## The boundary -/

theorem execBundleIssue_of_look {c : Fin 64} {s u : State} {k : Chk} (hf : s.fetching c = true)
    (hl : (s.onSeq c Seq.settle).look c = (u, k)) :
    exec (.bundleIssue c) s = match k with
      | .trap v a i => .next (u.enter c v ((s.onSeq c Seq.settle).core c).seq.pc false a i)
      | .overflow t => .next (u.gateOverflow c t)
      | .stall => .next (u.onSeq c fun q => { q with stalls := q.stalls + 1, mute := if q.mute = 1 then 0 else q.mute })
      | .go g => .next (u.issue c g) := by
  change execBundleIssue c s = _
  simp only [execBundleIssue, hf, hl]
  cases k <;> rfl

/-- Settles O16: each clause is what issue, or the branch of the boundary, does to the core. -/
theorem bundleIssueMovesStallsOrTraps : Obligations.BundleIssueMovesStallsOrTraps := by
  unfold Obligations.BundleIssueMovesStallsOrTraps
  intro c s u hf s0
  refine ⟨fun g hl hret hgate hd hports => ?_, fun g ret saved hl hret hone h7 => ?_, fun hl => ?_,
    fun v a i hl => execBundleIssue_of_look hf hl, fun t hl => execBundleIssue_of_look hf hl⟩
  · have hv : ∀ e ∈ g.vals, PlainPort e.1 := fun e he => by
      obtain h | h | ⟨k, h0, h1, hk⟩ := hports e he
      · exact .inl h
      · exact .inr (.inl h)
      · exact .inr (.inr ⟨k, by omega, by omega, hk⟩)
    obtain ⟨hpc, hg, ha, halu, hpreds, hring⟩ := CoreSt.issued_plain hv hd (u.core c) u.now
    refine ⟨_, execBundleIssue_of_look hf hl, ?_⟩
    simp only [u.issue_plain c hv hret hgate, State.setCore_core_at]
    exact ⟨hpc, hg, ha, fun k v _ _ _ ht => halu k v ht, hpreds, hring, rfl, fun d hd => (State.setCore_core ..).trans (if_neg hd)⟩
  · obtain ⟨v, hv⟩ := hone
    refine ⟨_, execBundleIssue_of_look hf hl, ?_⟩
    simp only [u.issue_ret c hv hret, State.setCore_core_at]
    obtain ⟨hpc, hring, hpreds, hgov⟩ :=
      { (u.core c).seq with mute := 0, first := none, lastIssue := u.now }.doRet_of_no_loop ret h7
    exact ⟨hpc, hring, hpreds, hgov, rfl⟩
  · refine ⟨_, execBundleIssue_of_look hf hl, ?_, fun d hd => u.onSeq_core_other c _ hd, rfl⟩
    rw [State.onSeq_core_at]

end Sys2Proof.Machine
end

/-!
# Entering an event (O17)

The frame goes through the data cache, which leaves the sequencer (`State.coreWr_engines`), so the entered core's sequencer is the
old one with its divide abandoned, its stack pointer lower and the handler next: `State.enter_seq`.
-/

section
namespace Sys2Proof.Machine

/-! ## Before the frame -/

@[simp] theorem State.missTrap_cores (s : State) (c v : Nat) : (s.missTrap c v).cores = s.cores := by
  simp only [State.missTrap]
  (repeat' split) <;> simp

theorem State.missTrap_core (s : State) (c v d : Nat) : (s.missTrap c v).core d = s.core d :=
  congrArg (Map.look · d ({} : CoreSt)) (s.missTrap_cores c v)

/-- The sequencer with its divide abandoned (R122). -/
def Seq.divDropped (q : Seq) : Seq := { q with divBusy := false, divAband := q.divBusy || q.divAband }

theorem Seq.divDropped_of_idle {q : Seq} (h : q.divBusy = false) : q.divDropped = q := by
  simp only [Seq.divDropped, h, Bool.false_or]
  rw [← h]

theorem State.dropDiv_seq (s : State) (c : Nat) : ((s.dropDiv c).core c).seq = (s.core c).seq.divDropped := by
  simp only [State.dropDiv, State.onSeq_core_at]
  split
  · rename_i h
    rw [Seq.divDropped, h, Bool.true_or]
  · rename_i h
    rw [Seq.divDropped_of_idle (Bool.eq_false_iff.2 h)]

theorem State.enterStart_seq (s : State) (c v : Nat) : (((s.missTrap c v).dropDiv c).core c).seq = (s.core c).seq.divDropped := by
  rw [State.dropDiv_seq, State.missTrap_core]

/-! ## The entry -/

/-- The sequencer of an event that ring `t` takes (Table 4.9). -/
def Seq.entered (q : Seq) (t v arg : Nat) (addr : Word) : Seq :=
  (q.divDropped.setGov (0x408 + t) (q.gov (0x408 + t) - 16)).vectorTo t v (v + 64 * q.ring.toNat + 256 * arg) addr

theorem Seq.entered_regs (q : Seq) (t v arg : Nat) (addr : Word) :
    (q.entered t v arg addr).g = q.g ∧ (q.entered t v arg addr).preds = q.preds := by
  simp [Seq.entered, Seq.vectorTo, Seq.setCtl, Seq.setGov, Seq.divDropped]

/-- An event whose ring has a handler for it and room for the frame. -/
theorem State.enter_seq (s : State) (c v arg t : Nat) (ret addr : Word) (lpend : Bool)
    (ht : t = (((s.missTrap c v).dropDiv c).core c).seq.route v (min (s.core c).seq.ring.toNat (floorOf v)))
    (hh : (s.core c).seq.shadow.look (64 * t + v) 0 ≠ 0)
    (hf : ((s.missTrap c v).dropDiv c).frameFits c t ((s.core c).seq.gov (0x408 + t)) = true) :
    ((s.enter c v ret lpend addr arg).core c).seq = (s.core c).seq.entered t v arg addr := by
  have hq := s.enterStart_seq c v
  rw [hq] at ht
  simp only [State.enter, hq]
  rw [show (s.core c).seq.divDropped.route v (min (s.core c).seq.divDropped.ring.toNat (floorOf v)) = t from ht.symm,
    if_neg (show ¬(s.core c).seq.divDropped.shadow.look (64 * t + v) 0 = 0 from hh),
    if_pos (show ((s.missTrap c v).dropDiv c).frameFits c t ((s.core c).seq.divDropped.gov (0x408 + t)) = true from hf),
    State.onSeq_core_at, core_seq_of_enginesOf (State.coreWr_engines ..), hq]
  rfl

theorem Seq.vectorTo_info (q : Seq) (t v info : Nat) (addr : Word) : (q.vectorTo t v info addr).ctl.look (0x434 + t) 0 = w64 info :=
  (Map.look_set_other _ _ _ _ _ (by omega)).trans (Map.look_set_same ..)

theorem Seq.vectorTo_addr (q : Seq) (t v info : Nat) (addr : Word) : (q.vectorTo t v info addr).ctl.look (0x438 + t) 0 = addr :=
  Map.look_set_same ..

/-! ## Interrupts (R119) -/

/-- The first of a rising list that satisfies a predicate is the least that does. -/
theorem find?_eq_least {p : Nat → Bool} {l : List Nat} (hl : l.Pairwise (· < ·)) {v : Nat} (hv : v ∈ l) (hp : p v = true)
    (hmin : ∀ w ∈ l, p w = true → v ≤ w) : l.find? p = some v := by
  obtain ⟨as, bs, rfl⟩ := List.append_of_mem hv
  rw [List.find?_eq_some_iff_append]
  refine ⟨hp, as, bs, rfl, fun w hw => ?_⟩
  have hlt : w < v := (List.pairwise_append.1 hl).2.2 w hw v (List.mem_cons_self ..)
  cases hpw : p w with
  | false => rfl
  | true => exact absurd (hmin w (List.mem_append_left _ hw) hpw) (Nat.not_le.2 hlt)

/-- At a boundary where the next bundle makes no trap and no gate frame overflows, the pending enabled vector found is taken. -/
theorem execInterruptEntry_of_found {c : Fin 64} {s : State} {v : Nat} (hf : s.fetching c = true) (hie : (s.core c).seq.ie = true)
    (hm : (s.core c).seq.mute = 0)
    (hv : irqVectors.find? (fun v => ((s.core c).seq.ctl.look 0x411 0).getLsbD v && ((s.core c).seq.gov 0x410).getLsbD v) = some v)
    (htrap : ∀ u w a i, (s.onSeq c Seq.settle).look c ≠ (u, .trap w a i)) (hover : ∀ u w, (s.onSeq c Seq.settle).look c ≠ (u, .overflow w)) :
    exec (.interruptEntry c) s = .next (s.enter c v (s.core c).seq.pc (s.core c).seq.loopPend 0 0) := by
  change execInterruptEntry c s = _
  simp only [execInterruptEntry, hf, hie, hm, hv]
  rcases hl : (s.onSeq c Seq.settle).look c with ⟨u, k⟩
  cases k with
  | trap w a i => exact absurd hl (htrap u w a i)
  | overflow w => exact absurd hl (hover u w)
  | stall => rfl
  | go g => rfl

/-- Settles O17: the entered sequencer's fields, and the least pending enabled vector. -/
theorem eventEntryPushesAFrame : Obligations.EventEntryPushesAFrame := by
  unfold Obligations.EventEntryPushesAFrame
  intro c s
  refine ⟨fun v ret addr lpend arg t ht hh _ hf => ?_, fun v hf hie hm hup hmin htrap hover => ?_⟩
  · simp only [s.enter_seq c v arg t ret addr lpend ht hh hf]
    exact ⟨rfl, rfl, rfl, Seq.gov_setGov .., Seq.vectorTo_info .., Seq.vectorTo_addr .., rfl, Seq.entered_regs ..⟩
  · obtain ⟨hmem, hpend, hen⟩ := hup
    exact execInterruptEntry_of_found hf hie hm (find?_eq_least (by decide) hmem (by rw [hpend, hen]; rfl)
      fun w hw hp => hmin w ⟨hw, (Bool.and_eq_true ..).mp hp⟩) htrap hover

end Sys2Proof.Machine
end

/-!
# Kernels, idle cores, pending interrupts and code lines (O18)

After KERNEL_START has set its core, only handler shadows, caches and way targets still change: `Started` holds what the kernel
starts with, and each later operation keeps it.
-/

section
namespace Sys2Proof.Machine

/-! ## What a kernel starts with -/

/-- The sequencer apart from its handler shadows, the vector engine and the matrix array. -/
def CoreSt.started (x : CoreSt) : Seq × Vec × Mat := ({ x.seq with shadow := [], shadowB := [] }, x.vec, x.mat)

theorem started_of_engines {x y : CoreSt} (h : x.engines = y.engines) : x.started = y.started := by
  change x.engines.started = y.engines.started
  rw [h]

theorem State.onShadow_started (s : State) (c : Nat) (m : Seq → Map Word) (b : Seq → Map (BitVec 128)) :
    ((s.onSeq c fun q => { q with shadow := m q, shadowB := b q }).core c).started = (s.core c).started := by
  rw [State.onSeq_core_at]
  rfl

theorem shadowEntry_started (c k n : Nat) (tab : Bytes) (s : State) (v : Nat) :
    ((shadowEntry c k n tab s v).core c).started = (s.core c).started := by
  simp only [shadowEntry]
  rw [State.onShadow_started, ite_fst]
  generalize (if fld tab (8 * v) 8 % 16 = 0 then fld tab (8 * v) 8 else 0) = h
  split
  · rfl
  · exact started_of_engines (core_of_enginesOf (State.codeRd_engines ..) c)

theorem shadowEntries_started (c k n : Nat) (tab : Bytes) (l : List Nat) (s : State) :
    ((l.foldl (shadowEntry c k n tab) s).core c).started = (s.core c).started := by
  induction l generalizing s with
  | nil => rfl
  | cons v l ih => exact (ih _).trans (shadowEntry_started c k n tab s v)

theorem State.reloadShadow_started (s : State) (c k n : Nat) : ((s.reloadShadow c k n).core c).started = (s.core c).started := by
  simp only [State.reloadShadow]
  rw [shadowEntries_started]
  split
  · rfl
  · exact started_of_engines (core_of_enginesOf (State.coreRd_engines ..) c)

theorem State.onWays_started (s : State) (c : Nat) (f : CoreSt → CachePwr) :
    ((s.onCore c fun x => { x with pwr := f x }).core c).started = (s.core c).started := by
  rw [State.onCore_eq, State.setCore_core_at]
  rfl

theorem State.restoreWays_started (s : State) (c : Nat) : ((s.restoreWays c).core c).started = (s.core c).started := by
  simp only [State.restoreWays]
  split
  · exact (State.onWays_started ..).trans (State.onWays_started ..)
  · rfl

/-! ## KERNEL_START (R106, R137, R142, R192) -/

/-- The core as a kernel finds it, but for its handler shadows. -/
def CoreSt.startKernel (x : CoreSt) (k : Kernel) (rest : List Kernel) : CoreSt :=
  { x with
    seq := x.seq.startKernel k rest
    vec := { x.vec with regs := [], masks := [], sa := 0, sb := 0, flags := 0, slots := [], vres := 0 }
    mat := { x.mat with set0 := {}, set1 := {}, cur := false, rbValid := false } }

theorem kernelStart_started {c : Fin 64} {s : State} {k : Kernel} {rest : List Kernel} (hk : (s.core c).seq.kernels = k :: rest)
    (hrun : (s.core c).seq.run = .idle) (hgo : s.goes c = true) (had : s.admits c = true) :
    ∃ t, exec (.kernelStart c) s = .next t ∧ (t.core c).started = ((s.core c).startKernel k rest).started := by
  have hex : exec (.kernelStart c) s = .next
      ((((s.setCore c ((s.core c).startKernel k rest)).reloadShadow c k.ctx 2).reloadShadow c k.ctx 3).restoreWays c) := by
    change execKernelStart c s = _
    simp only [execKernelStart, hk, hrun, hgo, had]
    rfl
  refine ⟨_, hex, ?_⟩
  rw [State.restoreWays_started, State.reloadShadow_started, State.reloadShadow_started, State.setCore_core_at]

theorem look_numbered (l : List Word) (n i : Nat) :
    Map.look ((List.range' n l.length).zipWith (fun i v => (i, v)) l) i 0 = if n ≤ i then l.getD (i - n) 0 else 0 := by
  induction l generalizing n with
  | nil => simp [Map.look, Map.find]
  | cons a l ih =>
    have hcons (m : Map Word) : Map.look ((n, a) :: m) i 0 = if n = i then a else m.look i 0 := by
      simp only [Map.look, Map.find]
      split <;> rfl
    simp only [List.length_cons, List.range'_succ, List.zipWith_cons_cons, hcons, ih]
    rcases Nat.lt_trichotomy n i with hlt | rfl | hgt
    · rw [if_neg (Nat.ne_of_lt hlt), if_pos (Nat.succ_le_of_lt hlt), if_pos (Nat.le_of_lt hlt), show i - n = i - (n + 1) + 1 by omega, List.getD_cons_succ]
    · simp
    · rw [if_neg (Nat.ne_of_gt hgt), if_neg (by omega), if_neg (by omega)]

/-- The registers g0 to g7 hold the block, and the others 0. -/
theorem look_block {block : List Word} (h : block.length = 8) (i : Nat) :
    Map.look ((List.range 8).zipWith (fun i v => (i, v)) block) i 0 = block.getD i 0 := by
  rw [List.range_eq_range', ← h, look_numbered, if_pos (Nat.zero_le i), Nat.sub_zero]

/-! ## CORE_IDLE (R106) -/

@[simp] theorem State.onCmd_cores (s : State) (n serial : Nat) (f : Cmd → Cmd) : (s.onCmd n serial f).cores = s.cores := rfl

@[simp] theorem State.endCmd_cores (s : State) (n serial : Nat) (status : Byte) : (s.endCmd n serial status).cores = s.cores := by
  simp only [State.endCmd]
  (repeat' split) <;> simp

@[simp] theorem State.workDone_cores (s : State) (n serial : Nat) (status : Byte) : (s.workDone n serial status).cores = s.cores := by
  simp only [State.workDone]
  split <;> simp

theorem State.workDone_core (s : State) (n serial : Nat) (status : Byte) (d : Nat) : (s.workDone n serial status).core d = s.core d :=
  congrArg (Map.look · d ({} : CoreSt)) (s.workDone_cores n serial status)

theorem execCoreIdle_of_quiet {c : Fin 64} {s : State} (hrun : (s.core c).seq.run = .halting) (hq : (s.core c).quiet = true) :
    exec (.coreIdle c) s = .next
      ((s.onSeq c fun q => { q with run := .idle, haltDue := none }).workDone (s.core c).seq.queue (s.core c).seq.cmd 0) := by
  change execCoreIdle c s = _
  simp only [execCoreIdle, hrun, hq]
  rfl

/-! ## IRQ_RAISE (R139) -/

theorem irqRaise_host (id : BitVec 16) (c : Fin 64) (v : Word) (s : State) :
    exec (.irqRaise (.host id) c v) s = .next (s.irqRaise c v) := by
  change execIrqRaise (.host id) c v s = _
  simp [execIrqRaise, State.mmioMay]

/-! ## INSTRUCTION_CACHE_FILL (R116) -/

/-- In an empty cache whose way 0 is on, way 0 takes the line. -/
theorem victim_empty {on : BitVec 8} (h : on.getLsbD 0 = true) (set f : Nat) : victim on set (f + 1) [] = ([], 0) := by
  simp [victim, List.range, List.range.loop, h, Map.look, Map.find]

theorem execInstructionCacheFill_of_read {c : Fin 64} {s s1 u : State} {line : Nat} {key : BitVec 10} {r : Rd}
    (hm : (s.core c).seq.fetchMiss = some (line, key)) (hi : s.inject c 3 1 = (none, s1))
    (hr : s1.memRd (s1.lineWho c key) (64 * line) 64 = (u, r)) (he : r.err = false) (hb : r.bad = none) :
    exec (.instructionCacheFill c) s =
      .next ((u.onSeq c fun q => { q with fetchMiss := none }).iFill c line key r.data) := by
  change execInstructionCacheFill c s = _
  simp only [execInstructionCacheFill, hm, hi, hr, he, hb]
  rfl

theorem State.iFill_empty {u : State} {c : Nat} (hc : (u.core c).icache = []) (hw : ((u.core c).pwr.ways false).getLsbD 0 = true)
    (line : Nat) (key : BitVec 10) (data : Bytes) :
    u.iFill c line key data = u.setCore c { u.core c with
      icache := Map.set [] (8 * (line % 128)) { valid := true, line := line, key := key, data := data } } := by
  simp only [State.iFill, hc, victim_empty hw]
  rfl

/-- Settles O18: a start keeps what it set, and the other rows are their own state. -/
theorem kernelsStartAndCoresGoIdle : Obligations.KernelsStartAndCoresGoIdle := by
  unfold Obligations.KernelsStartAndCoresGoIdle
  intro c s
  refine ⟨fun k rest hk hrun hgo had hlen => ?_, fun hrun hq => ?_, fun id v hlow hhigh => ?_, fun id v hv => ?_,
    fun line key s1 u r hm hi hr he hb hc hw => ?_⟩
  · obtain ⟨t, ht, hst⟩ := kernelStart_started hk hrun hgo had
    have field {α : Type} (f : Seq × Vec × Mat → α) : f (t.core c).started = f ((s.core c).startKernel k rest).started := congrArg f hst
    refine ⟨t, ht, field (·.1.run), field (·.1.pc), field (·.1.ring), field (·.1.context), field (·.1.kernels), field (·.1.preds),
      field (·.1.ie), fun i => (field (·.1.g.look i 0)).trans (look_block hlen i), field (·.1.lsuMode), field (·.2.1.regs),
      field (·.2.1.masks), field (·.2.1.sa), field (·.2.1.sb), field (·.2.1.vres), field (·.2.1.flags), field (·.2.1.slots),
      field (·.2.2.set0), field (·.2.2.set1), field (·.2.2.rbValid)⟩
  · refine ⟨_, execCoreIdle_of_quiet hrun hq, rfl, ?_, fun d hd => ?_, State.workDone_mem ..⟩
    · rw [State.workDone_core, State.onSeq_core_at]
    · rw [State.workDone_core, State.onSeq_core_other _ _ _ hd]
  · have hset : s.irqRaise c v = s.onSeq c fun q => { q with ctl := q.ctl.set 0x411 (q.ctl.look 0x411 0 ||| v) } :=
      if_neg (by simp; omega)
    refine ⟨_, irqRaise_host id c v s, ?_⟩
    simp only [hset, State.onSeq_core_at]
    exact ⟨Map.look_set_same .., fun p hp => Map.look_set_other _ _ _ _ _ hp, fun d hd => s.onSeq_core_other c _ hd, rfl⟩
  · have hignored : s.irqRaise c v = s := if_pos (by simpa using hv)
    rw [irqRaise_host, hignored]
  · refine ⟨_, 0, execInstructionCacheFill_of_read hm hi hr he hb, ?_⟩
    rw [State.iFill_empty (by rw [State.onSeq_core_at, hc]) (by rw [State.onSeq_core_at, hw])]
    simp only [State.setCore_core_at, State.onSeq_core_at, Nat.add_zero, Map.look_set_same]
    exact ⟨trivial, by decide, trivial, trivial, trivial, rfl⟩

end Sys2Proof.Machine
end

/-!
# Power of cache ways (O19)

CACHE_PWR and the idle power-down set a core's targets through `State.wayTargets`; a transition that ends changes the powered ways.
Each of them changes one core's cache power and then starts the next transition, which leaves the ways and targets as they are.
-/

section
namespace Sys2Proof.Machine

/-! ## One core set -/

theorem State.setCore_core_other (s : State) (c : Nat) (x : CoreSt) {d : Nat} (h : d ≠ c) : (s.setCore c x).core d = s.core d :=
  (State.setCore_core ..).trans (if_neg h)

/-- What a core that is set leaves: the other cores, and the rest of the state. -/
theorem State.setCore_frame (s : State) (c : Nat) (x : CoreSt) :
    (∀ d : Nat, d ≠ c → (s.setCore c x).core d = s.core d) ∧ s.setCore c x = { s with cores := (s.setCore c x).cores } :=
  ⟨fun _ hd => s.setCore_core_other c x hd, rfl⟩

/-! ## The next transition (R222) -/

/-- Starting a transition changes nothing but which way is in transition. -/
theorem CachePwr.go_eq (p : CachePwr) : p.go = { p with trans := p.go.trans } := by
  simp only [CachePwr.go]
  split <;> rfl

@[simp] theorem CachePwr.go_dcOn (p : CachePwr) : p.go.dcOn = p.dcOn := by rw [p.go_eq]

@[simp] theorem CachePwr.go_icOn (p : CachePwr) : p.go.icOn = p.icOn := by rw [p.go_eq]

@[simp] theorem CachePwr.go_dcTgt (p : CachePwr) : p.go.dcTgt = p.dcTgt := by rw [p.go_eq]

@[simp] theorem CachePwr.go_icTgt (p : CachePwr) : p.go.icTgt = p.icTgt := by rw [p.go_eq]

@[simp] theorem CachePwr.go_clamped (p : CachePwr) : p.go.clamped = p.clamped := by rw [p.go_eq]

@[simp] theorem CachePwr.go_idleCut (p : CachePwr) : p.go.idleCut = p.idleCut := by rw [p.go_eq]

/-! ## Targets within their bounds (R222, R364) -/

/-- The number of ways of a set of ways, as `boundWays` counts them. -/
def wayCount (t : BitVec 8) : Nat := ((List.range 8).filter fun i => t.getLsbD i).length

theorem wayCount_le (t : BitVec 8) : wayCount t ≤ 8 := List.length_filter_le ..

/-- Ways 0 and 1 are kept (R222), so that a set of ways always holds two. -/
theorem two_le_wayCount_or (t : BitVec 8) : 2 ≤ wayCount (t ||| 3) := by
  simp [wayCount, show List.range 8 = [0, 1, 2, 3, 4, 5, 6, 7] from rfl]

/-- A fold whose step changes nothing changes nothing. -/
theorem foldl_of_step_id {α β : Type} {f : α → β → α} {a : α} (h : ∀ b, f a b = a) (l : List β) : l.foldl f a = a := by
  induction l with
  | nil => rfl
  | cons b l ih => rw [List.foldl_cons, h, ih]

/-- A set whose number of ways lies within the bounds stays as it is. -/
theorem boundWays_of_within {b : Nat × Nat} {t : BitVec 8} (hlow : b.1 ≤ wayCount t) (hhigh : wayCount t ≤ b.2) :
    boundWays b t = t := by
  have hadd := foldl_of_step_id (f := fun (t : BitVec 8) i => if wayCount t < b.1 then t ||| (1#8 <<< i) else t) (a := t)
    (fun _ => if_neg (Nat.not_lt.2 hlow)) (List.range 8)
  have hcut := foldl_of_step_id (f := fun (t : BitVec 8) i => if b.2 < wayCount t then t &&& ~~~(1#8 <<< i) else t) (a := t)
    (fun _ => if_neg (Nat.not_lt.2 hhigh)) (List.range 8).reverse
  exact (congrArg (List.foldl _ · _) hadd).trans hcut

theorem boundWays_full {b : Nat × Nat} (hb : b = (2, 8)) (t : BitVec 8) : boundWays b (t ||| 3) = t ||| 3 :=
  boundWays_of_within (hb ▸ two_le_wayCount_or t) (hb ▸ wayCount_le _)

/-- A field of eight ways holds ways 0 and 1 exactly if its two low bits are set. -/
theorem low_ways_iff (v : Word) (n : Nat) : v.extractLsb' n 8 &&& 3#8 = 3#8 ↔ v.extractLsb' n 2 = 3#2 := by
  have h8 : (v.extractLsb' n 8 &&& 3#8).toNat = v.toNat >>> n % 4 := by
    rw [BitVec.toNat_and, BitVec.extractLsb'_toNat]
    exact (Nat.and_two_pow_sub_one_eq_mod _ 2).trans (Nat.mod_mod_of_dvd _ (by decide))
  have h2 : (v.extractLsb' n 2).toNat = v.toNat >>> n % 4 := BitVec.extractLsb'_toNat ..
  rw [← BitVec.toNat_inj, ← BitVec.toNat_inj, h8, h2]
  rfl

/-! ## Targets set -/

/-- A core's cache power with targets of ways set within bounds. -/
def CachePwr.aimed (p : CachePwr) (bd bi : Nat × Nat) (dc ic : BitVec 8) : CachePwr :=
  CachePwr.go { p with
    dcTgt := boundWays bd (dc ||| 3)
    icTgt := boundWays bi (ic ||| 3)
    clamped := p.clamped || (dc &&& 3 != 3 || ic &&& 3 != 3) }

theorem State.wayTargets_eq (s : State) (c : Nat) (dc ic : BitVec 8) :
    s.wayTargets c dc ic =
      s.setCore c { s.core c with pwr := (s.core c).pwr.aimed (s.active.bounds 4 (c / 16)) (s.active.bounds 5 (c / 16)) dc ic } := rfl

theorem cachePwr_next {r : Requester} (hr : writesBlock r = true) (c : Fin 64) (v : Word) (s : State) :
    exec (.cachePwr r c v) s = .next (s.setCore c { s.core c with
      pwr := CachePwr.aimed { (s.core c).pwr with clamped := (s.core c).pwr.clamped && !v.getLsbD 0, idleCut := false }
        (s.active.bounds 4 (c.val / 16)) (s.active.bounds 5 (c.val / 16)) (v.extractLsb' 16 8) (v.extractLsb' 8 8) }) := by
  change execCachePwr r c v s = _
  simp [execCachePwr, hr, State.wayTargets_eq]

theorem cachePwr_refused {r : Requester} (hr : writesBlock r = false) (c : Fin 64) (v : Word) (s : State) :
    exec (.cachePwr r c v) s = .next s := by
  change execCachePwr r c v s = _
  simp [execCachePwr, hr]

@[simp] theorem State.toNow_core (s : State) (t d : Nat) : (s.toNow t).core d = s.core d := rfl

@[simp] theorem State.toNow_active (s : State) (t : Nat) : (s.toNow t).active = s.active := rfl

/-- Device time brought forward to a moment has reached it. -/
theorem State.le_toNow_now (s : State) (t : Nat) : t ≤ (s.toNow t).now := by
  change t ≤ s.now + (t - s.now)
  omega

/-- The state after the cut of an idle core at time `t`. The time is a variable, so that no proof evaluates a millisecond in unary. -/
def State.waysCutAt (s : State) (c t : Nat) : State :=
  (s.toNow t).setCore c { s.core c with
    pwr := CachePwr.aimed { (s.core c).pwr with idleCut := true } (s.active.bounds 4 (c / 16)) (s.active.bounds 5 (c / 16))
      (lowWays (s.active.bounds 4 (c / 16)).1) (lowWays (s.active.bounds 5 (c / 16)).1) }

theorem State.waysCutAt_eq (s : State) (c t : Nat) :
    ((s.toNow t).onCore c fun x => { x with pwr := { x.pwr with idleCut := true } }).wayTargets c
      (lowWays ((s.toNow t).active.bounds 4 (c / 16)).1) (lowWays ((s.toNow t).active.bounds 5 (c / 16)).1) = s.waysCutAt c t := by
  simp [State.wayTargets_eq, State.waysCutAt]

theorem idleCoreWayPowerdown_next {c : Fin 64} {s : State} (h : (s.core c).pwr.idleCut = false) :
    exec (.idleCoreWayPowerdown c) s = .next (s.waysCutAt c ((s.core c).seq.lastIssue + 1000000)) := by
  change execIdleCoreWayPowerdown c s = _
  rw [← State.waysCutAt_eq]
  exact if_neg (by simp [h])

/-! ## Ways that leave (R223) and join (R224) -/

theorem cacheWayPoweredOff_instr {c : Fin 64} {s : State} {w : Nat} (h : (s.core c).pwr.trans = some (false, w, false)) :
    exec (.cacheWayPoweredOff c) s = .next (s.setCore c { s.core c with
      icache := dropWay (s.core c).icache w
      pwr := CachePwr.go { (s.core c).pwr with trans := none, icOn := (s.core c).pwr.icOn &&& ~~~(1#8 <<< w) } }) := by
  change execCacheWayPoweredOff c s = _
  simp [execCacheWayPoweredOff, h]

/-- The lines of a data way cleaned, set by set. -/
def State.cleanWay (s : State) (c w : Nat) : State := (List.range 64).foldl (fun s set => s.cleanAt c (8 * set + w)) s

theorem cacheWayPoweredOff_data {c : Fin 64} {s : State} {w : Nat} (h : (s.core c).pwr.trans = some (true, w, false)) :
    exec (.cacheWayPoweredOff c) s = .next ((s.cleanWay c w).setCore c { (s.cleanWay c w).core c with
      dcache := dropWay ((s.cleanWay c w).core c).dcache w
      pwr := CachePwr.go { ((s.cleanWay c w).core c).pwr with
        trans := none, dcOn := ((s.cleanWay c w).core c).pwr.dcOn &&& ~~~(1#8 <<< w) } }) := by
  change execCacheWayPoweredOff c s = _
  simp only [execCacheWayPoweredOff, h, if_true, State.onCore_eq, State.cleanWay]

theorem CoreSt.engines_pwr (x : CoreSt) : x.engines.pwr = x.pwr := rfl

theorem State.cleanWay_pwr (s : State) (c w d : Nat) : ((s.cleanWay c w).core d).pwr = (s.core d).pwr := by
  have hclean : enginesOf (s.cleanWay c w).cores = enginesOf s.cores := by
    rw [State.cleanWay]
    generalize List.range 64 = sets
    induction sets generalizing s with
    | nil => rfl
    | cons set sets ih => exact (ih _).trans (s.cleanAt_engines c _)
  rw [← CoreSt.engines_pwr, core_of_enginesOf hclean d, CoreSt.engines_pwr]

/-- A property of every listed value and of the default holds of what a map reads. -/
theorem Map.look_of_forall {α : Type} {P : α → Prop} {m : Map α} {d : α} (h : ∀ e ∈ m, P e.2) (hd : P d) (k : Nat) :
    P (m.look k d) := by
  induction m with
  | nil => exact hd
  | cons e m ih =>
    have ih := ih fun f hf => h f (List.mem_cons_of_mem _ hf)
    simp only [Map.look, Map.find] at ih ⊢
    split
    · exact h e List.mem_cons_self
    · exact ih

/-- A cache without dirty lines has nothing to write back. -/
theorem State.cleanWay_of_clean {s : State} {c : Nat} (h : ∀ e ∈ (s.core c).dcache, e.2.dirty = false) (w : Nat) :
    s.cleanWay c w = s := by
  refine foldl_of_step_id (fun set => ?_) _
  have hline : ((s.core c).dcache.look (8 * set + w) {}).dirty = false := Map.look_of_forall (P := fun l : CLine => l.dirty = false) h rfl _
  simp only [State.cleanAt, hline, Bool.and_false]
  rfl

theorem mem_dropWay {m : Map CLine} {w : Nat} {e : Nat × CLine} : e ∈ dropWay m w ↔ e ∈ m ∧ e.1 % 8 ≠ w := by
  simp [dropWay]

theorem cacheWayPoweredOn_next {c : Fin 64} {s : State} {data : Bool} {w : Nat} (h : (s.core c).pwr.trans = some (data, w, true)) :
    exec (.cacheWayPoweredOn c) s = .next (s.setCore c { s.core c with
      pwr := CachePwr.go { (s.core c).pwr with
        trans := none
        dcOn := if data = true then (s.core c).pwr.dcOn ||| (1#8 <<< w) else (s.core c).pwr.dcOn
        icOn := if data = true then (s.core c).pwr.icOn else (s.core c).pwr.icOn ||| (1#8 <<< w) } }) := by
  change execCacheWayPoweredOn c s = _
  simp only [execCacheWayPoweredOn, h]
  cases data <;> rfl

/-- Settles O19: each row sets its core's cache power, and starting the next transition keeps the ways and targets. -/
theorem cacheWaysPowerDownAndUp : Obligations.CacheWaysPowerDownAndUp := by
  unfold Obligations.CacheWaysPowerDownAndUp
  intro c s p others bd bi
  refine ⟨fun r v hr => cachePwr_refused hr c v s, fun r v hr => ?_, fun w _ h => ?_, fun w _ h => ?_, fun data w _ h => ?_,
    fun h => ?_, fun h => ?_⟩
  · refine ⟨_, cachePwr_next hr c v s, ?_⟩
    rw [State.setCore_core_at]
    refine ⟨CachePwr.go_dcTgt _, CachePwr.go_icTgt _, fun hb => (CachePwr.go_dcTgt _).trans (boundWays_full hb _),
      fun hb => (CachePwr.go_icTgt _).trans (boundWays_full hb _), CachePwr.go_dcOn _, CachePwr.go_icOn _, ?_, rfl, s.setCore_frame ..⟩
    simp [CachePwr.aimed, low_ways_iff, p]
  · refine ⟨_, cacheWayPoweredOff_instr h, ?_⟩
    rw [State.setCore_core_at]
    exact ⟨CachePwr.go_icOn _, CachePwr.go_dcOn _, fun e he => (mem_dropWay.1 he).symm, rfl, s.setCore_frame ..⟩
  · refine ⟨_, cacheWayPoweredOff_data h, ?_⟩
    rw [State.setCore_core_at, State.cleanWay_pwr]
    dsimp only
    refine ⟨CachePwr.go_dcOn _, fun e he => (mem_dropWay.1 he).2, fun hclean => ?_⟩
    rw [State.setCore_mem, State.cleanWay_of_clean hclean]
  · refine ⟨_, cacheWayPoweredOn_next h, ?_⟩
    rw [State.setCore_core_at]
    exact ⟨CachePwr.go_dcOn _, CachePwr.go_icOn _, rfl, s.setCore_frame ..⟩
  · refine ⟨_, idleCoreWayPowerdown_next h, ?_⟩
    rw [State.waysCutAt, State.setCore_core_at, State.setCore_now, State.setCore_mem, State.toNow_mem]
    exact ⟨CachePwr.go_idleCut _, s.le_toNow_now _, CachePwr.go_dcTgt _, CachePwr.go_icTgt _, CachePwr.go_dcOn _, CachePwr.go_icOn _,
      fun d hd => (State.setCore_core_other _ _ _ hd).trans (s.toNow_core _ d), rfl⟩
  · change execIdleCoreWayPowerdown c s = _
    simp only [execIdleCoreWayPowerdown]
    exact if_pos h

end Sys2Proof.Machine
end

/-!
# SRAM port accesses (O20)

An access of bring-up to an aligned word of a core's SRAM is one access to one word (`AlignedWord`). A write of the whole word stores
its bytes; a read without flips, poison or injection delivers the stored ones and changes nothing.
-/

section
namespace Sys2Proof.Machine

/-! ## Bytes and numbers (R6) -/

theorem leNat_lt (bs : Bytes) : leNat bs < 2 ^ (8 * bs.length) := by
  induction bs with
  | nil => exact Nat.one_pos
  | cons b bs ih =>
    have hb := b.isLt
    have hp : 2 ^ (8 * (b :: bs).length) = 256 * 2 ^ (8 * bs.length) := by
      rw [List.length_cons, Nat.mul_succ, Nat.pow_add, Nat.mul_comm]
    rw [leNat, hp]
    omega

theorem leBytes_leNat (bs : Bytes) : leBytes bs.length (leNat bs) = bs := by
  induction bs with
  | nil => rfl
  | cons b bs ih =>
    have hb := b.isLt
    have hhead : BitVec.ofNat 8 (b.toNat + 256 * leNat bs) = b := BitVec.eq_of_toNat_eq (by rw [BitVec.toNat_ofNat]; omega)
    rw [List.length_cons, leNat, leBytes, hhead, show (b.toNat + 256 * leNat bs) / 256 = leNat bs by omega, ih]

@[simp] theorem leBytes_length (n x : Nat) : (leBytes n x).length = n := by
  induction n generalizing x with
  | zero => rfl
  | succ n ih => rw [leBytes, List.length_cons, ih]

theorem Map.run_eq {α : Type} (m : Map α) (d : α) (k n : Nat) : m.run d k n = (List.range n).map fun i => m.look (k + i) d := by
  induction n generalizing k with
  | zero => rfl
  | succ n ih =>
    rw [Map.run, ih, List.range_succ_eq_map, List.map_cons, List.map_map]
    simp [Function.comp_def, Nat.add_assoc, Nat.add_comm 1]

theorem State.bytes_eq (s : State) (a n : Nat) : s.bytes a n = (List.range n).map fun i => s.byte (a + i) := Map.run_eq ..

@[simp] theorem State.bytes_length (s : State) (a n : Nat) : (s.bytes a n).length = n := by simp [State.bytes_eq]

/-! ## An aligned word of a core's SRAM (R210) -/

/-- Address of a byte of a core's SRAM. -/
def sramAt (c off : Nat) : Nat := sramBase + 0x2000000 * c + off

/-- Number of the word at an offset of a core's SRAM. -/
def sramWordAt (c off : Nat) : Nat := 0x400000 * c + off / 8

/-- An aligned word of a core's SRAM, by its offset. -/
structure AlignedWord (c off : Nat) : Prop where
  core    : c < 64
  low     : off < 0x2000000
  aligned : off % 8 = 0

theorem alignedWord (c : Fin 64) {off : BitVec 25} (h : off.toNat % 8 = 0) : AlignedWord c off.toNat := ⟨c.isLt, off.isLt, h⟩

section
variable {c off : Nat} (h : AlignedWord c off)
include h

theorem AlignedWord.zone : zone (sramAt c off) 8 = .sram := by
  obtain ⟨hc, hlow, hal⟩ := h
  have hhbm : ¬sramAt c off + 8 ≤ hbmTop := by simp only [sramAt, sramBase, hbmTop]; omega
  have hlo : sramBase ≤ sramAt c off := by simp only [sramAt]; omega
  have hhi : sramAt c off + 8 ≤ sramBase + 0x80000000 := by simp only [sramAt]; omega
  simp [Machine.zone, hhbm, hlo, hhi]

theorem AlignedWord.cut : cutGran (8 / 64 + 2) (sramAt c off) 8 = [(sramAt c off, 8)] := by
  obtain ⟨hc, hlow, hal⟩ := h
  have hk : min 8 (64 - sramAt c off % 64) = 8 := by simp only [sramAt, sramBase]; omega
  simp [cutGran, hk]

theorem AlignedWord.number :
    (0x10000000000 + 0x2000000 * c + off - 0x10000000000) / 8 = sramWordAt c off := by
  obtain ⟨hc, hlow, hal⟩ := h
  simp only [sramWordAt]
  omega

theorem AlignedWord.rel_div : sramRel (sramAt c off) / 8 = sramWordAt c off := by
  obtain ⟨hc, hlow, hal⟩ := h
  simp only [sramRel, sramAt, sramWordAt, sramBase]
  omega

theorem AlignedWord.rel_last_div : sramRel (sramAt c off + 8 - 1) / 8 = sramWordAt c off := by
  obtain ⟨hc, hlow, hal⟩ := h
  simp only [sramRel, sramAt, sramWordAt, sramBase]
  omega

theorem AlignedWord.rel_mod : sramRel (sramAt c off) % 8 = 0 := by
  obtain ⟨hc, hlow, hal⟩ := h
  simp only [sramRel, sramAt, sramBase]
  omega

theorem AlignedWord.mod : sramAt c off % 8 = 0 := by
  obtain ⟨hc, hlow, hal⟩ := h
  simp only [sramAt, sramBase]
  omega

theorem AlignedWord.addr : sramBase + 8 * sramWordAt c off = sramAt c off := by
  obtain ⟨hc, hlow, hal⟩ := h
  simp only [sramAt, sramWordAt]
  omega

/-- Bring-up may reach the whole of a core's SRAM (R219). -/
theorem AlignedWord.bring_may (s : State) (wr : Bool) : s.sramMay c (s.sramWho c .bring) wr off 8 = true := by
  obtain ⟨hc, hlow, hal⟩ := h
  simp [State.sramMay, State.sramOk, State.sramWho]
  omega

/-! ## Writes (R216) -/

/-- A whole word written is stored, and its error and queued rewrite go. -/
theorem AlignedWord.wrGran_eq (s : State) (w : Who) {d : Bytes} (hd : d.length = 8) :
    s.wrGran w (sramAt c off) d false =
      State.store { s with
        sramErr := s.sramErr.del (sramWordAt c off)
        sramFix := s.sramFix.filter fun q => q.1 != sramWordAt c off } (sramAt c off) d := by
  have htake : d.take 8 = d := List.take_of_length_le (by omega)
  have hdrop : d.drop 8 = [] := List.drop_eq_nil_of_le (by omega)
  have hne : d ≠ [] := by rintro rfl; simp at hd
  simp [State.wrGran, hd, h.zone, sramPuts, h.rel_div, h.rel_mod, htake, hdrop, hne, State.sramPut, h.addr]

end

theorem sramWrite_word {c : Fin 64} {off : BitVec 25} {d : Bytes} (h : AlignedWord c off.toNat) (hd : d.length = 8) (s : State) :
    exec (.sramWriteRequest c .bring off d) s = .next (State.store { s with
      sramErr := s.sramErr.del (sramWordAt c off.toNat)
      sramFix := s.sramFix.filter fun q => q.1 != sramWordAt c off.toNat } (sramAt c off.toNat) d) := by
  have htake : d.take 8 = d := List.take_of_length_le (by omega)
  change execSramWriteRequest c .bring off d s = _
  simp only [execSramWriteRequest, hd, h.bring_may]
  refine congrArg Host.Outcome.next ((congrArg (wrGrans _ false · d s) h.cut).trans ?_)
  rw [wrGrans, htake, h.wrGran_eq s _ hd, wrGrans]

/-! ## Reads (R214, R215) -/

/-- With neither channel armed no check is injected. -/
theorem State.inject_unarmed {s : State} (h0 : s.faults.inj0.armed = false) (h1 : s.faults.inj1.armed = false) (src code n : Nat) :
    s.inject src code n = (none, s) := by
  simp [State.inject, Inject.on, Inject.use, h0, h1]

/-- A word without flips, poison or injection is delivered as stored, and nothing changes. -/
theorem State.sramWord_clean {s : State} {w : Nat} (h0 : s.faults.inj0.armed = false) (h1 : s.faults.inj1.armed = false)
    (he : s.sramErr.look w {} = {}) (hp : s.poisoned ((sramBase + 8 * w) / 64) = false) (ctx : Option Nat) (rescue : Bool) :
    s.sramWord w ctx rescue = (s, BitVec.ofNat 64 (leNat (s.sramRaw (sramBase + 8 * w))), false) := by
  have hx : WordErr.xor {} (injErr none) = {} := rfl
  have hcount : WordErr.count {} = 0 := rfl
  have hfree : s.freshIf (2 < 0) = (0, s) := rfl
  have hclean : secDed {} 0 = .clean := rfl
  simp only [State.sramWord, State.inject_unarmed h0 h1, he, hx, hcount, hfree, hp, hclean]
  exact congrArg (fun d => (s, d, false)) BitVec.xor_zero

theorem State.sramRaw_of_scratch {s : State} {a : Nat} (h : s.inRowCache a = false) : s.sramRaw a = s.bytes a 8 := by
  simp [State.sramRaw, h]

/-- Eight bytes made a word and bytes again. -/
theorem leBytes_word {bs : Bytes} (h : bs.length = 8) : leBytes 8 (BitVec.ofNat 64 (leNat bs)).toNat = bs := by
  have hlt := leNat_lt bs
  rw [h] at hlt
  rw [BitVec.toNat_ofNat, Nat.mod_eq_of_lt hlt, ← h, leBytes_leNat]

theorem sramRead_word {c : Fin 64} {off : BitVec 25} {s : State} (h : AlignedWord c off.toNat)
    (h0 : s.faults.inj0.armed = false) (h1 : s.faults.inj1.armed = false) (he : s.sramErr.look (sramWordAt c off.toNat) {} = {})
    (hp : s.poisoned (sramAt c off.toNat / 64) = false) (hr : s.inRowCache (sramAt c off.toNat) = false) :
    exec (.sramReadRequest c .bring off 8) s = .next (s.onStore c fun x =>
      { x with lastRead := s.bytes (sramAt c off.toNat) 8, lastBad := false }) := by
  have hword := State.sramWord_clean h0 h1 he (h.addr.symm ▸ hp) none false
  rw [h.addr, State.sramRaw_of_scratch hr] at hword
  have hwhole : ((s.bytes (sramAt c off.toNat) 8 ++ []).drop 0).take 8 = s.bytes (sramAt c off.toNat) 8 := by
    rw [List.append_nil, List.drop_zero, List.take_of_length_le (Nat.le_of_eq (s.bytes_length _ 8))]
  have hgran : s.rdGran (s.sramWho c .bring) (sramAt c off.toNat) 8 = (s, ⟨s.bytes (sramAt c off.toNat) 8, none, false⟩) := by
    simp only [State.rdGran, h.zone, h.rel_div, h.rel_last_div, h.mod, Nat.add_sub_cancel_left, sramWords, State.sramWho, hword,
      leBytes_word (s.bytes_length _ 8)]
    exact congrArg (fun d => (s, (⟨d, none, false⟩ : Rd))) hwhole
  have hread : rdGrans (s.sramWho c .bring) (cutGran (8 / 64 + 2) (sramBase + 0x2000000 * c.val + off.toNat) 8) s =
      (s, ⟨s.bytes (sramAt c off.toNat) 8, none, false⟩) := by
    refine (congrArg (rdGrans _ · s) h.cut).trans ?_
    simp [rdGrans, hgran]
  change execSramReadRequest c .bring off 8 s = _
  simp only [execSramReadRequest, h.bring_may, hread]
  rfl

/-! ## Rewrites and scrubs (R215, R217) -/

/-- A rewrite keeps every byte outside its word. -/
theorem State.sramFixWord_byte (s : State) {w : Nat} (f : WordErr) {b : Nat} (h : b < sramBase + 8 * w ∨ sramBase + 8 * w + 8 ≤ b) :
    (s.sramFixWord w f).byte b = s.byte b := by
  have hstore (bs : Bytes) (hbs : bs.length = 8) : (s.store (sramBase + 8 * w) bs).byte b = s.byte b := by
    rw [State.store_byte, hbs, if_neg (by omega)]
  exact hstore _ (by split <;> simp)

theorem sramCorrectionRewrite_next {c : Fin 64} {s : State} {w : Nat} {f : WordErr}
    (h : s.sramFix.find? (fun q => q.1 / 0x400000 == c.val) = some (w, f)) :
    exec (.sramCorrectionRewrite c) s = .next (s.sramFixWord w f) := by
  change execSramCorrectionRewrite c s = _
  simp only [execSramCorrectionRewrite, h]

@[simp] theorem State.sramFixWord_cores (s : State) (w : Nat) (f : WordErr) : (s.sramFixWord w f).cores = s.cores := rfl

/-- The scrubbers' positions in a map of cores. -/
def scrubsOf (m : Map CoreSt) (c : Nat) : Nat := (m.look c {}).store.scrubPos

@[simp] theorem State.onStore_scrubs (s : State) (c : Nat) {f : Store → Store} (h : ∀ x, (f x).scrubPos = x.scrubPos) :
    scrubsOf (s.onStore c f).cores = scrubsOf s.cores := by
  funext d
  change ((s.setCore c { s.core c with store := f (s.core c).store }).core d).store.scrubPos = (s.core d).store.scrubPos
  rw [State.setCore_core]
  split
  · rename_i hd
    rw [hd, h]
  · rfl

@[simp] theorem State.sramWord_scrubs (s : State) (w : Nat) (ctx : Option Nat) (rescue : Bool) :
    scrubsOf (s.sramWord w ctx rescue).1.cores = scrubsOf s.cores := by
  simp only [State.sramWord]
  (repeat' split) <;> simp [-State.onStore_eq]

@[simp] theorem State.scrubWord_scrubs (s : State) (w : Nat) : scrubsOf (s.scrubWord w).cores = scrubsOf s.cores := by
  simp only [State.scrubWord]
  split
  · rfl
  · split <;> simp

/-- The scrub of words leaves every scrubber where it is. -/
theorem scrubWords_scrubPos (l : List Nat) (s : State) (c : Nat) :
    ((l.foldl State.scrubWord s).core c).store.scrubPos = (s.core c).store.scrubPos := by
  have hfold : scrubsOf (l.foldl State.scrubWord s).cores = scrubsOf s.cores := by
    induction l generalizing s with
    | nil => rfl
    | cons w l ih => exact (ih _).trans (s.scrubWord_scrubs w)
  exact congrFun hfold c

theorem sramScrub_next {c : Fin 64} {s : State} (hen : (s.core c).store.scrubEn = true) (hon : (s.core c).store.scrubOn = true) :
    exec (.sramScrub c) s = .next
      (((from_ (0x400000 * c.val + 16 * (s.core c).store.scrubPos) 16).foldl State.scrubWord s).onStore c fun x =>
        { x with scrubPos := (x.scrubPos + 1) % 262144 }) := by
  change execSramScrub c s = _
  simp only [execSramScrub, hen, hon]
  rfl

/-- Settles O20: an aligned word is one store or one clean read, and the other rows are their own branches. -/
theorem sramPortsReadAndWriteTheirBytes : Obligations.SramPortsReadAndWriteTheirBytes := by
  unfold Obligations.SramPortsReadAndWriteTheirBytes
  intro c s
  refine ⟨fun off d hal hd => ?_, fun off hal h0 h1 he hp hr => ?_, fun w f hf => ?_, fun hen hon => ?_, fun hoff => ?_,
    fun a off n hno => ?_, fun a off d hno => ?_⟩
  · have hword := alignedWord c hal
    refine ⟨_, sramWrite_word hword hd s, fun i hi => ?_, fun b hb => ?_, ?_, rfl⟩
    · rw [State.store_byte, hd, if_pos (by simp only [sramAt, sramBase]; omega)]
      exact congrArg (d.getD · 0) (Nat.add_sub_cancel_left ..)
    · rw [State.store_byte, hd, if_neg (by simp only [sramAt, sramBase]; omega)]
      rfl
    · rw [hword.number]
      exact Map.look_del_same ..
  · have hword := alignedWord c hal
    refine ⟨_, sramRead_word hword h0 h1 (hword.number ▸ he) hp hr, ?_⟩
    rw [State.onStore_eq, State.setCore_core_at]
    exact ⟨s.bytes_eq .., rfl, rfl, fun d hd => s.setCore_core_other c _ hd⟩
  · refine ⟨_, sramCorrectionRewrite_next hf, Map.look_del_same .., fun q hq => ?_, fun b hb => s.sramFixWord_byte f hb, rfl⟩
    simpa using (List.mem_filter.1 hq).2
  · refine ⟨_, sramScrub_next hen hon, ?_⟩
    rw [State.onStore_eq, State.setCore_core_at, scrubWords_scrubPos]
  · change execSramScrub c s = _
    simp only [execSramScrub]
    exact if_pos (by simpa using hoff)
  · change execSramReadRequest c a off n s = _
    simp only [execSramReadRequest]
    exact if_pos (by simp [hno])
  · change execSramWriteRequest c a off d s = _
    simp only [execSramWriteRequest]
    exact if_pos (by simp [hno])

end Sys2Proof.Machine
end

/-!
# Packets on the quarter fabrics (O21)

A packet enters, moves or arrives by one change of the fabric. Each of `Fabric.enter`, `Fabric.move` and the arrival has one lemma for
each way that it goes.
-/

section
namespace Sys2Proof.Machine

/-! ## Entering (R228, R230) -/

/-- A new packet at its source's input (R225). -/
def Fabric.newPacket (f : Fabric) (cls : Nat) (src dst : Attach) (bytes : Nat) : FPacket :=
  ⟨f.next, cls, src, dst, bytes, attachHop src, attachInput src, true, yetToCross (attachHop src) dst⟩

/-- The fabric with a new packet on the wire to its source's router, and the responses then owed. -/
def Fabric.entered (f : Fabric) (cls : Nat) (src dst : Attach) (bytes : Nat) (owed : List Owed) : Fabric :=
  { f with packets := f.packets ++ [f.newPacket cls src dst bytes], next := f.next + 1, owed := owed }

/-- A packet that may not enter: without bytes, of a class its ends may not use, or without room at its source's input. -/
def Fabric.turnsAway (f : Fabric) (cls : Nat) (src dst : Attach) (bytes : Nat) : Bool :=
  bytes = 0 || !classFits cls src dst || !f.room (attachHop src) (attachInput src) cls bytes (yetToCross (attachHop src) dst)

section
variable {f : Fabric} {cls : Nat} {src dst : Attach} {bytes : Nat} (resp : Nat)

theorem Fabric.enter_refused (h : f.turnsAway cls src dst bytes = true) : f.enter cls src dst bytes resp = f :=
  if_pos h

theorem Fabric.enter_request (h : f.turnsAway 4 src dst bytes = false) :
    f.enter 4 src dst bytes resp =
      f.entered 4 src dst bytes (f.owed ++ [{ req := f.next, src := src, dst := dst, bytes := resp }]) :=
  if_neg (Bool.eq_false_iff.1 h)

theorem Fabric.enter_response {o : Owed} (h : f.turnsAway 2 src dst bytes = false) (ho : f.answers src dst bytes = some o) :
    f.enter 2 src dst bytes resp =
      f.entered 2 src dst bytes (updFirst (fun x => x.req = o.req) (fun x => { x with reply := some f.next }) f.owed) := by
  refine (if_neg (Bool.eq_false_iff.1 h)).trans ?_
  simp only [ho]
  rfl

theorem Fabric.enter_other (h : f.turnsAway cls src dst bytes = false) (h2 : cls ≠ 2) (h4 : cls ≠ 4) :
    f.enter cls src dst bytes resp = f.entered cls src dst bytes f.owed := by
  refine (if_neg (Bool.eq_false_iff.1 h)).trans ?_
  split
  · exact absurd rfl h4
  · exact absurd rfl h2
  · rfl

end

theorem fabricPacketSend_new {s : State} {cls : Fin 5} {src dst : Attach} {bytes resp : Nat} {g : Fabric}
    (h : s.fabric.enter cls src dst bytes resp = g) :
    exec (.fabricPacketSend (.new cls src dst bytes resp)) s = .next { s with fabric := g } := by
  rw [← h]
  rfl

/-- Where no earlier element satisfies the test, the element that does is the one changed. -/
theorem updFirst_append_cons {α : Type} {p : α → Bool} (f : α → α) {l r : List α} {a : α} (hl : ∀ x ∈ l, p x = false)
    (ha : p a = true) : updFirst p f (l ++ a :: r) = l ++ f a :: r := by
  induction l with
  | nil => exact if_pos ha
  | cons x l ih =>
    rw [List.cons_append, updFirst, if_neg (by simp [hl x]), ih fun y hy => hl y (List.mem_cons_of_mem _ hy)]
    rfl

/-- Elements that do not satisfy the test stay. -/
theorem mem_updFirst {α : Type} {p : α → Bool} (f : α → α) {l : List α} {a : α} (ha : a ∈ l) (hp : p a = false) :
    a ∈ updFirst p f l := by
  induction l with
  | nil => exact ha
  | cons x l ih =>
    rw [updFirst]
    rcases List.mem_cons.1 ha with rfl | ha
    · simp [hp]
    · split
      · exact List.mem_cons_of_mem _ ha
      · exact List.mem_cons_of_mem _ (ih ha)

/-- Requests have distinct packets, so that the response's mark goes to the request it answers. -/
theorem updFirst_req {before after : List Owed} {o : Owed} (h : ((before ++ o :: after).map (·.req)).Nodup) (f : Owed → Owed) :
    updFirst (fun x => x.req = o.req) f (before ++ o :: after) = before ++ f o :: after := by
  refine updFirst_append_cons f (fun x hx => decide_eq_false fun heq => ?_) (decide_eq_true rfl)
  rw [List.map_append, List.map_cons] at h
  exact (List.nodup_append.1 h).2.2 _ (List.mem_map_of_mem hx) _ List.mem_cons_self heq

/-! ## Moving (R226, R230) -/

/-- A packet on the wire to the next place of its route. -/
def FPacket.onward (p : FPacket) : FPacket :=
  { p with
    at_ := (nextHop p.at_ p.dst).1, inp := (nextHop p.at_ p.dst).2, wire := true
    outward := yetToCross (nextHop p.at_ p.dst).1 p.dst }

/-- The oldest held packet of a packet's input, class and sub-channel. -/
def Fabric.oldestHeld (f : Fabric) (p : FPacket) : Option FPacket :=
  f.packets.find? fun o => o.at_ = p.at_ && o.inp = p.inp && o.cls = p.cls && o.outward = p.outward && !o.wire

section
variable {f : Fabric} {p : FPacket} (hw : p.wire = false) (hi : p.inp ≠ 10) (hp : f.oldestHeld p = some p)
include hw hi hp

theorem Fabric.move_hop (hn : (nextHop p.at_ p.dst).2 ≠ 10)
    (hr : f.room (nextHop p.at_ p.dst).1 (nextHop p.at_ p.dst).2 p.cls p.bytes (yetToCross (nextHop p.at_ p.dst).1 p.dst) = true) :
    f.move p = { f with packets := (f.packets.filter fun o => o.id != p.id) ++ [p.onward] } := by
  rw [Fabric.oldestHeld] at hp
  simp [Fabric.move, hw, hi, hp, hn, hr, FPacket.onward]

theorem Fabric.move_sink (hn : (nextHop p.at_ p.dst).2 = 10) (hs : f.sinks p = true) :
    f.move p = { f with
      packets := (f.packets.filter fun o => o.id != p.id) ++ [p.onward]
      owed := updFirst (fun x => x.req = p.id) (fun x => { x with taken := true }) f.owed } := by
  rw [Fabric.oldestHeld] at hp
  simp [Fabric.move, hw, hi, hp, hn, hs, FPacket.onward]

end

theorem fabricPacketSend_held {id : Nat} {p : FPacket} {s : State} (h : s.fabric.packets.find? (fun p => p.id = id) = some p) :
    exec (.fabricPacketSend (.held id)) s = .next { s with fabric := s.fabric.move p } := by
  change execFabricPacketSend (.held id) s = _
  simp only [execFabricPacketSend, h]

theorem nextHop_of_quarter {h : Hop} {dst : Attach} (hq : h.quarter = (attachHop dst).quarter) (hne : h ≠ attachHop dst) :
    nextHop h dst = meshStep h (attachHop dst) := by
  simp [nextHop, hq, hne]

theorem meshStep_x {h t : Hop} (hx : h.x < t.x) : meshStep h t = ({ h with x := h.x + 1 }, 1) := if_pos hx

theorem meshStep_y {h t : Hop} (hx : h.x = t.x) (hy : h.y < t.y) : meshStep h t = ({ h with y := h.y + 1 }, 3) := by
  simp [meshStep, hx, hy]

/-! ## Arriving (R226, R230) -/

section
variable {id : Nat} {p : FPacket} {s : State} (h : s.fabric.packets.find? (fun p => p.id = id && p.wire) = some p)
  (hp : s.fabric.packets.find? (fun o => o.at_ = p.at_ && o.inp = p.inp && o.cls = p.cls && o.outward = p.outward && o.wire) = some p)
include h hp

theorem fabricPacketArrival_sink (hi : p.inp = 10) :
    exec (.fabricPacketArrival id) s = .next { s with fabric := { s.fabric with
      packets := s.fabric.packets.filter fun o => o.id != id
      owed := s.fabric.owed.filter fun o => o.reply != some id
      delivered := s.fabric.delivered.set p.cls (s.fabric.delivered.look p.cls 0 + 1) } } := by
  change execFabricPacketArrival id s = _
  simp only [execFabricPacketArrival, h, hp]
  rw [if_neg (by simp), if_pos hi]

theorem fabricPacketArrival_router (hi : p.inp ≠ 10) :
    exec (.fabricPacketArrival id) s = .next { s with fabric := { s.fabric with
      packets := (s.fabric.packets.filter fun o => o.id != id) ++ [{ p with wire := false }] } } := by
  change execFabricPacketArrival id s = _
  simp only [execFabricPacketArrival, h, hp]
  rw [if_neg (by simp), if_neg hi]

end

/-! ## A link that fails (R227, R388) -/

/-- A SEV4 of a source that is no unit, against no context, is an alarm in flight and nothing else. -/
theorem State.sev_link (s : State) {src : Nat} (h : 120 ≤ src) (cause : Byte) :
    s.sev src 4 cause none = { s with faults := { s.faults with
      flight := s.faults.flight ++
        [{ src := src, sev := 4, cause := cause, ctx := none, part := none, dry := s.faults.noCredit src }] } } := by
  have hsrc : ¬src < 120 := Nat.not_lt.2 h
  simp [State.sev, State.raise, hsrc]

/-- Settles O21: each row is the change of the fabric that its lemma states, and a link's failure one alarm. -/
theorem fabricPacketsFollowFixedRoutes : Obligations.FabricPacketsFollowFixedRoutes := by
  unfold Obligations.FabricPacketsFollowFixedRoutes
  intro s f
  refine ⟨fun cls src dst bytes resp hb hfit hroom => ?_, fun cls src dst bytes resp hno => ?_,
    fun id p hf hw hi hp hn hr => ?_, fun id p hf hw hi hp hn hs => ?_, fun h dst hq hne => ?_, fun id p hf hp => ?_, fun d => ?_⟩
  · have hin : f.turnsAway cls src dst bytes = false := by simp [Fabric.turnsAway, hb, hfit, yetToCross, hroom]
    refine ⟨fun h2 h4 => ?_, fun h4 => ?_, fun before o after h2 howed hdup ho => ?_⟩
    · exact fabricPacketSend_new (Fabric.enter_other resp hin (fun hc => h2 (Fin.ext hc)) (fun hc => h4 (Fin.ext hc)))
    · subst h4
      exact fabricPacketSend_new (Fabric.enter_request resp hin)
    · subst h2
      have hmark := updFirst_req (howed ▸ hdup) fun x => { x with reply := some f.next }
      exact fabricPacketSend_new ((Fabric.enter_response resp hin ho).trans (by rw [howed, hmark]; rfl))
  · have hout : f.turnsAway cls src dst bytes = true := by simpa [Fabric.turnsAway, yetToCross, or_assoc] using hno
    exact fabricPacketSend_new (Fabric.enter_refused resp hout)
  · obtain rfl : p.id = id := by simpa using List.find?_some hf
    rw [fabricPacketSend_held hf, Fabric.move_hop hw hi hp hn hr]
    rfl
  · obtain rfl : p.id = id := by simpa using List.find?_some hf
    refine ⟨_, fabricPacketSend_held hf, ?_⟩
    rw [Fabric.move_sink hw hi hp hn hs]
    refine ⟨rfl, List.mem_append_right _ ?_, fun o ho hne => mem_updFirst _ ho (decide_eq_false hne)⟩
    rw [List.mem_singleton, FPacket.onward, hn]
  · rw [nextHop_of_quarter hq hne]
    exact ⟨meshStep_x, meshStep_y⟩
  · by_cases hi : p.inp = 10
    · refine ⟨_, fabricPacketArrival_sink hf hp hi, rfl, fun _ => ⟨Map.look_set_same .., fun o ho => ?_, fun o => ?_⟩,
        fun hne => absurd hi hne⟩
      · simpa using (List.mem_filter.1 ho).2
      · simp [f]
    · refine ⟨_, fabricPacketArrival_router hf hp hi, rfl, fun heq => absurd heq hi, fun _ => ⟨?_, rfl⟩⟩
      exact List.mem_append_right _ (List.mem_singleton_self _)
  · refine ⟨_, congrArg Host.Outcome.next (s.sev_link (by omega) 0x0E), ⟨_, rfl⟩, rfl⟩

end Sys2Proof.Machine
end
